-- ==== Sys2Proof/Word.lean ====
section
/-! DEFINITION. The word types of the IY940 (00_scope.md, "Registers and structures"; R9). -/

namespace Sys2Proof

/-- A byte of any memory of the device or of the host. -/
abbrev Byte := BitVec 8

/-- A set-up register, a descriptor word or an FP32 pattern (R9). -/
abbrev Word := BitVec 32

/-- A 64-bit quantity: two consecutive 32-bit words, low word first (R9). -/
abbrev DWord := BitVec 64

/-- A core set of 160 bits, bit `c` naming core `c` (R413). -/
abbrev CoreSet := BitVec 160

end Sys2Proof
end

