-- ==== Sys2Proof/Syntax.lean ====
section
/-! DEFINITION. The commands, events and instructions the device takes: one constructor of `Instr` per row of
spec/opcode_table.json, with the operands that the outside world (host, pins, partner, tile program, environment) supplies. -/

namespace Sys2Proof

/-- What the host has set by configuration requests and the link has trained to (R395): the number of VFs enabled, the masked
vectors of the MSI-X tables as function and vector, and bits [5:0] of HIF_STATUS (Table 14-19). -/
structure HostConfig where
  vfs   : Nat
  masks : List (Nat × Nat)
  link  : Nat
  deriving DecidableEq, Repr

/-- What the host has written to its own memory since the device last looked (R408), the address ranges `lo` to `hi - 1` of host
memory whose accesses fail from now on (R429, R430), and what it has configured since, if anything. -/
structure HostDelta where
  writes  : List (Nat × List Byte)
  failing : List (Nat × Nat)
  config  : Option HostConfig
  deriving DecidableEq, Repr

/-- What the environment did to one engine instruction: the cycles of each stall (their number is timing, which the
model does not compute), and the memory errors its reads met (R133, R293, R297, R300). -/
structure Upset where
  /-- ME cycles stalled on the expansion queue (R132). -/
  xqStall  : Nat
  /-- ME cycles stalled on the finished-tile queue (R131); VE cycles waiting on it (R191). -/
  ftqStall : Nat
  /-- ME cycles stalled on the Lacing-unit queue (R130). -/
  luqStall : Nat
  /-- ME cycles waiting for the gate pipeline (R125). -/
  gpWait   : Nat
  /-- Cycles a reverse scan yielded to forward entries (R159). -/
  revWait  : Nat
  /-- Cycles the issue was held by the scoreboard or a window (R275, R283). -/
  sbHold   : Nat
  /-- Cycles the issue was held for bank separation (R273). -/
  bankHold : Nat
  /-- The core that owns the slice of each corrected SPM row met: each is a 2-cycle stall of that core (R133, R297). -/
  spmCe    : List Nat
  /-- Stacks on which a single-bit HBM error was corrected, one entry per error (R293). -/
  hbmCe    : List Nat
  /-- A consumed tile whose checksum differs from its tag: its device address and the checksum computed (R300). -/
  badTile  : Option (Nat × Word)
  /-- An uncorrectable read: 1 SPM, 2 HBM, 3 CXL poison (Table 16-2), with its device address. -/
  uncorr   : Option (Nat × Nat)
  /-- Pieces of the instruction that are done when the next command comes, where that command finds it in flight (R193, R223,
  R261); none for an instruction that runs to its end before. -/
  cut      : Option Nat
  deriving DecidableEq, Repr

/-- An instruction that met no stall and no error. -/
def Upset.clean : Upset :=
  ⟨0, 0, 0, 0, 0, 0, 0, [], [], none, none, none⟩

/-- What the Saddler's firmware takes where its rules leave several equally good choices (R24, R55, R382, R383): a group number, a beat
offset and slot, a die, and the die-pair byte offset of the stream's home (R341). -/
structure Placement where
  group  : Nat
  offset : Nat
  slot   : Nat
  die    : Nat
  home   : Nat
  deriving DecidableEq, Repr

/-- What the tile program of one row leaves at a chunk end: its output bytes and their kind (Table 14-14). -/
structure RowOutput where
  okind : Nat
  bytes : List Byte
  deriving DecidableEq, Repr

/-- The measured use of a job at its end (Tables 13-6, 13-7): counters 0 to 11 of the accounting. -/
structure Usage where
  counts : List Nat
  deriving DecidableEq, Repr

/-- What a chunk end reports: the Cinch time of the end, the cycles of the last core (R377), one output per launch
row, the tiles of each row's record the program changed beyond tile 0 (notes/assumptions/126.md), the measured use, and the memory errors that the reads
of the chunk end met. -/
structure ChunkReport where
  time    : Nat
  cycles  : Nat
  outputs : List RowOutput
  touched : List (List Nat)
  usage   : Usage
  errors  : Upset
  deriving DecidableEq, Repr

/-- What one row asks of the pages at a token-step boundary (R227). -/
structure TokenRow where
  /-- Launch row. -/
  row    : Nat
  /-- The sequence of the previous step left (step 1). -/
  leaves : Bool
  /-- Pages the running sequence needs now: kind, format and shape codes of Table 8-4 and first position (step 2). -/
  needs  : List (Nat × Nat × Nat × Nat)
  /-- First pages of a sequence that joins (step 3); empty when none joins. -/
  joins  : List (Nat × Nat × Nat × Nat)
  /-- Cached-prefix pages the joining sequence references (Table 8-5). -/
  shared : List Nat
  /-- Tokens appended to the pages the row writes: page number and new FILLN (R203). -/
  appends : List (Nat × Nat)
  deriving DecidableEq, Repr

/-- The values the partner sends in the exchange of R438. -/
structure PartnerInfo where
  deviceId  : Nat
  variant   : Nat
  period    : Nat
  epoch     : Nat
  started   : Bool
  master    : Bool
  proto     : Nat
  openIds   : List Nat
  /-- Partitions of the partner that are started, with the bytes free in their mirror pools. -/
  pools     : List (Nat × Nat)
  deriving DecidableEq, Repr

namespace Machine

/-- The AFE parameter block (Table 14-8), in its encodings. -/
structure AfeParams where
  rate : Nat
  bins : Nat
  nfft : Nat
  wshape : Nat
  wlen : Nat
  hop : Nat
  alpha : Nat
  opts : Nat
  loge : Nat
  oelem : Nat
  flow : Nat
  fhigh : Nat
  deriving DecidableEq, Repr

end Machine

/-- The mirror descriptor of R446. -/
structure MirrorDesc where
  group    : Nat
  part     : Nat
  main     : Nat
  fb       : Option Nat
  inkind   : Nat
  source   : Option Nat
  cadence  : Nat
  offset   : Nat
  budget   : Nat
  prio     : Nat
  fbMode   : Bool
  fbCount  : Nat
  layout   : Nat
  tiles    : Nat
  afeUnits : Nat
  freeze   : Bool
  /-- What the open fixed of the stream's input (R88, R105): input rate, sample format, AFE parameters and longest chunk. -/
  rate     : Nat
  sfmt     : Nat
  params   : Machine.AfeParams
  maxLen   : Nat
  deriving DecidableEq, Repr

/-- A page that travels with a hand-off: what its table entry says of it, and its sealed tokens raw (R254, R446). -/
structure MirrorPage where
  kind   : Nat
  fmt    : Nat
  shape  : Nat
  p0     : Nat
  sealn  : Nat
  writer : Option Nat
  bytes  : List Byte
  deriving DecidableEq, Repr

/-- One hand-off (R446): the stream's SEQ, descriptor, changed tiles and the pages that travel with it. -/
structure HandoffMsg where
  stream : Nat
  seq    : Nat
  desc   : MirrorDesc
  tiles  : List (Nat × List Byte)
  pages  : List (Nat × MirrorPage)
  deriving DecidableEq, Repr

/-- A partner access that arrives over the Rein link (R445): read or write, the issuing core's partition, the device
address in this device's spaces 0 to 2, and the bytes (of a write) or their number (of a read). -/
structure PartnerReq where
  write : Bool
  part  : Nat
  addr  : Nat
  len   : Nat
  bytes : List Byte
  deriving DecidableEq, Repr

/-- One sample of the power monitors (R520): energy of the sample in µJ, and the 1 ms averages in W of the device and
of each die (compute and base). The average over PWR_WINDOW follows. -/
structure PowerReading where
  energy : Nat
  now    : Nat
  avg    : Nat
  dies   : List Nat
  /-- A whole millisecond of capping has passed with this sample (R522). -/
  capMs  : Bool
  deriving DecidableEq, Repr

/-- The SPDM transports of R494. -/
inductive Transport where
  | doe
  | sideband
  deriving DecidableEq, Repr

/-- A record move that placement decides by itself (R356, Table 12-5). -/
inductive PlacedMove where
  | swapOut
  | demote
  | promote
  | rehome
  deriving DecidableEq, Repr

/-- The endorsement of SET_OWNER (R488): identifier, epoch and key, with the signatures the message carries. -/
structure Endorsement where
  deviceId : Nat
  epoch    : Nat
  ownerPk  : List Byte
  vcert    : List Byte
  vsig     : List Byte
  ownerSig : List Byte
  deriving DecidableEq, Repr

/-- The manifest body of R487 in its fields, with its certificate and signature. -/
structure ManifestMsg where
  magic    : Nat
  version  : Nat
  svn      : Nat
  deviceId : Nat
  variant  : Nat
  dieEn    : BitVec 10
  stackEn  : BitVec 20
  vcert    : List Byte
  vsig     : List Byte
  deriving DecidableEq, Repr

/-- The commands. `g` is a ring group and `d` the ring index of a descriptor of it that the device has fetched; `core`
is a core number; `f` is a PCIe function, 0 the PF and n VF n; `w` is an instruction word. -/
inductive Instr where
  -- command ring (Table 14-6)
  | cmdOpen (g d : Nat) (pl : Placement)
  | cmdClose (g d : Nat)
  | cmdPause (g d : Nat)
  | cmdResume (g d : Nat)
  | cmdReset (g d : Nat)
  | cmdStreamCtl (g d : Nat)
  | cmdQuery (g d : Nat)
  | cmdStateRead (g d : Nat) (u : Upset)
  | cmdStateWrite (g d : Nat)
  | cmdModelLoad (g d : Nat)
  | cmdModelUnload (g d : Nat)
  | cmdGroupCtl (g d : Nat)
  | cmdWeightPin (g d : Nat)
  | cmdPrefix (g d : Nat)
  | cmdSkvCtl (g d : Nat)
  | cmdRegionPin (g d : Nat)
  | cmdWindow (g d : Nat)
  | cmdTensorMove (g d : Nat) (row : Nat) (u : Upset)
  | cmdNop (g d : Nat)
  -- chunk and output rings, doorbells, moderation
  | chunk (g d : Nat)
  | outputBuffer (g d : Nat)
  | hifKick (f g : Nat)
  | doorbellFetch (g : Nat) (host : HostDelta)
  | moderationTimer (g : Nat) (event : Bool)
  -- instructions of the control core
  | mma (core : Nat) (w : BitVec 128) (u : Upset)
  | gpload (core : Nat) (slot row : Nat) (u : Upset)
  | lscanForward (core : Nat) (w : BitVec 64) (u : Upset)
  | lscanReverse (core : Nat) (w : BitVec 64) (u : Upset)
  | attScore (core : Nat) (w : BitVec 64) (u : Upset)
  | attValue (core : Nat) (w : BitVec 64) (u : Upset)
  | attExpand (core : Nat) (w : BitVec 64) (u : Upset)
  | vmap (core : Nat) (w : BitVec 128) (u : Upset)
  | vred (core : Nat) (w : BitVec 128) (u : Upset)
  | vcpr (core : Nat) (w : BitVec 128) (u : Upset)
  | vxpn (core : Nat) (w : BitVec 128) (u : Upset)
  | vperm (core : Nat) (w : BitVec 128) (u : Upset)
  | vqpop (core : Nat) (w : BitVec 64) (u : Upset)
  | vsload (core : Nat) (w : BitVec 64) (u : Upset)
  | vtload (core : Nat) (w : BitVec 64) (u : Upset)
  | vbrel (core : Nat) (w : BitVec 64) (u : Upset)
  | skx (core : Nat) (w : BitVec 64) (u : Upset)
  | skc (core : Nat) (w : BitVec 64) (hostWritten : Bool) (u : Upset)
  | dmov (core : Nat) (w : BitVec 64) (u : Upset)
  | dtens (core : Nat) (w : BitVec 64) (u : Upset)
  | wopen (core : Nat) (w : BitVec 64) (u : Upset)
  | wclose (core : Nat) (w : BitVec 64) (u : Upset)
  | timeRead (core : Nat) (sreg : Nat)
  | illegalOp (core : Nat) (w : BitVec 64)
  -- watchdogs and the Saddler's own events
  | coreProgressWatchdog (core : Nat)
  | beatServiceWatchdog (beat : Nat)
  | beatBoundary (beat : Nat)
  | launchDecision (grp beat : Nat)
  | wakeIssue (grp : Nat)
  | coreArmed (core : Nat) (u : Upset)
  | coreStateEntryDone (core : Nat)
  | tick (grp : Nat)
  | lateStrobe (grp : Nat) (time : Nat)
  | heldDispatch (grp : Nat) (time : Nat)
  | switchComplete (grp : Nat) (time : Nat)
  | jobResume (grp : Nat) (time : Nat)
  | ageInterval (job : Nat)
  | chunkEnd (grp : Nat) (rep : ChunkReport)
  | tokenStepBoundary (grp : Nat) (rows : List TokenRow) (frames : List Nat) (u : Upset)
  | kvEvictionDone (page : Nat) (frame : Nat) (u : Upset)
  | openInitDone (id : Nat)
  | closeReleaseDone (id : Nat)
  -- audio front-end
  | afeConversionStart (id : Nat)
  | afeConversionDone (id : Nat)
  -- record moves, model loads, cached prefixes
  | recordMoveStart (id : Nat) (dst : Nat)
  | fillDone (id : Nat) (u : Upset)
  | swapOutDone (id : Nat) (u : Upset)
  | demotionDone (id : Nat) (u : Upset)
  | promotionDone (id : Nat) (u : Upset)
  | rehomingDone (id : Nat) (u : Upset)
  | mirrorReadDone (id : Nat) (u : Upset)
  | modelLoadDone (slot : Nat)
  | modelUnloadDone (slot : Nat)
  | prefixDone (pfx : Nat) (pages : List Nat)
  -- apertures and registers
  | bar2Read (off len : Nat) (u : Upset)
  | bar2Write (off : Nat) (bytes : List Byte)
  | partnerAccess (r : PartnerReq) (u : Upset)
  | lowWordRead (f off size : Nat)
  | registerWrite (f off size : Nat) (value : DWord)
  | cinSet (f : Nat) (value : DWord)
  | cinOffsetAdj (f : Nat) (value : Word)
  | cinRateAdj (f : Nat) (value : Word)
  | cinMode (f : Nat) (value : Word)
  | deviceStart (f : Nat) (value : Word)
  | partitionStart (f p : Nat)
  | partitionReset (f p : Nat)
  | partitionResetDone (p : Nat)
  | ringGroupEnable (f : Nat) (value : Word)
  | sdlAccSel (f : Nat) (value : Word)
  | kprSel (f : Nat) (seq : DWord)
  | snap (f : Nat)
  | corSrSeed (f core : Nat) (value : DWord)
  | pairEnable (f : Nat) (value : Word)
  | pairLeave (f : Nat) (value : Word)
  | rnlTakeover (f : Nat) (value : Word)
  | handback (f : Nat) (value : Word)
  | handoverSend
  | handoverReceived (g : Nat)
  | brdFlashAddr (f : Nat) (value : Word)
  | brdFlashData (f n : Nat) (value : Word)
  | activate (f : Nat)
  | pwrResetCold (f : Nat)
  | pwrResetWarm (f : Nat)
  -- time sources
  | syncPpsEdge (falling : Bool) (stamp : Nat)
  | ppsLost
  | refclkTLost
  | refclkTRelock
  | holdoverSecond
  | refclkMLost
  | refclkMReturn
  | tackCalibration
  -- the Rein link
  | bundleTrained (b : Nat)
  | bundleRetrain (b : Nat)
  | flitReplay (b : Nat)
  | pairExchange (p : PartnerInfo)
  | heartbeatSend
  | heartbeat (pairState : Nat) (started : Bool) (time service delay : Nat)
  | linkSilence
  | sidebandSilence
  | faultFlit
  | downFlit
  | fence
  | leave
  | openIdConfirm (id part tiles : Nat)
  | handoff (h : HandoffMsg)
  | handoffCommitted (id seq : Nat)
  | mirrorDropNotice (p : Nat)
  -- CXL, Keeper, power and reset
  | cxlPortTrained (port width speed : Nat) (capacity : Nat) (ide : Bool) (chain : List Byte)
  | cxlDown (port : Nat)
  | keeperCommitStart
  | keeperCommitDone
  | powerFailEvent
  | brownout (rail : Nat)
  | holdupEnd
  | powerFailRelease
  | vtackApplied
  | vtackRemoved
  | tackOscStable
  | mainRailsLost
  | coldResetRelease (inOrder : Bool)
  | sysRstN
  | perstNAssert
  | sleepEntry
  | perstNRelease
  | hostLinkReset
  | flrPf
  | flrVf (n : Nat)
  | hbmTrainingDone (us : Nat)
  | sidebandClockStop
  | powerSample (r : PowerReading)
  | thermTrip (die : Nat)
  -- Bridle, SPDM and sideband
  | drbgReseed
  | getCertificate (via : Transport) (slot off len : Nat)
  | challenge (via : Transport) (slot : Nat) (nonce : List Byte)
  | getMeasurements (via : Transport) (index : Nat) (signed : Bool) (nonce : List Byte)
  | keyExchange (via : Transport) (slot : Nat) (encap : List Byte)
  | keyUpdate (session : Nat)
  | spdmHeartbeat (session : Nat)
  | setOwner (session : Nat) (e : Endorsement)
  | setManifest (session : Nat) (m : ManifestMsg)
  | ideKmKeyProg (session strm : Nat) (key : List Byte)
  | getIdentity (off len : Nat)
  | getKeeperHead
  | getKeeper (seq : Nat)
  | getBoot
  -- test access port
  | tapReset
  | bypass
  | samplePreload
  | idcode
  | extest
  | extestPulse
  | extestTrain
  | clamp
  | highz
  -- rows added later in the table
  | placementMove (id : Nat) (kind : PlacedMove) (die : Nat)
  | flrReady
  | holdupCharge (ok : Bool)
  | warningTemperature (temps : List Nat)
  | slewComplete
  | idConfirmed (id : Nat) (idFree reserved : Bool)
  | reinHbInTransition
  | sysRstNRelease
  | negotiateAlgorithms (via : Transport)
  | sessionEnd (session : Nat)
  | dynamicAddressAssignment (addr : Nat)
  deriving DecidableEq, Repr

end Sys2Proof
end

