-- ==== Sys2Proof/Decode.lean ====
section
/-! DEFINITION. Bit fields, byte order and table words. The opcode table gives no row any bits, so no word spells a command. -/

namespace Sys2Proof

/-- The unsigned value of the field of `len` bits whose lowest bit is `lo`. -/
def bits {n : Nat} (w : BitVec n) (lo len : Nat) : Nat := (w.toNat >>> lo) % 2 ^ len

/-- The same on a natural number. -/
def nbits (w lo len : Nat) : Nat := (w >>> lo) % 2 ^ len

/-- The signed value of an unsigned field of `len` bits. -/
def signed (len v : Nat) : Int := if v < 2 ^ (len - 1) then (v : Int) else (v : Int) - 2 ^ len

/-- The pattern of `len` bits of a signed value. -/
def unsigned (len : Nat) (v : Int) : Nat := (v % 2 ^ len).toNat

/-- `v` with the field of `len` bits at `lo` replaced by `x`. -/
def setField (v lo len x : Nat) : Nat :=
  v - (nbits v lo len) * 2 ^ lo + (x % 2 ^ len) * 2 ^ lo

/-- Little-endian value of bytes (00_scope.md). -/
def leNat : List Byte → Nat
  | [] => 0
  | b :: bs => b.toNat + 256 * leNat bs

/-- The `n` little-endian bytes of a value. -/
def leBytes : Nat → Nat → List Byte
  | 0, _ => []
  | n + 1, v => BitVec.ofNat 8 v :: leBytes n (v / 256)

/-- `n` values taken from a list that is continued with `d`. -/
def takePad {α : Type} (d : α) : Nat → List α → List α
  | 0, _ => []
  | n + 1, [] => d :: takePad d n []
  | n + 1, x :: xs => x :: takePad d n xs

/-- Consecutive pieces of `n` elements, at most `k` of them. -/
def pieces {α : Type} (n : Nat) : Nat → List α → List (List α)
  | 0, _ => []
  | _ + 1, [] => []
  | k + 1, xs => xs.take n :: pieces n k (xs.drop n)

/-- The 32-bit words of a byte string. -/
def wordsOf (bs : List Byte) : List Word :=
  (pieces 4 (bs.length / 4 + 1) bs).map fun p => BitVec.ofNat 32 (leNat p)

/-- The bytes of 32-bit words. -/
def bytesOfWords (ws : List Word) : List Byte := ws.flatMap fun w => leBytes 4 w.toNat

/-- Least multiple count: `a / b` rounded up. -/
def ceilDiv (a b : Nat) : Nat := (a + b - 1) / b

/-- Eight steps of the reflected CRC-32C of R298. -/
def crcByte (crc : Nat) (b : Byte) : Nat :=
  let step (c : Nat) : Nat := if c % 2 = 1 then (c / 2) ^^^ 0x82F63B78 else c / 2
  step (step (step (step (step (step (step (step (crc ^^^ b.toNat))))))))

/-- The CRC-32C of a byte string (R298). -/
def crc32c (bs : List Byte) : Nat := (bs.foldl crcByte 0xFFFFFFFF) ^^^ 0xFFFFFFFF

/-- No row of the opcode table has bits: no word spells a command. -/
def decodeTableWord (_nbits _w : Nat) : Option Instr := none

end Sys2Proof
end

