-- ==== Sys2Proof/Config.lean ====
section
/-! DEFINITION. What the specification leaves open: uninterpreted constants without a body. Nothing in Lean can evaluate
one or prove a value of it; a statement about the model therefore holds for every value of each of them. -/

namespace Sys2Proof.Config

/-- A value the device holds or draws where the manual states none (notes/assumptions/3.md); the argument is the
counter `State.free`, so that every use is a fresh value. -/
opaque freeValue : Nat → DWord

/-- What a byte of HBM, of the CXL tier or of host memory that nothing has written reads as (R513): the argument is the
reset generation, the address space of Table 10-6 and the address (notes/assumptions/4.md). -/
opaque unwrittenByte : Nat → Nat → Nat → Byte

/-- A byte of the identity region as manufactured (R489): MRAM contents that no command writes. -/
opaque identityByte : Nat → Byte

/-- A byte of the boot flash as delivered: image slot (0 A, 1 B) and offset in the slot (R479). -/
opaque flashByte : Nat → Nat → Byte

/-- The 256-byte manifest body of VERSION, SVN, DEVICE_ID, VARIANT, DIE_EN and STACK_EN (R487 gives no layout). -/
opaque manifestBody : List Nat → List Byte

/-- The next state of a core's random generator (R122). -/
opaque rngNext : DWord → DWord

/-- The random bits a core's generator draws in a state (R121, R122). -/
opaque rngBits : DWord → Nat

/-- The n-th 64-bit value of the Bridle's random source (R491). -/
opaque drbg : Nat → DWord

/-- A gate-pipeline function on a value that is not special: 6 SIG, 7 TANH, 8 EXP, 9 SPLUS (R129 bounds its error). -/
opaque gateFn : Nat → Word → Word

/-- Value and slope (v_k, d_k) of segment k of a fixed look-up table (Table 7-8, R178 to R180). -/
opaque lutPair : Nat → Nat → Word × Word

/-- Cosine and sine of the rotary angle of a 64-bit phase (R216 bounds their error). -/
opaque rotary : DWord → Word × Word

/-- One sample of the front end's resampling filter, whose coefficients the manual leaves to the implementation (Table 4-2): input
and model rate, the input samples kept and those of the window as FP32, and the sample at the model rate. -/
opaque afeResample : Nat → Nat → List Word → Nat → Word

/-- The first n bytes of SHAKE256 over a message (FIPS 202, which the manual cites). -/
opaque shake256 : List Byte → Nat → List Byte

/-- XMSS-SHAKE_20_256 verification of a signature over a message under a public key (RFC 8391, cited by R477). -/
opaque xmssVerify : List Byte → List Byte → List Byte → Bool

/-- The digest of the vendor root key in the mask ROM (R478). -/
opaque romRootDigest : List Byte

/-- The contents of the mask ROM, measured as measurement 1 (Table 17-7). -/
opaque romContents : List Byte

/-- An XMSS^MT signature of a message under a signing index (R492, R493). -/
opaque attSign : Nat → List Byte → List Byte

/-- The ML-KEM-1024 ciphertext the responder returns for an encapsulation key (Table 17-6). -/
opaque mlkemCiphertext : List Byte → Nat → List Byte

/-- Whether the device secret is reconstructed from the PUF at the n-th cold reset (R490). -/
opaque pufReconstructs : Nat → Bool

/-- The local copy's error against CIN_NOW on a die, in ns (R70 bounds it by 1): index 0, 1 or 2 for -1, 0, +1. -/
opaque localSkew : Nat → Nat → Fin 3

/-- The rate trim the device applies after an accepted edge under MODE 1 (R67): the new CIN_RATE_ADJ. -/
opaque ppsTrim : Int → Int → Int

/-- The largest drift of the counter over a stretch of tack holdover (Table 3-1): signed ns, by stretch. -/
opaque holdoverDrift : Nat → Int

end Sys2Proof.Config
end

