-- ==== Sys2Proof/Machine/State.lean ====
section
/-! DEFINITION. The state of the IY940 as plain data, and the state right after reset. -/

namespace Sys2Proof.Machine

open Sys2Proof

/-- No command of the manual stops the device for good: a job fault is fault stop, which is a state (R461, R462).
Safe: nothing is cut off. -/
inductive Fault where
  /-- Raised by no meaning of this model; it stands so that the type is inhabited. Safe. -/
  | neverRaised
  deriving DecidableEq, Repr

/-- Why a command has no meaning: one reason only, and no arm of `exec` gives it once every row has its meaning. -/
inductive Refusal where
  /-- Raised by `exec` alone, for a row of the table that has no meaning in the model. Safe: the run stops there. -/
  | notModelled (mnemonic : String)
  deriving DecidableEq, Repr

/-- A memory: byte cells with strictly rising addresses. An address that is not listed reads as its tier says. -/
abbrev Mem := List Host.Cell

/-- Register values by BAR0 offset, offsets strictly rising; a register that is not listed holds its reset value. -/
abbrev RegFile := List (Nat × DWord)

/-! ### The Cinch timebase (03_cinch_timebase.md) -/

/-- The Cinch counter and the conditions of Table 3-1. -/
structure Timebase where
  /-- CIN_NOW, in ns (R59). -/
  now : Nat
  /-- The 32-bit fractional accumulator (R60), below 2^32. -/
  frac : Nat
  /-- The pending slew in units of 2^-32 ns (R64). -/
  slew : Int
  /-- CIN_PPS_STAMP and CIN_PPS_ERR (R66). -/
  ppsStamp : Nat
  ppsErr : Int
  /-- An edge has been accepted since VTACK or the last cold reset (R66). -/
  ppsSeen : Bool
  /-- Counter value of the last accepted edge, moved with every load, so that `now - edgeRef` is the time elapsed. -/
  edgeRef : Int
  /-- PPS lost (Table 3-1). -/
  ppsLost : Bool
  /-- Consecutive accepted edges within ±50 ns under MODE 1 (R67). -/
  goodRun : Nat
  ppsLocked : Bool
  /-- A CIN_SET load that waits for an edge (R62). -/
  load : Option Nat
  /-- The timebase PLL is locked to REFCLK_T (REF_OK). -/
  refOk : Bool
  holdover : Bool
  /-- The counter advances from the tack oscillator (Table 3-1). -/
  tackHold : Bool
  timeCoarse : Bool
  timeSet : Bool
  pairFollow : Bool
  pairLocked : Bool
  /-- The Rein link is lost to a follower (Table 3-1). -/
  linkLost : Bool
  /-- Tack cycles since the oscillator first became stable (R501). -/
  tackCycles : Nat
  /-- Reference ns not yet turned into a whole tack cycle, in units of 2^-32 ns. -/
  tackFrac : Nat
  deriving DecidableEq, Repr

/-! ### Per-function copies (R532) -/

/-- The selectors, latches and held words of one PCIe function. -/
structure FuncCopy where
  f : Nat
  rgSel : Word
  accSel : Word
  accData : List DWord
  kprSel : DWord
  kprValid : Bool
  kprData : List Byte
  idnSel : Word
  /-- 64-bit reads latched by a low-word read, by offset of the low word (R10). -/
  latches : List (Nat × Word)
  /-- Low words held for a 64-bit write, by offset (R11). -/
  held : List (Nat × Word)
  deriving DecidableEq, Repr

/-! ### Host interface (14_host_rings.md) -/

/-- A fetched descriptor: its ring index, its words, and whether its effect has started. -/
structure Desc where
  didx : Nat
  words : List Word
  started : Bool
  deriving DecidableEq, Repr

/-- An unused output buffer of the pool (R421). -/
structure OutBuf where
  didx : Nat
  tag : Word
  irq : Bool
  addr : Nat
  len : Nat
  deriving DecidableEq, Repr

/-- One ring group: its set-up registers, indices, pending descriptors and moderation (R398 to R409, R428). -/
structure RingGroup where
  num : Nat
  ctrl : Word
  size : Word
  vec : Word
  modr : Word
  dbl : DWord
  bases : List DWord
  stopped : Word
  /-- A doorbell fetch is due: caused by a kick, or by a beat boundary (R406). -/
  kickDue : Bool
  beatDue : Bool
  /-- Fetched indices of rings 0 to 2, 16 bits. -/
  fetched : List Nat
  /-- Producer indices of rings 0 to 2 as last read. -/
  producer : List Nat
  /-- Completions posted on rings 0 to 2 since the group was enabled. -/
  posted : List Nat
  evPosted : Nat
  /-- Consumer index of the event ring as last read. -/
  evConsumer : Nat
  /-- Events discarded since the last entry (R425). -/
  lost : Nat
  /-- Pending counts of the completion and the event vector and the time of the first pending entry (R428). -/
  pendC : Nat
  pendE : Nat
  firstC : Option Nat
  firstE : Option Nat
  cmds : List Desc
  chunks : List Desc
  outs : List Desc
  pool : List OutBuf
  deriving DecidableEq, Repr

/-- One MSI-X vector of a function (R427). -/
structure IntVec where
  f : Nat
  vec : Nat
  masked : Bool
  pendingBit : Bool
  /-- Messages sent. -/
  fired : Nat
  deriving DecidableEq, Repr

/-! ### Partitions, model slots, streams, groups (02, 12, 13) -/

/-- States of Table 13-1. -/
inductive SlotState where
  | empty
  | loading
  | ready
  | unloading
  deriving DecidableEq, Repr

/-- The header of a model image (Table 14-9) and the parts of it the device keeps. -/
structure ImageHdr where
  layout : Nat
  ntiles : Nat
  inkinds : Nat
  step : Nat
  a0 : Nat
  a1 : Nat
  defcad : Nat
  deflen : Nat
  sect : List Word
  afe : AfeParams
  /-- The initial state record: the whole tiles of region 3. -/
  init : List Byte
  /-- The program image of region 0 (copied without interpretation). -/
  program : List Byte
  /-- Weight-table entries: offset, length, format, coded, shard record index plus one, NCOL and w (region 1). -/
  weights : List (List Nat)
  /-- Layer-table entries, 32 bytes each (region 2). -/
  layers : List (List Byte)
  /-- Tokens of the declared cached prefix (region 4). -/
  tokens : List Word
  /-- Bytes of one copy of the weights. -/
  bytes : Nat
  /-- SHAKE256 of the image (Table 17-7). -/
  digest : List Byte
  deriving DecidableEq, Repr

/-- A copy of a model's weights (R288, R364): whole on one die, or split by output columns over the dies of a core set; of each
die, the offset and the bytes in its pool. -/
structure WeightCopy where
  split : Option CoreSet
  pieces : List (Nat × Nat × Nat)
  deriving DecidableEq, Repr

/-- A model slot that is not EMPTY. -/
structure ModelSlot where
  num : Nat
  state : SlotState
  part : Nat
  hdr : ImageHdr
  copies : List WeightCopy
  /-- The command that waits for the load or the unload: ring group and DIDX. -/
  cmd : Option (Nat × Nat)
  /-- Cores whose RESIDENT regions hold the weights by pin (R384). -/
  pin : Option CoreSet
  /-- The image, whose runs of weights every copy holds, and the table generations that its coded copies name (R249). -/
  image : List Byte
  names : List (Nat × Nat)
  deriving DecidableEq, Repr

/-- Stream states of Table 2-2. -/
inductive StreamState where
  | opening
  | parked
  | cold
  | resident
  | armed
  | running
  | paused
  | closing
  deriving DecidableEq, Repr

/-- Record states of Table 12-4. -/
inductive RecState where
  | H
  | C
  | S
  | fillH
  | fillC
  | spill
  | dem
  | pro
  | move
  deriving DecidableEq, Repr

/-- The state record of a stream (R337 to R344). Addresses are device addresses (Table 10-6). -/
structure Record where
  state : RecState
  tiles : Nat
  layout : Nat
  sect : List Word
  /-- Die-pair address of the HBM home; meaningless in C and FILL-C before a home is taken. -/
  home : Option Nat
  die : Nat
  /-- SPM address of the record while it lies, or is being filled, in a record slice. -/
  spm : Option Nat
  /-- Coded CXL extent: address and bytes. -/
  ext : Option (Nat × Nat)
  /-- Home being written by a promotion or a re-homing, and its die. -/
  newHome : Option (Nat × Nat)
  dirty : BitVec 256
  chg : BitVec 256
  /-- The mirroring channel reads a hand-off of the record (R353). -/
  mirRead : Bool
  /-- A header change of a record in C that the Saddler holds (R574). -/
  hdrHeld : Bool
  /-- The home lies in the mirror pool, lent after a promotion (R450). -/
  lent : Bool
  deriving DecidableEq, Repr

/-- A chunk that the device has fetched and not launched (R36, R417). -/
structure Chunk where
  didx : Nat
  tag : Word
  quiet : Bool
  irq : Bool
  buf : Nat
  bytes : Nat
  nch : Nat
  chidx : Nat
  len : Nat
  mark : Option Nat
  time : Nat
  /-- PCM: its feature tiles are being written, and are written (R103). Features and tokens: written at once. -/
  converting : Bool
  ready : Bool
  /-- Half of the input area it holds (R95). -/
  half : Option Nat
  /-- Placement of Table 4-4: flags, δ in µs, start of the window. -/
  flags : Nat
  delta : Int
  ek : Nat
  deriving DecidableEq, Repr

/-- Output that waits for buffers (R424). -/
structure OutWait where
  bytes : List Byte
  okind : Nat
  part : Nat
  lateness : Nat
  time : Nat
  seq : Nat
  flags : Nat
  deriving DecidableEq, Repr

/-- The placement pins of a stream (R57). -/
structure Pins where
  offset : Option Nat
  slot : Option Nat
  group : Option Nat
  home : Option Nat
  cores : Option CoreSet
  deriving DecidableEq, Repr

/-- The audio front-end's part of a stream (R88 to R102). -/
structure AfeStream where
  params : AfeParams
  rate : Nat
  sfmt : Nat
  units : Nat
  die : Nat
  /-- Anchor A and E_k, in ns (R98). -/
  anchor : Option Nat
  ek : Nat
  /-- Converted input samples kept, and the pre-emphasis memory (R96). -/
  hist : List Word
  pre : Word
  chunks : Nat
  deriving DecidableEq, Repr

/-- An open stream (R28): a CLOSED stream is not listed. -/
structure Stream where
  id : Nat
  state : StreamState
  group : Nat
  part : Nat
  rg : Nat
  main : Nat
  fb : Option Nat
  inkind : Nat
  prio : Nat
  adapt : Bool
  freeze : Bool
  source : Option Nat
  cadence : Nat
  offset : Nat
  slot : Nat
  maxLen : Nat
  budget : Nat
  margin : Option Nat
  fbDisabled : Bool
  fbForced : Bool
  fbMode : Bool
  fbCount : Nat
  pins : Pins
  afe : Option AfeStream
  /-- SPM address of the input area (R95) and the two halves in use. -/
  input : Nat
  halves : List Bool
  chunkNo : Nat
  noInput : Nat
  noInputOvf : Bool
  waiting : List Chunk
  /-- A reset command has placed a mark on the next launch (R51). -/
  resetMark : Bool
  seq : Nat
  lastTick : Nat
  nonfinite : Bool
  /-- Pages held, in the order acquired (Table 12-3); `ctx` names those of them that are its source's (Table 8-5). -/
  pages : List Nat
  ctx : List Nat
  /-- Steps held over from the previous chunk (R379). -/
  carriedSteps : Nat
  /-- Source positions sealed that the previous launches of a linked stream covered (R30). -/
  covered : Nat
  /-- Positions the stream has sealed since it opened. -/
  sealed : Nat
  /-- Cinch time of the first step sealed and not yet covered (Table 14-14, TIME). -/
  sealTime : Nat
  /-- The state record. -/
  record : Record
  outQ : List OutWait
  /-- Open command, or pause, resume, close or state command, that waits: opcode, ring group, DIDX. -/
  cmd : Option (Nat × Nat × Nat)
  /-- A launch of this stream is decided and has not ended. -/
  decided : Bool
  /-- Beat of the last launch decision the stream has had. -/
  lastBeat : Option Nat
  /-- Placement keeps the record in the SPM after its chunk (R356). -/
  keep : Bool
  /-- Mirroring (R449): full hand-off committed; hand-offs issued and not committed. -/
  mirrored : Bool
  outHand : Nat
  /-- OPEN waits for the partner's answer (R441). -/
  waitId : Bool
  /-- Completions held under COMMIT_WAIT (R447): SEQ of the chunk, ring, words 0 to 7, and IRQ. -/
  heldComp : List (Nat × Nat × List Word × Bool)
  /-- A hand-back stops its launches (R452). -/
  handback : Bool
  /-- Pages whose references go when the chunk that runs has ended, and whether all self-attention pages go then (R205). -/
  leaving : List Nat
  leaveAll : Bool
  deriving DecidableEq, Repr

/-- A staged copy of a growing page (R204): the page, its SPM device address, and the tokens that the reader sees. -/
structure Staged where
  page : Nat
  addr : Nat
  cnt : Nat
  deriving DecidableEq, Repr

/-- One row of a launch (R41, R374). -/
structure LaunchRow where
  stream : Nat
  len : Nat
  chunk : Option Chunk
  marks : List Nat
  flags : Nat
  deadline : Nat
  held : Nat
  source : Nat
  /-- FREEZE as it stands at the decision (R162). -/
  freeze : Bool
  /-- Time on the input timeline of its output (Table 14-14). -/
  time : Nat
  /-- A reset command has placed a mark at step 0 (R51). -/
  cmdMark : Bool
  /-- Pages of the row's page lists with the SEALN they had at the decision, and the staged copies (R204). -/
  views : List (Nat × Nat)
  /-- Cores over which each attention head of the row is split (R225, R229). -/
  spans : Nat
  staged : List Staged
  /-- A carry-out of the chunk that runs held a NaN or an infinity (R151). -/
  nonfinite : Bool
  deriving DecidableEq, Repr

/-- Where a job stands (R366, R368). -/
inductive JobPhase where
  /-- Decided, before the tick. -/
  | decided
  /-- Its tick has passed and it waits: for its cores, for arming, or for residency. -/
  | waiting
  /-- Its cores are switching to it (R370). -/
  | switching
  | running
  | suspended
  deriving DecidableEq, Repr

/-- The work of Table 13-2 other than record moves. -/
inductive JobKind where
  | launch (grp : Nat)
  | modelLoad (slot : Nat)
  | modelUnload (slot : Nat)
  | prefixComp (pfx : Nat)
  deriving DecidableEq, Repr

/-- A job of the Saddler. -/
structure Job where
  id : Nat
  kind : JobKind
  part : Nat
  base : Nat
  age : Nat
  due : Nat
  phase : JobPhase
  cores : CoreSet
  rows : List LaunchRow
  len : Nat
  beat : Nat
  tick : Nat
  fb : Bool
  /-- Predicted finish (R373). -/
  predicted : Nat
  /-- Cinch time of the first instruction, before it the predicted one; of the start of the aging interval in progress. -/
  start : Nat
  waitFrom : Nat
  /-- The wake has been issued (R77); the strobe waits for arming (R76). -/
  woken : Bool
  lateArm : Bool
  /-- Deferred by capping (R522), counted once. -/
  deferred : Bool
  deriving DecidableEq, Repr

/-- A batch group (R40). -/
structure Group where
  num : Nat
  model : Nat
  part : Nat
  prio : Nat
  cadence : Nat
  offset : Nat
  slot : Nat
  cores : CoreSet
  corePin : Bool
  /-- A core-set pin that takes effect at the next launch decision: the set, ring group and DIDX (R384). -/
  nextCores : Option (CoreSet × Nat × Nat)
  /-- Main group whose rows this companion runs (R376). -/
  companionOf : Option Nat
  /-- Costs that host software has set (R381): a0 and a1. -/
  costs : Option (Nat × Nat)
  /-- History h, 24 integer and 8 fractional bits (R372). -/
  hist : Nat
  deriving DecidableEq, Repr

/-- Kinds of record move (Table 13-2). -/
inductive MoveKind where
  | fill
  | swapOut
  | demote
  | promote
  | rehome
  deriving DecidableEq, Repr

/-- A queued or started record move (R348). -/
structure Move where
  stream : Nat
  kind : MoveKind
  die : Nat
  prio : Nat
  age : Nat
  /-- Tick that the move serves. -/
  due : Option Nat
  queuedAt : Nat
  started : Bool
  /-- Destination of the move: SPM, HBM or CXL device address. -/
  dst : Nat
  /-- Every byte is copied; only the mirroring channel, which still reads the source, holds its end (R353). -/
  copied : Bool
  /-- Queued for a state write (R574), a chunk end, or deferred by capping. -/
  forWrite : Bool
  atEnd : Bool
  deferred : Bool
  deriving DecidableEq, Repr

/-! ### KV pages and Skiver tables (08, 09) -/

/-- A page table entry (Table 8-4) of a page in use; a free page is not listed. -/
structure Page where
  num : Nat
  part : Nat
  tier : Nat
  skv : Bool
  cached : Bool
  nowr : Bool
  kind : Nat
  fmt : Nat
  shape : Nat
  refc : Nat
  filln : Nat
  sealn : Nat
  writer : Nat
  p0 : Nat
  /-- FRAME in 16 KiB units of its tier. -/
  frame : Nat
  /-- Prefix page pinned by PREFIX (R230). -/
  pinned : Bool
  /-- Being evicted to the CXL tier for a waiting append (R227). -/
  evicting : Bool
  /-- The frame lies in the mirror pool, lent after a promotion (R450). -/
  lent : Bool
  /-- Sealed tokens that have been handed to the partner (R446). -/
  sent : Nat
  /-- Model slot whose data it holds (R263). -/
  model : Nat
  /-- The page that it stands for as a copy under R208. -/
  orig : Option Nat
  /-- When its reference count reached zero (R206). -/
  idleSince : Nat
  deriving DecidableEq, Repr

/-- A cached prefix (R229, R230). -/
structure KvPrefix where
  id : Nat
  part : Nat
  slot : Nat
  tokens : List Word
  pages : List Nat
  pinned : Bool
  done : Bool
  /-- Declared by a model's image, and referenced by the streams that join (R229). -/
  declared : Bool
  cmd : Option (Nat × Nat)
  deriving DecidableEq, Repr

/-- One generation of a table slot (R248). -/
structure SkvGen where
  part : Nat
  slot : Nat
  gen : Nat
  ew : Nat
  entries : List Nat
  count : Nat
  deriving DecidableEq, Repr

/-- A table slot's current generation and the model and data class it was given to (R248, R263). -/
structure SkvSlot where
  part : Nat
  slot : Nat
  cur : Option Nat
  owner : Option (Nat × Nat)
  /-- The owner's model has unloaded since (R263). -/
  left : Bool
  lastBuild : Option Nat
  deriving DecidableEq, Repr

/-- Coded tiles that an SKC has stored in HBM or in the CXL tier: device address, bytes, partition, and the slot and generation
that each TABLED block names (R248, R249). -/
structure SkcObject where
  addr : Nat
  len : Nat
  part : Nat
  names : List (Nat × Nat)
  deriving DecidableEq, Repr

/-- A pin of a model's data class (R264, SKV_CTL OP 0). -/
structure SkvPin where
  part : Nat
  model : Nat
  cls : Nat
  mode : Nat
  tslot : Nat
  deriving DecidableEq, Repr

/-! ### Cores and engines (05 to 11, 18, 19) -/

/-- Core power states (Table 18-3), in the encoding of Table 19-9. -/
inductive PState where
  | active
  | armed
  | doze
  | nap
  | deep
  deriving DecidableEq, Repr

/-- A user look-up table (Table 7-9). -/
structure UserTable where
  lo : Word
  invstep : Word
  below : Word
  above : Word
  belowX : Bool
  aboveX : Bool
  pairs : List (Word × Word)
  deriving DecidableEq, Repr

/-- A window descriptor (Table 10-3). -/
structure Window where
  word0 : Word
  word1 : Word
  landed : Nat
  isOpen : Bool
  deriving DecidableEq, Repr

/-- The five kinds of streaming instruction (Table 7-3). -/
inductive VeKind where
  | map | red | cpr | xpn | perm
  deriving DecidableEq, Repr

/-- What the control core issues (R22): the instruction that an opcode selects, with its word or its fields. -/
inductive CoreOp where
  | mma (w : BitVec 128)
  | gpload (slot row : Nat)
  | lscan (w : BitVec 64)
  | att (w : BitVec 64)
  | stream (kind : VeKind) (w : BitVec 128)
  | vqpop (buf : Nat)
  | vsload (slot sreg : Nat)
  | vtload (table sreg : Nat)
  | vbrel (set : Nat)
  | skx (w : BitVec 64)
  | skc (w : BitVec 64) (hostWritten : Bool)
  | dmov (sreg : Nat)
  | dtens (sreg : Nat)
  | wopen (win sreg : Nat)
  | wclose (win : Nat)
  | timeRead (sreg : Nat)
  /-- An opcode that no chapter defines, with the code of its trap (Table 16-3). -/
  | illegal (code : Nat)
  deriving DecidableEq, Repr

/-- The units of a scoreboard (R275); the control core itself declares nothing that stays in flight. -/
inductive EngUnit where
  | me
  | lu (ctx : Nat)
  | ve
  | sk
  | dm
  | cc
  deriving DecidableEq, Repr

/-- A range entry of the scoreboard (R275): first row, number of rows, mode and unit. -/
structure SbEntry where
  first : Nat
  rows : Nat
  write : Bool
  unit : EngUnit
  deriving DecidableEq, Repr

/-- How far an instruction has come: what its progress tile holds when it is cut (R193, R223, R261). -/
structure Progress where
  /-- Element groups, tile operations, blocks, or rows moved. -/
  done : Nat
  /-- Position of a compress or an expand in its repetition (R185, R186). -/
  pos : Nat
  /-- Accumulator of a reduction (R190): FP32, exact integer, best element and its index. -/
  accF : Word
  accI : Int
  best : Option (Word × Nat)
  /-- FP32 sums of the operations done. -/
  sums : List Word
  /-- Bytes taken from, or not yet put into, a queue or an area. -/
  bytes : List Byte
  deriving DecidableEq, Repr

/-- An instruction that the control core has taken up and that has not ended: held at issue, or in flight (R22, R275, R276). -/
structure Flight where
  op : CoreOp
  upset : Upset
  unit : EngUnit
  issued : Bool
  /-- Scalars and descriptor words captured at issue (R141, R173, R209). -/
  sregs : List Word
  words : List Word
  entries : List SbEntry
  prog : Progress
  /-- Its hold has been counted; it has not run yet; it runs no further until the next instruction comes. -/
  held : Bool
  fresh : Bool
  paused : Bool
  deriving DecidableEq, Repr

/-- A channel block of a forward scan context: entries taken, running state, and the pairs of the window in progress. -/
structure LuBlock where
  arrived : Nat
  h : List Word
  window : List (List (Word × Word) × Bool)
  deriving DecidableEq, Repr

/-- A reverse scan (R153 to R155, R160): its place in the order of issue, the entries processed, and of the row and block in
progress the state g, the accumulators G_U and G_V, and the adapters U and V that it started with. -/
structure LuRev where
  order : Nat
  done : Nat
  g : List Word
  gu : List Word
  gv : List Word
  u : List Word
  v : List Word
  /-- It goes no further until the next instruction comes. -/
  paused : Bool
  deriving DecidableEq, Repr

/-- An open scan context (R140) and the areas it has declared (R142). -/
structure LuContext where
  desc : List Word
  blocks : List LuBlock
  rev : Option LuRev
  entries : List SbEntry
  deriving DecidableEq, Repr

/-- The shape of the last MMA (R117). -/
structure AccShape where
  rows : Nat
  live : Nat
  ncol : Nat
  pair : Bool
  deriving DecidableEq, Repr

/-- What a core spills at a pre-emption (R134, R160, R193, R223, R261, R369) and refills when the job resumes (R371): its
scalar registers, the accumulator, the scan contexts, the VE's live buffers, stamp slots and user tables, the instructions
that have not ended with their entries and their progress (R276), the expansion queue and the finished-tile queue, which the
device keeps for it, and the rows of its WORK, STAGE and LAUNCH regions. -/
structure CoreSave where
  sregs : List Word
  acc : List Word
  accShape : Option AccShape
  lu : List (Option LuContext)
  flights : List Flight
  xq : List (List Byte)
  ftq : List Mem
  bufs : List (Mem × Bool)
  stamps : List (Nat × List Word)
  tables : List (Nat × UserTable)
  rows : List (Nat × List Byte)
  deriving DecidableEq, Repr

/-- One core: its scalar registers, engines, windows, regions and power state. -/
structure Core where
  num : Nat
  sregs : List Word
  snap : List Word
  rng : DWord
  /-- Gate program slots 1 to 31 that have been loaded: slot and its words (Table 5-8). -/
  gates : List (Nat × List Word)
  /-- Stamp slots 1 to 15 that have been loaded (Table 7-5). -/
  stamps : List (Nat × List Word)
  tables : List (Nat × UserTable)
  /-- Buffers B0 to B3: their bytes and whether they are live (R192). -/
  bufs : List (Mem × Bool)
  /-- The ME accumulator, row by row. -/
  acc : List Word
  accShape : Option AccShape
  /-- Finished-tile queue, oldest first, each tile as its bytes that are not zero (Table 1-6). -/
  ftq : List Mem
  /-- Expansion queue, oldest row first, 512 bytes each. -/
  xq : List (List Byte)
  lu : List (Option LuContext)
  /-- Queue from the gate pipeline to the Lacing unit, at most eight entries (R130): activation row, channel block, pairs. -/
  luq : List (Nat × Nat × List (Word × Word))
  /-- Activation-row tag of the last entry that trapped (R139). -/
  luTag : Nat
  /-- Instructions that have not ended, in the order of the tile program. -/
  flights : List Flight
  windows : List Window
  regions : List Word
  rgnPins : List Bool
  /-- A REGION_PIN that waits for a moment without a launch: ring group, DIDX, entry, region, clear. -/
  rgnWait : Option (Nat × Nat × Nat × Word × Bool)
  pstate : PState
  entering : Option PState
  waking : Bool
  wakePending : Bool
  job : Option Nat
  susp : Option Nat
  /-- Spill of the suspended job (R369). -/
  saved : Option CoreSave
  /-- Scalar registers that each model's program left on the core, by model slot (R385). -/
  progs : List (Nat × List Word)
  trapAddr : DWord
  /-- The DEEP context in the spill area is valid (R509). -/
  deepCtx : Bool
  deriving DecidableEq, Repr

/-! ### The Rein pair (15) -/

/-- Pair states in the encoding of Table 15-2. -/
inductive PairState where
  | off
  | training
  | refused
  | syncing
  | paired
  | degraded
  | isolated
  | takeover
  | solo
  deriving DecidableEq, Repr

/-- A committed mirror held for the partner (R446). -/
structure Mirror where
  stream : Nat
  seq : Nat
  desc : MirrorDesc
  tiles : List (Nat × List Byte)
  pages : List Nat
  deriving DecidableEq, Repr

/-- A hand-back in progress (R452). -/
structure Handback where
  rg : Nat
  /-- The beat at whose boundary launches stop; none before that boundary. -/
  stopped : Bool
  sent : Bool
  deriving DecidableEq, Repr

/-- The Rein link and pair. -/
structure Pair where
  state : PairState
  refuse : Nat
  /-- Bundle b is trained and not retraining. -/
  bundles : BitVec 4
  timeMaster : Bool
  /-- A follower that is not started has loaded the master's time (R439). -/
  timeLoaded : Bool
  partner : Option PartnerInfo
  partnerStarted : Bool
  partnerService : Nat
  partnerState : Nat
  linkSilent : Bool
  sbAlive : Bool
  mirrors : List Mirror
  mirPages : List (Nat × MirrorPage)
  /-- Mirror pool reserved for opens the partner has announced (R441): stream, partition and tiles. -/
  reserved : List (Nat × Nat × Nat)
  /-- Hand-offs received that wait for pool space, oldest first. -/
  inbound : List HandoffMsg
  /-- Hand-offs issued to the partner and not committed, oldest first: stream and SEQ. -/
  outbound : List (Nat × Nat)
  handback : Option Handback
  /-- Ring groups whose HANDOVER has been received and whose promotion is due. -/
  handovers : List Nat
  /-- Decision path of a takeover, 1 to 5 (R465). -/
  path : Nat
  /-- The FAULT flit has been sent (R461). -/
  faultSent : Bool
  deriving DecidableEq, Repr

/-! ### Keeper, Bridle, power, test access (16, 17, 18, 20) -/

/-- A Keeper record (R469): the header fields of Table 16-9 and the body bytes in use, from byte 64. -/
structure KRecord where
  seq : Nat
  kind : Nat
  timeSet : Bool
  timeCoarse : Bool
  /-- Committed on holdup energy (FLAGS bit 2). -/
  holdup : Bool
  time : Nat
  tack : Nat
  boot : Word
  fw : Word
  lost : Nat
  body : List Byte
  deriving DecidableEq, Repr

/-- The Keeper (R468 to R474). -/
structure Keeper where
  /-- Valid records in MRAM, newest first. -/
  slots : List KRecord
  lastSeq : Nat
  /-- Staging buffers in use, oldest first, at most two; the first is being committed when `busy`. -/
  staged : List KRecord
  busy : Bool
  /-- Records that wait for a buffer, oldest first. -/
  waiting : List KRecord
  fstop : Bool
  cause : Nat
  prevFstop : Bool
  holdupOk : Bool
  secondary : Nat
  /-- SEQ of the FAULT_STOP record of the current fault stop. -/
  faultSeq : Option Nat
  /-- Records dropped since the last committed record. -/
  lost : Nat
  deriving DecidableEq, Repr

/-- The manifest in MRAM (R487). -/
structure Manifest where
  version : Nat
  svn : Nat
  variant : Nat
  dieEn : BitVec 10
  stackEn : BitVec 20
  valid : Bool
  deriving DecidableEq, Repr

/-- The Bridle (17_bridle_security.md). -/
structure Bridle where
  /-- Identity region, 64 KiB, by offset; an unlisted byte is as manufactured (`Config.identityByte`). -/
  identity : Mem
  idnLocked : Bool
  /-- The CRC-32C of the region checks; the region never changes (R489). -/
  idnCrcOk : Bool
  /-- Manifest in MRAM, and the one in force since the last cold reset. -/
  manifest : Manifest
  inForce : Manifest
  owner : Option (List Byte)
  /-- Flash image slots A and B: bytes by offset in the slot. -/
  flashA : Mem
  flashB : Mem
  /-- Preferred slot in MRAM and slot running: false A, true B. -/
  preferredB : Bool
  runningB : Bool
  otherOk : Bool
  recovery : Bool
  outcome : Nat
  fwVer : Nat
  fwSvn : Nat
  pairProto : Nat
  result : Nat
  pufOk : Bool
  secret : Bool
  coldResets : Nat
  sessions : List Nat
  attExhausted : Bool
  drbgDraws : Nat
  drbgRequests : Nat
  drbgSeeds : Nat
  /-- Measurements 1 to 10 (Table 17-7), 64 bytes each. -/
  meas : List (List Byte)
  /-- Keys of the link IDE stream (0) and the selective streams (1 to 4) that are programmed. -/
  ideKeys : List (Nat × List Byte)
  deriving DecidableEq, Repr

/-- Device states of Table 18-1. -/
inductive DevState where
  | off
  | tack
  | sleep
  | run
  deriving DecidableEq, Repr

/-- Reset kinds of Table 18-4, in the encoding of the RESET record. -/
inductive ResetKind where
  | cold
  | warm
  | pf
  | vf
  | part
  deriving DecidableEq, Repr

/-- Supplies, reset and power (18_power_clocks_reset.md, 20_package_and_electrical.md). -/
structure Power where
  dev : DevState
  /-- A reset in progress, up to the moment the device reports ready. -/
  resetting : Option ResetKind
  /-- The boot chain has run and HBM training is in progress. -/
  booting : Bool
  ready : Bool
  vtack : Bool
  oscStable : Bool
  rails : Bool
  outOfOrder : Bool
  sysRst : Bool
  perst : Bool
  powerFail : Bool
  failSource : Nat
  /-- A power-fail event or absent rails hold the device: a cold reset is still to be performed (R560). -/
  held : Bool
  /-- The 2 ms holdup has ended. -/
  holdupOver : Bool
  tackCal : Bool
  refmHold : Bool
  trip : Bool
  capPower : Bool
  twarn : Bool
  lastReset : Nat
  /-- The I/O die's fast clocks run in SLEEP for a sideband request (R503). -/
  sbClocks : Bool
  /-- Reset generation: contents of HBM and CXL written before it are undefined (R513). -/
  gen : Nat
  /-- HBM training time of the last training, in µs. -/
  trainUs : Nat
  deriving DecidableEq, Repr

/-- Boundary-scan instructions (R568). -/
inductive TapInstr where
  | idcode
  | bypass
  | sample
  | extest
  | extestPulse
  | extestTrain
  | clamp
  | highz
  deriving DecidableEq, Repr

/-- The test access port: the instruction decoded and the one loaded (R569). -/
structure Tap where
  loaded : TapInstr
  decoded : TapInstr
  deriving DecidableEq, Repr

/-- A CXL port (R294 to R296). -/
structure CxlPort where
  up : Bool
  width : Nat
  speed : Nat
  ide : Bool
  cap : Nat
  deriving DecidableEq, Repr

/-- An accounting client (R387): kind 0 ring group, 1 function, 2 partition overhead; its 16 counters. -/
structure Client where
  kind : Nat
  idx : Nat
  counts : List DWord
  deriving DecidableEq, Repr

/-- What the device sends out: read data, flits, pins, SPDM and sideband answers. -/
inductive Output where
  | readData (bytes : List Byte)
  | poisoned
  | flit (name : String) (args : List Nat)
  | handoffSent (h : HandoffMsg)
  | pin (name : String) (level : Bool)
  | spdm (name : String) (via : Transport) (bytes : List Byte)
  | sideband (name : String) (bytes : List Byte)
  | message (f vec : Nat)
  deriving DecidableEq, Repr

/-! ### The whole state -/

/-- The host interface of the device. -/
structure HostIf where
  funcs : List FuncCopy
  rgs : List RingGroup
  vectors : List IntVec
  /-- VFs that SR-IOV enables, numbered from 1 (R395, Table 18-5). -/
  vfs : Nat
  /-- Bits [5:0] of HIF_STATUS: speed, width and FLIT mode of the host link (Table 14-19). -/
  link : Nat
  deriving DecidableEq, Repr

/-- What the Saddler keeps: slots, streams, groups, jobs, record moves, beats, partitions and the accounting. -/
structure Work where
  slots : List ModelSlot
  streams : List Stream
  groups : List Group
  jobs : List Job
  nextJob : Nat
  moves : List Move
  /-- The device is started: SDL_STATUS bit 0 (R536). -/
  started : Bool
  /-- Last beat whose boundary has passed, and last beat served with its doorbell fetch (R437). -/
  beat : Option Nat
  served : Nat
  /-- Partitions that are started, that have ERR set, and that are under reset (R361, R516). -/
  partStarted : List Nat
  partErr : List Nat
  partReset : List Nat
  clients : List Client
  deriving DecidableEq, Repr

/-- KV pages, cached prefixes and Skiver tables. -/
structure Caches where
  pages : List Page
  /-- Reclaim list, oldest first (R206). -/
  reclaim : List Nat
  prefixes : List KvPrefix
  skvGens : List SkvGen
  skvSlots : List SkvSlot
  skvPins : List SkvPin
  skcObjects : List SkcObject
  deriving DecidableEq, Repr

/-- The memories: SPM, HBM and the CXL tier by device address (Table 10-6), and host memory by host address. -/
structure Memories where
  spm : Mem
  hbm : Mem
  cxl : Mem
  host : Mem
  /-- Ranges `lo` to `hi - 1` of host memory whose accesses fail (R429, R430). -/
  hostFail : List (Nat × Nat)
  deriving DecidableEq, Repr

/-- The test access port, the CXL ports and the I3C target. -/
structure Board where
  tap : Tap
  ports : List CxlPort
  /-- Dynamic address of the I3C target (R566). -/
  i3cAddr : Option Nat
  deriving DecidableEq, Repr

/-- The state of the device. -/
structure State where
  /-- Commands that wait, first in, first out. -/
  pending : List Instr
  /-- The model's own counter of free values (notes/assumptions/3.md); no statement rests on it. -/
  free : Nat
  regs : RegFile
  tb : Timebase
  hif : HostIf
  work : Work
  caches : Caches
  cores : List Core
  mem : Memories
  pair : Pair
  keeper : Keeper
  bridle : Bridle
  power : Power
  board : Board
  /-- What the device has sent out, newest first: the model's own log of its outputs. -/
  out : List Output
  deriving DecidableEq, Repr

/-! ### The state right after reset -/

/-- The timebase when VTACK has first been applied (R61, Tables 3-5 and 3-7), with REFCLK_T present. -/
def Timebase.reset : Timebase where
  now := 0
  frac := 0
  slew := 0
  ppsStamp := 0
  ppsErr := 0
  ppsSeen := false
  edgeRef := 0
  ppsLost := false
  goodRun := 0
  ppsLocked := false
  load := none
  refOk := true
  holdover := false
  tackHold := false
  timeCoarse := true
  timeSet := false
  pairFollow := false
  pairLocked := false
  linkLost := false
  tackCycles := 0
  tackFrac := 0

/-- A core in DEEP with the reset context of R519; its generator is loaded when the boot chain runs. -/
def Core.reset (c : Nat) : Core where
  num := c
  sregs := List.replicate 64 0
  snap := List.replicate 64 0
  rng := 0
  gates := []
  stamps := []
  tables := []
  bufs := List.replicate 4 ([], false)
  acc := []
  accShape := none
  ftq := []
  xq := []
  lu := List.replicate 4 none
  luq := []
  luTag := 0
  flights := []
  windows := List.replicate 16 ⟨0, 0, 0, false⟩
  regions := List.replicate 16 0
  rgnPins := List.replicate 16 false
  rgnWait := none
  pstate := .deep
  entering := none
  waking := false
  wakePending := false
  job := none
  susp := none
  saved := none
  progs := []
  trapAddr := 0
  deepCtx := true

/-- The pair with RNL_CTRL.EN clear (Table 15-2). -/
def Pair.reset : Pair where
  state := .off
  refuse := 0
  bundles := 0
  timeMaster := false
  timeLoaded := false
  partner := none
  partnerStarted := false
  partnerService := 0
  partnerState := 0
  linkSilent := false
  sbAlive := false
  mirrors := []
  mirPages := []
  reserved := []
  inbound := []
  outbound := []
  handback := none
  handovers := []
  path := 0
  faultSent := false

/-- A Keeper that has committed no record; the RESET record of the cold reset is staged (R511). -/
def Keeper.reset : Keeper where
  slots := []
  lastSeq := 1
  staged := [⟨1, 3, false, true, false, 0, 0, 0, 0, 0, [0, 0]⟩]
  busy := false
  waiting := []
  fstop := false
  cause := 0
  prevFstop := false
  holdupOk := false
  secondary := 0
  faultSeq := none
  lost := 0

/-- The manifest of an IY940: every die and every stack enabled. -/
def Manifest.reset : Manifest := ⟨0, 0, 0, BitVec.allOnes 10, BitVec.allOnes 20, true⟩

/-- The Bridle as manufactured, before its first boot chain. -/
def Bridle.reset : Bridle where
  identity := []
  idnLocked := true
  idnCrcOk := true
  manifest := Manifest.reset
  inForce := Manifest.reset
  owner := none
  flashA := []
  flashB := []
  preferredB := false
  runningB := false
  otherOk := false
  recovery := false
  outcome := 0
  fwVer := 0
  fwSvn := 0
  pairProto := 0
  result := 0
  pufOk := false
  secret := false
  coldResets := 0
  sessions := []
  attExhausted := false
  drbgDraws := 0
  drbgRequests := 0
  drbgSeeds := 0
  meas := List.replicate 10 (List.replicate 64 0)
  ideKeys := []

/-- A cold reset in progress: every rail in range and in order, the tack oscillator stable, SYS_RST_N deasserted. -/
def Power.reset : Power where
  dev := .run
  resetting := some .cold
  booting := false
  ready := false
  vtack := true
  oscStable := true
  rails := true
  outOfOrder := false
  sysRst := false
  perst := false
  powerFail := false
  failSource := 0
  held := false
  holdupOver := false
  tackCal := false
  refmHold := false
  trip := false
  capPower := false
  twarn := false
  lastReset := 0
  sbClocks := false
  gen := 0
  trainUs := 0

/-- The device in its first cold reset (R501, R512, R519): registers at their reset values, no stream, no page, SPM zero,
Keeper empty, the Cinch counter as VTACK leaves it (notes/assumptions/1.md, notes/assumptions/2.md). -/
def State.reset : State where
  pending := []
  free := 0
  regs := []
  tb := Timebase.reset
  hif := ⟨[], [], [], 0, 0⟩
  work :=
    { slots := [], streams := [], groups := [], jobs := [], nextJob := 0, moves := [], started := false
      beat := none, served := 0, partStarted := [], partErr := [], partReset := [], clients := [] }
  caches := ⟨[], [], [], [], [], [], []⟩
  cores := (List.range 160).map Core.reset
  mem := ⟨[], [], [], [], []⟩
  pair := Pair.reset
  keeper := Keeper.reset
  bridle := Bridle.reset
  power := Power.reset
  board := ⟨⟨.idcode, .idcode⟩, [⟨false, 0, 0, false, 0⟩, ⟨false, 0, 0, false, 0⟩], none⟩
  out := []

end Sys2Proof.Machine
end

