-- ==== Sys2Proof/Machine/Ops.lean ====
section
/-! DEFINITION. Memory, keyed lists and updates of one group of the state: the operations every meaning is built from. -/

namespace Sys2Proof.Machine

open Sys2Proof

/-- What every meaning answers. -/
abbrev Res := Host.Outcome State Fault Refusal

/-! ### One update per group of the state -/

def State.updRegs (f : RegFile → RegFile) (s : State) : State := { s with regs := f s.regs }
def State.updTb (f : Timebase → Timebase) (s : State) : State := { s with tb := f s.tb }
def State.updHif (f : HostIf → HostIf) (s : State) : State := { s with hif := f s.hif }
def State.updWork (f : Work → Work) (s : State) : State := { s with work := f s.work }
def State.updCaches (f : Caches → Caches) (s : State) : State := { s with caches := f s.caches }
def State.updCores (f : List Core → List Core) (s : State) : State := { s with cores := f s.cores }
def State.updMem (f : Memories → Memories) (s : State) : State := { s with mem := f s.mem }
def State.updPair (f : Pair → Pair) (s : State) : State := { s with pair := f s.pair }
def State.updKeeper (f : Keeper → Keeper) (s : State) : State := { s with keeper := f s.keeper }
def State.updBridle (f : Bridle → Bridle) (s : State) : State := { s with bridle := f s.bridle }
def State.updPower (f : Power → Power) (s : State) : State := { s with power := f s.power }
def State.updBoard (f : Board → Board) (s : State) : State := { s with board := f s.board }

/-- The device sends `o` out. -/
def State.emit (o : Output) (s : State) : State := { s with out := o :: s.out }

/-- The free value the next use takes (notes/assumptions/3.md). -/
def State.freeVal (s : State) : Nat := (Config.freeValue s.free).toNat

/-- The free value has been used. -/
def State.nextFree (s : State) : State := { s with free := s.free + 1 }

/-- Do `f` when `c` holds. -/
def State.when (c : Bool) (f : State → State) (s : State) : State := if c then f s else s

/-- Do `f` for every element, in order. -/
def State.forEach {α : Type} (xs : List α) (f : α → State → State) (s : State) : State :=
  xs.foldl (fun t x => f x t) s

/-! ### Lists -/

/-- The elements that satisfy `p`, changed by `f`. -/
def updWhere {α : Type} (p : α → Bool) (f : α → α) (xs : List α) : List α :=
  xs.map fun x => if p x then f x else x

/-- Element `i` changed by `f`. -/
def updAt {α : Type} (i : Nat) (f : α → α) : List α → List α
  | [] => []
  | x :: xs => match i with
    | 0 => f x :: xs
    | k + 1 => x :: updAt k f xs

/-- A value put under its key in a list of pairs with rising keys. -/
def putKey {β : Type} (k : Nat) (v : β) : List (Nat × β) → List (Nat × β)
  | [] => [(k, v)]
  | (j, w) :: xs =>
    if k < j then (k, v) :: (j, w) :: xs
    else if k = j then (k, v) :: xs
    else (j, w) :: putKey k v xs

/-- The value under a key. -/
def getKey {β : Type} (k : Nat) (xs : List (Nat × β)) : Option β :=
  (xs.find? fun p => p.1 == k).map (·.2)

/-- Insertion in rising order of `key`, after the elements of equal key. -/
def insertBy {α : Type} (key : α → Nat) (x : α) : List α → List α
  | [] => [x]
  | y :: ys => if key x < key y then x :: y :: ys else y :: insertBy key x ys

/-- Rising order of `key`; elements of equal key keep their order. -/
def sortBy {α : Type} (key : α → Nat) (xs : List α) : List α :=
  xs.foldl (fun acc x => insertBy key x acc) []

/-- The element with the least key; the first of several. -/
def minBy {α : Type} (key : α → Nat) : List α → Option α
  | [] => none
  | x :: xs => some (xs.foldl (fun best y => if key y < key best then y else best) x)

/-- The sum of a natural number over a list. -/
def sumBy {α : Type} (f : α → Nat) (xs : List α) : Nat := xs.foldl (fun n x => n + f x) 0

/-! ### Memories (10_scratchpad_and_memory_tiers.md) -/

/-- A memory is in canonical form: addresses strictly rising (notes/assumptions/4.md). -/
abbrev Memory.wf (m : Mem) : Prop := m.Pairwise fun x y => x.1 < y.1

/-- The byte at `a`; `d` gives what an unlisted address reads as. -/
def Mem.byte (d : Nat → Byte) (m : Mem) (a : Nat) : Byte :=
  match m.find? fun c => c.1 == a with
  | some c => c.2
  | none => d a

/-- `n` bytes from `a`. -/
def Mem.read (d : Nat → Byte) (m : Mem) (a n : Nat) : List Byte := (List.range n).map fun i => m.byte d (a + i)

/-- The cells of bytes laid out from `a`. -/
def cellsFrom (a : Nat) : List Byte → Mem
  | [] => []
  | b :: bs => (a, b) :: cellsFrom (a + 1) bs

/-- The bytes written from `a`; every other address keeps its cell. -/
def Mem.write (m : Mem) (a : Nat) (bs : List Byte) : Mem :=
  m.filter (fun c => c.1 < a) ++ cellsFrom a bs ++ m.filter (fun c => a + bs.length ≤ c.1)

/-- The same for a memory whose unlisted bytes read zero: a zero byte is not listed. -/
def Mem.writeZ (m : Mem) (a : Nat) (bs : List Byte) : Mem :=
  m.filter (fun c => c.1 < a) ++ (cellsFrom a bs).filter (fun c => c.2 != 0) ++ m.filter (fun c => a + bs.length ≤ c.1)

/-- Every cell of an address range forgotten. -/
def Mem.erase (m : Mem) (a n : Nat) : Mem := m.filter fun c => c.1 < a || a + n ≤ c.1

/-- What an unlisted byte of HBM (space 1), the CXL tier (3) or host memory (4) reads as: a free value of the reset
generation (R513, notes/assumptions/4.md); no reset of the device touches host memory. -/
def State.unwritten (s : State) (space : Nat) : Nat → Byte :=
  Config.unwrittenByte (if space == 4 then 0 else s.power.gen) space

/-- Key of byte `b` of row `row` of a core's slice: its device address in space 0 (Table 10-6). -/
def spmKey (core row b : Nat) : Nat := core * 2 ^ 23 + row * 512 + b

/-- Bytes of a slice from byte `b` of the slice. -/
def State.spmRead (s : State) (core b n : Nat) : List Byte := s.mem.spm.read (fun _ => 0) (core * 2 ^ 23 + b) n

/-- Bytes written into a slice. -/
def State.spmWrite (core b : Nat) (bs : List Byte) (s : State) : State :=
  s.updMem fun m => { m with spm := m.spm.writeZ (core * 2 ^ 23 + b) bs }

/-- The 512 bytes of a row. -/
def State.row (s : State) (core r : Nat) : List Byte := s.spmRead core (r * 512) 512

/-- HBM bytes by stack and byte offset. -/
def State.hbmRead (s : State) (stack off n : Nat) : List Byte := s.mem.hbm.read (s.unwritten 1) (stack * 2 ^ 37 + off) n

def State.hbmWrite (stack off : Nat) (bs : List Byte) (s : State) : State :=
  s.updMem fun m => { m with hbm := m.hbm.write (stack * 2 ^ 37 + off) bs }

/-- CXL bytes by port and byte offset. -/
def State.cxlRead (s : State) (port off n : Nat) : List Byte := s.mem.cxl.read (s.unwritten 3) (port * 2 ^ 43 + off) n

def State.cxlWrite (port off : Nat) (bs : List Byte) (s : State) : State :=
  s.updMem fun m => { m with cxl := m.cxl.write (port * 2 ^ 43 + off) bs }

/-- Host bytes by bus address. -/
def State.hostRead (s : State) (a n : Nat) : List Byte := s.mem.host.read (s.unwritten 4) a n

def State.hostWrite (a : Nat) (bs : List Byte) (s : State) : State :=
  s.updMem fun m => { m with host := m.host.write a bs }

/-- HIF_CTRL.IDE_REQ is set and no IDE stream holds a key: the device sends no request to host memory (R397). -/
def State.ideHeld (s : State) : Bool :=
  ((getKey 0x10000 s.regs).any fun v => v.getLsbD 0) && s.bridle.ideKeys.isEmpty

/-- An access to these host bytes fails (R429, R430), also where it may not be sent (notes/assumptions/128.md). -/
def State.hostFails (s : State) (a n : Nat) : Bool := s.ideHeld || s.mem.hostFail.any fun r => r.1 < a + n && a < r.2

/-- Stack and byte of a die-pair offset (R290). -/
def dieByte (d o : Nat) : Nat × Nat :=
  let u := o / 2048
  (2 * d + u % 2, u / 2 * 2048 + o % 2048)

/-- Port and byte of an offset in the two-port interleave (R290). -/
def cxlByte (o : Nat) : Nat × Nat := ((o / 4096) % 2, o / 8192 * 4096 + o % 4096)

/-- The pieces of `n` bytes from offset `o` that stay within units of `unit` bytes: offset and length of each. -/
def unitRuns (unit : Nat) : Nat → Nat → Nat → List (Nat × Nat)
  | 0, _, _ => []
  | fuel + 1, o, n =>
    if n = 0 then [] else
      let k := min n (unit - o % unit)
      (o, k) :: unitRuns unit fuel (o + k) (n - k)

/-- Bytes of a die pair's interleave (R290). -/
def State.dieRead (s : State) (d o n : Nat) : List Byte :=
  (unitRuns 2048 (n / 2048 + 2) o n).flatMap fun r =>
    let sb := dieByte d r.1
    s.hbmRead sb.1 sb.2 r.2

def State.dieWrite (d o : Nat) (bs : List Byte) (s : State) : State :=
  s.forEach (unitRuns 2048 (bs.length / 2048 + 2) o bs.length) fun r t =>
    let sb := dieByte d r.1
    t.hbmWrite sb.1 sb.2 ((bs.drop (r.1 - o)).take r.2)

/-- Bytes of the CXL interleave (R290). -/
def State.cxlIlRead (s : State) (o n : Nat) : List Byte :=
  (unitRuns 4096 (n / 4096 + 2) o n).flatMap fun r =>
    let pb := cxlByte r.1
    s.cxlRead pb.1 pb.2 r.2

def State.cxlIlWrite (o : Nat) (bs : List Byte) (s : State) : State :=
  s.forEach (unitRuns 4096 (bs.length / 4096 + 2) o bs.length) fun r t =>
    let pb := cxlByte r.1
    t.cxlWrite pb.1 pb.2 ((bs.drop (r.1 - o)).take r.2)

/-! ### Cores, streams, slots, groups, jobs -/

def State.core? (s : State) (c : Nat) : Option Core := s.cores.find? fun x => x.num == c

/-- Core `c`, with the reset context where the device has no such core. -/
def State.core (s : State) (c : Nat) : Core := (s.core? c).getD (Core.reset c)

def State.updCore (c : Nat) (f : Core → Core) (s : State) : State :=
  s.updCores (updWhere (fun x => x.num == c) f)

def State.stream? (s : State) (id : Nat) : Option Stream := s.work.streams.find? fun x => x.id == id

def State.updStream (id : Nat) (f : Stream → Stream) (s : State) : State :=
  s.updWork fun w => { w with streams := updWhere (fun x => x.id == id) f w.streams }

def State.slot? (s : State) (n : Nat) : Option ModelSlot := s.work.slots.find? fun x => x.num == n

def State.updSlot (n : Nat) (f : ModelSlot → ModelSlot) (s : State) : State :=
  s.updWork fun w => { w with slots := updWhere (fun x => x.num == n) f w.slots }

def State.group? (s : State) (n : Nat) : Option Group := s.work.groups.find? fun x => x.num == n

def State.updGroup (n : Nat) (f : Group → Group) (s : State) : State :=
  s.updWork fun w => { w with groups := updWhere (fun x => x.num == n) f w.groups }

def State.job? (s : State) (n : Nat) : Option Job := s.work.jobs.find? fun x => x.id == n

/-- The launch job of a group. -/
def State.launchJob? (s : State) (g : Nat) : Option Job := s.work.jobs.find? fun x => x.kind == .launch g

def State.updJob (n : Nat) (f : Job → Job) (s : State) : State :=
  s.updWork fun w => { w with jobs := updWhere (fun x => x.id == n) f w.jobs }

def State.updStreams (f : List Stream → List Stream) (s : State) : State :=
  s.updWork fun w => { w with streams := f w.streams }

def State.updJobs (f : List Job → List Job) (s : State) : State :=
  s.updWork fun w => { w with jobs := f w.jobs }

def State.updMoves (f : List Move → List Move) (s : State) : State :=
  s.updWork fun w => { w with moves := f w.moves }

def State.updPages (f : List Page → List Page) (s : State) : State :=
  s.updCaches fun c => { c with pages := f c.pages }

/-- The core set's members, rising. -/
def coreList (cs : CoreSet) : List Nat := (List.range 160).filter fun c => cs.getLsbD c

/-- The core set with the members listed. -/
def coreSetOf (cs : List Nat) : CoreSet :=
  BitVec.ofNat 160 ((List.range 160).foldl (fun n c => if cs.contains c then n + 2 ^ c else n) 0)

/-! ### Variant and enabled units (R2, R487) -/

def State.iy920 (s : State) : Bool := s.bridle.inForce.variant == 1

/-- Die `d` is enabled by the manifest in force. -/
def State.dieOn (s : State) (d : Nat) : Bool := s.bridle.inForce.dieEn.getLsbD d

def State.stackOn (s : State) (k : Nat) : Bool := s.bridle.inForce.stackEn.getLsbD k

/-- Core `c` is enabled: cores 16d to 16d + 15 lie on die d. -/
def State.coreOn (s : State) (c : Nat) : Bool := c < 160 && s.dieOn (c / 16)

/-- Usable bytes of one stack: 72 GiB less the tag area of 18 MiB (R292). -/
def stackBytes : Nat := 72 * 2 ^ 30 - 18 * 2 ^ 20

/-- Bytes of a die pair's space. -/
def dieBytes : Nat := 2 * stackBytes

/-- Bytes of a core's spill area (R292). -/
def spillBytes : Nat := 6400 * 1024

end Sys2Proof.Machine
end

