-- ==== Sys2Proof/Machine/Flags.lean ====
section
/-! DEFINITION. Register storage, reset values, and the counters with their overflow bits (16, R467; 19_register_map.md). -/

namespace Sys2Proof.Machine

open Sys2Proof

/-! ### Reset values that are not zero -/

/-- Reset value of a stored register by BAR0 offset (the register tables); zero where nothing is listed. -/
def regDefault (iy920 : Bool) (off : Nat) : Nat :=
  if off = 0x20024 then 0x64                                  -- CIN_SLEW_LIMIT
  else if off = 0x20034 then 0x3000A                          -- CIN_PPS_CFG
  else if off = 0x20048 then 0x190                            -- CIN_WAKE_LEAD_DOZE
  else if off = 0x2004C then 0x1770                           -- CIN_WAKE_LEAD_NAP
  else if off = 0x20050 then 0x13880                          -- CIN_WAKE_LEAD_DEEP
  else if off = 0x30000 then 0x2                              -- SDL_CTRL
  else if off = 0x30010 then 0x14                             -- SDL_BEAT_PERIOD
  else if off = 0x30014 then 0x3E8                            -- SDL_DECIDE_LEAD
  else if off = 0x30018 then 0x4E20                           -- SDL_AGE_INTERVAL
  else if off = 0x3001C then 0xC8                             -- SDL_DL_MARGIN
  else if off = 0x30020 then 3                                -- SDL_EWMA_SHIFT
  else if off = 0x60000 then 3                                -- CXL_CTRL
  else if off = 0x70000 then 0x804                            -- RNL_CTRL
  else if off = 0x80000 then 3                                -- SKV_CTRL
  else if off = 0x9000C then 0xFA                             -- AFE_ALIGN_TOL
  else if off = 0xA0008 then 0x10064                          -- KPR_WDOG
  else if off = 0xC0018 then (if iy920 then 0x41A else 0x7D0) -- PWR_LIMIT
  else if off = 0xC001C then 0x3E8                            -- PWR_WINDOW
  else if off = 0xC0020 then 0x5A                             -- PWR_TWARN
  else if 0xC0080 ≤ off ∧ off < 0xC00A8 then 5                -- PWR_SSC
  else 0

/-- The stored value of a register. -/
def State.reg (s : State) (off : Nat) : Nat :=
  match getKey off s.regs with
  | some v => v.toNat
  | none => regDefault s.iy920 off

/-- A register takes a value. -/
def State.setReg (off v : Nat) (s : State) : State := s.updRegs (putKey off (BitVec.ofNat 64 v))

/-! ### Counters (R467, Table 16-8) -/

/-- A saturating counter: its offset, its overflow register and bit (none for the persistent class), and whether it is
one of the 64-bit byte counters. -/
structure Counter where
  off : Nat
  ovf : Option (Nat × Nat)
  wide : Bool := false
  deriving DecidableEq, Repr

/-- The largest value of a counter. -/
def Counter.max (c : Counter) : Nat := if c.wide then 2 ^ 64 - 1 else 2 ^ 32 - 1

/-- An overflow bit of a register is set. -/
def State.setBit (off bit : Nat) (s : State) : State := s.setReg off (s.reg off ||| 2 ^ bit)

/-- A counter counts `n` more: it saturates, and on reaching its maximum it sets its bit; a counter that already stands
at the maximum leaves a cleared bit clear (R467). -/
def State.count (c : Counter) (n : Nat) (s : State) : State :=
  let old := s.reg c.off
  let new := min (old + n) c.max
  let s' := s.setReg c.off new
  match c.ovf with
  | some (o, b) => if old < c.max && new == c.max then s'.setBit o b else s'
  | none => s'

/-- One more. -/
def State.bump (c : Counter) (s : State) : State := s.count c 1

-- CIN (R86)
def ctrPpsReject : Counter := ⟨0x2003C, some (0x2005C, 0), false⟩
def ctrLateArm : Counter := ⟨0x20040, some (0x2005C, 1), false⟩
def ctrHoldSec : Counter := ⟨0x20044, some (0x2005C, 2), false⟩
-- SDL (R392): 0 late, 1 fallback chunks, 2 no fallback, 3 pre-empted, 4 age steps, 5 held
def ctrSdl (n : Nat) : Counter := ⟨0x30040 + 4 * n, some (0x30058, n), false⟩
-- MEM (R303): 0 SPM CE, 1 SPM UE, 2 HBM UE, 3 CRC
def ctrMem (n : Nat) : Counter := ⟨0x50008 + 4 * n, some (0x50018, n), false⟩
def ctrHbmCe (k : Nat) : Counter := ⟨0x50100 + 4 * k, some (0x50018, 8 + k), false⟩
-- KV (R234): 0 COW, 1 REFSAT, 2 RECLAIM, 3 EVICT, 4 DEFER, 5 HOLD
def ctrKv (n : Nat) : Counter := ⟨0x5040C + 4 * n, some (0x50424, n), false⟩
-- residency (R359): 0 SWAPIN, 1 SWAPOUT, 2 WITHDRAW, 3 URGENT, 4 DEMCANCEL, 5 GATEWAIT, 6 MIRWAIT, 7 HOMEWAIT
def ctrRes (n : Nat) : Counter := ⟨0x50528 + 4 * n, some (0x50548, n), false⟩
-- CXL (R305)
def ctrCxlPoison (p : Nat) : Counter := ⟨0x60110 + 0x100 * p, some (0x60004, 1 + p), false⟩
def ctrCxlDown (p : Nat) : Counter := ⟨0x60114 + 0x100 * p, some (0x60004, 3 + p), false⟩
-- RNL (R455): 0 HB_LOSS, 1 REPLAY, 2 RETRAIN, 3 WIN_IGN, 4 MIR_WAIT, 5 PROMOTED, 6 PROMOTE_FAIL, 7 MIR_DROP
def ctrRnl (n : Nat) : Counter := ⟨0x70040 + 4 * n, some (0x70060, n), false⟩
def ctrMirBytes : Counter := ⟨0x70028, some (0x70060, 8), true⟩
-- SKV (R266): 0 ZERO, 1 PACKED, 2 TABLED, 3 RAW, 4 TILE_UNC, 5 BUILD, 6 BUILD_BLOCKED, 7 ESC
def ctrSkv (n : Nat) : Counter := ⟨0x80010 + 4 * n, some (0x80040, n), false⟩
def ctrSkvIn : Counter := ⟨0x80030, some (0x80040, 8), true⟩
def ctrSkvOut : Counter := ⟨0x80038, some (0x80040, 9), true⟩
-- AFE (R108): 0 GAP, 1 OVERLAP, 2 SHORT, 3 LONG, 4 REANCHOR, 5 BAD_SAMPLE
def ctrAfe (n : Nat) : Counter := ⟨0x90010 + 4 * n, some (0x90028, n), false⟩
-- HIF (R433): 0 OUT_DROP, 1 RING_ERR, 2 EVT_LOST
def ctrHif (n : Nat) : Counter := ⟨0x10080 + 4 * n, some (0x1008C, n), false⟩
-- KPR, persistent class
def ctrFstop : Counter := ⟨0xA0030, none, false⟩
def ctrBoots : Counter := ⟨0xA0034, none, false⟩
def ctrKprLost : Counter := ⟨0xA0038, none, false⟩
-- BRD (R499): 0 SIGS, 1 SIG_REFUSED, 2 VERIFY_FAIL
def ctrBrd (n : Nat) : Counter := ⟨0xB0030 + 4 * n, some (0xB003C, n), false⟩
-- PWR (R525): 0 CAP_MS, 1 DEFER, 2 TWARN_CNT
def ctrPwr (n : Nat) : Counter := ⟨0xC0028 + 4 * n, some (0xC0034, n), false⟩
def ctrEnergy : Counter := ⟨0xC0008, some (0xC0034, 4), true⟩
-- the window of core c
def corBase (c : Nat) : Nat := 0x100000 + 0x1000 * c
-- ME (R137): 0 XQ, 1 FTQ, 2 LUQ, 3 GP wait, 4 CE stall, 5 SAT, 6 NAN_OUT, 7 NANBLK
def ctrMe (c n : Nat) : Counter := ⟨corBase c + 0x200 + 4 * n, some (corBase c + 0x220, n), false⟩
-- LU (R165): 0 SEGSTART, 1 SAT, 2 NONFINITE, 3 ADAPT, 4 SKIP, 5 CLIP, 6 REV_WAIT
def ctrLu (c n : Nat) : Counter := ⟨corBase c + 0x240 + 4 * n, some (corBase c + 0x25C, n), false⟩
-- VE (R198): 0 FTQ_WAIT, 1 SAT, 2 NAN_OUT, 3 ZDIV
def ctrVe (c n : Nat) : Counter := ⟨corBase c + 0x280 + 4 * n, some (corBase c + 0x290, n), false⟩
-- attention (R232): 0 EMPTYQ, 1 SAT
def ctrAt (c n : Nat) : Counter := ⟨corBase c + 0x2C0 + 4 * n, some (corBase c + 0x2C8, n), false⟩
-- SPM and DM (R307): 0 SB_HOLD, 1 BANKHOLD, 2 WIN_IGN, 3 BADADDR
def ctrSpm (c n : Nat) : Counter := ⟨corBase c + 0x300 + 4 * n, some (corBase c + 0x310, n), false⟩
def ctrScat (c : Nat) : Counter := ⟨corBase c + 0x480, some (corBase c + 0x484, 0), false⟩

/-- The blocks of BAR0 (Table 19-2). -/
inductive Block where
  | idn | hif | cin | sdl | prt | mem | cxl | rnl | skv | afe | kpr | brd | pwr
  | cor (c : Nat)
  deriving DecidableEq, Repr

/-- The ignored-access counter of a block (Table 19-2). -/
def Block.ignored : Block → Counter
  | .idn => ⟨0x00024, some (0x00028, 0), false⟩
  | .hif => ⟨0x10090, some (0x1008C, 3), false⟩
  | .cin => ⟨0x20060, some (0x2005C, 3), false⟩
  | .sdl => ⟨0x3005C, some (0x30058, 7), false⟩
  | .prt => ⟨0x40400, some (0x40404, 0), false⟩
  | .mem => ⟨0x5001C, some (0x50018, 4), false⟩
  | .cxl => ⟨0x60008, some (0x60004, 0), false⟩
  | .rnl => ⟨0x70064, some (0x70060, 9), false⟩
  | .skv => ⟨0x80044, some (0x80040, 10), false⟩
  | .afe => ⟨0x9002C, some (0x90028, 6), false⟩
  | .kpr => ⟨0xA0044, some (0xA0040, 0), false⟩
  | .brd => ⟨0xB0040, some (0xB003C, 3), false⟩
  | .pwr => ⟨0xC0038, some (0xC0034, 3), false⟩
  | .cor c => ⟨corBase c + 0x18, some (corBase c + 0x1C, 0), false⟩

/-- An access of a block is ignored and counted (R466). -/
def State.ignore (b : Block) (s : State) : State := s.bump b.ignored

/-! ### Classes of stored registers at a reset (Tables 16-8 and 18-5) -/

/-- MRAM values and the persistent class: kept by every reset. -/
def persistentOffs : List Nat :=
  [0xA0030, 0xA0034, 0xA0038, 0xB0010, 0xB0014, 0xB0018, 0xB0020, 0xB0028]

/-- Event counters, byte counters and overflow registers outside the per-core windows: cleared by a cold reset only. -/
def counterOffs : List Nat :=
  [0x24, 0x28, 0x10080, 0x10084, 0x10088, 0x1008C, 0x10090, 0x2003C, 0x20040, 0x20044, 0x2005C, 0x20060,
   0x30040, 0x30044, 0x30048, 0x3004C, 0x30050, 0x30054, 0x30058, 0x3005C, 0x40400, 0x40404,
   0x50008, 0x5000C, 0x50010, 0x50014, 0x50018, 0x5001C, 0x5040C, 0x50410, 0x50414, 0x50418, 0x5041C, 0x50420, 0x50424,
   0x50528, 0x5052C, 0x50530, 0x50534, 0x50538, 0x5053C, 0x50540, 0x50544, 0x50548,
   0x60004, 0x60008, 0x60110, 0x60114, 0x60210, 0x60214] ++
  [0x70028, 0x70040, 0x70044, 0x70048, 0x7004C, 0x70050, 0x70054, 0x70058, 0x7005C, 0x70060, 0x70064,
   0x80010, 0x80014, 0x80018, 0x8001C, 0x80020, 0x80024, 0x80028, 0x8002C, 0x80030, 0x80038, 0x80040, 0x80044,
   0x90010, 0x90014, 0x90018, 0x9001C, 0x90020, 0x90024, 0x90028, 0x9002C, 0xA0040, 0xA0044,
   0xB0030, 0xB0034, 0xB0038, 0xB003C, 0xB0040, 0xC0008, 0xC0028, 0xC002C, 0xC0030, 0xC0034, 0xC0038] ++
  (List.range 20).map (fun k => 0x50100 + 4 * k)

/-- Counter and overflow offsets within a per-core window. -/
def corCounterOffs : List Nat :=
  [0x18, 0x1C, 0x200, 0x204, 0x208, 0x20C, 0x210, 0x214, 0x218, 0x21C, 0x220, 0x240, 0x244, 0x248, 0x24C, 0x250, 0x254,
   0x258, 0x25C, 0x280, 0x284, 0x288, 0x28C, 0x290, 0x2C0, 0x2C4, 0x2C8, 0x300, 0x304, 0x308, 0x30C, 0x310, 0x480, 0x484]

/-- The offset holds a counter or an overflow register. -/
def isCounterOff (off : Nat) : Bool :=
  counterOffs.contains off ||
    (0x100000 ≤ off && off < 0x1A0000 && corCounterOffs.contains ((off - 0x100000) % 0x1000))

/-- The registers a cold reset keeps. -/
def keepCold (r : RegFile) : RegFile := r.filter fun p => persistentOffs.contains p.1

/-- The registers a warm or a PF function-level reset keeps. -/
def keepWarm (r : RegFile) : RegFile := r.filter fun p => persistentOffs.contains p.1 || isCounterOff p.1

end Sys2Proof.Machine
end

