-- ==== Sys2Proof/Machine/Operands.lean ====
section
/-! DEFINITION. Fields of registers, of ring groups and of descriptors; ownership of partitions (13, 14, 19). -/

namespace Sys2Proof.Machine

open Sys2Proof

/-! ### Conditions of the whole device -/

/-- The device is in RUN and has reported ready, and neither fault stop, recovery nor a power-fail event holds it (R461, R483, R559; in
SLEEP the fast clocks stand still, R502). -/
def State.alive (s : State) : Bool :=
  s.power.dev == .run && s.power.ready && !s.keeper.fstop && !s.bridle.recovery && !s.power.powerFail

/-- Registers may be reached at all: VTACK present and the boot chain has run or runs (Table 18-1). -/
def State.powered (s : State) : Bool := s.power.vtack && s.power.dev == .run

/-! ### Registers of the SDL and PRT blocks (Tables 13-8, 13-9) -/

/-- Beat epoch E, ns (R31). -/
def State.epoch (s : State) : Nat := s.reg 0x30008

/-- Beat period P, ns: 0.5 ms units (R33). -/
def State.period (s : State) : Nat := (s.reg 0x30010 % 128) * 500000

/-- Start of beat n (R31). -/
def State.beatStart (s : State) (n : Nat) : Nat := s.epoch + n * s.period

/-- Tick of phase slot k of beat n: E + nP + ⌊kP / 64⌋ (R32). -/
def State.tickTime (s : State) (n k : Nat) : Nat := s.beatStart n + k * s.period / 64

/-- Current beat index; 0 before E (Table 13-8). -/
def State.beatIndex (s : State) : Nat :=
  if s.period = 0 then 0 else (s.tb.now - s.epoch) / s.period

def prtBase (p : Nat) : Nat := 0x40000 + 0x40 * p

/-- Function that owns partition p (PRT_FUNC). -/
def State.partFunc (s : State) (p : Nat) : Nat := nbits (s.reg (prtBase p + 4)) 0 6

/-- Core set of partition p (PRT_CORES). -/
def State.partCores (s : State) (p : Nat) : CoreSet :=
  BitVec.ofNat 160 ((List.range 5).foldl (fun n w => n + (s.reg (prtBase p + 8 + 4 * w) % 2 ^ 32) * 2 ^ (32 * w)) 0)

/-- Shares of partition p. -/
def State.partStateMib (s : State) (p : Nat) : Nat := s.reg (prtBase p + 0x1C)
def State.partKvPages (s : State) (p : Nat) : Nat := s.reg (prtBase p + 0x20)
def State.partModelMib (s : State) (p : Nat) : Nat := s.reg (prtBase p + 0x24)
def State.partCxlGib (s : State) (p : Nat) : Nat := s.reg (prtBase p + 0x28)
def State.mirMib (s : State) (p : Nat) : Nat := s.reg (0x70100 + 4 * p)

def State.partStarted (s : State) (p : Nat) : Bool := s.work.partStarted.contains p

/-- Function f owns partition p; the PF reaches every partition (R396). -/
def State.reaches (s : State) (f p : Nat) : Bool := f == 0 || s.partFunc p == f

/-- The partition of core c: the started one whose set holds it, else the lowest-numbered whose set names it (Table 19-8). -/
def State.corePart? (s : State) (c : Nat) : Option Nat :=
  match (List.range 16).find? fun p => s.partStarted p && (s.partCores p).getLsbD c with
  | some p => some p
  | none => (List.range 16).find? fun p => (s.partCores p).getLsbD c

/-! ### Ring groups -/

/-- A ring group that nothing has set up. -/
def RingGroup.init (g : Nat) : RingGroup where
  num := g
  ctrl := 0
  size := 0
  vec := 0
  modr := 0
  dbl := 0
  bases := [0, 0, 0, 0]
  stopped := 0
  kickDue := false
  beatDue := false
  fetched := [0, 0, 0]
  producer := [0, 0, 0]
  posted := [0, 0, 0]
  evPosted := 0
  evConsumer := 0
  lost := 0
  pendC := 0
  pendE := 0
  firstC := none
  firstE := none
  cmds := []
  chunks := []
  outs := []
  pool := []

def RingGroup.en (r : RingGroup) : Bool := r.ctrl.getLsbD 0
def RingGroup.part (r : RingGroup) : Nat := bits r.ctrl 1 4
def RingGroup.devevt (r : RingGroup) : Bool := r.ctrl.getLsbD 5
/-- Entries of ring k (HIF_RG_SIZE). -/
def RingGroup.entries (r : RingGroup) (k : Nat) : Nat := 2 ^ (6 + bits r.size (4 * k) 4)
def RingGroup.base (r : RingGroup) (k : Nat) : Nat := (r.bases.getD k 0).toNat
/-- Descriptors of ring k in progress. -/
def RingGroup.descs (r : RingGroup) (k : Nat) : List Desc :=
  if k = 0 then r.cmds else if k = 1 then r.chunks else r.outs

def State.rg (s : State) (g : Nat) : RingGroup := (s.hif.rgs.find? fun r => r.num == g).getD (RingGroup.init g)

/-- Ring group `g` changed; a group nothing has touched is listed first. -/
def State.updRg (g : Nat) (f : RingGroup → RingGroup) (s : State) : State :=
  s.updHif fun h =>
    if h.rgs.any fun r => r.num == g then { h with rgs := updWhere (fun r => r.num == g) f h.rgs }
    else { h with rgs := insertBy (·.num) (f (RingGroup.init g)) h.rgs }

/-! ### Function copies (R532) -/

def FuncCopy.init (f : Nat) : FuncCopy where
  f := f
  rgSel := 0
  accSel := 0
  accData := List.replicate 16 0
  kprSel := 0
  kprValid := false
  kprData := []
  idnSel := 0
  latches := []
  held := []

def State.func (s : State) (f : Nat) : FuncCopy := (s.hif.funcs.find? fun r => r.f == f).getD (FuncCopy.init f)

def State.updFunc (f : Nat) (g : FuncCopy → FuncCopy) (s : State) : State :=
  s.updHif fun h =>
    if h.funcs.any fun r => r.f == f then { h with funcs := updWhere (fun r => r.f == f) g h.funcs }
    else { h with funcs := insertBy (·.f) (g (FuncCopy.init f)) h.funcs }

/-! ### Accounting (R387, R388, Tables 13-6 and 13-7) -/

/-- `n` more on counter i of a client: it saturates and sets its bit in word 15. -/
def addUse (cs : List DWord) (i n : Nat) : List DWord :=
  let v := (cs.getD i 0).toNat + n
  let cs := updAt i (fun _ => BitVec.ofNat 64 (min v (2 ^ 64 - 1))) cs
  if 2 ^ 64 - 1 ≤ v then updAt 15 (fun w => w ||| BitVec.ofNat 64 (2 ^ i)) cs else cs

/-- Uses charged to a client. -/
def State.charge (kind idx : Nat) (uses : List (Nat × Nat)) (s : State) : State :=
  s.updWork fun w =>
    let add (cs : List DWord) : List DWord := uses.foldl (fun cs u => addUse cs u.1 u.2) cs
    { w with
      clients := if w.clients.any fun c => c.kind == kind && c.idx == idx then
          updWhere (fun c => c.kind == kind && c.idx == idx) (fun c => { c with counts := add c.counts }) w.clients
        else w.clients ++ [⟨kind, idx, add (List.replicate 16 0)⟩] }

/-- Uses charged to a stream's ring group and to the function that owns its partition. -/
def State.chargeStream (x : Stream) (uses : List (Nat × Nat)) (s : State) : State :=
  (s.charge 0 x.rg uses).charge 1 (s.partFunc x.part) uses

/-- Uses charged to the stream with identifier `id`, where it exists. -/
def State.chargeId (id : Nat) (uses : List (Nat × Nat)) (s : State) : State :=
  match s.stream? id with
  | some x => s.chargeStream x uses
  | none => s

/-- Uses charged to a partition's overhead. -/
def State.chargeOverhead (p : Nat) (uses : List (Nat × Nat)) (s : State) : State := s.charge 2 p uses

/-! ### Descriptors (Tables 14-3, 14-7) -/

/-- Word i of a descriptor. -/
def Desc.w (d : Desc) (i : Nat) : Word := d.words.getD i 0
def Desc.opc (d : Desc) : Nat := bits (d.w 0) 0 8
def Desc.fence (d : Desc) : Bool := (d.w 0).getLsbD 8
def Desc.quiet (d : Desc) : Bool := (d.w 0).getLsbD 9
def Desc.irq (d : Desc) : Bool := (d.w 0).getLsbD 10
def Desc.stream (d : Desc) : Nat := bits (d.w 0) 16 14
def Desc.tag (d : Desc) : Word := d.w 1
/-- The 64-bit value of words i and i + 1. -/
def Desc.d64 (d : Desc) (i : Nat) : Nat := (d.w i).toNat + (d.w (i + 1)).toNat * 2 ^ 32
/-- The core set in words i to i + 4 (R413). -/
def Desc.cores (d : Desc) (i : Nat) : CoreSet :=
  BitVec.ofNat 160 ((List.range 5).foldl (fun n k => n + (d.w (i + k)).toNat * 2 ^ (32 * k)) 0)

/-! ### Status codes (Table 14-5) -/

def stOK : Nat := 0
def stPausedDrop : Nat := 1
def stStreamClosed : Nat := 2
def stNotOpen : Nat := 3
def stNotOwner : Nat := 4
def stBadOpcode : Nat := 5
def stBadField : Nat := 6
def stNoResource : Nat := 7
def stBusy : Nat := 8
def stWrongState : Nat := 9
def stBadAddr : Nat := 0xA
def stFaultStop : Nat := 0xB

/-! ### Streams (R3) -/

/-- Stream IDs and open streams of the variant: 16,384 or 8,192 (R3, IDN_CAPS). -/
def State.liveLimit (s : State) : Nat := if s.iy920 then 0x2000 else 0x4000

end Sys2Proof.Machine
end

