-- ==== Sys2Proof/Machine/Input.lean ====
section
/-! DEFINITION. The layout of a stream's input: frames, steps and halves of the input area, and free rows of a slice
(04_audio_front_end.md, R94, R95, R106). -/

namespace Sys2Proof.Machine

open Sys2Proof

/-! ### Frames (R94) -/

/-- Bytes of a frame: B bins of OELEM. -/
def AfeParams.frameBytes (a : AfeParams) : Nat := (if a.bins = 1 then 128 else 80) * (if a.oelem = 0xD then 4 else 2)

/-- Frames in a row: ⌊512 / F⌋. -/
def AfeParams.perRow (a : AfeParams) : Nat := 512 / a.frameBytes

/-- Hop in µs; 0 acts as 1 so that a block without a front end divides. -/
def AfeParams.hopUs (a : AfeParams) : Nat := max 1 (a.hop * 500)

/-- Frames of one step: step length / h, and one where the model's own block has RATE 0 (R93, R106). -/
def ImageHdr.framesPerStep (h : ImageHdr) : Nat := if h.afe.rate = 0 then 1 else h.step / h.afe.hopUs

/-- Rows that n frames take. -/
def AfeParams.rows (a : AfeParams) (n : Nat) : Nat := ceilDiv n a.perRow

/-- Byte offset of frame i of a chunk. -/
def AfeParams.frameAt (a : AfeParams) (i : Nat) : Nat := i / a.perRow * 512 + i % a.perRow * a.frameBytes

/-! ### The input area (R95, R106) -/

/-- Tiles of one half for `len` steps of an input kind: frames, or 128 tokens per row; a linked stream has no area. -/
def ImageHdr.halfTiles (h : ImageHdr) (inkind len : Nat) : Nat :=
  if inkind = 3 then 0
  else if inkind = 2 then ceilDiv (ceilDiv len 128) 32
  else ceilDiv (h.afe.rows (len * h.framesPerStep)) 32

/-- Bytes that a chunk of `len` steps needs in the host's buffer (R418): frames in the rows of R94, or 4 bytes a token. -/
def ImageHdr.inputNeed (h : ImageHdr) (inkind len : Nat) : Nat :=
  if inkind = 2 then 4 * len else h.afe.rows (len * h.framesPerStep) * 512

/-- Tiles of one half of a stream's area. -/
def State.halfTiles (s : State) (x : Stream) : Nat :=
  match s.slot? x.main with
  | some m => m.hdr.halfTiles x.inkind x.maxLen
  | none => 0

/-- SPM device address of a half. -/
def State.halfAddr (s : State) (x : Stream) (h : Nat) : Nat := x.input + h * s.halfTiles x * 16384

/-! ### The region map of a slice (Table 10-1, R268 to R271) -/

def rgnFirst (r : Word) : Nat := bits r 0 14
def rgnRows (r : Word) : Nat := bits r 14 14
def rgnKind (r : Word) : Nat := bits r 28 3

/-- A map entry of `n` rows from row `first`. -/
def rgnWord (first n kind : Nat) : Word := BitVec.ofNat 32 (first + n * 2 ^ 14 + kind * 2 ^ 28)

/-- Kind of a row: that of the lowest-numbered entry that holds it, FREE where none does (R271). -/
def Core.kindAt (k : Core) (r : Nat) : Nat :=
  ((k.regions.find? fun w => rgnFirst w ≤ r && r < rgnFirst w + rgnRows w).map rgnKind).getD 0

/-- The slice in runs of rows of one kind: first row, rows, kind. -/
def Core.segments (k : Core) : List (Nat × Nat × Nat) :=
  let used := k.regions.filter fun w => rgnRows w != 0
  let cuts := (sortBy id (0 :: 12288 :: used.flatMap fun w => [rgnFirst w, rgnFirst w + rgnRows w])).filter (· ≤ 12288)
  ((cuts.zip (cuts.drop 1)).filter fun c => c.1 < c.2).map fun c => (c.1, c.2 - c.1, k.kindAt c.1)

/-- Rows of a kind. -/
def Core.rowsOfKind (k : Core) (kind : Nat) : Nat := sumBy (fun g => if g.2.2 = kind then g.2.1 else 0) k.segments

/-- `n` rows from row `first` are all of a kind. -/
def Core.allOfKind (k : Core) (kind first n : Nat) : Bool :=
  first + n ≤ 12288 && k.segments.all fun g => g.2.2 == kind || first + n ≤ g.1 || g.1 + g.2.1 ≤ first

/-- First row and rows of the pinned entries (R271). -/
def Core.pinned (k : Core) : List (Nat × Nat) :=
  ((k.regions.zip k.rgnPins).filter fun r => r.2 && rgnRows r.1 != 0).map fun r => (rgnFirst r.1, rgnRows r.1)

/-- `n` rows from row `first` meet no pinned entry. -/
def Core.unpinned (k : Core) (first n : Nat) : Bool := !k.pinned.any fun p => p.1 < first + n && first < p.1 + p.2

/-- The longest run of whole tiles outside the pinned entries, in which the Saddler places what is its own: its rows lo to
hi − 1. -/
def Core.gap (k : Core) : Nat × Nat :=
  let ends := sortBy id (0 :: k.pinned.map fun p => (p.1 + p.2 + 31) / 32 * 32)
  let run (lo : Nat) : Nat × Nat :=
    (lo, ((k.pinned.filter fun p => lo ≤ p.1).map (·.1)).foldl min 12288 / 32 * 32)
  let runs := (ends.map run).filter fun r => r.1 < r.2 && k.unpinned r.1 (r.2 - r.1)
  runs.foldl (fun a r => if a.2 - a.1 < r.2 - r.1 then r else a) (0, 0)

/-- Rows of a slice that records have, or are being filled: device address and bytes. -/
def State.recordRanges (s : State) (c : Nat) : List (Nat × Nat) :=
  (s.work.streams.filterMap fun x => x.record.spm.map fun a => (a, x.record.tiles * 16384)).filter fun r => r.1 / 2 ^ 23 == c

/-- Rows of a slice that input areas have. -/
def State.inputRanges (s : State) (c : Nat) : List (Nat × Nat) :=
  (s.work.streams.map fun x => (x.input, 2 * s.halfTiles x * 16384)).filter fun r => r.2 != 0 && r.1 / 2 ^ 23 == c

/-- Rows of a launch area for `n` rows of `len` steps: descriptor, mask, row lengths and three tables (R386, Table 6-4). -/
def launchAreaRows (n len : Nat) : Nat :=
  1 + ceilDiv (ceilDiv (n * len) 8) 512 + ceilDiv (2 * n) 512 + 3 * ceilDiv (4 * n) 512

/-- Streams of a group. -/
def State.members (s : State) (g : Nat) : List Stream := s.work.streams.filter fun x => x.group == g

/-- Streams whose rows a group may launch: its own, or for a companion those of its main group (R376). -/
def State.launchers (s : State) (g : Group) : List Stream := s.members (g.companionOf.getD g.num)

/-- Rows that the records of the largest launch of one group take on a core: an equal share of the group's members, each at the
stride of the largest (R270, R340). -/
def State.stateFloor (s : State) (c : Nat) : Nat :=
  (s.work.groups.filter fun g => g.cores.getLsbD c).foldl (fun n g =>
    let xs := s.launchers g
    let most := xs.foldl (fun n x => max n x.record.tiles) 0
    max n (32 * most * ceilDiv xs.length (max 1 (coreList g.cores).length))) 0

/-- Rows of the launch areas of the groups on a core: those of the largest, with a step to spare for one that was held (R379). -/
def State.launchNeed (s : State) (c : Nat) : Nat :=
  (s.work.groups.filter fun g => g.cores.getLsbD c).foldl (fun n g =>
    let xs := s.launchers g
    let len := xs.foldl (fun n x => max n (x.maxLen + x.carriedSteps + 1)) 1
    max n (launchAreaRows (max 1 xs.length) len)) 0

/-- The entries that the Saddler writes for a core, in its gap: input areas from the bottom, then the launch area, staging, work,
and STATE at the top, which takes half of what input and launch areas leave, never less than its floor or than the records that
stand there (R270, notes/assumptions/110.md). -/
def State.saddlerMap (s : State) (c : Nat) : List Word :=
  let g := (s.core c).gap
  let row (a : Nat) : Nat := nbits a 0 23 / 512
  let inEnd := (s.inputRanges c).foldl (fun n r => max n (row (r.1 + r.2))) g.1
  let laEnd := min g.2 (inEnd + s.launchNeed c)
  let half := (g.2 - laEnd) / 64 * 32
  let recs := (s.recordRanges c).foldl (fun n r => min n (row r.1)) g.2
  let st := max laEnd (min recs (g.2 - max half (s.stateFloor c)))
  let stage := laEnd + (st - laEnd) / 4
  ([(st, g.2, 2), (g.1, inEnd, 3), (inEnd, laEnd, 6), (stage, st, 5), (laEnd, stage, 4)].filter fun e => e.1 < e.2.1).map
    fun e => rgnWord e.1 (e.2.1 - e.1) e.2.2

/-- Entries of a map that are not pinned take new words in turn, and are empty beyond them. -/
def fillMap : List (Word × Bool) → List Word → List Word
  | [], _ => []
  | (w, true) :: rest, ws => w :: fillMap rest ws
  | (_, false) :: rest, ws => ws.headD 0 :: fillMap rest (ws.drop 1)

/-- A group placed on core c lies between a launch decision and its chunk end. -/
def State.coreDecided (s : State) (c : Nat) : Bool := s.work.jobs.any fun j => j.cores.getLsbD c

/-- The Saddler writes a core's region map, between the launches of the groups placed on it (R270). -/
def State.mapCore (c : Nat) (s : State) : State :=
  if s.coreDecided c then s
  else
    let m := s.saddlerMap c
    s.updCore c fun k => { k with regions := fillMap (k.regions.zip k.rgnPins) m }

/-! ### Free rows -/

/-- The lowest start, on a tile boundary, of `n` bytes of a slice within `lo` to `hi` that meets none of the ranges `rs`. -/
def freeRows (c lo hi n : Nat) (rs : List (Nat × Nat)) : Option Nat :=
  let base := c * 2 ^ 23
  (sortBy id ((base + lo * 512) :: rs.map fun r => (r.1 + r.2 + 16383) / 16384 * 16384)).find? fun a =>
    base + lo * 512 ≤ a && a + n ≤ base + hi * 512 && !rs.any fun r => r.1 < a + n && a < r.1 + r.2

/-- The ranges of a slice that records and input areas have. -/
def State.sliceRanges (s : State) (c : Nat) : List (Nat × Nat) := s.recordRanges c ++ s.inputRanges c

/-- Staged copies of the launches that are decided: device address and bytes (R204). -/
def State.stagedRanges (s : State) (c : Nat) : List (Nat × Nat) :=
  (s.work.jobs.flatMap fun j => j.rows.flatMap fun r => r.staged.map fun q => (q.addr, 16384)).filter fun r => r.1 / 2 ^ 23 == c

/-- A place for an input area of `n` bytes in a slice: in the Saddler's gap, below the launch area and the floor of STATE, to which
`extra` rows are added (R95, R270). -/
def State.inputSpot (s : State) (c n extra : Nat) : Option Nat :=
  let g := (s.core c).gap
  freeRows c g.1 (g.2 - (s.launchNeed c + s.stateFloor c + extra)) n (s.sliceRanges c)

/-- A place for a record of `n` bytes in the STATE rows of a slice, outside the pinned entries; the records of `but` count as gone
(R339, R350). -/
def State.stateSpot (s : State) (c n : Nat) (but : List Nat) : Option Nat :=
  let k := s.core c
  let rs := ((s.work.streams.filter fun x => !but.contains x.id).filterMap fun x =>
    x.record.spm.map fun a => (a, x.record.tiles * 16384)) ++ s.inputRanges c
  (k.segments.filter fun g => g.2.2 == 2).findSome? fun g =>
    (freeRows c ((g.1 + 31) / 32 * 32) (g.1 + g.2.1) n rs).filter fun a => k.unpinned (nbits a 9 14) (n / 512)

/-- A place for a staged copy in the STAGE rows of a slice (R204). -/
def State.stageSpot (s : State) (c : Nat) (taken : List (Nat × Nat)) : Option Nat :=
  let k := s.core c
  (k.segments.filter fun g => g.2.2 == 4).findSome? fun g =>
    (freeRows c ((g.1 + 31) / 32 * 32) (g.1 + g.2.1) 16384 (taken ++ s.stagedRanges c ++ s.sliceRanges c)).filter fun a =>
      k.unpinned (nbits a 9 14) 32

end Sys2Proof.Machine
end

