-- ==== Sys2Proof/Machine/Num.lean ====
section
/-! DEFINITION. Numbers: the element formats, exact arithmetic, rounding and narrowing (05_matrix_engine_and_gates.md, R109 to
R124; R176 to R181). Values between roundings are exact. -/

namespace Sys2Proof.Machine

open Sys2Proof

/-- A value before rounding: NaN, an infinity, or ±m × 2^e; m = 0 is a zero with its sign. -/
inductive FV where
  | nan
  | inf (neg : Bool)
  | fin (neg : Bool) (m : Nat) (e : Int)
  deriving DecidableEq, Repr

/-! ### Formats (Tables 5-1 and 5-2) -/

/-- A floating-point format: its bits, its mantissa bits, its bias, the codes (without sign) of its largest finite value, of
infinity and of the NaN it writes; formats without an infinity or a NaN have none. -/
structure FloatFmt where
  bits : Nat
  mb : Nat
  bias : Int
  maxCode : Nat
  infCode : Option Nat
  nanCode : Option Nat
  deriving DecidableEq, Repr

def fmtFP32 : FloatFmt := ⟨32, 23, 127, 0x7F7FFFFF, some 0x7F800000, some 0x7FC00000⟩
def fmtBF16 : FloatFmt := ⟨16, 7, 127, 0x7F7F, some 0x7F80, some 0x7FC0⟩
def fmtFP16 : FloatFmt := ⟨16, 10, 15, 0x7BFF, some 0x7C00, some 0x7E00⟩
def fmtE4M3 : FloatFmt := ⟨8, 3, 7, 0x7E, none, some 0x7F⟩
def fmtE5M2 : FloatFmt := ⟨8, 2, 15, 0x7B, some 0x7C, some 0x7E⟩
def fmtE3M2 : FloatFmt := ⟨6, 2, 3, 0x1F, none, none⟩
def fmtE2M3 : FloatFmt := ⟨6, 3, 1, 0x1F, none, none⟩
def fmtE2M1 : FloatFmt := ⟨4, 1, 1, 0x7, none, none⟩

/-- Exponent of the last place of the subnormals. -/
def FloatFmt.emin (f : FloatFmt) : Int := 1 - f.bias - f.mb

/-- The value of a pattern. -/
def FloatFmt.value (f : FloatFmt) (w : Nat) : FV :=
  let neg := nbits w (f.bits - 1) 1 == 1
  let c := w % 2 ^ (f.bits - 1)
  if some c = f.infCode then .inf neg
  else if c ≤ f.maxCode then
    (if c / 2 ^ f.mb = 0 then .fin neg (c % 2 ^ f.mb) f.emin
    else .fin neg (2 ^ f.mb + c % 2 ^ f.mb) (f.emin + (c / 2 ^ f.mb : Nat) - 1))
  else .nan

/-- The FP32 value of a word, and the largest and narrower formats by code. -/
def f32 (w : Word) : FV := fmtFP32.value w.toNat

/-! ### Exact arithmetic -/

def FV.neg : FV → FV
  | .nan => .nan
  | .inf s => .inf !s
  | .fin s m e => .fin (!s) m e

def FV.isZero : FV → Bool
  | .fin _ m _ => m == 0
  | _ => false

def FV.finite : FV → Bool
  | .fin _ _ _ => true
  | _ => false

/-- ±m × 2^e as an integer multiple of 2^q, q ≤ e. -/
def sigInt (s : Bool) (m : Nat) (e q : Int) : Int :=
  let v : Int := m * 2 ^ (e - q).toNat
  if s then -v else v

/-- Exact sum; a zero sum is +0 unless both terms are negative zeros (IEEE 754, nearest even). -/
def FV.add : FV → FV → FV
  | .nan, _ => .nan
  | _, .nan => .nan
  | .inf s, .inf t => if s == t then .inf s else .nan
  | .inf s, _ => .inf s
  | _, .inf t => .inf t
  | .fin s m e, .fin t n f =>
    let q := min e f
    let v := sigInt s m e q + sigInt t n f q
    if v = 0 then .fin (s && t) 0 q else .fin (v < 0) v.natAbs q

/-- Exact product. -/
def FV.mul : FV → FV → FV
  | .nan, _ => .nan
  | _, .nan => .nan
  | .inf s, .inf t => .inf (s != t)
  | .inf s, .fin t m _ => if m = 0 then .nan else .inf (s != t)
  | .fin s m _, .inf t => if m = 0 then .nan else .inf (s != t)
  | .fin s m e, .fin t n f => .fin (s != t) (m * n) (e + f)

def FV.sub (a b : FV) : FV := a.add b.neg

/-- Multiplication by 2^k. -/
def FV.scale (k : Int) : FV → FV
  | .fin s m e => .fin s m (e + k)
  | x => x

/-- The integer n, exactly. -/
def FV.ofInt (n : Int) : FV := .fin (n < 0) n.natAbs 0

/-- a < b on numbers that are not NaN; zeros are equal. -/
def FV.lt : FV → FV → Bool
  | .nan, _ => false
  | _, .nan => false
  | .inf s, .inf t => s && !t
  | .inf s, _ => s
  | _, .inf t => !t
  | .fin s m e, .fin t n f => sigInt s m e (min e f) < sigInt t n f (min e f)

def FV.eq : FV → FV → Bool
  | .nan, _ => false
  | _, .nan => false
  | .inf s, .inf t => s == t
  | .fin s m e, .fin t n f => sigInt s m e (min e f) == sigInt t n f (min e f)
  | _, _ => false

/-- The sign bit. -/
def FV.sign : FV → Bool
  | .nan => false
  | .inf s => s
  | .fin s _ _ => s

/-! ### Rounding (R121) -/

/-- A magnitude rounded to `p` bits with last place at least 2^`emin`: to nearest even, or stochastically by the random bits
given, which are added below the last place before truncation. -/
def roundMag (p : Nat) (emin : Int) (rnd : Option Nat) (m : Nat) (e : Int) : Nat × Int :=
  let len : Nat := if m = 0 then 0 else Nat.log2 m + 1
  let q := max (e + len - p) emin
  if q ≤ e then (m * 2 ^ (e - q).toNat, q)
  else
    let d := (q - e).toNat
    let hi := m / 2 ^ d
    match rnd with
    | none =>
      let lo := m % 2 ^ d
      (if 2 ^ d < 2 * lo ∨ (2 * lo = 2 ^ d ∧ hi % 2 = 1) then hi + 1 else hi, q)
    | some r => ((m + (if d ≤ 16 then r % 2 ^ d else r % 2 ^ 16 * 2 ^ (d - 16))) / 2 ^ d, q)

/-- Code, without sign, of a rounded magnitude; it may exceed the largest finite code. -/
def FloatFmt.code (f : FloatFmt) (h : Nat × Int) : Nat :=
  if h.1 < 2 ^ f.mb then h.1
  else if h.1 = 2 ^ (f.mb + 1) then ((h.2 + 1 - f.emin).toNat + 1) * 2 ^ f.mb
  else ((h.2 - f.emin).toNat + 1) * 2 ^ f.mb + (h.1 - 2 ^ f.mb)

/-- A pattern with its sign. -/
def FloatFmt.signed (f : FloatFmt) (neg : Bool) (c : Nat) : Nat := c + (if neg then 2 ^ (f.bits - 1) else 0)

/-- FP32, nearest even: overflow gives infinity, and every NaN is the quiet NaN 0x7FC0_0000 (R120, R176). -/
def r32 : FV → Word
  | .nan => 0x7FC00000
  | .inf s => BitVec.ofNat 32 (fmtFP32.signed s 0x7F800000)
  | .fin s m e =>
    let c := fmtFP32.code (roundMag 24 fmtFP32.emin none m e)
    BitVec.ofNat 32 (fmtFP32.signed s (min c 0x7F800000))

/-! ### FP32 operations -/

def fadd (a b : Word) : Word := r32 ((f32 a).add (f32 b))
def fsub (a b : Word) : Word := r32 ((f32 a).sub (f32 b))
def fmul (a b : Word) : Word := r32 ((f32 a).mul (f32 b))
/-- a × b + c, rounded once. -/
def fma (a b c : Word) : Word := r32 (((f32 a).mul (f32 b)).add (f32 c))

/-- The quotient of two magnitudes with enough bits, the last one sticky. -/
def divMag (m : Nat) (e : Int) (n : Nat) (f : Int) : Nat × Int :=
  let k := 64 + (if n = 0 then 0 else Nat.log2 n)
  let a := m * 2 ^ k
  (2 * (a / n) + (if a % n = 0 then 0 else 1), e - f - k - 1)

def FV.div : FV → FV → FV
  | .nan, _ => .nan
  | _, .nan => .nan
  | .inf _, .inf _ => .nan
  | .inf s, .fin t _ _ => .inf (s != t)
  | .fin s _ _, .inf t => .fin (s != t) 0 0
  | .fin s m e, .fin t n f =>
    if n = 0 then (if m = 0 then .nan else .inf (s != t))
    else
      let q := divMag m e n f
      .fin (s != t) q.1 q.2

/-- Correctly rounded quotient. -/
def fdiv (a b : Word) : Word := r32 ((f32 a).div (f32 b))

/-- Integer square root by bits, most significant first. -/
def isqrtGo (n : Nat) : Nat → Nat → Nat
  | 0, r => r
  | k + 1, r =>
    let c := r + 2 ^ k
    isqrtGo n k (if c * c ≤ n then c else r)

def isqrt (n : Nat) : Nat := isqrtGo n (Nat.log2 n / 2 + 1) 0

/-- The square root of a value that is not negative, correctly rounded to FP32. -/
def fsqrt : FV → Word
  | .nan => 0x7FC00000
  | .inf false => 0x7F800000
  | .inf true => 0x7FC00000
  | .fin s m e =>
    if m = 0 then r32 (.fin s 0 0)
    else if s then 0x7FC00000
    else
      let odd := e % 2 = 1
      let m' := (if odd then 2 * m else m) * 2 ^ 64
      let e' := (if odd then e - 1 else e) - 64
      let r := isqrt m'
      r32 (.fin false (2 * r + (if r * r = m' then 0 else 1)) (e' / 2 - 1))

def isNan (a : Word) : Bool := f32 a == .nan
def finite32 (a : Word) : Bool := (f32 a).finite

/-- The larger of two, with −0 below +0; NaN if either is NaN (Table 7-7). -/
def fmax (a b : Word) : Word :=
  if isNan a || isNan b then 0x7FC00000
  else if (f32 a).lt (f32 b) || ((f32 a).eq (f32 b) && (f32 a).sign) then b else a

/-- The smaller of two. -/
def fmin (a b : Word) : Word :=
  if isNan a || isNan b then 0x7FC00000
  else if (f32 b).lt (f32 a) || ((f32 a).eq (f32 b) && (f32 b).sign) then b else a

/-- Rounding to an integral value: nearest even, or the floor. -/
def FV.toInt (floor : Bool) : FV → Int
  | .fin s m e =>
    if 0 ≤ e then sigInt s m e 0
    else if floor then (sigInt s m 0 0) / 2 ^ (-e).toNat
    else
      let h := roundMag 4096 0 none m e
      sigInt s h.1 0 0
  | _ => 0

/-- A value rounded to an integral value; the sign of a zero result is the value's. -/
def FV.integral (floor : Bool) (x : FV) : FV :=
  match x with
  | .fin s m e =>
    if 0 ≤ e then .fin s m e
    else
      let v := x.toInt floor
      if v = 0 then .fin s 0 0 else .ofInt v
  | _ => x

/-- INT32 pattern of an integer, saturated to the INT32 range. -/
def satI32 (v : Int) : Word := BitVec.ofInt 32 (max (-(2 ^ 31)) (min (2 ^ 31 - 1) v))

/-! ### Narrowing (R121, R123, Table 5-6) -/

/-- What a narrowing did: nothing to count, a finite value saturated, an infinity written as a limit, or a NaN or an infinity
written as zero or as NaN. -/
inductive NarrowEv where
  | plain
  | sat
  | limit
  | special
  deriving DecidableEq, Repr

/-- Narrowing to a floating-point format. DESIGN CHOICE: the manual says only NaN where a NaN is written; the model writes the
positive quiet pattern of each format, 0x7FC0 in BF16, 0x7E00 in FP16, 0x7E in E5M2, 0x7F in E4M3 (notes/assumptions/93.md). -/
def FloatFmt.narrow (f : FloatFmt) (rnd : Option Nat) (nosat : Bool) : FV → Nat × NarrowEv
  | .nan => match f.nanCode with
    | some c => (c, .special)
    | none => (0, .special)
  | .inf s => match f.infCode with
    | some c => (f.signed s c, .plain)
    | none => match f.nanCode with
      | some c => if nosat then (c, .special) else (f.signed s f.maxCode, .limit)
      | none => (f.signed s f.maxCode, .limit)
  | .fin s m e =>
    let c := f.code (roundMag (f.mb + 1) f.emin rnd m e)
    if c ≤ f.maxCode then (f.signed s c, .plain)
    else if nosat then
      match f.infCode, f.nanCode with
      | some i, _ => (f.signed s i, .plain)
      | none, some n => (n, .plain)
      | none, none => (f.signed s f.maxCode, .sat)
    else if f.bits = 32 then (f.signed s 0x7F800000, .plain)
    else (f.signed s f.maxCode, .sat)

/-- Narrowing to a signed integer of `n` bits: the fraction is rounded, and the range limits saturate. -/
def narrowInt (n : Nat) (rnd : Option Nat) : FV → Nat × NarrowEv
  | .nan => (0, .special)
  | .inf s => (unsigned n (if s then -(2 ^ (n - 1)) else 2 ^ (n - 1) - 1), .limit)
  | .fin s m e =>
    let h := roundMag 4096 0 rnd m e
    let v := sigInt s h.1 h.2 0
    if v < -(2 ^ (n - 1)) then (unsigned n (-(2 ^ (n - 1))), .sat)
    else if 2 ^ (n - 1) - 1 < v then (unsigned n (2 ^ (n - 1) - 1), .sat)
    else (unsigned n v, .plain)

/-! ### Elements by format code (Tables 5-1, 7-1, 11-1) -/

/-- The floating-point format of a plain code. -/
def plainFloat (code : Nat) : Option FloatFmt :=
  match code with
  | 0x0 => some fmtBF16
  | 0x1 => some fmtFP16
  | 0x2 => some fmtE4M3
  | 0x3 => some fmtE5M2
  | 0x5 => some fmtE2M1
  | 0xD => some fmtFP32
  | _ => none

/-- The element format of an MX code; none for MXINT8. -/
def mxFloat (code : Nat) : Option FloatFmt :=
  match code with
  | 0x7 => some fmtE4M3
  | 0x8 => some fmtE5M2
  | 0x9 => some fmtE3M2
  | 0xA => some fmtE2M3
  | 0xB => some fmtE2M1
  | _ => none

/-- The code is an MX format. -/
def isMx (code : Nat) : Bool := 7 ≤ code && code ≤ 0xC

/-- Bits of one element, and bytes of an MX block with its scale (Table 11-1). -/
def elemBits (code : Nat) : Nat :=
  match code with
  | 0x0 => 16
  | 0x1 => 16
  | 0x5 => 4
  | 0x6 => 4
  | 0x9 => 6
  | 0xA => 6
  | 0xB => 4
  | 0xD => 32
  | 0xE => 32
  | _ => 8

def mxBytes (code : Nat) : Nat := 1 + 4 * elemBits code

/-- An integer format: INT8, INT4, MXINT8 (R113). -/
def isIntFmt (code : Nat) : Bool := code == 4 || code == 6 || code == 0xC

/-- The value of a pattern of an element, without its block's scale. An MXINT8 element is a multiple of 2^−6. -/
def elemValue (code w : Nat) : FV :=
  match code with
  | 0x4 => .ofInt (signed 8 (w % 256))
  | 0x6 => .ofInt (signed 4 (w % 16))
  | 0xC => (FV.ofInt (signed 8 (w % 256))).scale (-6)
  | _ =>
    match plainFloat code with
    | some f => f.value w
    | none =>
      match mxFloat code with
      | some f => f.value w
      | none => .nan

/-- Pattern i of a run of plain or 4-bit elements. -/
def packedElem (bits i : Nat) (bs : List Byte) : Nat :=
  if bits = 4 then nbits (bs.getD (i / 2) 0).toNat (4 * (i % 2)) 4
  else leNat ((bs.drop (i * (bits / 8))).take (bits / 8))

/-- Pattern k and scale byte of the MX block that starts a byte string. -/
def mxElem (code k : Nat) (blk : List Byte) : Nat :=
  let b := elemBits code
  if b = 6 then nbits (leNat ((blk.drop 1).take 24)) (6 * k) 6
  else packedElem b k (blk.drop 1)

/-- The value of an E8M0 scale byte (R110). -/
def scaleValue (b : Nat) : FV := if b = 255 then .nan else .fin false 1 ((b : Int) - 127)

/-- The first n values of a run in a format, in order: with the scale of each block for MX formats, which R118 keeps apart. -/
def runValues (code n : Nat) (bs : List Byte) : List FV :=
  if isMx code then
    (pieces (mxBytes code) (n / 32 + 1) bs).flatMap fun blk => (List.range 32).map fun k => elemValue code (mxElem code k blk)
  else (List.range n).map fun i => elemValue code (packedElem (elemBits code) i bs)

/-- Scale values of the first n / 32 blocks of a run; 1 for a plain format. -/
def runScales (code n : Nat) (bs : List Byte) : List FV :=
  if isMx code then (pieces (mxBytes code) (n / 32) bs).map fun blk => scaleValue (blk.getD 0 0).toNat
  else List.replicate (n / 32) (.fin false 1 0)

/-- Patterns of `bits` bits packed into bytes. -/
def packBits (bits : Nat) (ws : List Nat) : List Byte :=
  let v := (ws.foldr (fun w (acc : Nat) => acc * 2 ^ bits + w % 2 ^ bits) 0)
  leBytes ((ws.length * bits + 7) / 8) v

/-! ### Stochastic rounding and the core's generator (R121, R122) -/

/-- One value narrowed with a core's generator: the random bits it draws, and the generator after. -/
def drawRnd (rnd : Bool) (g : DWord) : Option Nat × DWord :=
  if rnd then (some (Config.rngBits g), Config.rngNext g) else (none, g)

/-- Tallies of a run of narrowings: saturations, infinities written as limits, specials, MX blocks given the NaN scale. -/
structure Tally where
  sat : Nat := 0
  limit : Nat := 0
  special : Nat := 0
  nanblk : Nat := 0
  deriving DecidableEq, Repr

def Tally.add (t : Tally) : NarrowEv → Tally
  | .plain => t
  | .sat => { t with sat := t.sat + 1 }
  | .limit => { t with limit := t.limit + 1 }
  | .special => { t with special := t.special + 1 }

/-- Narrowing of one value to a plain format (Table 5-6). -/
def narrowPlain (code : Nat) (r : Option Nat) (nosat : Bool) (x : FV) : Nat × NarrowEv :=
  match plainFloat code with
  | some f => f.narrow r nosat x
  | none => if code = 6 then narrowInt 4 r x else narrowInt 8 r x

/-- Patterns of a list of values, with the generator and the tallies threaded through in order. -/
def narrowList (code : Nat) (rnd nosat : Bool) (xs : List FV) (g : DWord) (t : Tally) : List Nat × DWord × Tally :=
  xs.foldl (fun acc x =>
    let d := drawRnd rnd acc.2.1
    let r := narrowPlain code d.1 nosat x
    (acc.1 ++ [r.1], d.2, acc.2.2.add r.2)) ([], g, t)

/-- ⌊log2⌋ of a magnitude. -/
def FV.log2 : FV → Int
  | .fin _ m e => e + Nat.log2 m
  | _ => 0

/-- emax of R124 by MX code. -/
def mxEmax (code : Nat) : Int :=
  match code with
  | 0x7 => 8
  | 0x8 => 15
  | 0x9 => 4
  | 0xA => 2
  | 0xB => 2
  | _ => 0

/-- An MX block of 32 values (R124): its bytes with the scale, the generator and the tallies after. -/
def narrowMx (code : Nat) (rnd nosat : Bool) (xs : List FV) (g : DWord) (t : Tally) : List Byte × DWord × Tally :=
  let bad := (xs.filter fun x => !x.finite).length
  let n := mxBytes code - 1
  if bad ≠ 0 then
    (0xFF :: List.replicate n 0, g, { t with special := t.special + bad, nanblk := t.nanblk + 1 })
  else
    let mags := xs.filter fun x => !x.isZero
    let ex : Int := match mags with
      | [] => -127
      | y :: ys =>
        let top := ys.foldl (fun (m : Int) z => max m z.log2) y.log2
        max (-127) (min 127 (top - mxEmax code))
    let one (acc : List Nat × DWord × Tally) (x : FV) : List Nat × DWord × Tally :=
      let d := drawRnd rnd acc.2.1
      let v := x.scale (-ex)
      let r := match mxFloat code with
        | some f => f.narrow d.1 nosat v
        | none => narrowInt 8 d.1 (v.scale 6)
      (acc.1 ++ [r.1], d.2, acc.2.2.add r.2)
    let r := xs.foldl one ([], g, t)
    (BitVec.ofInt 8 (ex + 127) :: packBits (elemBits code) r.1, r.2)

/-! ### The blocked layout (R309, R310) -/

/-- K_t: columns per tile row in row mode r. -/
def tileCols (code r : Nat) : Nat :=
  if isMx code then 32 * (16384 / (r * mxBytes code)) else 16384 * 8 / (r * elemBits code)

/-- Rows of a row-mode code. -/
def rowMode (c : Nat) : Nat := if c = 0 then 8 else if c = 1 then 16 else 32

/-- Byte offset of the element in row `g` and column `col` of a matrix of `cols` columns of a plain format. -/
def blockedAt (code r cols g col : Nat) : Nat :=
  let kt := tileCols code r
  16384 * (g / r * ceilDiv cols kt + col / kt) + g % r * (16384 / r) + col % kt * elemBits code / 8

/-- The bytes of one matrix row piece in a format, with the generator and tallies. -/
def narrowRow (code : Nat) (rnd nosat : Bool) (xs : List FV) (g : DWord) (t : Tally) : List Byte × DWord × Tally :=
  if isMx code then
    (pieces 32 (xs.length / 32 + 1) xs).foldl (fun acc blk =>
      let r := narrowMx code rnd nosat blk acc.2.1 acc.2.2
      (acc.1 ++ r.1, r.2)) ([], g, t)
  else
    let r := narrowList code rnd nosat xs g t
    (packBits (elemBits code) r.1, r.2)

end Sys2Proof.Machine
end

