-- ==== Sys2Proof/Machine/Real.lean ====
section
/-! DEFINITION. The real functions whose results the manual bounds: e^x, ln x, cosine and sine, to some 2^-100, and a result that
lies within a bound of such a value (R129, R178, R180, R216; 04_audio_front_end.md, R92). -/

namespace Sys2Proof.Machine

open Sys2Proof

/-- One in the fixed-point values of this file: 120 fraction bits. -/
def fixOne : Nat := 2 ^ 120

/-- ln 2 and π / 2 in fixed point. -/
def fixLn2 : Nat := 921350637599661305226344307672478454
def fixHalfPi : Nat := 2087946453251888179413438228831778873

/-- A finite value in fixed point, its magnitude rounded down. -/
def FV.fix : FV → Int
  | .fin s m e =>
    let v : Nat := if 0 ≤ e + 120 then m * 2 ^ (e + 120).toNat else m / 2 ^ (-(e + 120)).toNat
    if s then -(v : Int) else v
  | _ => 0

/-- A fixed-point value. -/
def FV.ofFix (v : Int) : FV := .fin (v < 0) v.natAbs (-120)

/-- The product of two fixed-point values that are not negative. -/
def fixMul (a b : Nat) : Nat := a * b / fixOne

/-- e^r for 0 ≤ r < ln 2: forty terms of the series. -/
def fixExp (r : Nat) : Nat := (List.range 40).foldr (fun i acc => fixOne + r * acc / ((i + 1) * fixOne)) fixOne

/-- e^x of a fixed-point x; beyond ±200 it stands for every result that overflows FP32 or rounds to zero. -/
def expFix (x : Int) : FV :=
  let x := max (-200 * (fixOne : Int)) (min (200 * (fixOne : Int)) x)
  let k := x / fixLn2
  .fin false (fixExp (x - k * fixLn2).toNat) (k - 120)

/-- 2 artanh(s) / s for 0 ≤ s ≤ 1/3: forty terms of the series in s². -/
def fixArtanh (s2 : Nat) : Nat := 2 * (List.range 40).foldr (fun i acc => fixOne / (2 * i + 1) + fixMul s2 acc) 0

/-- ln x of a positive value, in fixed point. -/
def FV.ln : FV → Int
  | .fin _ m e =>
    let k := Nat.log2 m
    let u := m * fixOne / 2 ^ k
    let s := (u - fixOne) * fixOne / (u + fixOne)
    (e + k) * fixLn2 + fixMul s (fixArtanh (fixMul s s))
  | _ => 0

/-- ln(1 + y) for 0 ≤ y ≤ 1, its relative precision kept for small y. -/
def FV.ln1p (y : FV) : FV :=
  let s := y.div ((FV.ofInt 2).add y)
  s.mul (.ofFix (fixArtanh (fixMul s.fix.toNat s.fix.toNat)))

/-- Cosine and sine of the angle `a` below π / 2, in fixed point. -/
def fixCosSin (a : Nat) : Int × Int :=
  let a2 := fixMul a a
  let go (k : Nat) : Int := (List.range 24).foldr (fun i (acc : Int) =>
    (fixOne : Int) - a2 * acc / (((2 * i + 1 + k) * (2 * i + 2 + k) : Nat) * fixOne)) fixOne
  (go 0, a * go 1 / fixOne)

/-- Cosine and sine of `p` / `n` of a turn. -/
def turnCosSin (p n : Nat) : FV × FV :=
  let q := 4 * (p % n) / n
  let r := 4 * (p % n) % n
  let cs := fixCosSin (fixHalfPi * r / n)
  let c := FV.ofFix cs.1
  let s := FV.ofFix cs.2
  if q = 0 then (c, s) else if q = 1 then (s.neg, c) else if q = 2 then (c.neg, s.neg) else (s, c.neg)

/-! ### Results within a bound -/

/-- |a − b| ≤ d. -/
def FV.within (a b d : FV) : Bool :=
  let x := a.sub b
  match x with
  | .fin _ m e => !d.lt (.fin false m e)
  | _ => false

/-- A result of which the manual gives a bound: the free word where it lies within `d` of the value, else the FP32 value nearest
to the value (notes/assumptions/32.md). -/
def bounded (free : Word) (x d : FV) : Word := if (f32 free).within x d then free else r32 x

/-- The magnitude of a value, divided by 2^k. -/
def FV.relBound (x : FV) (k : Nat) : FV :=
  match x with
  | .fin _ m e => .fin false m (e - k)
  | _ => .fin false 0 0

/-! ### The functions of Table 5-9 and their bounds (R129) -/

/-- The exact value of SIG 6, TANH 7, EXP 8 and SPLUS 9 at a finite value. -/
def gateReal (op : Nat) (x : FV) : FV :=
  let one := FV.ofInt 1
  match op with
  | 6 => one.div (one.add (expFix (-x.fix)))
  | 7 =>
    let y := expFix (2 * x.fix)
    (y.sub one).div (y.add one)
  | 8 => expFix x.fix
  | _ => if x.sign then (expFix x.fix).ln1p else x.add (expFix (-x.fix)).ln1p

/-- SIG and TANH lie within 2^−22 of the exact value, EXP and SPLUS within a relative 2^−21 of it. -/
def gateBound (op : Nat) (x : FV) : FV := if op ≤ 7 then .fin false 1 (-22) else x.relBound 21

/-! ### The functions of the fixed look-up tables (Table 7-8, R178 to R180) -/

/-- 1 / √(2π) in fixed point. -/
def fixNormal : Nat := 530285247811860281885121121780411960

/-- The distribution function Φ of the normal distribution at `n` / 16, |n| ≤ 128. -/
def normalCdf (n : Int) : FV :=
  let x2 : Nat := n.natAbs * n.natAbs
  let sum := (List.range 160).foldr (fun i acc => fixOne + x2 * acc / (256 * (2 * i + 3))) fixOne
  let half := (FV.ofFix (n * (sum / 16 : Nat))).mul ((expFix (-(x2 * fixOne / 512 : Nat))).mul (.ofFix fixNormal))
  (FV.fin false 1 (-1)).add half

/-- What table `b` interpolates, at the start of segment `k` of the upper or the lower half of table 6, or of the whole table. -/
def tableReal (b k : Nat) (upper : Bool) : FV :=
  let x : Int := (k : Int) - 128
  match b with
  | 0 => expFix (k * fixLn2 / 256 : Nat)
  | 1 => .ofFix (FV.fin false (256 + k) (-8)).ln
  | 2 => gateReal 6 (.fin (x < 0) x.natAbs (-4))
  | 3 => gateReal 7 (.fin (x < 0) x.natAbs (-4))
  | 4 => (FV.fin (x < 0) x.natAbs (-4)).mul (normalCdf x)
  | 5 => (FV.ofInt 256).div (.ofInt (256 + k))
  | _ => .ofFix (isqrt ((if upper then 64 else 128) * fixOne * fixOne / (128 + k)))

/-- How far an entry of a fixed table may lie from the value it stands for: with it every result keeps the bound of Table 7-8
(notes/assumptions/35.md). -/
def tableSlack (b : Nat) : FV :=
  .fin false 1 (if b = 2 then -13 else if b = 3 ∨ b = 4 then -18 else if b = 1 then -22 else -20)

/-- Value and slope of segment `k` of a fixed table: free entries within the slack of the values that interpolate the function,
with ln 1 = 0 exactly (R180). -/
def tablePair (b k : Nat) (free : Word × Word) : Word × Word :=
  let upper := b == 6 && 128 ≤ k
  let j := if upper then k - 128 else k
  let v := tableReal b j upper
  let d := (tableReal b (j + 1) upper).sub v
  (if b = 1 ∧ k = 0 then 0 else bounded free.1 v (tableSlack b), bounded free.2 d (tableSlack b))

end Sys2Proof.Machine
end

