-- ==== Sys2Proof/Machine/Feature.lean ====
section
/-! DEFINITION. The features of the audio front-end: its samples and their times, and the nine stages from samples to log-mel
values (04_audio_front_end.md, R88 to R92, R96, R97, Tables 4-1 to 4-3). -/

namespace Sys2Proof.Machine

open Sys2Proof

/-! ### Samples (R88, R90) -/

/-- Input rate in Hz by its code (Table 14-7). -/
def rateHz (code : Nat) : Nat :=
  if code = 0 then 8000 else if code = 1 then 16000 else if code = 2 then 24000 else if code = 3 then 32000
  else if code = 4 then 44100 else 48000

/-- Bytes of a sample by its format: S16LE, S24-in-32, F32. -/
def sampleBytes (sfmt : Nat) : Nat := if sfmt = 0 then 2 else 4

/-- FP32 value of a sample, and whether it was a NaN or an infinity (R90). -/
def sampleValue (sfmt w : Nat) : Word × Bool :=
  if sfmt = 0 then (r32 ((FV.ofInt (signed 16 (w % 2 ^ 16))).scale (-15)), false)
  else if sfmt = 1 then (r32 ((FV.ofInt (signed 24 (w % 2 ^ 24))).scale (-23)), false)
  else if finite32 (BitVec.ofNat 32 w) then (BitVec.ofNat 32 w, false) else (0, true)

/-! ### Rates and times (R96, R97, Table 4-3) -/

/-- Model rate in Hz by its code (Table 14-8). -/
def AfeParams.hz (a : AfeParams) : Nat := [0, 8000, 16000, 24000, 32000, 48000].getD a.rate 0

/-- Samples of a window and of a hop at the model rate. -/
def AfeParams.winLen (a : AfeParams) : Nat := a.wlen * a.hz / 2000
def AfeParams.hopLen (a : AfeParams) : Nat := a.hop * a.hz / 2000

/-- The input rate differs from the model rate. -/
def AfeStream.resamples (a : AfeStream) : Bool := rateHz a.rate != a.params.hz

/-- The group delay g in input samples (Table 4-2). -/
def AfeStream.delay (a : AfeStream) : Nat := if a.resamples then 16 else 0

/-- Input samples that the record keeps: the last W − h of input time, plus g; a part of a sample counts as one
(R96, notes/assumptions/118.md). -/
def AfeStream.histLen (a : AfeStream) : Nat := ceilDiv ((a.params.wlen - a.params.hop) * rateHz a.rate) 2000 + a.delay

/-- The input time that frame i of a chunk covers, from its first to beyond its last instant, in ns times the input rate: E_k +
(i + 1) h − W − g and W later (R97). -/
def AfeStream.frameSpan (a : AfeStream) (ek i : Nat) : Int × Int :=
  let r : Int := rateHz a.rate
  let start := ((ek : Int) + (i + 1) * (a.params.hop * 500000 : Nat) - (a.params.wlen * 500000 : Nat)) * r -
    (a.delay * 1000000000 : Nat)
  (start, start + (a.params.wlen * 500000 : Nat) * r)

/-- Sample m at the model rate, counted from the input time E_k − (W − h) − g at which the kept samples begin; `xs` are those and
the window's. Frame i begins at sample i h, which is the start of its span (R97). The coefficients of the resampling filter are the
implementation's: its output is uninterpreted (Table 4-2, notes/assumptions/24.md). -/
def AfeStream.modelSample (a : AfeStream) (xs : List Word) (m : Nat) : Word :=
  if a.resamples then Config.afeResample (rateHz a.rate) a.params.hz xs m else xs.getD m 0

/-- The samples of n frames at the model rate: W − h and n hops. -/
def AfeStream.modelSamples (a : AfeStream) (xs : List Word) (n : Nat) : List Word :=
  (List.range (a.params.winLen - a.params.hopLen + n * a.params.hopLen)).map (a.modelSample xs)

/-! ### Stages 3 to 6 (Table 4-2) -/

/-- Pre-emphasis y[n] = x[n] − α x[n − 1], in FP32 with each operation rounded; `pre` is the sample before the first. -/
def preEmphasis (alpha : Nat) (pre : Word) (xs : List Word) : List Word :=
  List.zipWith (fun x p => fsub x (fmul (r32 (.fin false alpha (-8))) p)) xs (pre :: xs)

/-- A sum in FP32, from the first term on (notes/assumptions/118.md). -/
def sum32 (xs : List Word) : Word := xs.foldl fadd 0

/-- The frame's mean subtracted. -/
def removeDc (xs : List Word) : List Word :=
  let m := r32 ((f32 (sum32 xs)).div (.ofInt xs.length))
  xs.map fun x => fsub x m

/-- Point n of a window of W′ points in the symmetric form, rounded to FP32 (R92). -/
def windowAt (shape len n : Nat) : Word :=
  let c (k : Nat) : FV := (turnCosSin (k * n) (len - 1)).1
  let q (a b : Int) : FV := (FV.ofInt a).div (.ofInt b)
  r32 (match shape with
    | 0 => (q 1 2).sub ((q 1 2).mul (c 1))
    | 1 => (q 54 100).sub ((q 46 100).mul (c 1))
    | 2 => ((q 42 100).sub ((q 1 2).mul (c 1))).add ((q 8 100).mul (c 2))
    | _ => FV.ofInt 1)

/-- FFT points N (Table 14-8). -/
def AfeParams.points (a : AfeParams) : Nat := if a.nfft = 0 then 256 else if a.nfft = 1 then 512 else 1024

/-- Bin k of the N-point transform of a windowed frame, which zeros follow: the sum of x[n] e^(−2πikn/N) in FP32, its factors rounded
to FP32 and its terms added from the first on (notes/assumptions/118.md). -/
def fftBin (points k : Nat) (xs : List Word) : Word × Word :=
  let ys := (List.range xs.length).zip xs
  let term (f : FV × FV → FV) (y : Nat × Word) : Word := fmul y.2 (r32 (f (turnCosSin (k * y.1) points)))
  (sum32 (ys.map (term (·.1))), sum32 (ys.map (term fun t => t.2.neg)))

/-! ### Stages 7 to 9 -/

/-- Power, or magnitude. -/
def spectrum (magnitude : Bool) (x : Word × Word) : Word :=
  let p := fadd (fmul x.1 x.1) (fmul x.2 x.2)
  if magnitude then fsqrt (f32 p) else p

/-- The upper band edge. -/
def AfeParams.high (a : AfeParams) : Nat := if a.fhigh = 0 then a.hz / 2 else a.fhigh

/-- Filters B. -/
def AfeParams.filters (a : AfeParams) : Nat := if a.bins = 1 then 128 else 80

/-- ln(1 + f / 700), to which mel(f) is proportional. -/
def melLn (f : Nat) : Int := ((FV.ofInt (700 + f)).div (.ofInt 700)).ln

/-- Point j of the B + 2 points that lie evenly spaced in mel from f_low to f_high, in Hz: 700 (10^(mel / 2595) − 1). -/
def AfeParams.melPoint (a : AfeParams) (j : Nat) : FV :=
  let lo := melLn a.flow
  let m := lo + (melLn a.high - lo) * j / (a.filters + 1)
  (FV.ofInt 700).mul ((expFix m).sub (FV.ofInt 1))

/-- Weight of FFT bin k in filter b, rounded to FP32: it rises linearly in Hz from point b to point b + 1 and falls to zero at point
b + 2, and an area-normalised filter is scaled by 2 / (f_(b+2) − f_b); none outside. -/
def AfeParams.melWeight (a : AfeParams) (b k : Nat) : Option Word :=
  let f := (FV.ofInt (k * a.hz : Nat)).div (.ofInt a.points)
  let p0 := a.melPoint b
  let p1 := a.melPoint (b + 1)
  let p2 := a.melPoint (b + 2)
  if !p0.lt f || !f.lt p2 then none
  else
    let w := if f.lt p1 then (f.sub p0).div (p1.sub p0) else (p2.sub f).div (p2.sub p1)
    some (r32 (if a.opts.testBit 2 then w.mul ((FV.ofInt 2).div (p2.sub p0)) else w))

/-- Output of filter b: the weighted sum of the spectrum, from the lowest bin on. -/
def AfeParams.melEnergy (a : AfeParams) (spec : List Word) (b : Nat) : Word :=
  sum32 (((List.range spec.length).zip spec).filterMap fun x => (a.melWeight b x.1).map fun w => fmul x.2 w)

/-- Format of the output element. -/
def AfeParams.fmt (a : AfeParams) : FloatFmt := if a.oelem = 0xD then fmtFP32 else if a.oelem = 1 then fmtFP16 else fmtBF16

/-- ln(max(E, 2^−e)), rounded once to nearest even in the output format. -/
def AfeParams.logMel (a : AfeParams) (e : Word) : Nat :=
  let floor : FV := .fin false 1 (-(a.loge : Int))
  let v := if (f32 e).lt floor then floor else f32 e
  (a.fmt.narrow none true (match v with
    | .fin _ _ _ => FV.ofFix v.ln
    | x => x)).1

/-! ### A chunk's frames -/

/-- A frame's B outputs from its samples after pre-emphasis (stages 5 to 9). -/
def AfeParams.features (a : AfeParams) (xs : List Word) : List Nat :=
  let ys := if a.opts.testBit 0 then removeDc xs else xs
  let ws := ((List.range ys.length).zip ys).map fun x => fmul x.2 (windowAt a.wshape ys.length x.1)
  let spec := (List.range (a.points / 2 + 1)).map fun k => spectrum (a.opts.testBit 1) (fftBin a.points k ws)
  (List.range a.filters).map fun b => a.logMel (a.melEnergy spec b)

/-- The frames of a chunk as bytes: bins in ascending order, little-endian (R91, R94). -/
def AfeStream.frames (a : AfeStream) (window : List Word) (n : Nat) : List (List Byte) :=
  let ys := preEmphasis a.params.alpha a.pre (a.modelSamples (a.hist ++ window) n)
  (List.range n).map fun i =>
    (a.params.features ((ys.drop (i * a.params.hopLen)).take a.params.winLen)).flatMap (leBytes (a.params.fmt.bits / 8))

/-- What is kept after a chunk of n frames: the last input samples, and the sample before the next chunk's first (R96). -/
def AfeStream.keep (a : AfeStream) (window : List Word) (n : Nat) : AfeStream :=
  let xs := a.hist ++ window
  let k := n * a.params.hopLen
  { a with
    hist := xs.drop (xs.length - a.histLen)
    pre := if k = 0 then a.pre else a.modelSample xs (k - 1) }

/-- The kept values zeroed, at open and at a re-anchor (R96). -/
def AfeStream.zeroed (a : AfeStream) : AfeStream := { a with hist := List.replicate a.histLen 0, pre := 0 }

end Sys2Proof.Machine
end

