-- ==== Sys2Proof/Machine/Rings.lean ====
section
/-! DEFINITION. Completions, events and interrupt vectors (14_host_rings.md, R402, R410, R425 to R428). -/

namespace Sys2Proof.Machine

open Sys2Proof

/-- A vector of a function is fired: a message, or the pending bit of a masked vector (R427). -/
def State.fireVector (f v : Nat) (s : State) : State :=
  let old := (s.hif.vectors.find? fun x => x.f == f && x.vec == v).getD ⟨f, v, false, false, 0⟩
  let new : IntVec := if old.masked then { old with pendingBit := true } else { old with fired := old.fired + 1 }
  let s := s.updHif fun h =>
    { h with vectors := new :: h.vectors.filter fun x => !(x.f == f && x.vec == v) }
  if old.masked then s else s.emit (.message f v)

/-- A vector is masked or unmasked; one that is unmasked with its pending bit set is sent then, as MSI-X defines (R427). -/
def State.setMask (f v : Nat) (m : Bool) (s : State) : State :=
  let old := (s.hif.vectors.find? fun x => x.f == f && x.vec == v).getD ⟨f, v, false, false, 0⟩
  let go := old.pendingBit && !m
  let new : IntVec := { old with masked := m, pendingBit := old.pendingBit && m, fired := old.fired + if go then 1 else 0 }
  let s := s.updHif fun h =>
    { h with vectors := new :: h.vectors.filter fun x => !(x.f == f && x.vec == v) }
  if go then s.emit (.message f v) else s

/-- What the host has configured takes effect: VFs, MSI-X masks and the link (R395, R427, notes/assumptions/10.md). -/
def State.hostConfig (c : HostConfig) (s : State) : State :=
  let s := s.updHif fun h => { h with vfs := min c.vfs 63, link := c.link % 64 }
  let s := s.forEach ((s.hif.vectors.map fun x => (x.f, x.vec)).filter fun x => !c.masks.contains x) fun x t => t.setMask x.1 x.2 false
  s.forEach c.masks fun x t => t.setMask x.1 x.2 true

/-- The completion (event = false) or the event vector of a group fires; its count and timer restart (R428). -/
def State.fireGroup (g : Nat) (event : Bool) (s : State) : State :=
  let r := s.rg g
  let v := if event then bits r.vec 8 5 else bits r.vec 0 5
  (s.updRg g fun r =>
    if event then { r with pendE := 0, firstE := none } else { r with pendC := 0, firstC := none }).fireVector
      (s.partFunc r.part) v

/-- One more entry is pending on a vector of a group; it fires on reaching CNT, where 0 acts as 1, or at once (R428). -/
def State.pendEntry (g : Nat) (event now : Bool) (s : State) : State :=
  let s := s.updRg g fun r =>
    if event then { r with pendE := r.pendE + 1, firstE := some (r.firstE.getD s.tb.now) }
    else { r with pendC := r.pendC + 1, firstC := some (r.firstC.getD s.tb.now) }
  let r := s.rg g
  let n := if event then r.pendE else r.pendC
  if now || max 1 (bits r.modr 0 8) ≤ n then s.fireGroup g event else s

/-- Words 0 to 6 and word 7 of an entry written to host memory as two ordered writes (R402); a write that fails is lost. -/
def State.writeEntry (a : Nat) (ws : List Word) (w7 : Nat) (s : State) : State :=
  if s.hostFails a 32 then s
  else (s.hostWrite a (bytesOfWords (takePad 0 7 ws))).hostWrite (a + 28) (leBytes 4 w7)

/-- PHASE of the k-th entry of a ring of S entries, in word 7 bit 31 (R402). -/
def phaseBit (k sz : Nat) : Nat := if k / sz % 2 = 0 then 2 ^ 31 else 0

/-- A completion is posted on ring k of group g at its next completion index (R400, R402), whatever the state of the
device: words 0 to 6, the low 31 bits of word 7, and whether the descriptor carries IRQ. -/
def State.postRaw (g k : Nat) (ws : List Word) (w7 : Nat) (irq : Bool) (s : State) : State :=
  let r := s.rg g
  let n := r.posted.getD k 0
  let sz := r.entries k
  let a := r.base k + 64 * sz + 32 * (n % sz)
  let s := s.writeEntry a ws (w7 % 2 ^ 31 + phaseBit n sz)
  let s := s.updRg g fun r => { r with posted := updAt k (· + 1) r.posted }
  s.pendEntry g false irq

/-- The device may post on group g: it is enabled and nothing stops the device (R431, R516). -/
def State.mayPost (s : State) (g : Nat) : Bool := s.alive && (s.rg g).en

/-- A completion on an enabled group; after fault stop nothing further is posted (R431). -/
def State.post (g k : Nat) (ws : List Word) (w7 : Nat) (irq : Bool) (s : State) : State :=
  if s.mayPost g then s.postRaw g k ws w7 irq else s

/-- Words 0 to 2 of a completion and its words 3 to 6 (Table 14-4). -/
def compWords (opc status stream : Nat) (tag : Word) (didx flags : Nat) (rest : List Word) : List Word :=
  [BitVec.ofNat 32 (opc % 256 + (status % 256) * 2 ^ 8 + (stream % 2 ^ 14) * 2 ^ 16), tag,
   BitVec.ofNat 32 (didx % 2 ^ 16 + (flags % 2 ^ 16) * 2 ^ 16)] ++ takePad 0 4 rest

/-- The completion of descriptor `d` of ring k of group g. -/
def State.complete (g k : Nat) (d : Desc) (status flags : Nat) (rest : List Word) (s : State) : State :=
  s.post g k (compWords d.opc status d.stream d.tag d.didx flags rest) 0 d.irq

/-- A command is complete: it leaves the list of commands in progress, and its completion is posted. -/
def State.finishCmd (g d : Nat) (status : Nat) (rest : List Word) (s : State) : State :=
  match (s.rg g).cmds.find? fun x => x.didx == d with
  | none => s
  | some x =>
    (s.updRg g fun r => { r with cmds := r.cmds.filter fun x => x.didx != d }).complete g 0 x status 0 rest

/-- The words of an event entry without LOST and PHASE (Table 14-15). -/
def eventWords (code : Nat) (stream : Option Nat) (time : Nat) (rest : List Word) : List Word :=
  let sv := match stream with
    | some i => (i % 2 ^ 14) * 2 ^ 16 + 2 ^ 30
    | none => 0
  [BitVec.ofNat 32 (code + sv), BitVec.ofNat 32 time, BitVec.ofNat 32 (time / 2 ^ 32)] ++ takePad 0 4 rest

/-- An event entry written at the next event index, with LOST, whatever the state of the device (R425). -/
def State.postEventRaw (g code : Nat) (stream : Option Nat) (rest : List Word) (now : Bool) (s : State) : State :=
  let r := s.rg g
  let sz := r.entries 3
  let a := r.base 3 + 32 * (r.evPosted % sz)
  let s := s.writeEntry a (eventWords code stream s.tb.now rest) (min r.lost 65535 + phaseBit r.evPosted sz)
  let s := s.updRg g fun r => { r with evPosted := r.evPosted + 1, lost := 0 }
  s.pendEntry g true now

/-- Entries posted that host software has not consumed (R425). -/
def RingGroup.unread (r : RingGroup) : Nat := (r.evPosted + 2 ^ 16 - r.evConsumer % 2 ^ 16) % 2 ^ 16

/-- An event for group g: posted while fewer than S − 2 entries are unread, else discarded and counted (R425). -/
def State.postEvent (g code : Nat) (stream : Option Nat) (rest : List Word) (now : Bool) (s : State) : State :=
  if s.mayPost g then
    let r := s.rg g
    if r.unread < r.entries 3 - 2 then s.postEventRaw g code stream rest now
    else (s.updRg g fun r => { r with lost := min 65535 (r.lost + 1) }).bump (ctrHif 2)
  else s

/-- A device event: on every enabled group whose DEVEVT is set (R426). -/
def State.devEvent (code : Nat) (rest : List Word) (s : State) : State :=
  s.forEach ((s.hif.rgs.filter fun r => r.en && r.devevt).map (·.num)) fun g t => t.postEvent g code none rest false

end Sys2Proof.Machine
end

