-- ==== Sys2Proof/Machine/Time.lean ====
section
/-! DEFINITION. The passage of time: the Cinch counter, its slew, tack holdover, and TIMEBASE events
(03_cinch_timebase.md, R60, R64, R68, Table 3-1). -/

namespace Sys2Proof.Machine

open Sys2Proof

/-- One nanosecond in the units of the accumulator. -/
def nsUnit : Int := 2 ^ 32

/-- One tack cycle, 30,517.578125 ns, in the same units (Table 3-1). -/
def tackUnit : Nat := 131072000000000

/-- CIN_RATE_ADJ as a signed number. -/
def State.rateAdj (s : State) : Int := signed 32 (s.reg 0x20018 % 2 ^ 32)

/-- The counter follows the master's time over the link; while the link is silent it does not (R72, Table 3-1). -/
def Timebase.follows (t : Timebase) : Bool := t.pairFollow && !t.linkLost

/-- What CIN_SLEW_LIMIT ppm adds per timebase clock, in units of 2^-32 ns, rounded down (notes/assumptions/6.md); a
follower reaches the master's time at 500 ppm (R439), and one whose link is silent slews as a device that is not paired. -/
def State.slewStep (s : State) : Int :=
  ((if s.tb.follows then 500 else s.reg 0x20024) * 2 ^ 32 / 1000000 : Nat)

/-- A value limited to ± b. -/
def clampInt (b x : Int) : Int := max (-b) (min b x)

/-- The slew removed in n clocks at `lim` per clock. -/
def slewPart (slew lim : Int) (n : Nat) : Int := clampInt (lim * n) slew

/-- The counter moved by a number of units of 2^-32 ns. -/
def Timebase.addUnits (u : Int) (t : Timebase) : Timebase :=
  let total := (t.now : Int) * nsUnit + t.frac + u
  { t with now := (total / nsUnit).toNat, frac := (total % nsUnit).toNat }

/-- The tack oscillator over n reference ns: its whole cycles are counted (R501). -/
def Timebase.tackPass (n : Nat) (t : Timebase) : Timebase × Nat :=
  let u := t.tackFrac + n * 2 ^ 32
  ({ t with tackCycles := t.tackCycles + u / tackUnit, tackFrac := u % tackUnit }, u / tackUnit)

/-- The largest drift over n ns of a holdover, in units: ±1 ppm of the PLL for 60 s and unspecified beyond; ±5 ppm or
±50 ppm of the tack oscillator (Table 3-1, R501). -/
def State.driftBound (s : State) (n : Nat) : Int :=
  let whole : Int := n * 2 ^ 32
  if s.tb.tackHold then whole * (if s.power.tackCal then 5 else 50) / 1000000
  else if s.reg 0x20044 < 60 then whole / 1000000
  else whole

/-- `n` ns of reference time pass (R60, R64). The counter follows the timebase PLL, or in tack holdover the tack
oscillator with the slew paused; in a holdover a free drift within its bound is added. -/
def State.elapse (n : Nat) (s : State) : State :=
  if !s.power.vtack then s
  else
    let drift := clampInt (s.driftBound n) (Config.holdoverDrift s.free)
    let tp := if s.power.oscStable then s.tb.tackPass n else (s.tb, 0)
    if s.tb.tackHold then ({ s with tb := tp.1.addUnits ((tp.2 * tackUnit : Nat) + drift) }).nextFree
    else
      let slew := slewPart s.tb.slew s.slewStep n
      let u : Int := n * (nsUnit + s.rateAdj) + slew
      let t := { tp.1 with slew := s.tb.slew - slew }
      if s.tb.holdover then ({ s with tb := t.addUnits (u + drift) }).nextFree
      else { s with tb := t.addUnits u }

/-- The clocks after which the counter first stands at or beyond `t` when the PLL drives it. -/
def State.clocksTo (s : State) (t : Nat) : Nat :=
  if t ≤ s.tb.now then 0
  else
    let need : Int := (t : Int) * nsUnit - ((s.tb.now : Int) * nsUnit + s.tb.frac)
    let base := nsUnit + s.rateAdj
    let lim := s.slewStep
    let sgn : Int := if s.tb.slew < 0 then -1 else 1
    let m : Nat := if lim ≤ 0 then 0 else ceilDiv s.tb.slew.natAbs lim.toNat
    let fast := base + sgn * lim
    if s.tb.slew ≠ 0 ∧ 0 < lim ∧ need ≤ (m : Int) * base + s.tb.slew then ceilDiv need.toNat fast.toNat
    else m + ceilDiv (need - ((m : Int) * base + s.tb.slew)).toNat base.toNat

/-- Time passes up to the moment an event with the Cinch time `t` falls. Without a holdover the counter runs to it clock
by clock; in a holdover, whose drift is free, the event itself says what the counter then reads, and the slew goes on in a
PLL holdover and pauses in tack holdover (R64). -/
def State.advanceTo (t : Nat) (s : State) : State :=
  if t ≤ s.tb.now then s
  else if s.tb.tackHold then s.updTb fun b => { (b.tackPass (t - b.now)).1 with now := t }
  else
    let e := s.elapse (s.clocksTo t)
    if s.tb.holdover then e.updTb fun b => { b with now := t } else e

/-- SLEWING: CIN_SLEW_PENDING, whole ns rounded away from zero so that it is zero only when no slew is left. -/
def Timebase.slewNs (t : Timebase) : Int :=
  if 0 ≤ t.slew then ceilDiv t.slew.toNat (2 ^ 32) else -(ceilDiv t.slew.natAbs (2 ^ 32) : Nat)

/-- A Bool as a bit. -/
def b01 (b : Bool) : Nat := if b then 1 else 0

/-- CIN_STATUS (Table 3-7). -/
def Timebase.status (t : Timebase) : Nat :=
  b01 t.refOk + 2 * b01 t.ppsLocked + 4 * b01 t.holdover + 8 * b01 t.timeCoarse + 16 * b01 t.timeSet +
    32 * b01 (t.slew != 0) + 64 * b01 t.pairLocked + 128 * b01 t.load.isSome

/-- A TIMEBASE event: condition 0 PPS lost, 1 REFCLK_T lost, 2 tack holdover, 3 Rein link lost; entry or exit (R68). -/
def State.timebaseEvent (cond : Nat) (entry : Bool) (s : State) : State :=
  s.devEvent 1 [BitVec.ofNat 32 s.tb.status, BitVec.ofNat 32 (cond + 256 * b01 entry)]

/-- CIN_CTRL.MODE. -/
def State.ppsMode (s : State) : Bool := s.reg 0x20000 % 2 == 1

/-- Acceptance window in ns; 0 acts as 1 µs (Table 3-8). -/
def State.ppsWindow (s : State) : Nat := max 1 (nbits (s.reg 0x20034) 0 16) * 1000

/-- Loss time in seconds; 0 acts as 1. -/
def State.ppsLossSec (s : State) : Nat := max 1 (nbits (s.reg 0x20034) 16 4)

/-- The counter takes a value in one step (R62). -/
def Timebase.loadTo (v : Nat) (t : Timebase) : Timebase :=
  { t with
    now := v, frac := 0, load := none, timeSet := true, timeCoarse := false
    edgeRef := t.edgeRef + (v : Int) - t.now }

/-- The PLL drives the counter again after tack holdover: TIME_COARSE is set and the paused slew resumes (R64, Table 3-1). -/
def Timebase.leaveTack (t : Timebase) : Timebase :=
  { t with tackHold := false, timeCoarse := t.timeCoarse || t.tackHold }

/-- ns added to the pending slew, which saturates at ±(2^31 − 1) ns (R64). -/
def Timebase.addSlew (ns : Int) (t : Timebase) : Timebase :=
  { t with slew := clampInt ((2 ^ 31 - 1) * nsUnit) (t.slew + ns * nsUnit) }

end Sys2Proof.Machine
end

