-- ==== Sys2Proof/Machine/Keeper.lean ====
section
/-! DEFINITION. The Keeper: records, staging buffers, commits and readout (16_faults_and_keeper.md, R468 to R476). -/

namespace Sys2Proof.Machine

open Sys2Proof

/-- Slots of the Keeper in MRAM (R468). -/
def keeperSlots : Nat := 16000

/-- The 4,096 bytes of a record with its header and CRC word (Table 16-9, R469). -/
def KRecord.bytes (r : KRecord) : List Byte :=
  let hdr := leBytes 4 0x4B504552 ++ leBytes 2 1 ++ leBytes 1 r.kind ++
    leBytes 1 (b01 r.timeSet + 2 * b01 r.timeCoarse + 4 * b01 r.holdup) ++
    leBytes 8 r.seq ++ leBytes 8 r.time ++ leBytes 8 r.tack ++ leBytes 4 r.boot.toNat ++ leBytes 4 r.fw.toNat ++
    leBytes 4 r.lost ++ leBytes 4 r.body.length ++ List.replicate 16 0
  let all := takePad 0 4092 (hdr ++ r.body)
  all ++ leBytes 4 (crc32c all)

/-- An event raises a record: it takes the next SEQ at that moment (R468) and a staging buffer, or waits for one (R472). -/
def State.addRecord (kind : Nat) (body : List Byte) (s : State) : State :=
  let k := s.keeper
  let r : KRecord :=
    { seq := k.lastSeq + 1, kind := kind, timeSet := s.tb.timeSet, timeCoarse := s.tb.timeCoarse, holdup := false
      time := s.tb.now, tack := s.tb.tackCycles, boot := BitVec.ofNat 32 (s.reg ctrBoots.off)
      fw := BitVec.ofNat 32 s.bridle.fwVer, lost := 0, body := body }
  s.updKeeper fun k =>
    if k.staged.length < 2 then { k with lastSeq := k.lastSeq + 1, staged := k.staged ++ [r] }
    else { k with lastSeq := k.lastSeq + 1, waiting := k.waiting ++ [r] }

/-- The device begins to commit the oldest staged record (R472). -/
def State.commitStart (s : State) : State :=
  if s.keeper.busy || s.keeper.staged.isEmpty then s else s.updKeeper fun k => { k with busy := true }

/-- A record written into its slot (SEQ − 1) mod 16,000 replaces the record that the slot held (R468). -/
def putRecord (r : KRecord) (slots : List KRecord) : List KRecord :=
  r :: slots.filter fun x => (x.seq - 1) % keeperSlots != (r.seq - 1) % keeperSlots

/-- The commit ends: the slot holds the record with the records dropped before it, and a waiting record takes the
buffer (R472). -/
def State.commitDone (s : State) : State :=
  let k := s.keeper
  match k.busy, k.staged with
  | true, r :: rest =>
    let r' := { r with lost := k.lost, holdup := s.power.powerFail }
    s.updKeeper fun k =>
      { k with slots := putRecord r' k.slots, busy := false, lost := 0
               staged := rest ++ k.waiting.take 1, waiting := k.waiting.drop 1 }
  | _, _ => s

/-- KPR_HEAD and KPR_OLDEST: SEQ of the newest and of the oldest valid record; 0 when none. -/
def Keeper.head (k : Keeper) : Nat := k.slots.foldl (fun m r => max m r.seq) 0
def Keeper.oldest (k : Keeper) : Nat := (minBy (·.seq) k.slots).elim 0 (·.seq)

/-- The valid record of a SEQ (R474). -/
def Keeper.find (k : Keeper) (seq : Nat) : Option KRecord := k.slots.find? fun r => r.seq == seq

/-- KPR_STATUS (Table 16-13). -/
def Keeper.status (k : Keeper) : Nat :=
  b01 k.fstop + 2 * k.cause + 16 * b01 k.prevFstop + 32 * b01 k.busy + 64 * b01 k.holdupOk

/-- Registers counted in the list of R471: the counters of the CIN, SDL, MEM, CXL, HIF and RNL blocks in ascending BAR0
offset, with their width in bytes. -/
def snapCounters : List (Nat × Bool) :=
  [(0x10080, false), (0x10084, false), (0x10088, false), (0x10090, false),
   (0x2003C, false), (0x20040, false), (0x20044, false), (0x20060, false),
   (0x30040, false), (0x30044, false), (0x30048, false), (0x3004C, false), (0x30050, false), (0x30054, false), (0x3005C, false),
   (0x50008, false), (0x5000C, false), (0x50010, false), (0x50014, false), (0x5001C, false)] ++
  (List.range 20).map (fun k => (0x50100 + 4 * k, false)) ++
  [(0x5040C, false), (0x50410, false), (0x50414, false), (0x50418, false), (0x5041C, false), (0x50420, false),
   (0x50528, false), (0x5052C, false), (0x50530, false), (0x50534, false), (0x50538, false), (0x5053C, false), (0x50540, false), (0x50544, false),
   (0x60008, false), (0x60110, false), (0x60114, false), (0x60210, false), (0x60214, false)] ++
  [(0x70028, true), (0x70040, false), (0x70044, false), (0x70048, false), (0x7004C, false), (0x70050, false), (0x70054, false),
   (0x70058, false), (0x7005C, false), (0x70064, false)]

/-- The counter list: pairs of a 32-bit offset and a 32-bit value; a 64-bit counter takes two pairs (R471). -/
def State.counterList (s : State) : List Byte :=
  snapCounters.flatMap fun c =>
    leBytes 4 c.1 ++ leBytes 4 (s.reg c.1) ++
      (if c.2 then leBytes 4 (c.1 + 4) ++ leBytes 4 (s.reg c.1 / 2 ^ 32) else [])

end Sys2Proof.Machine
end

