-- ==== Sys2Proof/Machine/Faults.lean ====
section
/-! DEFINITION. Job faults and fault stop as one shared operation (16_faults_and_keeper.md, R458 to R462, R471; R431). -/

namespace Sys2Proof.Machine

open Sys2Proof

/-- What is known of a job fault when it is detected (Tables 16-2 and 16-5). -/
structure FaultInfo where
  cause : Nat
  subcause : Nat
  core : Option Nat := none
  unit : Option Nat := none
  part : Option Nat := none
  grp : Option Nat := none
  model : Option Nat := none
  stream : Option Nat := none
  addr : Option Nat := none
  crcExp : Option Nat := none
  crcGot : Option Nat := none
  deriving DecidableEq, Repr

/-- A field of n bytes; all ones where it does not apply (R471). -/
def optBytes (n : Nat) (v : Option Nat) : List Byte :=
  match v with
  | some x => leBytes n x
  | none => List.replicate n 0xFF

/-- Pair state in the encoding of Table 15-2. -/
def PairState.code : PairState → Nat
  | .off => 0
  | .training => 1
  | .refused => 2
  | .syncing => 3
  | .paired => 4
  | .degraded => 5
  | .isolated => 6
  | .takeover => 7
  | .solo => 8

/-- The FAULT_STOP body from byte 64 (Table 16-5), with SECONDARY zero. -/
def State.faultBody (i : FaultInfo) (s : State) : List Byte :=
  leBytes 1 i.cause ++ leBytes 1 i.subcause ++ optBytes 2 i.core ++ optBytes 1 i.unit ++ optBytes 1 i.part ++
    optBytes 2 i.grp ++ optBytes 1 i.model ++ leBytes 1 s.pair.state.code ++ optBytes 2 i.stream ++ optBytes 8 i.addr ++
    optBytes 4 i.crcExp ++ optBytes 4 i.crcGot ++ leBytes 4 0 ++ List.replicate 16 0 ++ s.counterList

/-- SECONDARY put into a FAULT_STOP record: bytes 92 to 95 of the record. -/
def KRecord.setSecondary (n : Nat) (r : KRecord) : KRecord :=
  { r with body := r.body.take 28 ++ leBytes 4 n ++ r.body.drop 32 }

/-- A later job fault is counted in the record's SECONDARY field and changes nothing else (R460). -/
def Keeper.secondFault (k : Keeper) : Keeper :=
  let n := k.secondary + 1
  let f := updWhere (fun r : KRecord => some r.seq == k.faultSeq) (KRecord.setSecondary n)
  { k with secondary := n, staged := f k.staged, waiting := f k.waiting, slots := f k.slots }

/-- The entries of R431 on one enabled group: the FAULT_STOP event, one completion on each of rings 0 to 2, and both
vectors. -/
def State.faultEntries (cause seq g : Nat) (s : State) : State :=
  let c (k : Nat) (t : State) : State := t.postRaw g k (compWords 0 stFaultStop 0 0 0xFFFF 0 []) 0 false
  let s := s.postEventRaw g 6 none
    [BitVec.ofNat 32 cause, BitVec.ofNat 32 seq, BitVec.ofNat 32 (seq / 2 ^ 32)] true
  let s := c 2 (c 1 (c 0 s))
  s.fireGroup g false

/-- A flit sent on every bundle that is up. -/
def State.sendFlit (name : String) (args : List Nat) (s : State) : State :=
  s.forEach ((List.range 4).filter fun b => s.pair.bundles.getLsbD b) fun b t => t.emit (.flit name (b :: args))

/-- Every job, stream, record move and partner mirror of the device is lost (R462). -/
def State.loseAll (s : State) : State :=
  let s := s.updWork fun w => { w with jobs := [], moves := [], streams := [], groups := [] }
  let s := s.updPair fun p => { p with mirrors := [], mirPages := [], reserved := [], inbound := [], outbound := [], handback := none }
  s.updCores fun cs => cs.map fun c => { c with job := none, susp := none, flights := [], luq := [], saved := none }

/-- A job fault (R461): fault stop begins, or a later fault is only counted. -/
def State.fault (i : FaultInfo) (s : State) : State :=
  if s.keeper.fstop then s.updKeeper Keeper.secondFault
  else
    let seq := s.keeper.lastSeq + 1
    let s := s.addRecord 1 (s.faultBody i)
    let s := s.bump ctrFstop
    let s := s.sendFlit "FAULT" []
    let s := s.forEach ((s.hif.rgs.filter RingGroup.en).map (·.num)) (State.faultEntries i.cause seq)
    let s := s.loseAll
    let s := s.updPair fun p => { p with faultSent := true }
    s.updKeeper fun k =>
      { k with fstop := true, cause := i.cause, prevFstop := true, secondary := 0, faultSeq := some seq }

/-- Partition, group, model slot and row-0 stream of the job that runs on a core. -/
def State.jobInfo (s : State) (c : Nat) (i : FaultInfo) : FaultInfo :=
  match (s.core c).job.bind s.job? with
  | none => { i with core := some c, part := s.corePart? c }
  | some j =>
    let g := match j.kind with
      | .launch g => some g
      | _ => none
    let m := match j.kind with
      | .launch g => (s.group? g).map (·.model)
      | .modelLoad k => some k
      | .modelUnload k => some k
      | .prefixComp _ => none
    { i with core := some c, part := some j.part, grp := g, model := m, stream := (j.rows.head?).map (·.stream) }

/-- A trap of the control core (Table 16-3): COR_TRAP and COR_TRAP_ADDR record it, and it is a job fault of cause 3. -/
def State.trap (c code : Nat) (s : State) : State :=
  let addr := s.freeVal
  let s := (s.setReg (corBase c + 0xC) (code % 16 + 16)).updCore c fun x => { x with trapAddr := BitVec.ofNat 64 addr }
  (s.nextFree).fault (s.jobInfo c { cause := 3, subcause := code, unit := some 0, addr := some addr })

/-- A tile whose checksum does not match its tag (R300): counted, and a job fault of cause 1 found by a unit. -/
def State.tileMismatch (c : Option Nat) (unit addr got : Nat) (tag : Nat) (s : State) : State :=
  let s := s.bump (ctrMem 3)
  let i : FaultInfo :=
    { cause := 1, subcause := unit, unit := some unit, addr := some addr, crcExp := some tag, crcGot := some got }
  s.fault (match c with
    | some c => s.jobInfo c i
    | none => i)

/-- The CXL port that a device address of space 3 lies on: bit 43, or under INTLV that of its 4 KiB unit (R290, Table 10-6). -/
def portOf (a : Nat) : Nat := if nbits a 44 1 = 1 then (nbits a 0 44 / 4096) % 2 else nbits a 43 1

/-- An uncorrectable read: 1 SPM, 2 HBM, 3 CXL poison (Table 16-2): counted, and a job fault of cause 2. -/
def State.uncorrectable (c : Option Nat) (unit kind addr : Nat) (s : State) : State :=
  let s := match kind with
    | 1 => s.bump (ctrMem 1)
    | 2 => s.bump (ctrMem 2)
    | _ => s.bump (ctrCxlPoison (portOf addr))
  let i : FaultInfo := { cause := 2, subcause := kind, unit := some unit, addr := some addr }
  s.fault (match c with
    | some c => s.jobInfo c i
    | none => i)

end Sys2Proof.Machine
end

