-- ==== Sys2Proof/Machine/Codec.lean ====
section
/-! DEFINITION. The lossless coding of blocks and tiles: a pure function from bytes to bytes and its inverse
(09_skiver.md, R235 to R247). -/

namespace Sys2Proof.Machine

open Sys2Proof

/-- Bytes of an element: EW 0 is 8 bits, 1 is 16 bits, 2 is 32 bits (Table 9-1). -/
def ewBytes (ew : Nat) : Nat := if ew = 0 then 1 else if ew = 1 then 2 else 4

/-- Elements of a block. -/
def ewElems (ew : Nat) : Nat := 512 / ewBytes ew

/-- The elements of raw bytes. -/
def elemsOf (ew : Nat) (bs : List Byte) : List Nat := (pieces (ewBytes ew) (bs.length + 1) bs).map leNat

/-- A size rounded up to 8. -/
def roundUp8 (n : Nat) : Nat := (n + 7) / 8 * 8

/-- Bytes padded with zeros to n bytes. -/
def padTo (n : Nat) (bs : List Byte) : List Byte := bs ++ List.replicate (n - bs.length) 0

/-- Stored bytes of PACKED and of TABLED (Table 9-3). -/
def packedSize (ew nnz : Nat) : Nat := roundUp8 (8 + ewElems ew / 8 + nnz * ewBytes ew)
def tabledSize (ew nnz nesc : Nat) : Nat := roundUp8 (8 + ewElems ew / 8 + (nnz + 1) / 2 + nesc * ewBytes ew)

/-- The table a coding uses: fixed or of a slot, its number, its generation, and its entries. -/
structure TableUse where
  fixed : Bool
  slot : Nat
  gen : Nat
  entries : List Nat
  deriving DecidableEq, Repr

/-- A value that fits no entry is escaped by index 15 (R238). -/
def tableIndex (entries : List Nat) (v : Nat) : Nat :=
  match (entries.take 15).findIdx? (· == v) with
  | some k => k
  | none => 15

/-- A block header (Table 9-2). -/
def blockHeader (form ew : Nat) (tab : Option TableUse) (nnz nesc len : Nat) : List Byte :=
  let t := match tab with
    | some t => (if t.fixed then 1 else 0) * 16 + t.slot * 32 + (if t.fixed then 0 else t.gen) * 256
    | none => 0
  leBytes 8 (form + ew * 4 + t + nnz * 2 ^ 16 + nesc * 2 ^ 26 + len * 2 ^ 36)

/-- Bitmap of the elements: bit i is 1 when element i is not zero (R238). -/
def bitmapBytes (xs : List Nat) : List Byte :=
  (pieces 8 (xs.length + 1) xs).map fun p =>
    BitVec.ofNat 8 ((List.range 8).foldl (fun n i => if p.getD i 0 = 0 then n else n + 2 ^ i) 0)

/-- Indices, two in a byte, the earlier one in bits 3 to 0. -/
def nibbleBytes (xs : List Nat) : List Byte :=
  (pieces 2 (xs.length + 1) xs).map fun p => BitVec.ofNat 8 (p.getD 0 0 + 16 * p.getD 1 0)

/-- A stored block with its form and its escaped values. -/
structure StoredBlock where
  bytes : List Byte
  form : Nat
  esc : Nat
  tabled : Bool
  deriving DecidableEq, Repr

/-- The coding of one 512-byte row (R239). -/
def codeBlock (ew : Nat) (tab : Option TableUse) (row : List Byte) : StoredBlock :=
  let xs := elemsOf ew row
  let nz := xs.filter (· != 0)
  let nnz := nz.length
  if nnz = 0 then ⟨blockHeader 0 ew none 0 0 8, 0, 0, false⟩
  else
    let idx := match tab with
      | some t => nz.map (tableIndex t.entries)
      | none => []
    let esc := ((nz.zip idx).filter (·.2 == 15)).map (·.1)
    let useTab := tab.isSome && tabledSize ew nnz esc.length < packedSize ew nnz
    let size := if useTab then tabledSize ew nnz esc.length else packedSize ew nnz
    if 448 ≤ size then ⟨blockHeader 3 ew none nnz 0 520 ++ row, 3, 0, false⟩
    else if useTab then
      let body := blockHeader 2 ew tab nnz esc.length size ++ bitmapBytes xs ++ nibbleBytes idx ++
        esc.flatMap (leBytes (ewBytes ew))
      ⟨padTo size body, 2, esc.length, (tab.elim true fun t => !t.fixed)⟩
    else
      let body := blockHeader 1 ew none nnz 0 size ++ bitmapBytes xs ++ nz.flatMap (leBytes (ewBytes ew))
      ⟨padTo size body, 1, 0, false⟩

/-- A coded tile: its bytes, and what the counters and the block counts take from it (R249, R266). -/
structure CodedTile where
  bytes : List Byte
  uncoded : Bool
  /-- Blocks stored in each of the four forms, escaped values, and blocks that name the slot's generation. -/
  forms : List Nat
  esc : Nat
  named : Nat
  deriving DecidableEq, Repr

/-- The coding of a raw tile; 14,336 bytes or more are stored uncoded (R240). -/
def codeTile (ew : Nat) (tab : Option TableUse) (raw : List Byte) : CodedTile :=
  let bs := (pieces 512 33 raw).map (codeBlock ew tab)
  let body := bs.flatMap (·.bytes)
  let tlen := 8 + body.length
  if 14336 ≤ tlen then
    ⟨leBytes 8 (crc32c raw + 16392 * 2 ^ 32 + 2 ^ 47) ++ raw, true, [0, 0, 0, 0], 0, 0⟩
  else
    ⟨leBytes 8 (crc32c raw + tlen * 2 ^ 32) ++ body, false,
      (List.range 4).map fun f => (bs.filter (·.form == f)).length,
      bs.foldl (fun n b => n + b.esc) 0, (bs.filter (·.tabled)).length⟩

/-! ### Expansion (R238, R241, R242) -/

/-- Bit i of a bitmap. -/
def bitmapBit (bm : List Byte) (i : Nat) : Bool := (bm.getD (i / 8) 0).getLsbD (i % 8)

/-- The values of a TABLED block: each index is an entry below NVAL or takes the next escaped value; none where an index is
out of range or the escapes do not come out even. -/
def tabledValues (entries : List Nat) : List Nat → List Nat → Option (List Nat)
  | [], [] => some []
  | [], _ :: _ => none
  | 15 :: ks, e :: es => (tabledValues entries ks es).map (e :: ·)
  | 15 :: _, [] => none
  | k :: ks, es =>
    match entries[k]? with
    | some v => (tabledValues entries ks es).map (v :: ·)
    | none => none

/-- Values put back where the bitmap has ones. -/
def scatterValues : List Bool → List Nat → List Nat
  | [], _ => []
  | false :: bs, vs => 0 :: scatterValues bs vs
  | true :: bs, v :: vs => v :: scatterValues bs vs
  | true :: bs, [] => 0 :: scatterValues bs []

/-- The raw row of the block at the head of `bs`, and its LEN; none where R242 finds it malformed. `look` gives the entries
of the valid table that a header names: FIXED, SLOT, GEN, EW. -/
def expandBlock (look : Bool → Nat → Nat → Nat → Option (List Nat)) (bs : List Byte) : Option (List Byte × Nat) :=
  let h := leNat (bs.take 8)
  let form := nbits h 0 2
  let ew := nbits h 2 2
  let fixed := nbits h 4 1 == 1
  let slot := nbits h 5 3
  let gen := nbits h 8 1
  let nnz := nbits h 16 10
  let nesc := nbits h 26 10
  let len := nbits h 36 10
  let w := ewBytes ew
  let e := ewElems ew
  let want := if form = 0 then 8 else if form = 1 then packedSize ew nnz
    else if form = 2 then tabledSize ew nnz nesc else 520
  let unused := if form = 2 then fixed && (3 < slot || gen != 0) else (fixed || slot != 0 || gen != 0 || nesc != 0)
  if bs.length < 8 || ew == 3 || nbits h 9 7 != 0 || nbits h 46 18 != 0 || unused || e < nnz || nnz < nesc ||
      len != want || bs.length < len || (form == 0 && nnz != 0) then none
  else
    let body := (bs.take len).drop 8
    if form = 0 then some (List.replicate 512 0, len)
    else if form = 3 then
      if ((elemsOf ew body).filter (· != 0)).length = nnz then some (body, len) else none
    else
      let ones := (List.range e).map (bitmapBit body)
      let rest := body.drop (e / 8)
      if (ones.filter id).length ≠ nnz then none
      else if form = 1 then
        some ((scatterValues ones ((elemsOf ew rest).take nnz)).flatMap (leBytes w), len)
      else
        match look fixed slot gen ew with
        | none => none
        | some entries =>
          let idx := (List.range nnz).map fun k => nbits (rest.getD (k / 2) 0).toNat (4 * (k % 2)) 4
          let esc := (elemsOf ew (rest.drop ((nnz + 1) / 2))).take nesc
          (tabledValues entries idx esc).map fun vs => ((scatterValues ones vs).flatMap (leBytes w), len)

/-- n blocks in row order: the raw rows and the bytes used. -/
def expandBlocks (look : Bool → Nat → Nat → Nat → Option (List Nat)) : Nat → List Byte → Option (List Byte × Nat)
  | 0, _ => some ([], 0)
  | n + 1, bs =>
    match expandBlock look bs with
    | none => none
    | some (row, len) => (expandBlocks look n (bs.drop len)).map fun r => (row ++ r.1, len + r.2)

/-- Fields of a tile header (Table 9-4). -/
def tileCrc (bs : List Byte) : Nat := leNat (bs.take 4)
def tileLen (bs : List Byte) : Nat := nbits (leNat (bs.take 8)) 32 15
def tileUncoded (bs : List Byte) : Bool := nbits (leNat (bs.take 8)) 47 1 == 1

/-- The raw bytes of a coded tile before its checksum is compared; none where it is malformed (R242). -/
def expandRaw (look : Bool → Nat → Nat → Nat → Option (List Nat)) (bs : List Byte) : Option (List Byte) :=
  let tlen := tileLen bs
  if bs.length < tlen || tlen < 8 then none
  else if tileUncoded bs then (if tlen = 16392 then some ((bs.take tlen).drop 8) else none)
  else
    match expandBlocks look 32 ((bs.take tlen).drop 8) with
    | some (raw, n) => if 8 + n = tlen then some raw else none
    | none => none

/-- The slots and generations that the TABLED blocks of a stored tile name, one entry for each block (R249). -/
def namedBlocks : Nat → List Byte → List (Nat × Nat)
  | 0, _ => []
  | n + 1, bs =>
    if bs.isEmpty then [] else
      let h := leNat (bs.take 8)
      let rest := namedBlocks n (bs.drop (nbits h 36 10))
      if nbits h 0 2 = 2 ∧ nbits h 4 1 = 0 then (nbits h 5 3, nbits h 8 1) :: rest else rest

def tileNames (bs : List Byte) : List (Nat × Nat) :=
  if tileUncoded bs then [] else namedBlocks 32 ((bs.take (tileLen bs)).drop 8)

/-! ### Tables (R245 to R247) -/

/-- The fixed tables F0 to F3 (Table 9-5) and their element widths. -/
def fixedTable (k : Nat) : List Nat :=
  if k = 0 then [0x38, 0xB8, 0x30, 0xB0, 0x40, 0xC0, 0x28, 0xA8, 0x48, 0xC8, 0x20, 0xA0, 0x3C, 0xBC, 0x34]
  else if k = 1 then [0x01, 0xFF, 0x02, 0xFE, 0x03, 0xFD, 0x04, 0xFC, 0x05, 0xFB, 0x06, 0xFA, 0x07, 0xF9, 0xF8]
  else if k = 2 then [0x3F80, 0xBF80, 0x3F00, 0xBF00, 0x4000, 0xC000, 0x3E80, 0xBE80, 0x4080, 0xC080, 0x3E00, 0xBE00,
    0x3FC0, 0xBFC0, 0x4100]
  else [0x3C00, 0xBC00, 0x3800, 0xB800, 0x4000, 0xC000, 0x3400, 0xB400, 0x4400, 0xC400, 0x3000, 0xB000, 0x3E00, 0xBE00,
    0x4800]

def fixedEw (k : Nat) : Nat := if k < 2 then 0 else 1

/-- One occurrence of a value: counted where it is a candidate, made a candidate while there are fewer than 256 (R246). -/
def tallyOne (v : Nat) (cs : List (Nat × Nat)) : List (Nat × Nat) :=
  if cs.any (·.1 == v) then cs.map fun c => if c.1 == v then (c.1, c.2 + 1) else c
  else if cs.length < 256 then cs ++ [(v, 1)] else cs

/-- The table of a build pass: the 15 most frequent candidates, by falling count, then by rising pattern (R246). -/
def buildTable (ew : Nat) (group : List (List Byte)) : List Nat :=
  let cs := group.foldl (fun cs t => (elemsOf ew t).foldl (fun cs v => if v = 0 then cs else tallyOne v cs) cs) []
  let total := cs.foldl (fun n c => n + c.2) 0
  let key (c : Nat × Nat) : Nat := (total - c.2) * 2 ^ 32 + c.1
  let ins (acc : List (Nat × Nat)) (c : Nat × Nat) : List (Nat × Nat) :=
    acc.filter (fun x => key x < key c) ++ [c] ++ acc.filter (fun x => !(key x < key c))
  ((cs.foldl ins []).take 15).map (·.1)

/-! ### Packed frames and coded records (R243, R244) -/

/-- Directory entry i of a packed frame: page number, byte offset, TLEN. -/
def frameEntry (fr : List Byte) (i : Nat) : Nat × Nat × Nat :=
  (leNat ((fr.drop (16 * i)).take 4), leNat ((fr.drop (16 * i + 4)).take 2), leNat ((fr.drop (16 * i + 6)).take 2))

/-- Pages in a packed frame. -/
def frameCount (fr : List Byte) : Nat := leNat (fr.take 4)

/-- Where the next coded tile of a frame starts. -/
def frameNext (fr : List Byte) : Nat :=
  let n := frameCount fr
  if n = 0 then 512 else
    let e := frameEntry fr n
    roundUp8 (e.2.1 + e.2.2)

/-- Bytes from `off` replaced. -/
def patchBytes (fr : List Byte) (off : Nat) (bs : List Byte) : List Byte :=
  fr.take off ++ bs ++ fr.drop (off + bs.length)

/-- A coded tile added to a frame after its last page; none where the frame has no entry or no room left (R243). -/
def framePut (fr : List Byte) (page : Nat) (coded : List Byte) : Option (List Byte) :=
  let n := frameCount fr
  let o := frameNext fr
  if 31 ≤ n || 16384 < o + coded.length then none
  else
    let fr := patchBytes fr 0 (leBytes 4 (n + 1))
    let fr := patchBytes fr (16 * (n + 1)) (leBytes 4 page ++ leBytes 2 o ++ leBytes 2 coded.length)
    some (patchBytes fr o coded)

/-- The stored bytes of a page in a packed frame, by its last entry; none for a malformed entry (R242). Earlier entries of the same
number are of pages that have been freed. -/
def frameGet (fr : List Byte) (page : Nat) : Option (List Byte) :=
  match (((List.range (min 31 (frameCount fr))).map fun i => frameEntry fr (i + 1)).reverse).find? (·.1 == page) with
  | none => none
  | some e =>
    let bs := fr.drop e.2.1
    if e.2.1 % 8 = 0 ∧ e.2.1 + 8 ≤ 16384 ∧ e.2.1 + tileLen bs ≤ 16384 then some (bs.take (tileLen bs)) else none

/-- Directory bytes of a coded record of n tiles. -/
def recordDirBytes (n : Nat) : Nat := (4 * n + 63) / 64 * 64

/-- A coded state record: directory, then the coded tiles (R244). -/
def recordExtent (tiles : List (List Byte)) : List Byte :=
  let d := recordDirBytes tiles.length
  let offs := (tiles.foldl (fun (acc : List Nat × Nat) t => (acc.1 ++ [acc.2], acc.2 + t.length)) ([], d)).1
  padTo d (offs.flatMap (leBytes 4)) ++ tiles.flatten

/-- Stored bytes of tile i of a coded record; none for a malformed entry (R242). -/
def recordTile (ext : List Byte) (i : Nat) : Option (List Byte) :=
  let o := leNat ((ext.drop (4 * i)).take 4)
  let bs := ext.drop o
  if o % 8 = 0 ∧ o + 8 ≤ ext.length ∧ o + tileLen bs ≤ ext.length then some (bs.take (tileLen bs)) else none

end Sys2Proof.Machine
end

