-- ==== Sys2Proof/Machine/Tables.lean ====
section
/-! DEFINITION. The Skiver's table slots, their generations and block counts (09_skiver.md, R248 to R251). -/

namespace Sys2Proof.Machine

open Sys2Proof

def State.skvSlot (s : State) (p k : Nat) : SkvSlot :=
  (s.caches.skvSlots.find? fun x => x.part == p && x.slot == k).getD ⟨p, k, none, none, false, none⟩

def State.skvGen (s : State) (p k g : Nat) : SkvGen :=
  (s.caches.skvGens.find? fun x => x.part == p && x.slot == k && x.gen == g).getD ⟨p, k, g, 0, [], 0⟩

def State.updSkvSlot (p k : Nat) (f : SkvSlot → SkvSlot) (s : State) : State :=
  let new := f (s.skvSlot p k)
  s.updCaches fun c => { c with skvSlots := new :: c.skvSlots.filter fun x => !(x.part == p && x.slot == k) }

def State.updSkvGen (p k g : Nat) (f : SkvGen → SkvGen) (s : State) : State :=
  let new := f (s.skvGen p k g)
  s.updCaches fun c => { c with skvGens := new :: c.skvGens.filter fun x => !(x.part == p && x.slot == k && x.gen == g) }

/-- Bytes at an address of HBM or of the CXL tier (Table 10-6, spaces 1 to 3). -/
def State.stored (s : State) (a n : Nat) : List Byte :=
  let space := a / 2 ^ 60
  if space = 1 then s.dieRead (nbits a 40 4) (nbits a 0 38) n
  else if space = 2 then s.hbmRead (nbits a 40 5) (nbits a 0 37) n
  else if nbits a 44 1 = 1 then s.cxlIlRead (nbits a 0 44) n
  else s.cxlRead (nbits a 43 1) (nbits a 0 43) n

/-- The names in coded tiles back to back. -/
def tilesNames : Nat → List Byte → List (Nat × Nat)
  | 0, _ => []
  | n + 1, bs => if bs.isEmpty then [] else tileNames bs ++ tilesNames n (bs.drop (max 8 (tileLen bs)))

/-- What an SKC has stored still stands where it was stored: it has not been overwritten (R249). -/
def State.skcStands (s : State) (x : SkcObject) : Bool := tilesNames 64 (s.stored x.addr x.len) == x.names

/-- Block count of a generation (R248): the blocks of pages, records and weight runs, and those of what the tile programs have
stored. -/
def State.skvCount (s : State) (p k g : Nat) : Nat :=
  (s.skvGen p k g).count +
    sumBy (fun x : SkcObject => (x.names.filter (· == (k, g))).length)
      (s.caches.skcObjects.filter fun x => x.part == p && x.names.contains (k, g) && s.skcStands x)

/-- A generation is valid while it is current or while its block count is above zero (R250). -/
def State.skvValid (s : State) (p k g : Nat) : Bool := (s.skvSlot p k).cur == some g || 0 < s.skvCount p k g

/-- Entries of the valid table that a block header of partition p names (R242, R245, R247). -/
def State.skvLook (s : State) (p : Nat) (fixed : Bool) (slot gen ew : Nat) : Option (List Nat) :=
  if fixed then (if fixedEw slot = ew then some (fixedTable slot) else none)
  else if s.skvValid p slot gen && (s.skvGen p slot gen).ew == ew then some ((s.skvGen p slot gen).entries) else none

/-- The generation that a replacement writes: the non-current one, and 0 when none is current (R251, R253). -/
def SkvSlot.target (x : SkvSlot) : Nat :=
  match x.cur with
  | some g => 1 - g
  | none => 0

/-- Block counts of a stored object rise (R249). -/
def State.addNames (p : Nat) (names : List (Nat × Nat)) (s : State) : State :=
  s.forEach names fun n t => t.updSkvGen p n.1 n.2 fun x => { x with count := x.count + 1 }

/-- Block counts of a freed or overwritten object fall (R249). -/
def State.dropNames (p : Nat) (names : List (Nat × Nat)) (s : State) : State :=
  s.forEach names fun n t => t.updSkvGen p n.1 n.2 fun x => { x with count := x.count - 1 }

end Sys2Proof.Machine
end

