-- ==== Sys2Proof/Machine/RegRead.lean ====
section
/-! DEFINITION. What a register reads: gauges, status registers and the register rows of BAR0 (19_register_map.md and the
register tables of every chapter). -/

namespace Sys2Proof.Machine

open Sys2Proof

/-! ### Gauges (R234, R359, R394, R455) -/

/-- MEM_KV_TOTAL: pages in the pools of all started partitions. -/
def State.kvTotal (s : State) : Nat := sumBy s.partKvPages s.work.partStarted

/-- Pool frames of a partition in use: those of its pages in the SPM or HBM that the mirror pool has not lent; coded pages share a
packed frame (R243). -/
def State.kvUsed (s : State) (p : Nat) : Nat :=
  ((s.caches.pages.filter fun x => x.part == p && x.tier ≤ 1 && !x.lent).map fun x => (x.tier, x.frame)).eraseDups.length

/-- Free pages of a partition's pool. -/
def State.kvFree (s : State) (p : Nat) : Nat := s.partKvPages p - s.kvUsed p

/-- Records whose state satisfies `q`. -/
def State.records (s : State) (q : RecState → Bool) : Nat := (s.work.streams.filter fun x => q x.record.state).length

/-- SPM bytes held by records. -/
def State.resSpmBytes (s : State) : Nat :=
  sumBy (fun x : Stream => if x.record.spm.isSome then x.record.tiles * 16384 else 0) s.work.streams

/-- HBM bytes reserved as homes. -/
def State.resHbmBytes (s : State) : Nat :=
  sumBy (fun x : Stream =>
    (if x.record.home.isSome then x.record.tiles * 16384 else 0) +
      (if x.record.newHome.isSome then x.record.tiles * 16384 else 0)) s.work.streams

/-- CXL bytes stored in coded extents. -/
def State.resCxlBytes (s : State) : Nat :=
  sumBy (fun x : Stream => match x.record.ext with
    | some e => e.2
    | none => 0) s.work.streams

/-- Covered streams of this device (R449). -/
def State.covered (s : State) : Nat := (s.work.streams.filter (·.mirrored)).length

/-- AFE units reserved on a die and on the device (R101). -/
def State.afeUsedDie (s : State) (d : Nat) : Nat :=
  sumBy (fun x : Stream => match x.afe with
    | some a => if a.die == d then a.units else 0
    | none => 0) s.work.streams

def State.afeUsed (s : State) : Nat :=
  sumBy (fun x : Stream => match x.afe with
    | some a => a.units
    | none => 0) s.work.streams

/-! ### Composite registers -/

/-- DEVICE_ID: bytes 0 to 7 of the identity region (Table 17-5). -/
def State.idnRead (s : State) (off n : Nat) : List Byte := s.bridle.identity.read Config.identityByte off n

def State.deviceId (s : State) : Nat := leNat (s.idnRead 0 8)

/-- COR_ID (Table 19-8). -/
def State.corId (s : State) (c : Nat) : Nat :=
  let base := c + (c / 16) * 2 ^ 8 + (c % 16) * 2 ^ 12
  match s.corePart? c with
  | some p => base + p * 2 ^ 16 + 2 ^ 20 + (if s.partStarted p then 2 ^ 21 else 0)
  | none => base

/-- PSTATE of Table 19-9. -/
def PState.code : PState → Nat
  | .active => 0
  | .armed => 1
  | .doze => 2
  | .nap => 3
  | .deep => 4

/-- COR_STATUS (Table 19-9). -/
def State.corStatus (s : State) (c : Nat) : Nat :=
  let k := s.core c
  let grp := match k.job.bind s.job? with
    | some j => (match j.kind with
      | .launch g => g
      | _ => 0)
    | none => 0
  k.pstate.code + 8 * b01 k.job.isSome + 16 * b01 k.susp.isSome + 32 * (grp % 2 ^ 12)

/-- Word i of window w's descriptor (Table 10-3). -/
def Window.word (w : Window) (i : Nat) : Nat :=
  if i = 0 then w.word0.toNat % 2 ^ 30
  else if i = 1 then w.word1.toNat % 2 ^ 22
  else if i = 2 then min w.landed 16383 + 2 ^ 14 * b01 w.isOpen
  else 0

/-- RNL_STATUS (Table 15-4). -/
def State.rnlStatus (s : State) : Nat :=
  let p := s.pair
  p.state.code + p.bundles.toNat * 16 + 256 * b01 p.timeMaster + 512 * b01 p.sbAlive + 1024 * b01 p.partnerStarted +
    p.refuse * 2 ^ 12

/-- RNL_HANDBACK: the stored fields and GO while a hand-back is in progress. -/
def State.handbackReg (s : State) : Nat :=
  s.reg 0x70018 % 2 ^ 31 + (if s.pair.handback.isSome then 2 ^ 31 else 0)

/-- PWR_TMAX: the highest die temperature now (Table 18-9). -/
def State.tmax (s : State) : Nat := (List.range 21).foldl (fun m i => max m (s.reg (0xC00C0 + 4 * i))) 0

/-- Capping is engaged (R522). -/
def State.capping (s : State) : Bool := s.power.capPower || s.power.twarn

/-- PWR_STATUS (Table 18-10). -/
def State.pwrStatus (s : State) : Nat :=
  let p := s.power
  b01 p.ready + 2 * b01 p.tackCal + 4 * b01 s.capping + 8 * b01 p.twarn + 16 * b01 p.trip + 32 * p.lastReset +
    256 * b01 p.refmHold

/-- BRD_STATUS (Table 17-10) and BRD_BOOT. -/
def State.brdStatus (s : State) : Nat :=
  let b := s.bridle
  b01 b.owner.isSome + 2 * b01 b.recovery + 4 * b01 b.attExhausted + 8 * b01 b.idnLocked + 16 * b01 b.pufOk +
    32 * b.sessions.length

def State.brdBoot (s : State) : Nat :=
  s.bridle.outcome + 256 * b01 s.bridle.runningB + 512 * b01 s.bridle.otherOk

/-- MEM_HBM_AVAIL in MiB (R292): each enabled die's pair less its 16 spill areas. -/
def State.hbmAvail (s : State) : Nat :=
  ((List.range 10).filter s.dieOn).length * ((dieBytes - 16 * spillBytes) / 2 ^ 20)

/-- CXL_STATUS (Table 10-12) and CXL_CAP of a port. -/
def CxlPort.status (p : CxlPort) : Nat :=
  b01 p.up + 2 * p.width + 8 * p.speed + 32 * b01 p.ide

def State.port (s : State) (p : Nat) : CxlPort := s.board.ports.getD p ⟨false, 0, 0, false, 0⟩

def CxlPort.usable (p : CxlPort) : Nat := if p.up then p.cap else 0

/-- SKV_CUR and SKV_TAB (Tables 9-11, 9-13). -/
def State.skvCur (s : State) (p : Nat) : Nat :=
  (List.range 8).foldl (fun n k => match (s.skvSlot p k).cur with
    | some g => n + g * 2 ^ k + 2 ^ (8 + k)
    | none => n) 0

def State.skvTab (s : State) (p k g w : Nat) : Nat :=
  let t := s.skvGen p k g
  if w = 0 then t.ew + 4 * t.entries.length + 64 * b01 (s.skvValid p k g) else t.entries.getD (w - 1) 0

/-- The ring group a function has selected, when it may (R432). -/
def State.rgOf (s : State) (f : Nat) : Option RingGroup :=
  let r := s.rg (bits (s.func f).rgSel 0 10)
  if f == 0 || s.partFunc r.part == f then some r else none

/-! ### Register rows -/

/-- One row of a register table: offset of instance 0 from the start of BAR0 (or of a per-core window), instances and
their distance, width in bytes, the bits that are RW and those that are RWS, and W1C, W1S or WO behaviour. -/
structure RegRow where
  off : Nat
  count : Nat := 1
  stride : Nat := 4
  width : Nat := 4
  rw : Nat := 0
  rws : Nat := 0
  w1c : Nat := 0
  wo : Bool := false
  deriving DecidableEq, Repr

def all32 : Nat := 0xFFFFFFFF
def all64 : Nat := 0xFFFFFFFFFFFFFFFF

def rowsIdn : List RegRow :=
  [{ off := 0 }, { off := 4 }, { off := 8 }, { off := 0xC }, { off := 0x10, width := 8 }, { off := 0x18 }, { off := 0x1C },
   { off := 0x20, rw := 0xF }, { off := 0x24 }, { off := 0x28, w1c := 1 }, { off := 0x8000, count := 1024 }]

def rowsHif : List RegRow :=
  [{ off := 0x10000, rws := 1 }, { off := 0x10004 }, { off := 0x10010, rw := 0x3FF }, { off := 0x10014, rws := 0x3F },
   { off := 0x10018, rws := 0xFFFF }, { off := 0x1001C, rws := 0x1F1F }, { off := 0x10020, rw := 0xFFFFFF },
   { off := 0x10028, width := 8, rws := all64 - 0xFF },
   { off := 0x10030, count := 4, stride := 8, width := 8, rws := all64 - 0xFFF },
   { off := 0x10050 }, { off := 0x10054 }, { off := 0x10058 }, { off := 0x10080, count := 3 },
   { off := 0x1008C, w1c := 0xF }, { off := 0x10090 }]

def rowsCin : List RegRow :=
  [{ off := 0x20000, rw := 1, rws := 0xE }, { off := 0x20004 }, { off := 0x20008, width := 8 },
   { off := 0x20010, width := 8, rws := all64 }, { off := 0x20018, rw := all32 }, { off := 0x2001C, rw := all32, wo := true },
   { off := 0x20020 }, { off := 0x20024, rw := all32 }, { off := 0x20028, width := 8 }, { off := 0x20030 },
   { off := 0x20034, rws := 0xFFFFF }, { off := 0x20038, rw := all32 }, { off := 0x2003C, count := 3 },
   { off := 0x20048, count := 3, rws := all32 }, { off := 0x20054, count := 2 }, { off := 0x2005C, w1c := 0xF },
   { off := 0x20060 }]

def rowsSdl : List RegRow :=
  [{ off := 0x30000, rw := 3 }, { off := 0x30004 }, { off := 0x30008, width := 8, rws := all64 },
   { off := 0x30010, rws := all32 }, { off := 0x30014, count := 4, rw := all32 },
   { off := 0x30028, width := 8 }, { off := 0x30040, count := 6 }, { off := 0x30058, w1c := 0xBF }, { off := 0x3005C },
   { off := 0x30100, rw := 0x303FF }, { off := 0x30108, count := 16, stride := 8, width := 8 }]

def rowsPrt : List RegRow :=
  [{ off := 0x40000, count := 16, stride := 0x40, rw := 3 }, { off := 0x40004, count := 16, stride := 0x40, rws := 0x3F },
   { off := 0x40008, count := 16, stride := 0x40, rws := all32 }, { off := 0x4000C, count := 16, stride := 0x40, rws := all32 },
   { off := 0x40010, count := 16, stride := 0x40, rws := all32 }, { off := 0x40014, count := 16, stride := 0x40, rws := all32 },
   { off := 0x40018, count := 16, stride := 0x40, rws := all32 }, { off := 0x4001C, count := 16, stride := 0x40, rws := all32 },
   { off := 0x40020, count := 16, stride := 0x40, rws := all32 }, { off := 0x40024, count := 16, stride := 0x40, rws := all32 },
   { off := 0x40028, count := 16, stride := 0x40, rws := all32 }, { off := 0x4002C, count := 16, stride := 0x40 },
   { off := 0x40030, count := 16, stride := 0x40 }, { off := 0x40400 }, { off := 0x40404, w1c := 1 }]

def rowsMem : List RegRow :=
  [{ off := 0x50000, count := 6 }, { off := 0x50018, w1c := 0x0FFFFF1F }, { off := 0x5001C }, { off := 0x50100, count := 20 },
   { off := 0x50400, count := 9 }, { off := 0x50424, w1c := 0x3F }, { off := 0x50500, count := 4 },
   { off := 0x50510, count := 3, stride := 8, width := 8 }, { off := 0x50528, count := 8 }, { off := 0x50548, w1c := 0xFF },
   { off := 0x50600, count := 15, stride := 8, width := 8, rw := 0xFFFFFFFF00000001 }]

def rowsCxl : List RegRow :=
  [{ off := 0x60000, rws := 0xF }, { off := 0x60004, w1c := 0x1F }, { off := 0x60008 },
   { off := 0x60100, count := 2, stride := 0x100 }, { off := 0x60108, count := 2, stride := 0x100, width := 8 },
   { off := 0x60110, count := 2, stride := 0x100 }, { off := 0x60114, count := 2, stride := 0x100 }]

def rowsRnl : List RegRow :=
  [{ off := 0x70000, rw := 0x15, rws := 0xFF0A }, { off := 0x70004 }, { off := 0x70008, width := 8 },
   { off := 0x70010, rws := all32 }, { off := 0x70014, rw := all32, wo := true }, { off := 0x70018, rw := 0x800003FF },
   { off := 0x70020, count := 2 }, { off := 0x70028, width := 8 }, { off := 0x70040, count := 8 },
   { off := 0x70060, w1c := 0x3FF }, { off := 0x70064 }, { off := 0x70100, count := 16, rws := all32 },
   { off := 0x70200, count := 32 }, { off := 0x70280, count := 32, rw := all32 }]

def rowsSkv : List RegRow :=
  [{ off := 0x80000, rws := 3 }, { off := 0x80010, count := 8 }, { off := 0x80030, count := 2, stride := 8, width := 8 },
   { off := 0x80040, w1c := 0x7FF }, { off := 0x80044 }, { off := 0x80100, count := 16 }, { off := 0x81000, count := 4096 },
   { off := 0x85000, count := 256, stride := 8, width := 8 }]

def rowsAfe : List RegRow :=
  [{ off := 0x90000, count := 3 }, { off := 0x9000C, rws := all32 }, { off := 0x90010, count := 6 },
   { off := 0x90028, w1c := 0x7F }, { off := 0x9002C }, { off := 0x90040, count := 10 }]

def rowsKpr : List RegRow :=
  [{ off := 0xA0000 }, { off := 0xA0004, rw := 1 }, { off := 0xA0008, rws := 0x1FFFF },
   { off := 0xA0010, count := 2, stride := 8, width := 8 }, { off := 0xA0020, width := 8, rw := all64 }, { off := 0xA0028 },
   { off := 0xA0030, count := 3 }, { off := 0xA0040, w1c := 1 }, { off := 0xA0044 }, { off := 0xA1000, count := 1024 }]

def rowsBrd : List RegRow :=
  [{ off := 0xB0000, count := 3 }, { off := 0xB000C, rw := 1 }, { off := 0xB0010, count := 3 },
   { off := 0xB0020, count := 2, stride := 8, width := 8 }, { off := 0xB0030, count := 3 }, { off := 0xB003C, w1c := 0xF },
   { off := 0xB0040 }, { off := 0xB0044, rw := all32 }, { off := 0xB0140, count := 160 },
   { off := 0xB1000, count := 1024, rw := all32, wo := true }]

def rowsPwr : List RegRow :=
  [{ off := 0xC0000 }, { off := 0xC0004, rw := all32, wo := true }, { off := 0xC0008, width := 8 }, { off := 0xC0010, count := 2 },
   { off := 0xC0018, count := 3, rw := all32 }, { off := 0xC0024 }, { off := 0xC0028, count := 3 },
   { off := 0xC0034, w1c := 0x1F }, { off := 0xC0038 }, { off := 0xC0080, count := 10, rws := 0xF },
   { off := 0xC00C0, count := 21 }, { off := 0xC0140, count := 10 }]

/-- The per-core window (Table 19-7); offsets are relative to the window. -/
def rowsCor : List RegRow :=
  [{ off := 0 }, { off := 4 }, { off := 8, rw := 7 }, { off := 0xC }, { off := 0x10, width := 8 }, { off := 0x18 },
   { off := 0x1C, w1c := 1 }, { off := 0x100, count := 64 }, { off := 0x200, count := 8 }, { off := 0x220, w1c := 0xFF },
   { off := 0x228, width := 8, rw := all64 }, { off := 0x240, count := 7 }, { off := 0x25C, w1c := 0x7F },
   { off := 0x280, count := 4 }, { off := 0x290, w1c := 0xF }, { off := 0x2C0, count := 2 }, { off := 0x2C8, w1c := 3 },
   { off := 0x300, count := 4 }, { off := 0x310, w1c := 0xF }, { off := 0x340, count := 64 },
   { off := 0x440, count := 16, rws := 0x7FFFFFFF }, { off := 0x480 }, { off := 0x484, w1c := 1 }]

/-- Block of a BAR0 offset (Table 19-2); none in the reserved ranges of R528. -/
def blockOf (off : Nat) : Option Block :=
  if off < 0x10000 then some .idn else if off < 0x20000 then some .hif else if off < 0x30000 then some .cin
  else if off < 0x40000 then some .sdl else if off < 0x50000 then some .prt else if off < 0x60000 then some .mem
  else if off < 0x70000 then some .cxl else if off < 0x80000 then some .rnl else if off < 0x90000 then some .skv
  else if off < 0xA0000 then some .afe else if off < 0xB0000 then some .kpr else if off < 0xC0000 then some .brd
  else if off < 0xD0000 then some .pwr else if off < 0x100000 then none
  else if off < 0x1A0000 then some (.cor ((off - 0x100000) / 0x1000)) else none

def Block.rows : Block → List RegRow
  | .idn => rowsIdn
  | .hif => rowsHif
  | .cin => rowsCin
  | .sdl => rowsSdl
  | .prt => rowsPrt
  | .mem => rowsMem
  | .cxl => rowsCxl
  | .rnl => rowsRnl
  | .skv => rowsSkv
  | .afe => rowsAfe
  | .kpr => rowsKpr
  | .brd => rowsBrd
  | .pwr => rowsPwr
  | .cor _ => rowsCor

/-- A register found at an offset: its own offset, its instance number and its row. -/
structure RegAt where
  base : Nat
  inst : Nat
  row : RegRow
  deriving DecidableEq, Repr

/-- The instance of a row that contains an offset. -/
def RegRow.at? (r : RegRow) (start off : Nat) : Option RegAt :=
  let o := start + r.off
  let st := max r.stride r.width
  if o ≤ off ∧ (off - o) / st < r.count ∧ (off - o) % st < r.width then
    some ⟨o + (off - o) / st * st, (off - o) / st, r⟩
  else none

/-- Instances that belong to a die, stack or core the variant does not have (R2). -/
def State.reservedInst (s : State) (off : Nat) : Bool :=
  s.iy920 &&
    ((0x90054 ≤ off && off < 0x90068) || (0x50128 ≤ off && off < 0x50150) || (0xC0094 ≤ off && off < 0xC00A8) ||
     (0xC0154 ≤ off && off < 0xC0168) || (0xC00D8 ≤ off && off < 0xC00EC) || (0xC0100 ≤ off && off < 0xC0114) ||
     (0x150000 ≤ off && off < 0x1A0000))

/-- The register at a BAR0 offset. -/
def State.regAt (s : State) (off : Nat) : Option (Block × RegAt) :=
  match blockOf off with
  | none => none
  | some b =>
    let start := match b with
      | .cor c => corBase c
      | _ => 0
    if s.reservedInst off then none
    else (b.rows.findSome? fun r => r.at? start off).map fun a => (b, a)

/-- The block in whose counter an access of an offset is counted (R466, R528). -/
def State.countBlock (s : State) (off : Nat) : Block :=
  match blockOf off with
  | some (.cor c) => if s.iy920 && 80 ≤ c then .idn else .cor c
  | some b => b
  | none => .idn

/-! ### Values -/

/-- Value of a register of the HIF block that shows a ring group. -/
def RingGroup.regValue (r : RingGroup) (off : Nat) : Nat :=
  if off = 0x10014 then r.ctrl.toNat % 64
  else if off = 0x10018 then r.size.toNat
  else if off = 0x1001C then r.vec.toNat
  else if off = 0x10020 then r.modr.toNat
  else if off = 0x10028 then r.dbl.toNat
  else if off = 0x10050 then r.stopped.toNat
  else if off = 0x10054 then r.fetched.getD 0 0 % 2 ^ 16 + (r.fetched.getD 1 0 % 2 ^ 16) * 2 ^ 16
  else if off = 0x10058 then r.fetched.getD 2 0 % 2 ^ 16 + (r.evPosted % 2 ^ 16) * 2 ^ 16
  else r.base ((off - 0x10030) / 8)

/-- The current value of the register at its own offset, as function f sees it; selections and latches are f's. -/
def State.regValue (s : State) (f off : Nat) : Nat :=
  let norec (v : Nat) : Nat := if s.bridle.outcome == 0x20 then 0 else v
  if off = 0 then norec (if s.iy920 then 0x10920 else 0x940)
  else if off = 4 then norec s.bridle.inForce.dieEn.toNat
  else if off = 8 then norec (if s.iy920 then 0x20000050 else 0x400000A0)
  else if off = 0xC then norec s.bridle.inForce.version
  else if off = 0x10 then s.deviceId
  else if off = 0x18 then 0x10000
  else if off = 0x1C then leNat (s.idnRead 8 1) % 2
  else if off = 0x20 then bits (s.func f).idnSel 0 4
  else if 0x8000 ≤ off ∧ off < 0x9000 then leNat (s.idnRead (4096 * bits (s.func f).idnSel 0 4 + (off - 0x8000)) 4)
  else if off = 0x10004 then s.hif.link % 64 + 64 * b01 (!s.bridle.ideKeys.isEmpty)
  else if off = 0x10010 then bits (s.func f).rgSel 0 10
  else if 0x10014 ≤ off ∧ off < 0x1005C then (match s.rgOf f with
    | some r => r.regValue off
    | none => 0)
  else if off = 0x20000 then s.reg off % 16 + 16 * b01 s.tb.pairFollow
  else if off = 0x20004 then s.tb.status
  else if off = 0x20008 then s.tb.now
  else if off = 0x20020 then unsigned 32 s.tb.slewNs
  else if off = 0x20028 then s.tb.ppsStamp
  else if off = 0x20030 then unsigned 32 s.tb.ppsErr
  else if off = 0x30000 then s.reg off % 4 / 2 * 2 + b01 s.work.started
  else if off = 0x30004 then b01 s.work.started
  else if off = 0x30028 then s.beatIndex
  else if off = 0x30100 then (s.func f).accSel.toNat
  else if 0x30108 ≤ off ∧ off < 0x30188 then ((s.func f).accData.getD ((off - 0x30108) / 8) 0).toNat
  else if 0x40000 ≤ off ∧ off < 0x40400 then
    let p := (off - 0x40000) / 0x40
    let r := off % 0x40
    if r = 0 then b01 (s.partStarted p) + 2 * b01 (s.work.partReset.contains p) + 4 * b01 (s.partStarted p) +
      8 * b01 (s.work.partErr.contains p)
    else if r = 0x2C then (s.work.slots.filter fun x => x.part == p && x.state == .ready).length
    else if r = 0x30 then (s.work.streams.filter fun x => x.part == p).length
    else s.reg off
  else if off = 0x50000 then s.bridle.inForce.stackEn.toNat
  else if off = 0x50004 then s.hbmAvail
  else if off = 0x50400 then s.kvTotal
  else if off = 0x50404 then sumBy s.kvFree s.work.partStarted
  else if off = 0x50408 then s.caches.reclaim.length
  else if off = 0x50500 then s.records (· == .S)
  else if off = 0x50504 then s.records (· == .H)
  else if off = 0x50508 then s.records (· == .C)
  else if off = 0x5050C then s.records fun r => r != .S && r != .H && r != .C
  else if off = 0x50510 then s.resSpmBytes
  else if off = 0x50518 then s.resHbmBytes
  else if off = 0x50520 then s.resCxlBytes
  else if off = 0x60100 ∨ off = 0x60200 then (s.port ((off - 0x60100) / 0x100)).status
  else if off = 0x60108 ∨ off = 0x60208 then (s.port ((off - 0x60108) / 0x100)).usable
  else if off = 0x70004 then s.rnlStatus
  else if off = 0x70008 then (match s.pair.partner with
    | some i => i.deviceId
    | none => 0)
  else if off = 0x70018 then s.handbackReg
  else if off = 0x70020 then s.covered
  else if off = 0x70024 then s.pair.mirrors.length
  else if 0x80100 ≤ off ∧ off < 0x80140 then s.skvCur ((off - 0x80100) / 4)
  else if 0x81000 ≤ off ∧ off < 0x85000 then
    let i := (off - 0x81000) / 0x40
    s.skvTab (i / 16) (i / 2 % 8) (i % 2) (off % 0x40 / 4)
  else if 0x85000 ≤ off ∧ off < 0x85800 then
    let i := (off - 0x85000) / 8
    s.skvCount (i / 16) (i / 2 % 8) (i % 2) % 2 ^ 48
  else if off = 0x90000 then (if s.iy920 then 0x6000 else 0xC000)
  else if off = 0x90004 then 0x1400
  else if off = 0x90008 then s.afeUsed
  else if 0x90040 ≤ off ∧ off < 0x90068 then s.afeUsedDie ((off - 0x90040) / 4)
  else if off = 0xA0000 then s.keeper.status
  else if off = 0xA0004 then b01 (s.keeper.waiting.any fun r => r.kind == 7)
  else if off = 0xA0010 then s.keeper.head
  else if off = 0xA0018 then s.keeper.oldest
  else if off = 0xA0020 then (s.func f).kprSel.toNat
  else if off = 0xA0028 then b01 (s.func f).kprValid
  else if 0xA1000 ≤ off ∧ off < 0xA2000 then leNat (((s.func f).kprData.drop (off - 0xA1000)).take 4)
  else if off = 0xB0000 then s.brdStatus
  else if off = 0xB0004 then s.brdBoot
  else if off = 0xB0008 then s.bridle.fwVer
  else if off = 0xB000C then 4 * s.bridle.result
  else if 0xB0140 ≤ off ∧ off < 0xB03C0 then
    let i := off - 0xB0140
    leNat (((s.bridle.meas.getD (i / 0x40) []).drop (i % 0x40)).take 4)
  else if off = 0xC0000 then s.pwrStatus
  else if off = 0xC0024 then s.tmax
  else if 0x100000 ≤ off ∧ off < 0x1A0000 then
    let c := (off - 0x100000) / 0x1000
    let r := off % 0x1000
    if r = 0 then s.corId c
    else if r = 4 then s.corStatus c
    else if r = 0x10 then (s.core c).trapAddr.toNat
    else if 0x100 ≤ r ∧ r < 0x200 then ((s.core c).snap.getD ((r - 0x100) / 4) 0).toNat
    else if 0x340 ≤ r ∧ r < 0x440 then
      ((s.core c).windows.getD ((r - 0x340) / 16) ⟨0, 0, 0, false⟩).word (r % 16 / 4)
    else if 0x440 ≤ r ∧ r < 0x480 then ((s.core c).regions.getD ((r - 0x440) / 4) 0).toNat
    else s.reg off
  else s.reg off

end Sys2Proof.Machine
end

