-- ==== Sys2Proof/Machine/Access.lean ====
section
/-! DEFINITION. Device addresses, the limits of an access, windows into a slice, and what every instruction of a core has
in common (10_scratchpad_and_memory_tiers.md, R267 to R301). -/

namespace Sys2Proof.Machine

open Sys2Proof

/-! ### Device addresses (Table 10-6, R289 to R291) -/

/-- Where a device address lies. -/
inductive Loc where
  | spm (core b : Nat)
  | die (d o : Nat)
  | stack (k b : Nat)
  | cxl (port b : Nat)
  | cxlIl (o : Nat)
  | host (a : Nat)
  | partner (a : Nat)
  deriving DecidableEq, Repr

/-- The field of `len` bits at `lo` of a device address is everything it uses below bit 60. -/
def onlyBits (a lo len : Nat) : Bool := a % 2 ^ 60 == nbits a lo len * 2 ^ lo

/-- Bytes of the two-port interleave: twice the smaller capacity, when INTLV is set and both ports trained with equal
capacities (R294, R296). -/
def State.interleave (s : State) : Nat :=
  let a := (s.port 0).cap
  let b := (s.port 1).cap
  if nbits (s.reg 0x60000) 2 1 = 1 ∧ a = b ∧ 0 < a then 2 * a else 0

/-- `n` bytes from an address in space 5 lie where the partner, a device of the same variant (R5), can have such bytes: the
fields are those of the partner's space in [59:56], no other bit is set, and no slice, die pair or stack is left (R289, R291).
Which of its dies are enabled, and how much its CXL ports hold, only the partner knows. -/
def State.partnerFields (s : State) (a n : Nat) : Bool :=
  let t := nbits a 56 4
  let low := a % 2 ^ 56
  let dies := if s.iy920 then 5 else 10
  if t = 0 then low < 2 ^ 31 && nbits a 23 8 < 16 * dies && nbits a 0 23 + n ≤ 12288 * 512
  else if t = 1 then low == nbits a 40 4 * 2 ^ 40 + nbits a 0 38 && nbits a 40 4 < dies && nbits a 0 38 + n ≤ dieBytes
  else if t = 2 then low == nbits a 40 5 * 2 ^ 40 + nbits a 0 37 && nbits a 40 5 < 2 * dies && nbits a 0 37 + n ≤ stackBytes
  else t == 3 && low < 2 ^ 45

/-- The location of `n` bytes from a device address; none where R291 puts the access under the violation rule. An access
that starts inside a slice, a die pair, a stack or a port does not leave it. A port that trained and whose link went down
since is still there: its reads are poisoned (R295). -/
def State.locate (s : State) (a n : Nat) : Option Loc :=
  let space := a / 2 ^ 60
  if space = 0 then
    let c := nbits a 23 8
    let b := nbits a 0 23
    if onlyBits a 0 31 && s.coreOn c && b + n ≤ 12288 * 512 then some (.spm c b) else none
  else if space = 1 then
    let d := nbits a 40 4
    let o := nbits a 0 38
    if a % 2 ^ 60 == d * 2 ^ 40 + o && d < 10 && s.dieOn d && s.stackOn (2 * d) && s.stackOn (2 * d + 1) &&
        o + n ≤ dieBytes then some (.die d o) else none
  else if space = 2 then
    let k := nbits a 40 5
    let b := nbits a 0 37
    if a % 2 ^ 60 == k * 2 ^ 40 + b && k < 20 && s.stackOn k && b + n ≤ stackBytes then some (.stack k b) else none
  else if space = 3 then
    if nbits a 44 1 = 1 then
      let o := nbits a 0 44
      if onlyBits a 0 45 && o + n ≤ s.interleave then some (.cxlIl o) else none
    else
      let p := nbits a 43 1
      let b := nbits a 0 43
      if onlyBits a 0 44 && b + n ≤ (s.port p).cap then some (.cxl p b) else none
  else if space = 4 then some (.host (a % 2 ^ 60))
  else if space = 5 then (if s.partnerFields a n then some (.partner (a % 2 ^ 60)) else none)
  else none

/-- Device address of a die-pair offset, of a CXL byte, of an SPM byte. -/
def dieAddr (d o : Nat) : Nat := 2 ^ 60 + d * 2 ^ 40 + o
def spmAddr (c b : Nat) : Nat := c * 2 ^ 23 + b

/-- Bytes at a location. What the partner's memory holds is not in this device: each byte read over the link is a free
value (notes/assumptions/3.md). -/
def State.readLoc (s : State) (l : Loc) (n : Nat) : List Byte :=
  match l with
  | .spm c b => s.spmRead c b n
  | .die d o => s.dieRead d o n
  | .stack k b => s.hbmRead k b n
  | .cxl p b => s.cxlRead p b n
  | .cxlIl o => s.cxlIlRead o n
  | .host a => s.hostRead a n
  | .partner _ => (List.range n).map fun i => BitVec.ofNat 8 (Config.freeValue (s.free + i)).toNat

/-- Bytes written at a location of this device or of its host. A write to a port that is down is dropped (R295). -/
def State.writeLoc (l : Loc) (bs : List Byte) (s : State) : State :=
  match l with
  | .spm c b => s.spmWrite c b bs
  | .die d o => s.dieWrite d o bs
  | .stack k b => s.hbmWrite k b bs
  | .cxl p b => if (s.port p).up then s.cxlWrite p b bs else s
  | .cxlIl o => s.forEach (unitRuns 4096 (bs.length / 4096 + 2) o bs.length) fun r t =>
      let pb := cxlByte r.1
      if (s.port pb.1).up then t.cxlWrite pb.1 pb.2 ((bs.drop (r.1 - o)).take r.2) else t
  | .host a => if s.hostFails a bs.length then s else s.hostWrite a bs
  | .partner _ => s

/-- A read of `n` bytes at the location returns poisoned data: some of them lie on a port whose link is down (R295). -/
def State.poisoned (s : State) (l : Loc) (n : Nat) : Bool :=
  match l with
  | .cxl p _ => !(s.port p).up
  | .cxlIl o => (unitRuns 4096 (n / 4096 + 2) o n).any fun r => !(s.port (cxlByte r.1).1).up
  | _ => false

/-- A device address moved by a number of bytes, counted within its slice or its space's own bytes (R313); none where it
leaves them. -/
def addrAdd (a : Nat) (d : Int) : Option Nat :=
  let space := a / 2 ^ 60
  let w := if space = 5 then (let t := nbits a 56 4
      if t = 0 then 23 else if t = 1 then 38 else if t = 2 then 37 else 44)
    else if space = 0 then 23 else if space = 1 then 38 else if space = 2 then 37
    else if space = 3 then (if nbits a 44 1 = 1 then 44 else 43) else 60
  let lo : Int := ((a % 2 ^ w : Nat) : Int) + d
  if 0 ≤ lo ∧ lo < 2 ^ w then some (a / 2 ^ w * 2 ^ w + lo.toNat) else none

/-- The base of a move sets no bit that its space does not use: an SPM address names a row, so its bits [8:0] are zero (Table
10-6, R291); bytes within the row are counted from it (R313). -/
def baseOk (a : Nat) : Bool :=
  let space := a / 2 ^ 60
  !((space == 0 || (space == 5 && nbits a 56 4 == 0)) && a % 512 != 0)

/-- Bytes read at a device address; none where the access falls under the violation rule. -/
def State.devRead (s : State) (a n : Nat) : Option (List Byte) := (s.locate a n).map fun l => s.readLoc l n

/-! ### Windows into a slice (R280 to R284) -/

/-- Who writes into a slice from outside its core. -/
inductive Writer where
  | core (c : Nat)
  | partner
  | host
  deriving DecidableEq, Repr

def Window.first (w : Window) : Nat := bits w.word0 0 14
def Window.rows (w : Window) : Nat := bits w.word0 14 14
def Window.src (w : Window) : Nat := bits w.word0 28 2
def Window.srcid (w : Window) : Nat := bits w.word1 0 8
def Window.want (w : Window) : Nat := bits w.word1 8 14

/-- An open window holds a row. -/
def Window.holds (w : Window) (r : Nat) : Bool := w.isOpen && w.first ≤ r && r < w.first + w.rows

/-- A window admits a writer into the slice of core `owner`. -/
def State.admits (s : State) (owner : Nat) (w : Window) : Writer → Bool
  | .core c =>
    (w.src == 0 && s.corePart? c == s.corePart? owner && (s.corePart? c).isSome) || (w.src == 1 && w.srcid == c)
  | .partner => w.src == 2
  | .host => w.src == 3

/-- A row write of a core's slice from outside lands when an open window holds the row and admits the writer; it counts in
LANDED of every such window. Otherwise it is ignored and counted in COR_SPM_WIN_IGN (R280, R281). -/
def State.remoteRow (owner r : Nat) (wr : Writer) (off : Nat) (bs : List Byte) (s : State) : State :=
  let ok (w : Window) : Bool := w.holds r && s.admits owner w wr
  if (s.core owner).windows.any ok then
    (s.updCore owner fun k =>
      { k with windows := updWhere ok (fun w => { w with landed := min 16383 (w.landed + 1) }) k.windows }).spmWrite owner
        (r * 512 + off) bs
  else s.bump (ctrSpm owner 2)

/-- Bytes written into a slice from outside, row by row. -/
def State.remoteWrite (owner b : Nat) (wr : Writer) (bs : List Byte) (s : State) : State :=
  s.forEach (unitRuns 512 (bs.length / 512 + 2) b bs.length) fun r t =>
    t.remoteRow owner (r.1 / 512) wr (r.1 % 512) ((bs.drop (r.1 - b)).take r.2)

/-- A window is opened: its descriptor replaced and LANDED zero (R282). -/
def openWindow (w0 w1 : Word) : Window := ⟨w0 &&& 0x3FFFFFFF, w1 &&& 0x3FFFFF, 0, true⟩

/-- A window descriptor is legal (R284). -/
def windowLegal (w0 w1 : Word) : Bool :=
  let w := openWindow w0 w1
  0 < w.rows && w.first + w.rows ≤ 12288 && !(w.src == 1 && 159 < w.srcid)

/-- A declared read range of rows is free of every window that still waits: no open window with WANT above LANDED contains
it wholly (R283). -/
def Core.readReady (k : Core) (first n : Nat) : Bool :=
  !k.windows.any fun w =>
    w.isOpen && w.want != 0 && w.landed < w.want && w.first ≤ first && first + n ≤ w.first + w.rows

/-! ### Limits of a core's DM (R279, R361, R362) -/

/-- Dies that hold cores of partition p. -/
def State.partDies (s : State) (p : Nat) : List Nat :=
  (List.range 10).filter fun d => (coreList (s.partCores p)).any fun c => c / 16 == d

/-- Die-pair offset of a byte of a stack (R290 read backwards). -/
def stackOffset (k b : Nat) : Nat := b / 2048 * 4096 + (k % 2) * 2048 + b % 2048

/-- Bytes o to o + n - 1 of die d's space lie in partition p's share: in the spill areas of its own cores, or in the pool
of a die that holds its cores and outside the homes and pages that another partition keeps there. -/
def State.dieShare (s : State) (p d o n : Nat) : Bool :=
  (s.partDies p).contains d &&
  (if o < 16 * spillBytes then
    (coreList (s.partCores p)).any fun c =>
      c / 16 == d && (c % 16) * spillBytes ≤ o && o + n ≤ (c % 16 + 1) * spillBytes
  else
    !(s.work.streams.any fun x => x.part != p && x.record.die == d && (match x.record.home with
      | some h => h < o + n && o < h + x.record.tiles * 16384
      | none => false)) &&
    !(s.caches.pages.any fun x => x.part != p && x.tier == 1 && x.frame / 2 ^ 24 == d &&
      x.frame % 2 ^ 24 * 16384 < o + n && o < (x.frame % 2 ^ 24 + 1) * 16384) &&
    !(s.work.slots.any fun m => m.part != p && m.copies.any fun c => c.pieces.any fun q =>
      q.1 == d && q.2.1 < o + n && o < q.2.1 + q.2.2))

/-- CXL bytes outside the extents and pages of other partitions. -/
def State.cxlShare (s : State) (p a n : Nat) : Bool :=
  0 < s.partCxlGib p &&
  !(s.work.streams.any fun x => x.part != p && (match x.record.ext with
    | some e => e.1 % 2 ^ 60 < a + n && a < e.1 % 2 ^ 60 + e.2
    | none => false)) &&
  !(s.caches.pages.any fun x => x.part != p && x.tier == 2 && x.frame * 16384 < a + n && a < (x.frame + 1) * 16384)

/-- A core's DM may reach a location of `n` bytes (R279). The partner is reached only under R445. -/
def State.dmMay (s : State) (c : Nat) (l : Loc) (n : Nat) : Bool :=
  match s.corePart? c with
  | none => false
  | some p =>
    match l with
    | .spm o _ => o == c || (s.partCores p).getLsbD o
    | .die d o => s.dieShare p d o n
    | .stack k b => s.dieShare p (k / 2) (stackOffset k b) n
    | .cxl q b => s.cxlShare p (q * 2 ^ 43 + b) n
    | .cxlIl o => s.cxlShare p (2 ^ 44 + o) n
    | .host _ => true
    | .partner a => (s.pair.state == .syncing || s.pair.state == .paired) && nbits a 56 4 ≤ 2

/-- A location the DM of core c may use; none counts in COR_DM_BADADDR (R279, R291). -/
def State.dmLoc (s : State) (c a n : Nat) : Option Loc := (s.locate a n).filter fun l => s.dmMay c l n

/-- DM read: zeros and a count where the access is refused (R279); consuming poisoned data is a job fault (R295). -/
def State.dmRead (s : State) (c a n : Nat) : List Byte × State :=
  match s.dmLoc c a n with
  | some l =>
    if s.poisoned l n then (List.replicate n 0, s.uncorrectable (some c) 5 3 a)
    else (s.readLoc l n, match l with
      | .partner _ => { s with free := s.free + n }
      | _ => s)
  | none => (List.replicate n 0, s.bump (ctrSpm c 3))

/-- DM write: its own slice directly, another slice through its windows, the partner over the link; refused writes are
ignored and counted. -/
def State.dmWrite (c a : Nat) (bs : List Byte) (s : State) : State :=
  if s.keeper.fstop then s else
  match s.dmLoc c a bs.length with
  | none => s.bump (ctrSpm c 3)
  | some (.spm o b) => if o == c then s.spmWrite o b bs else s.remoteWrite o b (.core c) bs
  | some (.partner x) => s.emit (.flit "WRITE" (x :: bs.map BitVec.toNat))
  | some l => s.writeLoc l bs

/-! ### Instructions of a core -/

/-- Core c may issue an instruction: the device is alive, the core is enabled, ACTIVE, and runs a job
that is not suspended. -/
def State.canIssue (s : State) (c : Nat) : Bool :=
  s.alive && s.coreOn c && (match s.core? c with
    | some k => k.pstate == .active && (k.job.bind s.job?).any fun j => j.phase == .running
    | none => false)

/-- A corrected SPM row: the slice's owner stalls, and the row counts (R133, R297). -/
def State.spmCorrected (c : Nat) (s : State) : State := (s.bump (ctrMem 0)).bump (ctrMe c 4)

/-- Corrected errors of an access: SPM rows by the core that owns the slice, HBM words by stack (R293, R297). -/
def State.corrected (u : Upset) (s : State) : State :=
  (s.forEach u.spmCe State.spmCorrected).forEach u.hbmCe fun k t => t.bump (ctrHbmCe k)

/-- The errors that a reader meets (R293, R295, R297, R300): an uncorrectable read of a byte that it reads, and a tile whose checksum
differs, which it finds only where it reads the whole aligned tile, or verifies every tile that it moves. -/
def State.readErrors (core : Option Nat) (unit : Nat) (u : Upset) (reads : Nat → Bool) (every : Bool) (s : State) : State :=
  match u.uncorr with
  | some (kind, a) =>
    let space := a / 2 ^ 60
    let fits := (kind == 1 && space == 0) || (kind == 2 && (space == 1 || space == 2)) || (kind == 3 && space == 3)
    if fits && reads a then s.uncorrectable core unit kind a else s
  | none =>
    match u.badTile with
    | some (a, got) =>
      if every || (a % 16384 == 0 && (List.range 16384).all fun i => reads (a + i)) then
        s.tileMismatch core unit a got.toNat (crc32c ((s.devRead a 16384).getD []))
      else s
    | none => s

/-- What a read of ranges of device addresses outside a tile program meets, by the unit that reads: corrected errors, and those
above (R241, R300, R325). -/
def State.moveErrors (unit : Nat) (u : Upset) (ranges : List (Nat × Nat)) (s : State) : State :=
  (s.corrected u).readErrors none unit u (fun a => ranges.any fun r => r.1 ≤ a && a < r.1 + r.2) false

/-- A counter counts `n` more; nothing happens for none. -/
def State.tally (k : Counter) (n : Nat) (s : State) : State := if n = 0 then s else s.count k n

/-- Unit code of Table 16-5: the control core 0, ME 1, LU 2, VE 3, Skiver 4, DM 5. -/
def EngUnit.code : EngUnit → Nat
  | .cc => 0
  | .me => 1
  | .lu _ => 2
  | .ve => 3
  | .sk => 4
  | .dm => 5

/-! ### The scoreboard (R275, R276, R283) -/

/-- The range entries in flight: of the instructions issued and of the open scan contexts. -/
def Core.entries (k : Core) : List SbEntry :=
  (k.flights.filter (·.issued)).flatMap (·.entries) ++
    k.lu.flatMap fun x => match x with
      | some y => y.entries
      | none => []

/-- Two row ranges have a row in common. -/
def rowsMeet (a b : Nat × Nat) : Bool := a.1 < b.1 + b.2 && b.1 < a.1 + a.2

/-- An entry in flight of another unit overlaps a declared range, and one of the two is a write. -/
def SbEntry.against (d e : SbEntry) : Bool :=
  d.unit != e.unit && (d.write || e.write) && rowsMeet (d.first, d.rows) (e.first, e.rows)

/-- The scoreboard holds the issue of an instruction that declares `ds`: an overlap, or fewer free entries than it needs of
the 48. -/
def Core.sbHeld (k : Core) (ds : List SbEntry) : Bool :=
  (ds.any fun d => k.entries.any d.against) || 48 < k.entries.length + ds.length

/-- A window that still waits holds a declared read range that lies wholly within it (R283). -/
def Core.windowHeld (k : Core) (ds : List SbEntry) : Bool :=
  ds.any fun d => !d.write && d.rows != 0 && !k.readReady d.first d.rows

/-- A bank of 768 rows holds rows of both ranges (R267). -/
def banksMeet (a b : SbEntry) : Bool :=
  a.rows != 0 && b.rows != 0 && a.first / 768 ≤ (b.first + b.rows - 1) / 768 && b.first / 768 ≤ (a.first + a.rows - 1) / 768

/-- The other one of the matrix and the vector engine. -/
def EngUnit.banked (a b : EngUnit) : Bool := (a == .me && b == .ve) || (a == .ve && b == .me)

/-- Bank separation holds the issue of an ME or VE instruction while one of the other of the two engines, in flight, declares
a row of the same bank (R273). -/
def Core.bankHeld (k : Core) (ds : List SbEntry) : Bool :=
  ds.any fun d => k.entries.any fun e => d.unit.banked e.unit && banksMeet d e

/-- Declared ranges of a unit: the rows it reads and the rows it writes. -/
def declare (unit : EngUnit) (reads writes : List (Nat × Nat)) : List SbEntry :=
  (reads.map fun r => ⟨r.1, r.2, false, unit⟩) ++ writes.map fun r => ⟨r.1, r.2, true, unit⟩

/-- Ranges that hold rows. -/
def rowRanges (rs : List (Nat × Nat)) : List (Nat × Nat) := rs.filter fun r => r.2 != 0

/-- Rows that hold `n` bytes from byte `b` of a slice. -/
def rowsOf (b n : Nat) : Nat × Nat := (b / 512, if n = 0 then 0 else (b + n - 1) / 512 + 1 - b / 512)

/-- The rows from the lowest to the highest of a list of ranges, as one range: none for no rows
(notes/assumptions/99.md). -/
def hull (rs : List (Nat × Nat)) : List (Nat × Nat) :=
  match rowRanges rs with
  | [] => []
  | x :: xs =>
    let lo := xs.foldl (fun m y => min m y.1) x.1
    let hi := xs.foldl (fun m y => max m (y.1 + y.2)) (x.1 + x.2)
    [(lo, hi - lo)]

/-- What the control core finds when it takes up an instruction: the unit, the rows it must read to know what the instruction
declares, a trap, the ranges declared, and the scalars and descriptor words that the instruction captures. -/
structure OpPlan where
  unit : EngUnit
  /-- Held whatever the scoreboard says: an open scan context of that number (R140). -/
  wait : Bool := false
  first : List (Nat × Nat) := []
  trap : Option Nat := none
  reads : List (Nat × Nat) := []
  writes : List (Nat × Nat) := []
  /-- Device addresses and bytes that it reads outside the core's own slice. -/
  ext : List (Nat × Nat) := []
  /-- Scalar registers that the instruction reads (R173). -/
  uses : List Nat := []
  sregs : List Word := []
  words : List Word := []
  deriving DecidableEq, Repr

/-- No progress yet. -/
def Progress.start : Progress := ⟨0, 0, 0, 0, none, [], []⟩

/-- Nothing of the core waits or is in flight. -/
def Core.quiet (k : Core) : Bool := k.flights.isEmpty && k.lu.all fun x => match x with
  | some y => y.rev.isNone
  | none => true

/-- Word i of a list of captured scalars. -/
def wordAt (ws : List Word) (i : Nat) : Nat := (ws.getD i 0).toNat

/-- Scalar register i of a core. -/
def State.sreg (s : State) (c i : Nat) : Nat := ((s.core c).sregs.getD i 0).toNat

def State.setSreg (c i v : Nat) (s : State) : State :=
  s.updCore c fun k => { k with sregs := updAt i (fun _ => BitVec.ofNat 32 v) k.sregs }

/-- The 32-bit words of a row of a slice from its start. -/
def State.rowWords (s : State) (c r n : Nat) : List Word := wordsOf (s.spmRead c (r * 512) (4 * n))

end Sys2Proof.Machine
end

