-- ==== Sys2Proof/Machine/Skiver.lean ====
section
/-! DEFINITION. The Skiver: table slots and generations, coding groups, packed frames, SKX and SKC (09_skiver.md,
R248 to R266). -/

namespace Sys2Proof.Machine

open Sys2Proof

/-! ### Builds and groups (R246, R251 to R253) -/

/-- A table takes its place in the non-current generation, which becomes current (R251). -/
def State.putTable (p k ew : Nat) (entries : List Nat) (s : State) : State :=
  let g := (s.skvSlot p k).target
  let beat := s.beatIndex
  (s.updSkvGen p k g fun x => { x with ew := ew, entries := entries, count := 0 }).updSkvSlot p k fun x =>
    { x with cur := some g, lastBuild := some beat }

/-- A build pass: blocked while the generation it would write is valid (R246, R251, R252). -/
def State.buildPass (p k ew : Nat) (group : List (List Byte)) (s : State) : State :=
  if s.skvValid p k (s.skvSlot p k).target then s.bump (ctrSkv 6)
  else (s.putTable p k ew (buildTable ew group)).bump (ctrSkv 5)

/-- How a group is coded (TMODE of Table 9-7). -/
inductive Coding where
  | plain
  | current (slot : Nat)
  | build (slot : Nat)
  | fixed (k : Nat)
  deriving DecidableEq, Repr

/-- The slot's current table, where it has one of the element width (R245). -/
def State.currentTable (s : State) (p k ew : Nat) : Option TableUse :=
  match (s.skvSlot p k).cur with
  | some g =>
    let x := s.skvGen p k g
    if x.ew = ew then some ⟨false, k, g, x.entries⟩ else none
  | none => none

/-- Counters of a coded tile (R266). -/
def State.countTile (t : CodedTile) (s : State) : State :=
  let s := if t.uncoded then s.bump (ctrSkv 4) else
    (s.forEach ((List.range 4).zip t.forms) fun x u => u.count (ctrSkv x.1) x.2).count (ctrSkv 7) t.esc
  (s.count ctrSkvIn 16384).count ctrSkvOut t.bytes.length

/-- The coding of a block group of at most 64 tiles (R239 to R246, R251 to R253). A TABLED block names only a table of its own
width (R245): with a fixed table of another one the group is stored without a table. -/
def State.codeGroup (p ew : Nat) (how : Coding) (tiles : List (List Byte)) (s : State) : List CodedTile × State :=
  let s := match how with
    | .current k => if (s.skvSlot p k).cur.isNone then s.buildPass p k ew tiles else s
    | .build k => s.buildPass p k ew tiles
    | _ => s
  let tab := match how with
    | .plain => none
    | .current k => s.currentTable p k ew
    | .build k => s.currentTable p k ew
    | .fixed k => if fixedEw k = ew then some ⟨true, k, 0, fixedTable k⟩ else none
  let ts := tiles.map (codeTile ew tab)
  (ts, s.forEach ts State.countTile)

/-- Tiles coded in block groups of 64 (R259). -/
def State.codeTiles (p ew : Nat) (how : Coding) (tiles : List (List Byte)) (s : State) : List CodedTile × State :=
  (pieces 64 (tiles.length + 1) tiles).foldl (fun acc g =>
    let r := acc.2.codeGroup p ew how g
    (acc.1 ++ r.1, r.2)) ([], s)

/-! ### Which table the Saddler uses (R236, R263) -/

/-- Data classes of R263. -/
def clsState : Nat := 0
def clsK : Nat := 1
def clsV : Nat := 2
def clsLatent : Nat := 3
def clsWeights : Nat := 4

/-- Element width of a format (R236): 16-bit formats, 32-bit formats, and 8 for the rest. -/
def fmtEw (fmt : Nat) : Nat := if fmt = 0 ∨ fmt = 1 then 1 else if fmt = 0xD ∨ fmt = 0xE then 2 else 0

/-- Fixed table of a format with BUILD clear (R263). -/
def fmtFixed (fmt : Nat) : Option Nat :=
  if fmt = 2 then some 0 else if fmt = 4 then some 1 else if fmt = 0 then some 2 else if fmt = 1 then some 3 else none

def fixedOrPlain (fmt : Option Nat) : Coding := ((fmt.bind fmtFixed).map Coding.fixed).getD .plain

/-- SKV_CTRL.BUILD and CODE_HBM (Table 9-12). -/
def State.skvBuild (s : State) : Bool := nbits (s.reg 0x80000) 1 1 == 1
def State.codeHbm (s : State) : Bool := nbits (s.reg 0x80000) 0 1 == 1

/-- A slot of partition p that is free for a new pair: owned by none, or its owner's model has unloaded and both of its
generations are retired (R263). -/
def State.skvFree (s : State) (p k : Nat) : Bool :=
  match (s.skvSlot p k).owner with
  | none => true
  | some _ => (s.skvSlot p k).left && !s.skvValid p k 0 && !s.skvValid p k 1

/-- The coding of a pair with its slot: with the current table, or with a new one, which the Saddler builds at most once a beat and
never into a generation that is still valid (R263). When it builds anew is its own choice, a free value
(notes/assumptions/108.md). -/
def State.slotCoding (p k : Nat) (s : State) : Coding × State :=
  let x := s.skvSlot p k
  if x.cur.isNone || s.skvValid p k x.target || x.lastBuild == some s.beatIndex then (.current k, s)
  else (if s.freeVal % 2 = 1 then .build k else .current k, s.nextFree)

/-- The coding of a class of a model's data: a pin (R264), else its own slot, else as with BUILD clear (R263). -/
def State.chooseCoding (p model cls : Nat) (fmt : Option Nat) (s : State) : Coding × State :=
  match s.caches.skvPins.find? fun x => x.part == p && x.model == model && x.cls == cls with
  | some pin =>
    if pin.mode = 0 then (.current pin.tslot, s) else if pin.mode = 1 then (.fixed (pin.tslot % 4), s) else (.plain, s)
  | none =>
    if !s.skvBuild then (fixedOrPlain fmt, s)
    else
      match (List.range 8).find? fun k => (s.skvSlot p k).owner == some (model, cls) && !(s.skvSlot p k).left with
      | some k => s.slotCoding p k
      | none =>
        match (List.range 8).find? fun k => s.skvFree p k with
        | some k => (.current k, s.updSkvSlot p k fun x => { x with owner := some (model, cls), left := false })
        | none => (fixedOrPlain fmt, s)

/-- The slots of an unloaded model's pairs are given up: each is free once its generations are retired (R263). -/
def State.leaveSlots (model : Nat) (s : State) : State :=
  s.updCaches fun c =>
    { c with skvSlots := updWhere (fun x => x.owner.any fun o => o.1 == model) (fun x => { x with left := true }) c.skvSlots }

/-- OFMT of a recurrent layer-table entry: bits 5 to 2 of byte 1, where the encodings of Table 6-3 begin
(notes/assumptions/21.md). -/
def layerOfmt (l : List Byte) : Nat := nbits (l.getD 1 0).toNat 2 4

/-- The one OFMT of a model's recurrent layers, where they all declare the same (R263, Table 14-9). -/
def ImageHdr.stateFmt (h : ImageHdr) : Option Nat :=
  match h.layers.filter fun l => (l.getD 0 0).toNat == 1 with
  | [] => none
  | l :: ls => if ls.all fun x => layerOfmt x == layerOfmt l then some (layerOfmt l) else none

/-! ### A malformed or damaged tile (R241, R242) -/

/-- A tile checksum mismatch that the Skiver finds: the checksum expected, and the one computed where there is one. -/
def State.skiverMismatch (c : Option Nat) (addr : Nat) (want got : Option Nat) (s : State) : State :=
  let s := s.bump (ctrMem 3)
  let i : FaultInfo := { cause := 1, subcause := 4, unit := some 4, addr := some addr, crcExp := want, crcGot := got }
  s.fault (match c with
    | some c => s.jobInfo c i
    | none => i)

/-- A stored tile expanded and checked: its raw bytes, or the checksum pair of the mismatch. -/
def State.expandTile (s : State) (p : Nat) (bs : List Byte) : Except (Option Nat × Option Nat) (List Byte) :=
  match expandRaw (s.skvLook p) bs with
  | none => .error (some (tileCrc bs), none)
  | some raw => if crc32c raw = tileCrc bs then .ok raw else .error (some (tileCrc bs), some (crc32c raw))

/-! ### SKX and SKC (R256 to R261) -/

/-- The eight words of a Skiver descriptor and its fields (Table 9-7). -/
structure SkDesc where
  src : Nat
  dst : Nat
  n : Nat
  ew : Nat
  tmode : Nat
  slot : Nat
  queue : Bool
  deriving DecidableEq, Repr

def skDesc (ws : List Word) : SkDesc :=
  let w (i : Nat) : Nat := (ws.getD i 0).toNat
  { src := w 0 + w 1 * 2 ^ 32, dst := w 2 + w 3 * 2 ^ 32, n := nbits (w 4) 0 6 + 1, ew := nbits (w 4) 6 2
    tmode := nbits (w 4) 8 2, slot := nbits (w 4) 10 3, queue := nbits (w 4) 13 1 == 1 }

/-- Raw tiles at a device address that lie in SPM off a 32-row boundary or beyond row 12,287 (R260). -/
def rawSpmBad (a n : Nat) : Bool :=
  a / 2 ^ 60 == 0 && (nbits a 0 23 % 16384 != 0 || 12288 * 512 < nbits a 0 23 + n * 16384)

/-- Bytes of `n` stored tiles back to back in a slice, as their headers tell, from byte `b` of the slice on; a header that is no
header takes its 8 bytes. -/
def State.tilesLen (s : State) (c : Nat) : Nat → Nat → Nat
  | 0, _ => 0
  | n + 1, b =>
    let len := max 8 (tileLen (s.spmRead c b 8))
    len + s.tilesLen c n (b + len)

/-- A device address lies in the core's own slice. -/
def ownSlice (c a : Nat) : Bool := a / 2 ^ 60 == 0 && nbits a 23 8 == c

/-- The rows of the core's own slice that hold `n` bytes from a device address. -/
def ownRows (c a n : Nat) : List (Nat × Nat) := if ownSlice c a then rowRanges [rowsOf (nbits a 0 23) n] else []

/-- The next block of an SKX (R241, R242, R257). At a tile's first block the stored tile is read through the DM, expanded and
checked; its rows then enter the expansion queue one by one, and no block is taken up while the queue holds its 64 rows; raw tiles
for memory are written whole. None where the Skiver waits. -/
def State.skxBlock (c : Nat) (d : SkDesc) (p : Progress) (s : State) : Option (Progress × State) :=
  if d.queue && 64 ≤ (s.core c).xq.length then none
  else
    let put (raw : List Byte) (at' : Nat) (s : State) : Progress × State :=
      let last := p.done % 32 == 31
      let p' : Progress := { p with done := p.done + 1, pos := at' }
      if d.queue then
        ({ p' with bytes := raw.drop 512 }, s.updCore c fun k => { k with xq := k.xq ++ [raw.take 512] })
      else if last then ({ p' with bytes := [] }, s.dmWrite c (d.dst + p.done / 32 * 16384) raw)
      else ({ p' with bytes := raw }, s)
    if p.done % 32 ≠ 0 then some (put p.bytes p.pos s)
    else
      let a := d.src + p.pos
      let h := s.dmRead c a 8
      let len := max 8 (tileLen h.1)
      let t := if len = 8 then h else h.2.dmRead c a len
      match t.2.expandTile ((s.corePart? c).getD 0) t.1 with
      | .ok raw => some (put raw (p.pos + len) t.2)
      | .error e => some ({ p with done := 32 * d.n }, t.2.skiverMismatch (some c) a e.1 e.2)

/-- At most `n` more blocks of an SKX, fewer where the queue is full or fault stop has begun. -/
def State.skxBlocks (c : Nat) (d : SkDesc) : Nat → Progress → State → Progress × State
  | 0, p, s => (p, s)
  | n + 1, p, s =>
    if 32 * d.n ≤ p.done || s.keeper.fstop then (p, s)
    else
      match s.skxBlock c d p with
      | none => (p, s)
      | some r => r.2.skxBlocks c d n r.1

/-- The Skiver goes on with an SKX: `n` blocks, or all that it can. Answers what is left of it. -/
def State.skxOn (c : Nat) (n : Option Nat) (f : Flight) (s : State) : Option Progress × State :=
  let d := skDesc f.words
  let left := 32 * d.n - f.prog.done
  let r := s.skxBlocks c d (match n with
    | some k => min k left
    | none => left) f.prog
  (if 32 * d.n ≤ r.1.done || r.2.keeper.fstop then none else some r.1, r.2)

/-- How an SKC codes its group (TMODE of Table 9-7). -/
def SkDesc.coding (d : SkDesc) : Coding :=
  if d.tmode = 0 then .plain else if d.tmode = 1 then .current d.slot else if d.tmode = 2 then .build d.slot else .fixed d.slot

/-- The effect of SKC: the group coded and stored, what it stored in HBM or in the CXL tier noted for the block counts (R249), and
its bytes written into RREG. Coded bytes that would reach beyond row 12,287 trap when they are known
(notes/assumptions/107.md). -/
def State.skcRun (c rreg : Nat) (d : SkDesc) (s : State) : State :=
  let p := (s.corePart? c).getD 0
  let rd := (List.range d.n).foldl (fun (acc : List (List Byte) × State) i =>
    let r := acc.2.dmRead c (d.src + i * 16384) 16384
    (acc.1 ++ [r.1], r.2)) ([], s)
  let r := rd.2.codeGroup p d.ew d.coding rd.1
  let bs := r.1.flatMap (·.bytes)
  if d.dst / 2 ^ 60 = 0 ∧ 12288 * 512 < nbits d.dst 0 23 + bs.length then s.trap c 7
  else
    let s := r.2
    let space := d.dst / 2 ^ 60
    let kept := 1 ≤ space && space ≤ 3 && (s.dmLoc c d.dst bs.length).isSome
    let names := r.1.flatMap fun t => tileNames t.bytes
    let s := s.dmWrite c d.dst bs
    let s := s.when (kept && !names.isEmpty) fun s => s.updCaches fun x =>
      { x with skcObjects := ⟨d.dst, bs.length, p, names⟩ :: x.skcObjects.filter fun o => o.addr != d.dst }
    s.setSreg c rreg bs.length

/-- Blocks of an SKC: those that a build pass reads, and those it codes (R246, R261). -/
def State.skcBlocks (s : State) (c : Nat) (d : SkDesc) : Nat :=
  let builds := d.tmode == 2 || (d.tmode == 1 && (s.skvSlot ((s.corePart? c).getD 0) d.slot).cur.isNone)
  32 * d.n * (if builds then 2 else 1)

/-- The Skiver goes on with an SKC: `n` blocks, or all that is left; the group is stored at the end. -/
def State.skcOn (c rreg : Nat) (n : Option Nat) (f : Flight) (s : State) : Option Progress × State :=
  let d := skDesc f.words
  let left := s.skcBlocks c d - f.prog.done
  match n with
  | some k => if k < left then (some { f.prog with done := f.prog.done + k }, s) else (none, s.skcRun c rreg d)
  | none => (none, s.skcRun c rreg d)

/-- What the control core finds at an SKX: its descriptor, its areas in the own slice, and the trap of R260. -/
def State.skxPlan (s : State) (c : Nat) (w : BitVec 64) : OpPlan :=
  let row := s.sreg c (bits w 8 6)
  let ws := s.rowWords c row 8
  let d := skDesc ws
  let inSpm := d.src / 2 ^ 60 == 0
  let len := if inSpm then s.tilesLen (nbits d.src 23 8) d.n (nbits d.src 0 23) else 0
  { unit := .sk, uses := [bits w 8 6], first := (row, 1) :: ownRows c d.src 8, words := ws
    trap := if 12287 < row || (!d.queue && rawSpmBad d.dst d.n) || (inSpm && 12288 * 512 < nbits d.src 0 23 + len) then some 7
      else none
    reads := (row, 1) :: ownRows c d.src len
    writes := if d.queue then [] else ownRows c d.dst (d.n * 16384)
    ext := if d.queue || inSpm then [] else [(d.src, d.n * 16392)] }

/-- What the control core finds at an SKC (R245, R260). -/
def State.skcPlan (s : State) (c : Nat) (w : BitVec 64) (hostWritten : Bool) : OpPlan :=
  let row := s.sreg c (bits w 8 6)
  let ws := s.rowWords c row 8
  let d := skDesc ws
  let badFixed := d.tmode == 3 && (3 < d.slot || fixedEw d.slot != d.ew)
  let at' := nbits d.dst 0 23
  { unit := .sk, uses := [bits w 8 6], first := [(row, 1)], words := ws
    trap := if 12287 < row || d.ew == 3 || badFixed || rawSpmBad d.src d.n || (hostWritten && (d.tmode == 1 || d.tmode == 2)) ||
        (d.dst / 2 ^ 60 == 0 && 12288 * 512 ≤ at') then some 7 else none
    reads := (row, 1) :: ownRows c d.src (d.n * 16384)
    writes := ownRows c d.dst (min (d.n * 16392) (12288 * 512 - at'))
    ext := if ownSlice c d.src then [] else [(d.src, d.n * 16384)] }

/-! ### Pages in packed frames and in frames of their own (R243, R262) -/

/-- Device address of a 16 KiB frame of a tier of Table 8-4: 0 SPM, 1 HBM, 2 CXL (notes/assumptions/20.md). -/
def frameAddr (tier frame : Nat) : Nat :=
  if tier = 0 then spmAddr (frame / 2 ^ 9) (frame % 2 ^ 9 * 16384)
  else if tier = 1 then dieAddr (frame / 2 ^ 24) (frame % 2 ^ 24 * 16384)
  else 3 * 2 ^ 60 + frame * 16384

/-- The 16 KiB of a frame; zeros where the frame does not exist. -/
def State.frameRead (s : State) (tier frame : Nat) : List Byte :=
  (s.devRead (frameAddr tier frame) 16384).getD (List.replicate 16384 0)

/-- Bytes written over a frame. -/
def State.frameWrite (tier frame : Nat) (bs : List Byte) (s : State) : State :=
  match s.locate (frameAddr tier frame) 16384 with
  | some l => s.writeLoc l bs
  | none => s

/-- A packed frame in use. -/
def State.framePacked (s : State) (tier frame : Nat) : Bool :=
  s.caches.pages.any fun x => x.tier == tier && x.frame == frame && x.skv

/-- Raw bytes of a page, expanded where it is coded (R262); an error is a tile checksum mismatch. -/
def State.pageRaw (s : State) (pg : Page) : Except (Option Nat × Option Nat) (List Byte) :=
  let fr := s.frameRead pg.tier pg.frame
  if pg.skv then
    match frameGet fr pg.num with
    | some bs => s.expandTile pg.part bs
    | none => .error (none, none)
  else .ok fr

/-- The block counts of a coded page that is freed or moved away fall (R249). -/
def State.pageDropNames (pg : Page) (s : State) : State :=
  if pg.skv then
    match frameGet (s.frameRead pg.tier pg.frame) pg.num with
    | some bs => s.dropNames pg.part (tileNames bs)
    | none => s
  else s

/-- Class of a page of KIND 0 K, 1 V, 2 latent (Table 8-4, R263). -/
def pageClass (kind : Nat) : Nat := if kind = 0 then clsK else if kind = 1 then clsV else clsLatent

/-- The page's entry after it has been stored in a frame. -/
def State.placePage (n tier frame : Nat) (skv : Bool) (s : State) : State :=
  s.updPages (updWhere (fun x => x.num == n) fun x => { x with tier := tier, frame := frame, skv := skv })

/-- A packed frame of the page's partition in a tier that has room after its last page (R243), among those its pages use. -/
def State.packInto (s : State) (pg : Page) (tier : Nat) (coded : List Byte) : Option Nat :=
  ((s.caches.pages.filter fun x => x.part == pg.part && x.tier == tier && x.skv && x.lent == pg.lent).map (·.frame)).find?
    fun fr => (framePut (s.frameRead tier fr) pg.num coded).isSome

/-- A raw page stored in a tier: coded in a packed frame, after the pages that lie there or first in frame `frame`; raw in frame
`frame` when the Skiver stores it uncoded (R240, R243). -/
def State.storePage (pg : Page) (tier frame : Nat) (raw : List Byte) (s : State) : State :=
  let ch := s.chooseCoding pg.part pg.model (pageClass pg.kind) (some pg.fmt)
  let r := ch.2.codeGroup pg.part (fmtEw pg.fmt) ch.1 [raw]
  match r.1 with
  | [t] =>
    let base := (r.2.packInto pg tier t.bytes).getD frame
    let old := if r.2.framePacked tier base then r.2.frameRead tier base else List.replicate 16384 0
    (match (if t.uncoded then none else framePut old pg.num t.bytes) with
      | some fr => ((r.2.frameWrite tier base fr).addNames pg.part (tileNames t.bytes)).placePage pg.num tier base true
      | none => (r.2.frameWrite tier frame raw).placePage pg.num tier frame false)
  | _ => s

end Sys2Proof.Machine
end

