-- ==== Sys2Proof/Machine/Pages.lean ====
section
/-! DEFINITION. Shares of the memory tiers, free places in a die's pool, and KV pages with their references
(08_attention_and_kv.md, R199 to R208, R227 to R230; R341, R360, R361). -/

namespace Sys2Proof.Machine

open Sys2Proof

/-! ### Shares (R292, R360, R361, R440) -/

/-- MiB of a die's pool. -/
def poolMib : Nat := (dieBytes - 16 * spillBytes) / 2 ^ 20

/-- Cores of partition p on die d, and in all. -/
def State.coresOnDie (s : State) (p d : Nat) : Nat := ((coreList (s.partCores p)).filter fun c => c / 16 == d).length
def State.coreCount (s : State) (p : Nat) : Nat := (coreList (s.partCores p)).length

/-- Die d's part of `mib` MiB of partition p: in proportion to its cores there, rounded up (R360). -/
def State.shareOn (s : State) (p d mib : Nat) : Nat :=
  if s.coreCount p = 0 then 0 else ceilDiv (mib * s.coresOnDie p d) (s.coreCount p)

/-- MiB of a partition's KV pages on a die. -/
def State.kvShareOn (s : State) (p d : Nat) : Nat :=
  if s.coreCount p = 0 then 0 else ceilDiv (s.partKvPages p * s.coresOnDie p d) (64 * s.coreCount p)

/-- MiB that a partition takes of a die's pool: state pool, KV pool, model area and mirror pool (R360, R440). -/
def State.dieNeed (s : State) (p d : Nat) : Nat :=
  s.shareOn p d (s.partStateMib p) + s.kvShareOn p d + s.shareOn p d (s.partModelMib p) + s.shareOn p d (s.mirMib p)

/-- Bytes of the usable CXL capacity (R296). -/
def State.cxlCapacity (s : State) : Nat :=
  if nbits (s.reg 0x60000) 2 1 = 1 then 2 * min (s.port 0).usable (s.port 1).usable else (s.port 0).usable + (s.port 1).usable

/-- Bytes of homes and of homes being written in partition p's share on die d; lent homes belong to the mirror pool. -/
def State.homeUsed (s : State) (p d : Nat) : Nat :=
  sumBy (fun x : Stream =>
    if x.part == p then
      (if x.record.home.isSome && x.record.die == d && !x.record.lent then x.record.tiles * 16384 else 0) +
        (match x.record.newHome with
          | some h => if h.2 == d then x.record.tiles * 16384 else 0
          | none => 0)
    else 0) s.work.streams

/-- Partition p's share of the state pool on die d holds a further record (R341). -/
def State.homeRoom (s : State) (p d tiles : Nat) : Bool :=
  s.homeUsed p d + tiles * 16384 ≤ s.shareOn p d (s.partStateMib p) * 2 ^ 20

/-- Two ranges of bytes meet. -/
def meets (a n b m : Nat) : Bool := a < b + m && b < a + n

/-- Bytes that the copies of a partition's models have of die d's pool. -/
def State.copyRanges (s : State) (d : Nat) : List (Nat × Nat) :=
  s.work.slots.flatMap fun m => m.copies.flatMap fun c => (c.pieces.filter fun q => q.1 == d).map fun q => q.2

/-- The ranges of die d's pool in use: offset and bytes of every home, of every page frame and of every copy of weights. -/
def State.dieRanges (s : State) (d : Nat) : List (Nat × Nat) :=
  s.work.streams.flatMap (fun x =>
    (match x.record.home with
      | some h => if x.record.die == d then [(h, x.record.tiles * 16384)] else []
      | none => []) ++
    (match x.record.newHome with
      | some h => if h.2 == d then [(h.1, x.record.tiles * 16384)] else []
      | none => [])) ++
  ((s.caches.pages.filter fun x => x.tier == 1 && x.frame / 2 ^ 24 == d).map fun x => (x.frame % 2 ^ 24 * 16384, 16384)) ++
  s.copyRanges d

/-- `n` bytes at offset o of die d lie in the pool, on a 16 KiB boundary, and meet nothing in use. -/
def State.spotFree (s : State) (d o n : Nat) : Bool :=
  s.dieOn d && 16 * spillBytes ≤ o && o % 16384 == 0 && o + n ≤ dieBytes && !(s.dieRanges d).any fun r => meets o n r.1 r.2

/-- The lowest free place of `n` bytes in die d's pool: the start of the pool or the end of a range in use. -/
def State.freeSpot (s : State) (d n : Nat) : Option Nat :=
  (sortBy id (16 * spillBytes :: (s.dieRanges d).map fun r => r.1 + r.2)).find? fun o => s.spotFree d o n

/-- A free HBM frame for partition p: the first of those placement names that is free, else the lowest free one on a die of
its cores. -/
def State.freeFrame (s : State) (p : Nat) (named : List Nat) : Option Nat :=
  match named.find? fun fr => s.spotFree (fr / 2 ^ 24) (fr % 2 ^ 24 * 16384) 16384 && (s.partDies p).contains (fr / 2 ^ 24) with
  | some fr => some fr
  | none => (s.partDies p).findSome? fun d => (s.freeSpot d 16384).map fun o => d * 2 ^ 24 + o / 16384

/-! ### Pages and references (R202 to R208) -/

def State.page? (s : State) (n : Nat) : Option Page := s.caches.pages.find? fun x => x.num == n

def State.updPage (n : Nat) (f : Page → Page) (s : State) : State := s.updPages (updWhere (fun x => x.num == n) f)

/-- Tokens of a page (Table 8-2): elements of 1, 2 or 33/32 and 17/32 bytes. -/
def pageTokens (kind fmt shape : Nat) : Nat :=
  let s32 := if fmt ≤ 1 then 64 else if fmt ≤ 3 then 32 else if fmt = 0xB then 17 else 33
  if kind = 2 then 16384 * 32 / ((128 + 64 * shape) * s32)
  else 16384 * 32 / (64 * 2 ^ shape * s32) / 32 * 32

/-- A kind, format and shape that a page may have (R199, Tables 8-1 and 8-4). -/
def pageOk (kind fmt shape : Nat) : Bool :=
  if kind = 2 then fmt ≤ 3 && shape ≤ 6
  else kind ≤ 1 && (fmt ≤ 3 || fmt == 7 || fmt == 8 || fmt == 0xB) && shape ≤ 2

def Page.tokens (p : Page) : Nat := pageTokens p.kind p.fmt p.shape

/-- The lowest page number not in use. -/
def State.newPageNum (s : State) : Nat :=
  ((List.range (s.caches.pages.length + 1)).find? fun n => (s.page? n).isNone).getD s.caches.pages.length

/-- A page freed: its entry, its place on the reclaim list, in a prefix and as the original of a copy, and its block counts go
(R206, R249). -/
def State.freePage (n : Nat) (s : State) : State :=
  match s.page? n with
  | none => s
  | some pg =>
    (s.pageDropNames pg).updCaches fun c =>
      { c with
        pages := (c.pages.filter (·.num != n)).map fun p => { p with orig := if p.orig == some n then none else p.orig }
        reclaim := c.reclaim.filter (· != n)
        prefixes := c.prefixes.map fun y => { y with pages := y.pages.filter (· != n) } }

/-- The reclaim list with page n at its place by the time its count reached zero (R206). -/
def State.toReclaim (n : Nat) (s : State) : State :=
  let at' (k : Nat) : Nat := ((s.page? k).map (·.idleSince)).getD 0
  s.updCaches fun c =>
    let older := c.reclaim.filter fun k => at' k ≤ at' n
    { c with reclaim := older ++ n :: c.reclaim.filter fun k => at' n < at' k }

/-- A page without references: kept on the reclaim list where it is CACHED, and on none while it is pinned, else freed (R206,
R230). -/
def State.pageUnused (n : Nat) (s : State) : State :=
  match s.page? n with
  | none => s
  | some pg =>
    if pg.refc != 0 then s
    else if pg.cached then
      (if pg.pinned || s.caches.reclaim.contains n then s else s.toReclaim n)
    else s.freePage n

/-- One reference released; NOWR is set when the writer's goes while others remain (Table 8-5). -/
def State.dropRef (holder n : Nat) (s : State) : State :=
  let now := s.tb.now
  (s.updPage n fun p =>
    { p with
      refc := p.refc - 1, nowr := p.nowr || (p.writer == holder && 1 < p.refc)
      idleSince := if p.refc = 1 then now else p.idleSince }).pageUnused n

/-- A stream releases pages it holds. -/
def State.releasePages (id : Nat) (ns : List Nat) (s : State) : State :=
  (s.forEach ns (State.dropRef id)).updStream id fun x =>
    { x with
      pages := x.pages.filter fun n => !ns.contains n, ctx := x.ctx.filter fun n => !ns.contains n
      leaving := x.leaving.filter fun n => !ns.contains n }

/-- A new page in an HBM frame of partition p; it reads zero beyond its tokens (R201). -/
def State.makePage (pg : Page) (s : State) : State :=
  (s.updPages (insertBy (·.num) pg)).frameWrite pg.tier pg.frame (List.replicate 16384 0)

/-- A page's bytes land in a frame of HBM: coded where it is full and sealed and CODE_HBM is set, raw otherwise (R262). -/
def State.landPage (pg : Page) (frame : Nat) (raw : List Byte) (s : State) : State :=
  if s.codeHbm && pg.sealn == pg.tokens then s.storePage pg 1 frame raw
  else (s.frameWrite 1 frame raw).placePage pg.num 1 frame false

/-- A page entry of a writer (Table 8-5, first row). -/
def Page.fresh (num part kind fmt shape p0 writer model frame : Nat) : Page where
  num := num
  part := part
  tier := 1
  skv := false
  cached := false
  nowr := false
  kind := kind
  fmt := fmt
  shape := shape
  refc := 1
  filln := 0
  sealn := 0
  writer := writer
  p0 := p0
  frame := frame
  pinned := false
  evicting := false
  lent := false
  sent := 0
  model := model
  orig := none
  idleSince := 0

/-- Pages of a partition that may still be taken from its pool. -/
def State.poolLeft (s : State) (p : Nat) : Bool := 0 < s.kvFree p

/-- A page taken under step 2 of R227 without eviction: a free page, else the oldest on the reclaim list. -/
def State.takeFrame (p : Nat) (named : List Nat) (s : State) : Option (Nat × State) :=
  if s.poolLeft p then (s.freeFrame p named).map fun fr => (fr, s)
  else
    match s.caches.reclaim.find? fun n => (s.page? n).any fun x => x.part == p with
    | none => none
    | some n => ((s.freePage n).freeFrame p named).map fun fr => (fr, (s.freePage n).bump (ctrKv 2))

/-- An MX block with the elements from `k` on set to zero; a block of which no element stays is all zeros. -/
def clipBlock (fmt k : Nat) (bs : List Byte) : List Byte :=
  let b := elemBits fmt
  if k = 0 then List.replicate (mxBytes fmt) 0
  else if 32 ≤ k then bs
  else bs.take 1 ++ leBytes (4 * b) (leNat (bs.drop 1) % 2 ^ (b * k))

/-- Tokens at or beyond `cnt` of a raw page, and the bytes beyond its last element, set to zero, by its layout (R201, Table
8-3). -/
def clipTokens (kind fmt shape cnt : Nat) (raw : List Byte) : List Byte :=
  let tp := pageTokens kind fmt shape
  let s32 := if fmt ≤ 1 then 64 else if fmt ≤ 3 then 32 else if fmt = 0xB then 17 else 33
  let d := if kind = 2 then 128 + 64 * shape else 64 * 2 ^ shape
  if kind = 1 then
    let used := raw.take (tp * d * s32 / 32)
    takePad 0 16384 (if fmt ≤ 3 then
      (let e := s32 / 32
       (used.zipIdx).map fun b => if b.2 % (tp * e) < cnt * e then b.1 else 0)
    else
      (pieces (mxBytes fmt) (d * (tp / 32)) used).zipIdx.flatMap fun b => clipBlock fmt (cnt - b.2 % (tp / 32) * 32) b.1)
  else takePad 0 16384 (raw.take (min cnt tp * d * s32 / 32))

/-! ### Page needs (R227, R228) -/

/-- The least recently used HBM page of a stream that is neither ARMED nor RUNNING, of partition p (R227). -/
def State.evictable (s : State) (p : Nat) : Option Page :=
  let busy (x : Stream) : Bool := x.state == .armed || x.state == .running
  let idle := s.work.streams.filter fun x => x.part == p && !busy x
  let ps := s.caches.pages.filter fun q =>
    q.part == p && q.tier == 1 && !q.evicting && !q.lent && idle.any (fun x => x.pages.contains q.num) &&
      !s.work.streams.any fun x => busy x && x.pages.contains q.num
  minBy (fun q => (((idle.filter fun x => x.pages.contains q.num).map (·.lastTick)).foldl max 0) * 2 ^ 32 + q.num) ps

/-- What a sequence that finds no page does next (R227): an eviction begins, or its step is held. -/
inductive Lack where
  | evict (page : Nat)
  | hold
  deriving DecidableEq, Repr

/-- A page need in the order of R227: a frame and the state after. -/
def State.needFrame (p : Nat) (named : List Nat) (s : State) : Except Lack (Nat × State) :=
  match s.takeFrame p named with
  | some r => .ok r
  | none =>
    match (if s.partCxlGib p = 0 then none else s.evictable p) with
    | some q => .error (.evict q.num)
    | none => .error .hold

/-- The eviction of a page begins, charged to the stream whose need caused it (R227, R388). -/
def State.startEvict (n : Nat) (x : Stream) (s : State) : State :=
  ((s.updPage n fun y => { y with evicting := true }).bump (ctrKv 3)).chargeStream x [(7, 16384)]

/-! ### References -/

/-- The copy of page pg's sealed tokens that R208 gives a new holder, in frame `fr`: REF 1 and NOWR; charged to the holder (R388). -/
def State.copySealed (id fr : Nat) (pg : Page) (raw : List Byte) (s : State) : State :=
  let m := s.newPageNum
  let cp := { Page.fresh m pg.part pg.kind pg.fmt pg.shape pg.p0 id pg.model fr with
    nowr := true, filln := pg.sealn, sealn := pg.sealn, orig := some pg.num }
  let s := ((s.makePage cp).frameWrite 1 fr (clipTokens pg.kind pg.fmt pg.shape pg.sealn raw)).bump (ctrKv 1)
  (s.chargeId id [(7, 2 * 16384)]).updStream id fun x => { x with pages := x.pages ++ [m] }

/-- One more reference for stream `id` on page n; at 65,535 a copy of its sealed tokens instead, whose page is a need of R227
(R208). -/
def State.addRef (id n : Nat) (named : List Nat) (s : State) : Except Lack State :=
  match s.page? n with
  | none => .ok s
  | some pg =>
    if pg.refc < 65535 then
      .ok (((s.updPage n fun p => { p with refc := p.refc + 1 }).updCaches fun c =>
        { c with reclaim := c.reclaim.filter (· != n) }).updStream id fun x => { x with pages := x.pages ++ [n] })
    else
      match s.pageRaw pg with
      | .error e => .ok (s.skiverMismatch none (frameAddr pg.tier pg.frame) e.1 e.2)
      | .ok raw =>
        match s.needFrame pg.part named with
        | .ok (fr, t) => .ok (t.copySealed id fr pg raw)
        | .error l => .error l

/-- References for a stream on several pages: all of them, or none. -/
def State.addRefs (id : Nat) (named : List Nat) : List Nat → State → Except Lack State
  | [], s => .ok s
  | n :: rest, s =>
    match s.addRef id n named with
    | .ok t => t.addRefs id named rest
    | .error l => .error l

/-- A page for a writer: taken in `fr`, and held by it. -/
def State.givePage (id p kind fmt shape p0 fr : Nat) (s : State) : State :=
  let m := s.newPageNum
  let model := ((s.stream? id).map (·.main)).getD 0
  (s.makePage (Page.fresh m p kind fmt shape p0 id model fr)).updStream id fun x => { x with pages := x.pages ++ [m] }

/-- What R207 makes of an append by stream `id` to page n: no copy where it is the writer or may become it, else a copy. -/
def Page.appendsInPlace (pg : Page) (id : Nat) : Bool :=
  (!pg.nowr && pg.writer == id) || (pg.nowr && pg.refc == 1 && !pg.cached)

/-- Stream `id` becomes the writer of page n where R207 lets it append in place. -/
def State.claimPage (id n : Nat) (s : State) : State :=
  s.updPage n fun p => if p.nowr && p.refc == 1 && !p.cached then { p with nowr := false, writer := id } else p

/-- The copy of R207 in frame `fr`: tokens 0 to FILLN − 1, REF 1, SEALN = FILLN; S's reference to the page released. -/
def State.copyPage (id n fr : Nat) (s : State) : State :=
  match s.page? n with
  | none => s
  | some pg =>
    match s.pageRaw pg with
    | .error e => s.skiverMismatch none (frameAddr pg.tier pg.frame) e.1 e.2
    | .ok raw =>
      let m := s.newPageNum
      let cp := { Page.fresh m pg.part pg.kind pg.fmt pg.shape pg.p0 id pg.model fr with filln := pg.filln, sealn := pg.filln }
      let s := (s.makePage cp).frameWrite 1 fr (clipTokens pg.kind pg.fmt pg.shape pg.filln raw)
      let s := s.updStream id fun x => { x with pages := x.pages.map fun k => if k == n then m else k }
      ((s.chargeId id [(7, 2 * 16384)]).dropRef id n).bump (ctrKv 0)

/-- FILLN of page n rises to `k` by appends of stream `id`, token by token from the old FILLN; a full page is never written again
(R203). -/
def State.appendTo (id n k : Nat) (s : State) : State :=
  s.updPage n fun p =>
    if p.writer == id && !p.nowr && p.filln < k && p.sealn < p.tokens then { p with filln := min k p.tokens } else p

/-- SEALN rises to FILLN on the pages stream `id` writes (R203). -/
def State.sealPages (id : Nat) (s : State) : State :=
  s.updPages (updWhere (fun p => p.writer == id && !p.nowr) fun p => { p with sealn := p.filln })


/-! ### Prefixes (R229, R230) -/

def State.prefix? (s : State) (k : Nat) : Option KvPrefix := s.caches.prefixes.find? fun x => x.id == k

/-- A cached prefix is dropped: its pages lose CACHED and their pin, and go when no one refers to them. -/
def State.dropPrefix (k : Nat) (s : State) : State :=
  match s.prefix? k with
  | none => s
  | some x =>
    let s := s.updCaches fun c => { c with prefixes := c.prefixes.filter (·.id != k) }
    s.forEach x.pages fun n t => (t.updPage n fun p => { p with cached := false, pinned := false }).pageUnused n

/-- The pin of a prefix is set or cleared: a pinned page stays on no reclaim list (R230). -/
def State.pinPrefix (k : Nat) (pin : Bool) (s : State) : State :=
  match s.prefix? k with
  | none => s
  | some x =>
    let s := s.updCaches fun c => { c with prefixes := updWhere (fun y => y.id == k) (fun y => { y with pinned := pin }) c.prefixes }
    s.forEach x.pages fun n t =>
      let t := t.updPage n fun p => { p with pinned := pin }
      if pin then t.updCaches fun c => { c with reclaim := c.reclaim.filter (· != n) } else t.pageUnused n

end Sys2Proof.Machine
end

