-- ==== Sys2Proof/Machine/Record.lean ====
section
/-! DEFINITION. The state record: its header, its copies, hand-offs to the partner and record moves
(12_state_residency.md, R337 to R356, R574; R446). -/

namespace Sys2Proof.Machine

open Sys2Proof

/-! ### Copies (R341 to R343) -/

def State.updRec (id : Nat) (f : Record → Record) (s : State) : State :=
  s.updStream id fun x => { x with record := f x.record }

/-- The authoritative copy lies in a coded CXL extent (Table 12-4). -/
def RecState.coded : RecState → Bool
  | .C => true
  | .fillC => true
  | .pro => true
  | _ => false

/-- The authoritative copy lies in the SPM. -/
def RecState.inSpm : RecState → Bool
  | .S => true
  | .spill => true
  | _ => false

/-- The first n tiles of a coded extent, expanded (R244). -/
def State.expandExtent (s : State) (p n : Nat) (ext : Nat × Nat) : Except (Option Nat × Option Nat) (List Byte) :=
  let bs := (s.devRead ext.1 ext.2).getD []
  (List.range n).foldl (fun acc i => match acc with
    | .error e => .error e
    | .ok raw => match recordTile bs i with
      | none => .error (none, none)
      | some t => match s.expandTile p t with
        | .error e => .error e
        | .ok r => .ok (raw ++ r)) (.ok [])

/-- The extent lies on a port whose link is down: reading it consumes poison (R295). -/
def State.extPoisoned (s : State) (x : Stream) : Bool :=
  match x.record.ext with
  | some e => x.record.state.coded && ((s.locate e.1 e.2).elim false fun l => s.poisoned l e.2)
  | none => false

/-- Device address and bytes of the authoritative copy (Table 12-4). -/
def Stream.recordRange (x : Stream) : Nat × Nat :=
  let r := x.record
  if r.state.coded then r.ext.getD (0, 0)
  else (if r.state.inSpm then r.spm.getD 0 else dieAddr r.die (r.home.getD 0), r.tiles * 16384)

/-- Device address and bytes of a page's frame. -/
def Page.range (p : Page) : Nat × Nat := (frameAddr p.tier p.frame, 16384)

/-- The raw bytes of a stream's authoritative copy (Table 12-4). -/
def State.recordBytes (s : State) (x : Stream) : Except (Option Nat × Option Nat) (List Byte) :=
  let r := x.record
  let n := r.tiles * 16384
  if r.state.coded then s.expandExtent x.part r.tiles (r.ext.getD (0, 0))
  else if r.state.inSpm then .ok ((s.devRead (r.spm.getD 0) n).getD (List.replicate n 0))
  else .ok (s.dieRead r.die (r.home.getD 0) n)

/-- Bits of a tile map. -/
def tileBit (i : Nat) : BitVec 256 := BitVec.ofNat 256 (2 ^ i)

/-- Every tile of a record of n tiles. -/
def tileMask (n : Nat) : BitVec 256 := BitVec.ofNat 256 (2 ^ n - 1)

/-- Tiles `i` of a map, rising. -/
def tileList (m : BitVec 256) : List Nat := (List.range 256).filter fun i => m.getLsbD i

/-- Bytes written at byte `b` of the authoritative copy, which is not coded: the tiles they touch are marked in CHG, and in
DIRTY where the copy lies in the SPM (R342, R574). -/
def State.recordPut (id b : Nat) (bs : List Byte) (s : State) : State :=
  match s.stream? id with
  | none => s
  | some x =>
    let r := x.record
    let marks := ((List.range 256).filter fun i => meets (i * 16384) 16384 b bs.length).foldl (fun m i => m ||| tileBit i) 0
    if r.state.coded then s
    else
      let s := if r.state.inSpm then
          (let a := r.spm.getD 0
           s.spmWrite (nbits a 23 8) (nbits a 0 23 + b) bs)
        else s.dieWrite r.die (r.home.getD 0 + b) bs
      s.updRec id fun r =>
        { r with chg := r.chg ||| marks, dirty := if r.state.inSpm then r.dirty ||| marks else r.dirty }

/-! ### Header and page list (Tables 12-2, 12-3) -/

/-- Words 0 to 31 of a record header; word 2 counts the sections in use. -/
def Stream.headerWords (x : Stream) : List Word :=
  let sects := takePad 0 16 x.record.sect
  let used := (sects.filter fun w => bits w 16 4 != 0).length
  [BitVec.ofNat 32 (x.id + 2 ^ 14 * b01 x.fb.isSome + 2 ^ 15 * b01 x.freeze + 2 ^ 16 * x.main + 2 ^ 24 * x.fb.getD 0),
   BitVec.ofNat 32 x.record.layout,
   BitVec.ofNat 32 ((x.record.tiles - 1) + 2 ^ 8 * min used 15 + 2 ^ 12 * b01 x.nonfinite),
   BitVec.ofNat 32 x.seq, BitVec.ofNat 32 (x.seq / 2 ^ 32),
   BitVec.ofNat 32 x.lastTick, BitVec.ofNat 32 (x.lastTick / 2 ^ 32)] ++ List.replicate 9 0 ++ sects

/-- Words of history that the AFE area holds beside the two alignment values (R96). -/
def afeWords : Nat := 3068

/-- Rows 1 to 24 of the control tile: A, E_k, the pre-emphasis memory and the samples kept, in that order (R96,
notes/assumptions/24.md). -/
def AfeStream.bytes (a : AfeStream) : List Byte :=
  leBytes 8 (a.anchor.getD 0) ++ leBytes 8 a.ek ++ bytesOfWords (takePad 0 afeWords (a.pre :: a.hist))

/-- The AFE values read back from a control tile. DESIGN CHOICE: both alignment values zero are no anchor yet, since R96 zeroes them
at open and the manual gives no other sign of it (notes/assumptions/119.md). -/
def AfeStream.ofTile (a : AfeStream) (tile : List Byte) : AfeStream :=
  let bs := tile.drop 512
  let an := leNat (bs.take 8)
  let ek := leNat ((bs.drop 8).take 8)
  { a with
    anchor := if an = 0 ∧ ek = 0 then none else some an
    ek := ek, pre := (wordsOf ((bs.drop 16).take 4)).headD 0, hist := wordsOf ((bs.drop 20).take (4 * a.histLen)) }

/-- The header row and the AFE rows of a control tile. -/
def Stream.controlBytes (x : Stream) : List Byte :=
  takePad 0 512 (bytesOfWords x.headerWords) ++ (x.afe.elim [] AfeStream.bytes)

/-- The control tile of a stream's record follows the stream's fields. The Saddler holds the change while the record lies in C
(R574) and while the mirroring channel reads it (R353). -/
def State.writeHeader (id : Nat) (s : State) : State :=
  match s.stream? id with
  | none => s
  | some x =>
    if x.record.state.coded || x.record.mirRead then s.updRec id fun r => { r with hdrHeld := true }
    else s.recordPut id 0 x.controlBytes

/-- The page-list sections hold the count and the numbers of the pages the stream holds (Table 12-3); it is held like
a header change. -/
def State.writePageList (id : Nat) (s : State) : State :=
  match s.stream? id with
  | none => s
  | some x =>
    let bs := leBytes 4 x.pages.length ++ x.pages.flatMap (leBytes 4)
    if x.record.state.coded || x.record.mirRead then s.updRec id fun r => { r with hdrHeld := true }
    else s.forEach (x.record.sect.filter fun w => bits w 16 4 == 3) fun w t =>
      t.recordPut id (bits w 0 8 * 16384) (bs.take (bits w 8 8 * 16384))

/-- A held change of the control tile or the page list is written when the record has left the CXL tier and no hand-off reads it (R353, R574). -/
def State.applyHeld (id : Nat) (s : State) : State :=
  match s.stream? id with
  | none => s
  | some x =>
    if x.record.hdrHeld && !x.record.state.coded && !x.record.mirRead then
      ((s.updRec id fun r => { r with hdrHeld := false }).writeHeader id).writePageList id
    else s

/-! ### Hand-offs to the partner (R352, R353, R446 to R449) -/

/-- Partition p has a mirror pool on the partner: the partner's partition is started (R440, R449). -/
def State.partnerPool (s : State) (p : Nat) : Bool :=
  match s.pair.partner with
  | some i => i.pools.any fun x => x.1 == p
  | none => false

/-- Mirroring is in force for partition p. -/
def State.mirrors (s : State) (p : Nat) : Bool :=
  (s.pair.state == .syncing || s.pair.state == .paired) && s.partnerPool p

/-- The mirror descriptor of a stream (R446). -/
def Stream.mirrorDesc (x : Stream) : MirrorDesc where
  group := x.rg
  part := x.part
  main := x.main
  fb := x.fb
  inkind := x.inkind
  source := x.source
  cadence := x.cadence
  offset := x.offset
  budget := x.budget
  prio := x.prio
  fbMode := x.fbMode
  fbCount := x.fbCount
  layout := x.record.layout
  tiles := x.record.tiles
  afeUnits := match x.afe with
    | some a => a.units
    | none => 0
  freeze := x.freeze
  rate := x.afe.elim 0 (·.rate)
  sfmt := x.afe.elim 0 (·.sfmt)
  params := x.afe.elim ⟨0, 0, 0, 0, 0, 0, 0, 0, 0, 0, 0, 0⟩ (·.params)
  maxLen := x.maxLen

/-- Pages that travel: those of the page list that the partner lacks or of which tokens have been sealed since (R446). -/
def State.pagesToSend (s : State) (x : Stream) : List Page :=
  (x.pages.filterMap s.page?).filter fun p => p.sent < p.sealn || p.sent == 0

/-- A page as it travels with a hand-off, from its raw bytes. -/
def Page.mirrorOf (p : Page) (raw : List Byte) : MirrorPage :=
  { kind := p.kind, fmt := p.fmt, shape := p.shape, p0 := p.p0, sealn := p.sealn
    writer := if p.nowr then none else some p.writer
    bytes := clipTokens p.kind p.fmt p.shape p.sealn raw }

/-- Pages with their raw bytes; where one does not expand, its address and the mismatch (R242). -/
def State.rawPages (s : State) : List Page → Except (Nat × Option Nat × Option Nat) (List (Page × List Byte))
  | [] => .ok []
  | p :: rest =>
    match s.pageRaw p with
    | .error e => .error (frameAddr p.tier p.frame, e.1, e.2)
    | .ok raw => match s.rawPages rest with
      | .error e => .error e
      | .ok ps => .ok ((p, raw) :: ps)

/-- The message of a hand-off: the tiles marked in CHG, raw, and the sealed tokens of the pages that travel (R254, R446); or the
mismatch that their expansion meets. -/
def State.handoffMsg (s : State) (x : Stream) : Except (Nat × Option Nat × Option Nat) HandoffMsg :=
  match s.recordBytes x, s.rawPages (s.pagesToSend x) with
  | .error e, _ => .error (x.recordRange.1, e.1, e.2)
  | .ok _, .error e => .error e
  | .ok raw, .ok ps => .ok
    { stream := x.id, seq := x.seq, desc := x.mirrorDesc
      tiles := (tileList (x.record.chg &&& tileMask x.record.tiles)).map fun i => (i, (raw.drop (i * 16384)).take 16384)
      pages := ps.map fun q => (q.1.num, q.1.mirrorOf q.2) }

/-- A hand-off of a stream is issued, and the mirroring channel reads the record (R352, R353). Without a partner pool the
device hands nothing and clears CHG, except in DEGRADED and ISOLATED, where the mirror only grows stale (R449). -/
def State.handOff (id : Nat) (s : State) : State :=
  match s.stream? id with
  | none => s
  | some x =>
    if s.mirrors x.part then
      (s.updStream id fun x => { x with outHand := x.outHand + 1, record := { x.record with mirRead := true } }).updPair
        fun p => { p with outbound := p.outbound ++ [(id, x.seq)] }
    else if s.pair.state == .degraded || s.pair.state == .isolated then s
    else s.updRec id fun r => { r with chg := 0 }

/-- The whole record and every page it names is handed off (R449). -/
def State.handOffFull (id : Nat) (s : State) : State :=
  match s.stream? id with
  | none => s
  | some x => (s.updStream id fun x =>
      { x with mirrored := false, record := { x.record with chg := tileMask x.record.tiles } }).handOff id
        |>.updPages (updWhere (fun p => x.pages.contains p.num) fun p => { p with sent := 0 })

/-- The bytes a hand-off adds to what this device's records and pages take of the partner's pool are more than the pool that
the exchange gave: the hand-off waits there for space (R447, notes/assumptions/23.md). -/
def State.mirrorWaits (s : State) (x : Stream) (need : Nat) : Bool :=
  let pool := match s.pair.partner with
    | some i => (getKey x.part i.pools).getD 0
    | none => 0
  let recs := sumBy (fun y : Stream => if y.part == x.part && y.mirrored then y.record.tiles * 16384 else 0) s.work.streams
  let pgs := 16384 * (s.caches.pages.filter fun p => p.part == x.part && 0 < p.sent).length
  pool < recs + pgs + need

/-! ### Moves (R344 to R351) -/

/-- The move of a stream's record that is queued or started. -/
def State.move? (s : State) (id : Nat) : Option Move := s.work.moves.find? fun m => m.stream == id

def State.dropMove (id : Nat) (s : State) : State := s.updMoves (·.filter fun m => m.stream != id)

/-- A move is queued on its die. -/
def State.queueMove (id : Nat) (kind : MoveKind) (prio : Nat) (due : Option Nat) (s : State) : State :=
  match s.stream? id with
  | none => s
  | some x =>
    if (s.move? id).isSome then s
    else
      let m : Move :=
        { stream := id, kind := kind, die := x.record.die, prio := prio, age := 0, due := due, queuedAt := s.tb.now
          started := false, dst := 0, copied := false, forWrite := false, atEnd := false, deferred := false }
      s.updMoves (· ++ [m])

/-- A record that the device may demote to free a home: PARKED, in H, without a chunk assigned, not pinned (R350). -/
def Stream.demotable (x : Stream) : Bool :=
  x.state == .parked && x.record.state == .H && !x.decided && x.pins.home.isNone

/-- Demotions of the least recently launched records that may be demoted, until record x's home has room on its die with what the
demotions under way free (R350). -/
def State.demoteFor (x : Stream) (s : State) : State :=
  let here := s.work.streams.filter fun y => y.part == x.part && y.record.die == x.record.die
  let going := sumBy (fun y : Stream => if (s.move? y.id).any (·.kind == .demote) then y.record.tiles else 0) here
  let lack := s.homeUsed x.part x.record.die + x.record.tiles * 16384 -
    (s.shareOn x.part x.record.die (s.partStateMib x.part) * 2 ^ 20 + going * 16384)
  if 0 = s.partCxlGib x.part then s
  else
    ((sortBy (·.lastTick) (here.filter fun y => y.demotable && (s.move? y.id).isNone)).foldl (fun (a : Nat × State) y =>
      if a.1 = 0 then a else (a.1 - y.record.tiles * 16384, a.2.queueMove y.id .demote 0 none)) (lack, s)).2

/-- A place for a stream's record in a slice of its group; the records of `but` count as gone. -/
def State.fillSpot (s : State) (x : Stream) (but : List Nat) : Option Nat :=
  match s.group? x.group with
  | none => none
  | some g => (coreList g.cores).findSome? fun c => s.stateSpot c (x.record.tiles * 16384) but

/-- Swap-outs of resident records without a chunk, least recently launched first, until the rows that record x needs are free in
its group's STATE regions (R350); those that are under way count. They take the fill's priority (R348). -/
def State.swapFor (x : Stream) (prio : Nat) (tick : Option Nat) (s : State) : State :=
  match s.group? x.group with
  | none => s
  | some g =>
    let here (y : Stream) : Bool := y.record.spm.any fun a => g.cores.getLsbD (a / 2 ^ 23)
    let going := (s.work.streams.filter fun y => here y && (y.record.state == .spill || (s.move? y.id).any (·.kind == .swapOut))).map (·.id)
    let more := sortBy (·.lastTick) (s.work.streams.filter fun y =>
      here y && y.record.state == .S && !y.decided && y.pins.home != some 0 && (s.move? y.id).isNone)
    let r := more.foldl (fun (a : List Nat × State) y =>
      if (s.fillSpot x a.1).isSome then a else (y.id :: a.1, a.2.queueMove y.id .swapOut prio tick)) (going, s)
    r.2

/-- What a fill that lacks rows or a home asks for (R350). -/
def State.makeRoom (x : Stream) (prio : Nat) (tick : Option Nat) (s : State) : State :=
  let s := s.when (s.fillSpot x []).isNone (State.swapFor x prio tick)
  s.when (x.record.state.coded && !s.homeRoom x.part x.record.die x.record.tiles) (State.demoteFor x)

/-- A fill is requested: at a priority, for a tick. One from the CXL tier that finds no free home is counted (Table 12-5). -/
def State.queueFill (id prio tick : Nat) (s : State) : State :=
  match s.stream? id with
  | none => s
  | some x =>
    let s := s.queueMove id .fill prio (some tick)
    let s := s.when (x.record.state.coded && !s.homeRoom x.part x.record.die x.record.tiles) (State.bump (ctrRes 7))
    s.makeRoom x prio (some tick)

/-- A move that has started is cancelled: its destination is free, its source unchanged (R344). -/
def State.cancelMove (id : Nat) (s : State) : State :=
  (s.dropMove id).updRec id fun r =>
    match r.state with
    | .dem => { r with state := .H }
    | .move => { r with state := .H, newHome := none }
    | .pro => { r with state := .C, newHome := none }
    | .fillH => { r with state := .H, spm := none }
    | .fillC => { r with state := .C, spm := none, home := none }
    | .spill => { r with state := .S }
    | _ => r

/-- What a launch decision does to a record (Table 12-5). -/
def State.decideMoves (id prio tick : Nat) (s : State) : State :=
  match s.stream? id with
  | none => s
  | some x =>
    let queued := match s.move? id with
      | some m => !m.started
      | none => false
    match x.record.state with
    | .S =>
      if queued then (s.dropMove id).bump (ctrRes 2) else s
    | .H => ((s.when queued (State.dropMove id))).queueFill id prio tick
    | .C => ((s.when queued (State.dropMove id))).queueFill id prio tick
    | .dem => ((s.cancelMove id).bump (ctrRes 4)).queueFill id prio tick
    | .move => (s.cancelMove id).queueFill id prio tick
    | _ => s

/-! ### The order in which queued moves start (R348) -/

def Move.eff (m : Move) : Nat := min 3 (m.prio + m.age)

/-- Move a comes before move b: priority, then the tick served with none last, then stream ID. -/
def Move.before (a b : Move) : Bool :=
  let da := a.due.getD (2 ^ 64)
  let db := b.due.getD (2 ^ 64)
  b.eff < a.eff || (a.eff == b.eff && (da < db || (da == db && a.stream < b.stream)))

/-- A host state command waits on the stream (R355). -/
def Stream.stateCmd (x : Stream) : Bool :=
  match x.cmd with
  | some c => c.1 == 8 || c.1 == 9
  | none => false

/-- A background move that capping defers (R522). -/
def State.capDefers (s : State) (m : Move) : Bool :=
  s.capping && (m.kind == .demote || m.kind == .promote || m.kind == .rehome) && !m.forWrite

/-- The guards of Table 12-5 under which a queued move may start, apart from its destination. -/
def State.moveReady (s : State) (m : Move) : Bool :=
  match s.stream? m.stream with
  | none => false
  | some x =>
    let r := x.record
    !m.started && !s.capDefers m && (m.forWrite || !x.stateCmd) &&
      (match m.kind with
        | .fill => (s.fillSpot x []).isSome &&
          (r.state == .H || (r.state == .C && s.homeRoom x.part r.die r.tiles && (s.freeSpot r.die (r.tiles * 16384)).isSome))
        | .swapOut => r.state == .S && (!x.decided || m.atEnd)
        | .demote => r.state == .H && !x.decided && x.pins.home != some 1 && 0 < s.partCxlGib x.part
        | .promote => r.state == .C && s.homeRoom x.part r.die r.tiles
        | .rehome => r.state == .H && !x.decided)

/-- Rows of a slice from device address a are STATE rows outside the pinned entries, and meet no other record and no input area
(R268, R271, R339). -/
def State.stateRows (s : State) (id c a n : Nat) : Bool :=
  let k := s.core c
  k.allOfKind 2 (nbits a 9 14) (n / 512) && k.unpinned (nbits a 9 14) (n / 512) &&
    !(s.inputRanges c).any (fun r => meets a n r.1 r.2) &&
    !s.work.streams.any fun x => x.id != id && x.record.spm.any fun b => meets a n b (x.record.tiles * 16384)

/-- CXL bytes of a partition: its extents and its pages' frames. -/
def State.cxlUsed (s : State) (p : Nat) : Nat :=
  sumBy (fun x : Stream => if x.part == p then (x.record.ext.elim 0 (·.2)) else 0) s.work.streams +
    16384 * ((s.caches.pages.filter fun x => x.part == p && x.tier == 2).map (·.frame)).eraseDups.length

/-- Bytes at a CXL device address meet no extent, no extent being written and no frame in use. -/
def State.cxlSpotFree (s : State) (a n : Nat) : Bool :=
  !(s.work.streams.any fun y => match y.record.ext with
      | some e => meets a n e.1 e.2
      | none => false) &&
  !(s.caches.pages.any fun y => y.tier == 2 && meets a n (frameAddr 2 y.frame) 16384) &&
  !(s.work.moves.any fun m => m.kind == .demote && m.started && meets a n m.dst (256 * 16392 + 1024))

/-- The destination of a move: STATE rows in a slice of a core of the stream's group for a fill, a place in the CXL tier that
holds every tile uncoded for a demotion, a free home for a promotion or a re-homing; a swap-out goes to its home. -/
def State.dstOk (s : State) (x : Stream) (k : MoveKind) (dst : Nat) : Bool :=
  let n := x.record.tiles * 16384
  match k with
  | .fill =>
    (match s.locate dst n with
      | some (.spm c b) => b % 16384 == 0 && ((s.group? x.group).elim false fun g => g.cores.getLsbD c) && s.stateRows x.id c dst n
      | _ => false)
  | .swapOut => true
  | .demote =>
    let m := recordDirBytes x.record.tiles + x.record.tiles * 16392
    (match s.locate dst m with
      | some l => !s.poisoned l m
      | none => false) && dst / 2 ^ 60 == 3 && dst % 64 == 0 && s.cxlUsed x.part + m ≤ s.partCxlGib x.part * 2 ^ 30 &&
      s.cxlSpotFree dst m
  | .promote =>
    (match s.locate dst n with
      | some (.die d o) => d == x.record.die && s.homeRoom x.part d x.record.tiles && s.spotFree d o n
      | _ => false)
  | .rehome =>
    (match s.locate dst n with
      | some (.die d o) => d != x.record.die && s.homeRoom x.part d x.record.tiles && s.spotFree d o n
      | _ => false)

/-! ### Starts and ends -/

/-- Every byte of a move is copied, and the mirroring channel holds its end (R353). -/
def State.markCopied (id : Nat) (s : State) : State :=
  s.updMoves (updWhere (fun m => m.stream == id) fun m => { m with copied := true })

/-- Tick of the job that has a row of a stream. -/
def State.rowTick (s : State) (id : Nat) : Nat := (s.work.jobs.find? fun j => j.rows.any fun r => r.stream == id).elim 0 (·.tick)

/-- The SPM rows of a swap-out are free and its DIRTY tiles written to the home; a launch decided meanwhile queues the fill
at urgent (Table 12-5). -/
def State.swapOutEnd (id : Nat) (s : State) : State :=
  match s.stream? id with
  | none => s
  | some x =>
    if x.record.mirRead then s.markCopied id
    else
      let raw := (s.devRead (x.record.spm.getD 0) (x.record.tiles * 16384)).getD []
      let tiles := tileList (x.record.dirty &&& tileMask x.record.tiles)
      let s := s.forEach tiles fun i t =>
        t.dieWrite x.record.die (x.record.home.getD 0 + i * 16384) ((raw.drop (i * 16384)).take 16384)
      let s := s.chargeStream x [(7, tiles.length * 16384)]
      let s := s.updRec id fun r => { r with state := .H, spm := none, dirty := 0 }
      let s := s.updStream id fun x =>
        { x with state := if x.state == .resident then .parked else x.state }
      let s := (s.dropMove id).bump (ctrRes 1)
      if x.decided then (s.queueFill id 3 (s.rowTick id)).bump (ctrRes 3) else s

/-- Start of a queued move (Table 12-5). -/
def State.moveBegin (m : Move) (dst : Nat) (s : State) : State :=
  let go (f : Record → Record) (t : State) : State :=
    (t.updMoves (updWhere (fun y => y.stream == m.stream) fun y => { y with started := true, age := 0, dst := dst })).updRec m.stream f
  match s.stream? m.stream with
  | none => s
  | some x =>
    match m.kind with
    | .fill =>
      if x.record.state == .C then
        match s.freeSpot x.record.die (x.record.tiles * 16384) with
        | some o => go (fun r => { r with state := .fillC, spm := some dst, home := some o }) s
        | none => s
      else go (fun r => { r with state := .fillH, spm := some dst }) s
    | .swapOut =>
      let s := go (fun r => { r with state := .spill }) s
      if x.record.dirty == 0 then s.swapOutEnd m.stream else s
    | .demote => go (fun r => { r with state := .dem }) s
    | .promote => go (fun r => { r with state := .pro, newHome := some (dst % 2 ^ 38, x.record.die) }) s
    | .rehome => go (fun r => { r with state := .move, newHome := some (dst % 2 ^ 38, nbits dst 40 4) }) s

/-- RECORD_MOVE_START: the first queued move of its die that may start (R348), to a destination that is free. A fill that finds no
rows or no home waits, and asks for them (R350). -/
def execRecordMoveStart (id : Nat) (dst : Nat) (s : State) : Res :=
  .next (match s.move? id, s.stream? id with
    | some m, some x =>
      let ahead := s.work.moves.any fun y => y.die == m.die && y.stream != id && s.moveReady y && y.before m
      if s.alive && s.moveReady m && !ahead && s.dstOk x m.kind dst then s.moveBegin m dst
      else if s.alive && m.kind == .fill && !m.started then s.makeRoom x m.eff m.due
      else if s.alive && !m.started && s.capDefers m && !m.deferred then
        (s.updMoves (updWhere (fun y => y.stream == id) fun y => { y with deferred := true })).bump (ctrPwr 1)
      else s
    | _, _ => s)

/-- The extent of a record and its block counts are released. -/
def State.freeExtent (id : Nat) (s : State) : State :=
  match s.stream? id with
  | none => s
  | some x =>
    match x.record.ext with
    | none => s
    | some e =>
      let bs := (s.devRead e.1 e.2).getD []
      let names := (List.range x.record.tiles).flatMap fun i => ((recordTile bs i).map tileNames).getD []
      (s.dropNames x.part names).updRec id fun r => { r with ext := none }

/-- Pages that R227 evicted return with the fill, in HBM frames of the pool or of the reclaim list (R262, R351); none while a
frame is lacking. -/
def State.returnPages : List Page → State → Option State
  | [], s => some s
  | pg :: rest, s =>
    if (s.locate pg.range.1 16384).elim false fun l => s.poisoned l 16384 then some (s.uncorrectable none 5 3 pg.range.1)
    else
      match s.pageRaw pg, s.takeFrame pg.part [] with
      | .error e, _ => some (s.skiverMismatch none pg.range.1 e.1 e.2)
      | .ok raw, some (fr, t) => State.returnPages rest ((t.pageDropNames pg).landPage pg fr raw)
      | .ok _, none => none

/-- A stream's record is resident; where the wake of the cores of its launch has been issued, its row is ARMED at once (Table
2-3, held tick). -/
def State.landed (id : Nat) (s : State) : State :=
  let woken := s.work.jobs.any fun j =>
    j.woken && (j.phase == .decided || j.phase == .waiting || j.phase == .switching) && j.rows.any fun r => r.stream == id
  s.updStream id fun x =>
    { x with state := if x.state == .parked || x.state == .cold || x.state == .resident then (if woken then .armed else .resident) else x.state }

/-- The last tile of a fill, its tag and the evicted pages are there: the residency bit is set, CHG clear; from the CXL tier the
extent is freed and every tile is DIRTY (R342, R351, Table 12-5). -/
def State.fillEnd (x : Stream) (raw : List Byte) (s : State) : State :=
  let a := x.record.spm.getD 0
  let fromC := x.record.state == .fillC
  let s := s.spmWrite (nbits a 23 8) (nbits a 0 23) raw
  let s := s.chargeStream x [if fromC then (8, (x.record.ext.getD (0, 0)).2) else (7, raw.length)]
  let s := s.when fromC (State.freeExtent x.id)
  let s := s.updRec x.id fun r =>
    { r with state := .S, chg := if r.mirRead then r.chg else 0, dirty := if fromC then tileMask r.tiles else 0 }
  (((s.landed x.id).dropMove x.id).bump (ctrRes 0)).applyHeld x.id

/-- Evicted pages of a stream, which a fill returns (R351). -/
def State.awayPages (s : State) (x : Stream) : List Page := (x.pages.filterMap s.page?).filter fun p => p.tier == 2

/-- FILL_DONE: the last tile and tag are written and the evicted pages back; no end while a frame for one of them is lacking. -/
def execFillDone (id : Nat) (u : Upset) (s : State) : Res :=
  .next (match s.stream? id with
    | none => s
    | some x =>
      if !s.alive || !(x.record.state == .fillH || x.record.state == .fillC) then s
      else
        let s := s.moveErrors 7 u (x.recordRange :: (s.awayPages x).map Page.range)
        if s.keeper.fstop then s
        else if s.extPoisoned x then s.uncorrectable none 5 3 x.recordRange.1
        else
          match s.recordBytes x with
          | .error e => s.skiverMismatch none x.recordRange.1 e.1 e.2
          | .ok raw =>
            match State.returnPages (s.awayPages x) s with
            | none => s
            | some s => if s.keeper.fstop then s else s.fillEnd x raw)

/-- SWAP_OUT_DONE: the last DIRTY tile and tag are in HBM; the mirror read must be done (Table 12-5). -/
def execSwapOutDone (id : Nat) (u : Upset) (s : State) : Res :=
  .next (match s.stream? id with
    | some x =>
      if s.alive && x.record.state == .spill then
        let s := s.moveErrors 7 u [x.recordRange]
        s.when (!s.keeper.fstop) (State.swapOutEnd id)
      else s
    | none => s)

/-- The record coded as one extent: its bytes, with the counters and the table of its class (R244, R263). -/
def State.codeRecord (x : Stream) (raw : List Byte) (s : State) : List CodedTile × State :=
  let fmt := (s.slot? x.main).bind fun m => m.hdr.stateFmt
  let ch := s.chooseCoding x.part x.main clsState fmt
  ch.2.codeTiles x.part ((fmt.map fmtEw).getD 0) ch.1 (pieces 16384 (x.record.tiles + 1) raw)

/-- The extent of a demotion is complete: the record stands there, coded, and the home is released (R341, R344) unless the
mirroring channel still reads it (R353). -/
def State.demotionEnd (id : Nat) (s : State) : State :=
  match s.stream? id, s.move? id with
  | some x, some m =>
    if x.record.mirRead then s.markCopied id
    else
      let raw := s.dieRead x.record.die (x.record.home.getD 0) (x.record.tiles * 16384)
      let r := s.codeRecord x raw
      let bs := recordExtent (r.1.map (·.bytes))
      let s := match r.2.locate m.dst bs.length with
        | some l => r.2.writeLoc l bs
        | none => r.2
      let s := s.addNames x.part (r.1.flatMap fun t => tileNames t.bytes)
      let s := s.chargeStream x [(7, raw.length), (8, bs.length)]
      let s := s.updRec id fun r =>
        { r with state := .C, home := none, lent := false, ext := some (m.dst, bs.length) }
      let s := s.updStream id fun x => { x with state := if x.state == .parked then .cold else x.state }
      s.dropMove id
  | _, _ => s

/-- DEMOTION_DONE: the Skiver has verified, as a consumer, and coded every tile (R241). -/
def execDemotionDone (id : Nat) (u : Upset) (s : State) : Res :=
  .next (match s.stream? id with
    | some x =>
      if s.alive && x.record.state == .dem then
        let s := s.moveErrors 7 u [x.recordRange]
        s.when (!s.keeper.fstop) (State.demotionEnd id)
      else s
    | none => s)

/-- The end of a promotion: the record stands in its new home (Table 12-5). -/
def State.promotionEnd (id : Nat) (u : Upset) (s : State) : State :=
  match s.stream? id with
  | none => s
  | some x =>
    let s := s.moveErrors 7 u [x.recordRange]
    if s.keeper.fstop then s
    else if s.extPoisoned x then s.uncorrectable none 5 3 x.recordRange.1
    else
      match s.recordBytes x, x.record.newHome with
      | .error e, _ => s.skiverMismatch none x.recordRange.1 e.1 e.2
      | .ok _, none => s
      | .ok raw, some h =>
        let s := s.chargeStream x [(7, raw.length), (8, (x.record.ext.getD (0, 0)).2)]
        let s := (s.freeExtent id).dieWrite h.2 h.1 raw
        let s := s.updRec id fun r => { r with state := .H, home := some h.1, die := h.2, newHome := none }
        let s := s.updStream id fun x => { x with state := if x.state == .cold then .parked else x.state }
        let s := (s.dropMove id).applyHeld id
        if x.decided then s.queueFill id x.prio (s.rowTick id) else s

/-- The copy of a re-homing is complete: the record stands in the new home, and the old one is released unless the mirroring channel
still reads it (Table 12-5, R353). -/
def State.rehomingEnd (id : Nat) (s : State) : State :=
  match s.stream? id with
  | none => s
  | some x =>
    match x.record.newHome with
    | none => s
    | some h =>
      if x.record.mirRead then s.markCopied id
      else
        let raw := s.dieRead x.record.die (x.record.home.getD 0) (x.record.tiles * 16384)
        let s := (s.chargeStream x [(7, 2 * raw.length)]).dieWrite h.2 h.1 raw
        (s.updRec id fun r =>
          { r with state := .H, home := some h.1, die := h.2, newHome := none, lent := false }).dropMove id

/-- REHOMING_DONE: the copy is complete. -/
def execRehomingDone (id : Nat) (u : Upset) (s : State) : Res :=
  .next (match s.stream? id with
    | some x =>
      if s.alive && x.record.state == .move then
        let s := s.moveErrors 7 u [x.recordRange]
        s.when (!s.keeper.fstop) (State.rehomingEnd id)
      else s
    | none => s)

/-- A move that only waited for the mirroring channel ends (R353). -/
def State.endCopied (id : Nat) (s : State) : State :=
  match s.stream? id, s.move? id with
  | some x, some m =>
    if !m.copied then s
    else if x.record.state == .spill then s.swapOutEnd id
    else if x.record.state == .dem then s.demotionEnd id
    else if x.record.state == .move then s.rehomingEnd id
    else s
  | _, _ => s

/-- The mirroring channel has read the marked tiles: they leave for the partner, and CHG is clear (R352, R353). A page or a coded
record that does not expand is a mismatch (R242). -/
def State.mirrorRead (id : Nat) (s : State) : State :=
  match s.stream? id with
  | none => s
  | some x =>
    if !x.record.mirRead then s
    else
      match s.handoffMsg x with
      | .error e => s.skiverMismatch none e.1 e.2.1 e.2.2
      | .ok h =>
        let bytes := (h.tiles.length + h.pages.length) * 16384
        let s := (s.emit (.handoffSent h)).when (s.mirrorWaits x bytes) (State.bump (ctrRnl 4))
        let s := (s.count ctrMirBytes bytes).chargeStream x [(10, bytes)]
        let s := s.updPages (updWhere (fun p => x.pages.contains p.num) fun p => { p with sent := max p.sent p.sealn })
        ((s.updRec id fun r => { r with chg := 0, mirRead := false }).endCopied id).applyHeld id

/-- PLACEMENT_MOVE: placement queues a swap-out, a demotion, a promotion or a re-homing of a record (R356, Table 12-5). A
demotion waits for 1 s without a launch; a swap-out takes the priority of the highest fill that waits (R348). -/
def execPlacementMove (id : Nat) (kind : PlacedMove) (die : Nat) (s : State) : Res :=
  .next (match s.stream? id with
    | none => s
    | some x =>
      let idle := x.pins.home == some 2 || x.lastTick + 1000000000 ≤ s.tb.now
      let wait := (s.work.moves.filter fun m => m.kind == .fill && !m.started && m.die == x.record.die).foldl
        (fun n m => max n m.eff) 0
      if !s.alive || x.decided || (s.move? id).isSome || x.state == .opening || x.state == .closing then s
      else
        match kind, x.record.state with
        | .swapOut, .S => if x.pins.home == some 0 then s else s.queueMove id .swapOut wait none
        | .demote, .H => if idle && x.pins.home != some 1 then s.queueMove id .demote 0 none else s
        | .promote, .C => s.queueMove id .promote 0 none
        | .rehome, .H => if die != x.record.die && s.dieOn die then s.queueMove id .rehome 0 none else s
        | _, _ => s)

end Sys2Proof.Machine
end

