-- ==== Sys2Proof/Machine/Pair.lean ====
section
/-! DEFINITION. The Rein link and the pair: formation, states, time following, mirrors held and hand-offs
(15_rein_link_pair.md, R434 to R452; R72). -/

namespace Sys2Proof.Machine

open Sys2Proof

/-! ### Fields of RNL_CTRL (Table 15-5) -/

def State.pairEn (s : State) : Bool := nbits (s.reg 0x70000) 0 1 == 1
def State.pairMaster (s : State) : Bool := nbits (s.reg 0x70000) 1 1 == 1
def State.pairAuto (s : State) : Bool := nbits (s.reg 0x70000) 2 1 == 1
def State.sbEn (s : State) : Bool := nbits (s.reg 0x70000) 3 1 == 1
def State.commitWait (s : State) : Bool := nbits (s.reg 0x70000) 4 1 == 1

/-- Mirroring states. -/
def PairState.mirroring : PairState → Bool
  | .syncing => true
  | .paired => true
  | _ => false

/-- States in which the follower keeps PAIR_FOLLOW (R72). -/
def PairState.follows : PairState → Bool
  | .syncing => true
  | .paired => true
  | .degraded => true
  | _ => false

/-! ### Streams that leave -/

/-- A group without members, and the companions of a group that is gone, cease to exist. -/
def Work.prune (w : Work) : Work :=
  let used (g : Group) : Bool :=
    w.streams.any (fun x => x.group == g.num) || g.companionOf.isSome || w.jobs.any (fun j => j.kind == .launch g.num)
  let gs := w.groups.filter used
  { w with groups := gs.filter fun g => match g.companionOf with
      | some m => gs.any (fun x => x.num == m) || w.jobs.any (fun j => j.kind == .launch g.num)
      | none => true }

/-- Groups that are gone leave; a core-set pin that waited for the next launch of one has nothing left to move, and completes. -/
def State.prune (s : State) : State :=
  let t := s.updWork Work.prune
  t.forEach ((s.work.groups.filter fun g => (t.group? g.num).isNone).filterMap (·.nextCores)) fun c t => t.finishCmd c.2.1 c.2.2 stOK []

/-- A stream becomes CLOSED: its record, moves, input area and AFE units are free with it, and the cores of its group are mapped
anew (R270). -/
def State.removeStream (id : Nat) (s : State) : State :=
  let cores := (((s.stream? id).bind fun x => s.group? x.group).map fun g => coreList g.cores).getD []
  let s := s.updWork fun w =>
    { w with streams := w.streams.filter (·.id != id), moves := w.moves.filter fun m => m.stream != id }
  s.prune.forEach cores State.mapCore

/-- An OPEN that waits is refused: nothing stays open, and its command completes with the status. -/
def State.refuseOpen (id status : Nat) (s : State) : State :=
  match s.stream? id with
  | none => s
  | some x =>
    let s := s.removeStream id
    match x.cmd with
    | some c => s.finishCmd c.2.1 c.2.2 status []
    | none => s

/-! ### Changes of pair state (R442) -/

/-- Completions that COMMIT_WAIT held are posted: all of them, or those of chunks up to a SEQ (R447). -/
def State.releaseHeld (id : Nat) (upTo : Option Nat) (s : State) : State :=
  match s.stream? id with
  | none => s
  | some x =>
    let go (h : Nat × Nat × List Word × Bool) : Bool := upTo.elim true fun n => h.1 ≤ n
    let s := s.updStream id fun x => { x with heldComp := x.heldComp.filter fun h => !go h }
    s.forEach (x.heldComp.filter go) fun h t =>
      t.post x.rg h.2.1 (h.2.2.1.take 7) ((h.2.2.1.getD 7 0).toNat) h.2.2.2

/-- What leaving SYNCING and PAIRED does: held completions are posted, and waiting opens go on or are refused (R441, R447). -/
def State.leaveMirroring (s : State) : State :=
  let ids := s.work.streams.map (·.id)
  let s := s.forEach ids fun i t => t.releaseHeld i none
  let s := s.updPair fun p => { p with outbound := [] }
  let s := s.updStreams fun xs => xs.map fun x => { x with outHand := 0, record := { x.record with mirRead := false } }
  s.forEach ids fun i t =>
    match t.stream? i with
    | some x =>
      if !x.waitId then t
      else if (t.pair.state == .degraded || t.pair.state == .isolated) && t.pair.mirrors.any (·.stream == i) then
        t.refuseOpen i stBusy
      else t.updStream i fun x => { x with waitId := false }
    | none => t

/-- The pair enters a state: PAIR_FOLLOW clears where R72 says so, mirroring stops where it ends, and the PAIR event reports
the change with the number of streams promoted (R72, R442, Table 14-16). -/
def State.setPair (st : PairState) (promoted : Nat) (s : State) : State :=
  let old := s.pair.state
  if old == st then s
  else
    let s := s.updPair fun p => { p with state := st }
    let s := s.when (old.mirroring && !st.mirroring) State.leaveMirroring
    let s := s.when (!st.mirroring && st != .degraded && st != .isolated) fun t =>
      t.updStreams fun xs => xs.map fun x => { x with mirrored := false }
    let lost := s.tb.linkLost
    let s := s.when (!st.follows) fun t =>
      (t.updTb fun b => { b with pairFollow := false, pairLocked := false, linkLost := false }).when lost
        (State.timebaseEvent 3 false)
    s.devEvent 7 [BitVec.ofNat 32 st.code, BitVec.ofNat 32 promoted]

/-- Mirrors held for the partner are dropped. -/
def State.dropMirrors (s : State) : State :=
  s.updPair fun p => { p with mirrors := [], mirPages := [], reserved := [], inbound := [], handovers := [] }

/-- The mirrors that partition p's pool holds are dropped, with what waits for that pool (R517). -/
def State.dropPartMirrors (p : Nat) (s : State) : State :=
  s.updPair fun q =>
    let ms := q.mirrors.filter fun m => m.desc.part != p
    { q with
      mirrors := ms, inbound := q.inbound.filter fun h => h.desc.part != p
      reserved := q.reserved.filter fun r => r.2.1 != p
      mirPages := q.mirPages.filter fun g => ms.any fun m => m.pages.contains g.1 }

/-- TAKEOVER by one of the decision paths of R465; a hand-back in progress ends (R442). -/
def State.takeover (path : Nat) (s : State) : State :=
  ((s.setPair .takeover 0).updPair fun p => { p with path := path, handback := none }).updStreams fun xs =>
    xs.map fun x => { x with handback := false }

/-! ### Formation (R438, R439, R449) -/

/-- The refusal code of Table 15-1; 0 when nothing refuses. -/
def State.refusal (p : PartnerInfo) (s : State) : Nat :=
  let open' (x : Stream) : Bool := x.state != .opening && x.state != .closing
  let need (q : Nat) : Nat := sumBy (fun x : Stream => if x.part == q then x.record.tiles * 16384 else 0) s.work.streams
  let poolBad (q : Nat) : Bool :=
    s.work.streams.any (fun x => x.part == q && open' x) &&
      !(p.pools.any fun y => y.1 == q && need q ≤ y.2)
  if p.variant != s.bridle.inForce.variant then 1
  else if p.period != nbits (s.reg 0x30010) 0 32 || p.epoch != s.epoch then 2
  else if p.started == s.work.started && p.master == s.pairMaster then 3
  else if s.work.partStarted.any poolBad then 4
  else if p.openIds.any fun i => (s.stream? i).isSome then 5
  else if p.proto != s.bridle.pairProto then 6
  else 0

/-- On entry to SYNCING the time master is chosen and every open stream is handed off in full (R439, R449); the survivor of a
takeover is the master of the pair that forms again (Table 15-2). -/
def State.enterSyncing (p : PartnerInfo) (s : State) : State :=
  let master := s.pair.state == .solo || (if s.work.started != p.started then s.work.started else s.pairMaster)
  let s := s.updPair fun q =>
    { q with partner := some p, partnerStarted := p.started, timeMaster := master, timeLoaded := false, refuse := 0
             linkSilent := false, inbound := [], outbound := [], path := 0 }
  let s := s.setPair .syncing 0
  let s := s.updTb fun t => { t with pairFollow := !master, pairLocked := false }
  s.forEach ((s.work.streams.filter fun x => x.state != .opening && x.state != .closing).map (·.id)) State.handOffFull

/-- The pair forms again with a partner that nothing refuses (R438, Table 15-2). -/
def State.pairAgain (p : PartnerInfo) (s : State) : State := if s.refusal p = 0 then s.enterSyncing p else s

/-- Every open stream of both devices is committed on the partner, and the follower is locked (Table 15-2); the master
learns of the follower's lock from the pair state in its heartbeats (notes/assumptions/22.md). -/
def State.syncComplete (s : State) : Bool :=
  let p := s.pair
  p.state == .syncing && p.outbound.isEmpty && p.inbound.isEmpty &&
    (s.work.streams.all fun x => x.state == .opening || x.state == .closing || x.mirrored) &&
    ((p.partner.map (·.openIds)).getD []).all (fun i => p.mirrors.any fun m => m.stream == i) &&
    (if p.timeMaster then p.partnerState == 4 else s.tb.pairLocked)

/-- SYNCING becomes PAIRED as soon as its condition holds. -/
def State.checkPaired (s : State) : State := if s.syncComplete then s.setPair .paired 0 else s

/-- Partitions whose pool on the partner is new: their streams hand off in full (R449). -/
def State.newPools (p : PartnerInfo) (s : State) : State :=
  let old := (s.pair.partner.map (·.pools)).getD []
  let s := s.updPair fun q => { q with partner := some p, partnerStarted := p.started }
  let new := (p.pools.map (·.1)).filter fun k => !old.any fun y => y.1 == k
  s.forEach ((s.work.streams.filter fun x => new.contains x.part && x.state != .opening && x.state != .closing).map (·.id))
    State.handOffFull

/-- The link is up while at least one bundle is trained (R435). -/
def State.linkUp (s : State) : Bool := s.pair.bundles != 0

/-- PAIR_EXCHANGE: the values of R438 arrive over a link that is up. -/
def execPairExchange (p : PartnerInfo) (s : State) : Res :=
  .next (if !s.alive || !s.linkUp then s
    else
      let code := s.refusal p
      match s.pair.state with
      | .training =>
        if code = 0 then (s.enterSyncing p).checkPaired
        else (s.updPair fun q => { q with refuse := code, partner := some p, partnerStarted := p.started }).setPair .refused 0
      | .solo => if code = 0 then (s.enterSyncing p).checkPaired else s
      | .degraded => if code = 0 then (s.enterSyncing p).checkPaired else s
      | .isolated => if code = 0 then (s.enterSyncing p).checkPaired else s
      | .syncing => (s.newPools p).checkPaired
      | .paired => s.newPools p
      | _ => s)

/-! ### Bundles and flits (R435) -/

/-- BUNDLE_TRAINED. -/
def execBundleTrained (b : Nat) (s : State) : Res :=
  .next (if s.alive && s.pairEn && b < 4 && s.pair.state != .off then
    s.updPair fun p => { p with bundles := p.bundles ||| BitVec.ofNat 4 (2 ^ b) }
  else s)

/-- BUNDLE_RETRAIN: the bundle is down while it retrains, and counted. -/
def execBundleRetrain (b : Nat) (s : State) : Res :=
  .next (if s.alive && b < 4 && s.pair.bundles.getLsbD b then
    (s.updPair fun p => { p with bundles := p.bundles &&& ~~~BitVec.ofNat 4 (2 ^ b) }).bump (ctrRnl 2)
  else s)

/-- FLIT_REPLAY. -/
def execFlitReplay (b : Nat) (s : State) : Res :=
  .next (if s.alive && b < 4 && s.pair.bundles.getLsbD b then s.bump (ctrRnl 1) else s)

/-! ### Heartbeats, silence, takeover (R437, R439, R442, R444) -/

/-- HEARTBEAT_SEND: a flit on every bundle that is up with pair state, start state, Cinch time and SERVICE, and a transition
of REIN_HB_OUT under SB_EN; none in fault stop (R437). -/
def execHeartbeatSend (s : State) : Res :=
  .next (if s.keeper.fstop then s
    else
      let s := s.when (s.power.dev == .run && s.power.ready && !s.power.powerFail) fun t =>
        t.sendFlit "HEARTBEAT" [t.pair.state.code, b01 t.work.started, t.tb.now, t.work.served]
      s.when (s.sbEn && (s.power.dev == .run || s.power.dev == .sleep)) (State.emit (.pin "REIN_HB_OUT" true)))

/-- A follower meets the master's time: the error of its counter, one load before it is started, slew otherwise (R72, R439). -/
def State.follow (time delay : Nat) (s : State) : State :=
  if !s.tb.pairFollow then s
  else
    let asym := signed 32 (s.reg 0x70010 % 2 ^ 32)
    let now : Int := (time : Int) + delay + asym / 2
    if !s.work.started && !s.pair.timeLoaded then
      let s := (s.updTb (Timebase.loadTo now.toNat)).updPair fun p => { p with timeLoaded := true }
      (s.setReg 0x20058 0).updTb fun t => { t with pairLocked := true }
    else
      let err : Int := (s.tb.now : Int) - now
      let ok := err.natAbs ≤ 3
      let s := s.setReg 0x20058 (unsigned 32 err)
      s.updTb fun t =>
        { t with slew := clampInt ((2 ^ 31 - 1) * nsUnit) (-err * nsUnit), pairLocked := ok, timeCoarse := t.timeCoarse && !ok }

/-- HEARTBEAT: the partner's pair state, start state, time and SERVICE, with the delay the link has measured (R437, R439,
R442). -/
def execHeartbeat (pairState : Nat) (started : Bool) (time service delay : Nat) (s : State) : Res :=
  .next (if !s.alive || !s.linkUp || s.pair.state == .off then s
    else
      let lost := s.tb.linkLost
      let s := s.updPair fun p =>
        { p with partnerState := pairState, partnerStarted := started, partnerService := service, linkSilent := false }
      let s := s.setReg 0x20054 (delay % 2 ^ 32)
      let s := match s.pair.state, s.pair.partner with
        | .degraded, some p => s.pairAgain { p with started := started }
        | .isolated, some p => s.pairAgain { p with started := started }
        | _, _ => s
      let s := s.when (lost && s.pair.state.mirroring) fun t =>
        (t.updTb fun b => { b with linkLost := false }).timebaseEvent 3 false
      let s := s.when s.pair.state.mirroring (State.follow time delay)
      if s.pair.state.mirroring && s.work.started && started && service + 2 ≤ s.work.served then
        (s.sendFlit "FENCE" []).takeover 4
      else s.checkPaired)

/-- Both paths are silent: TAKEOVER under AUTO, else ISOLATED. -/
def State.bothSilent (s : State) : State := if s.pairAuto then s.takeover 3 else s.setPair .isolated 0

/-- The link falls silent while the pair serves: DEGRADED while the sideband is watched and alive; a follower's link is
lost (Table 3-1). -/
def State.linkGoesSilent (s : State) : State :=
  if s.sbEn && s.pair.sbAlive then
    if s.pair.state.mirroring then
      let follows := s.tb.pairFollow
      let s := s.setPair .degraded 0
      s.when follows fun t =>
        (t.updTb fun b => { b with pairLocked := false, linkLost := true }).timebaseEvent 3 true
    else s
  else s.bothSilent

/-- LINK_SILENCE: HB_MISS µs without a heartbeat on any bundle. -/
def execLinkSilence (s : State) : Res :=
  .next (if !s.alive || s.pair.state == .off || s.pair.linkSilent then s
    else
      let s := (s.updPair fun p => { p with linkSilent := true }).bump (ctrRnl 0)
      if s.pair.state.follows then s.linkGoesSilent else s)

/-- SIDEBAND_SILENCE: REIN_HB_IN makes no transition for HB_MISS µs. -/
def execSidebandSilence (s : State) : Res :=
  .next (if !s.alive || !s.sbEn then s
    else
      let s := s.updPair fun p => { p with sbAlive := false }
      if s.pair.linkSilent && s.pair.state.follows then s.bothSilent else s)

/-- REIN_HB_IN_TRANSITION: the sideband is alive. -/
def execReinHbInTransition (s : State) : Res :=
  .next (if s.alive && s.sbEn then s.updPair fun p => { p with sbAlive := true } else s)

/-- A FAULT or DOWN flit received takes the pair to TAKEOVER (Table 15-2). -/
def State.partnerGone (path : Nat) (s : State) : State :=
  if s.alive && (s.pair.state.follows || s.pair.state == .isolated) then s.takeover path else s

/-- FAULT_FLIT. -/
def execFaultFlit (s : State) : Res := .next (s.partnerGone 1)

/-- DOWN_FLIT. -/
def execDownFlit (s : State) : Res := .next (s.partnerGone 2)

/-- FENCE received: fault stop with cause watchdog (R443). -/
def execFence (s : State) : Res :=
  .next (if s.power.ready && !s.power.powerFail && !s.bridle.recovery && s.linkUp then
    s.fault { cause := 4, subcause := 3 }
  else s)

/-- LEAVE received: the mirrors held are dropped and the pair trains again (Table 15-2). -/
def execLeave (s : State) : Res :=
  .next (if s.alive && s.pair.state.follows then s.dropMirrors.setPair .training 0 else s)

/-- EN set or cleared in RNL_CTRL (Table 15-2): set in OFF trains; cleared in any other state sends LEAVE, except from
REFUSED, drops the mirrors and turns the pair OFF. -/
def State.pairCtrl (en : Bool) (s : State) : State :=
  if en then (if s.pair.state == .off then s.setPair .training 0 else s)
  else if s.pair.state == .off then s
  else
    let s := s.when (s.pair.state != .refused) (State.sendFlit "LEAVE" [])
    let s := s.dropMirrors.setPair .off 0
    (s.updPair fun p => { p with bundles := 0, refuse := 0, handback := none, partner := none, timeMaster := false }).updStreams
      fun xs => xs.map fun x => { x with handback := false }

/-! ### Opens across the pair (R441) -/

/-- Bytes of partition p's mirror pool in use: records, the pages they name, reservations. -/
def State.mirUsed (s : State) (p : Nat) : Nat :=
  sumBy (fun m : Mirror => if m.desc.part == p then m.desc.tiles * 16384 else 0) s.pair.mirrors +
    16384 * (((s.pair.mirrors.filter fun m => m.desc.part == p).flatMap (·.pages)).eraseDups).length +
    sumBy (fun r : Nat × Nat × Nat => if r.2.1 == p then r.2.2 * 16384 else 0) s.pair.reserved

/-- OPEN_ID_CONFIRM: the partner asks for a stream ID; the answer says whether it is free here and whether the record is
reserved in the pool of the partition of the same index (R441). -/
def execOpenIdConfirm (id part tiles : Nat) (s : State) : Res :=
  .next (if !s.alive || !s.pair.state.mirroring then s
    else
      let idFree := (s.stream? id).isNone && id < s.liveLimit
      let room := s.partStarted part && s.mirUsed part + tiles * 16384 ≤ s.mirMib part * 2 ^ 20
      let s := s.when (idFree && room) fun t => t.updPair fun p =>
        { p with
          reserved := (id, part, tiles) :: p.reserved.filter fun r => r.1 != id
          partner := p.partner.map fun i => { i with openIds := id :: i.openIds.filter (· != id) } }
      s.sendFlit "ID_ANSWER" [id, b01 idFree, b01 (idFree && room)])

/-- ID_CONFIRMED: the partner's answer to a waiting OPEN (R441). -/
def execIdConfirmed (id : Nat) (idFree reserved : Bool) (s : State) : Res :=
  .next (match s.stream? id with
    | none => s
    | some x =>
      if !s.alive || !x.waitId then s
      else if !idFree then s.refuseOpen id stBusy
      else if s.partnerPool x.part && !reserved then s.refuseOpen id stNoResource
      else s.updStream id fun x => { x with waitId := false })

/-! ### Mirrors held for the partner (R446, R449) -/

/-- Pages that the page-list sections of a mirrored record name (Table 12-3). -/
def mirrorPages (tiles : List (Nat × List Byte)) : List Nat :=
  let sects := ((wordsOf (((getKey 0 tiles).getD []).take 128)).drop 16).filter fun w => bits w 16 4 == 3
  sects.flatMap fun w =>
    let t := (getKey (bits w 0 8) tiles).getD []
    (List.range (min (leNat (t.take 4)) 4095)).map fun i => leNat ((t.drop (4 + 4 * i)).take 4)

/-- Space that a hand-off needs: its tiles and the pages not yet held. -/
def State.handoffNeed (s : State) (h : HandoffMsg) : Nat :=
  16384 * (h.tiles.length + (h.pages.filter fun p => (getKey p.1 s.pair.mirPages).isNone).length)

/-- The pool of the hand-off's partition holds it; the space reserved for the stream's open counts as free. -/
def State.handoffFits (s : State) (h : HandoffMsg) : Bool :=
  let own := sumBy (fun r : Nat × Nat × Nat => if r.1 == h.stream then r.2.2 * 16384 else 0) s.pair.reserved
  s.partStarted h.desc.part && s.mirUsed h.desc.part - own + s.handoffNeed h ≤ s.mirMib h.desc.part * 2 ^ 20

/-- A hand-off is committed all at once: the record's map switches to the new tiles, pages no record names are freed, and
the source is told (R446). -/
def State.commitHandoff (h : HandoffMsg) (s : State) : State :=
  let old := ((s.pair.mirrors.find? fun m => m.stream == h.stream).map (·.tiles)).getD []
  let tiles := h.tiles.foldl (fun ts t => putKey t.1 t.2 ts) old
  let pages := mirrorPages tiles
  let m : Mirror := { stream := h.stream, seq := h.seq, desc := h.desc, tiles := tiles, pages := pages }
  let s := s.updPair fun p =>
    let ms := insertBy (·.stream) m (p.mirrors.filter fun x => x.stream != h.stream)
    let pgs := h.pages.foldl (fun ps q => putKey q.1 q.2 ps) p.mirPages
    { p with mirrors := ms, mirPages := pgs.filter fun q => ms.any fun x => x.pages.contains q.1
             reserved := p.reserved.filter fun r => r.1 != h.stream }
  s.sendFlit "COMMITTED" [h.stream, h.seq]

/-- Waiting hand-offs are committed in the order of their source while there is room. -/
def State.drainInbound : Nat → State → State
  | 0, s => s
  | n + 1, s =>
    match s.pair.inbound with
    | [] => s
    | h :: rest =>
      if s.handoffFits h then State.drainInbound n ((s.updPair fun p => { p with inbound := rest }).commitHandoff h) else s

/-- HANDOFF: a hand-off of the partner arrives (R446, R447). -/
def execHandoff (h : HandoffMsg) (s : State) : Res :=
  .next (if !s.alive || !s.pair.state.mirroring then s
    else
      let s := s.updPair fun p => { p with inbound := p.inbound ++ [h] }
      (State.drainInbound s.pair.inbound.length s).checkPaired)

/-- HANDOFF_COMMITTED: the partner has committed the oldest hand-off outstanding (R446, R447, R449). -/
def execHandoffCommitted (id seq : Nat) (s : State) : Res :=
  .next (match s.pair.outbound with
    | [] => s
    | o :: rest =>
      if !s.alive || !s.pair.state.mirroring || o != (id, seq) then s
      else
        let s := s.updPair fun p => { p with outbound := rest }
        let s := s.updStream id fun x => { x with outHand := x.outHand - 1, mirrored := true }
        (s.releaseHeld id (some seq)).checkPaired)

/-- MIRROR_DROP_NOTICE: the partner has reset its partition p: the mirrors of its streams go, and this device's streams of p
are uncovered (R449, R517). -/
def execMirrorDropNotice (p : Nat) (s : State) : Res :=
  .next (if !s.alive || s.pair.state == .off then s
    else
      let s := s.updPair fun q =>
        { q with
          partner := q.partner.map fun i => { i with
            pools := i.pools.filter fun y => y.1 != p
            openIds := i.openIds.filter fun k => !q.mirrors.any fun m => m.stream == k && m.desc.part == p }
          outbound := q.outbound.filter fun o => !(s.work.streams.any fun x => x.id == o.1 && x.part == p) }
      let s := s.dropPartMirrors p
      let ids := (s.work.streams.filter fun x => x.part == p).map (·.id)
      let s := s.updStreams fun xs => xs.map fun x =>
        if x.part == p then { x with mirrored := false, outHand := 0, record := { x.record with mirRead := false } } else x
      s.forEach ids fun i t => t.releaseHeld i none)

/-! ### Hand-back (R452) -/

/-- HANDOVER_SEND: the running chunks of the group's streams have ended and their hand-offs are committed. -/
def execHandoverSend (s : State) : Res :=
  .next (match s.pair.handback with
    | none => s
    | some h =>
      let mine := s.work.streams.filter fun x => x.rg == h.rg
      if !s.alive || !h.stopped || h.sent || !s.pair.state.mirroring || mine.any (fun x => x.decided || x.outHand != 0) then s
      else (s.sendFlit "HANDOVER" [h.rg]).updPair fun p => { p with handback := some { h with sent := true } })

/-- HANDOVER_RECEIVED: the streams of group g are promoted at the next beat boundary. -/
def execHandoverReceived (g : Nat) (s : State) : Res :=
  .next (if s.alive && s.pair.state.mirroring then
    s.updPair fun p => { p with handovers := p.handovers.filter (· != g) ++ [g] }
  else s)

end Sys2Proof.Machine
end

