-- ==== Sys2Proof/Machine/HostRings.lean ====
section
/-! DEFINITION. Doorbells, the chunk and the output ring, input halves and moderation (14_host_rings.md, R398 to R430;
R47, R95, R106). -/

namespace Sys2Proof.Machine

open Sys2Proof

/-! ### Fetching (R401, R403 to R406, R429) -/

/-- Ring k of a group stops: RING_ERROR with the status and the index at fault (R429). -/
def State.stopRing (g k status idx : Nat) (s : State) : State :=
  ((s.updRg g fun r => { r with stopped := r.stopped ||| BitVec.ofNat 32 (2 ^ k) }).postEvent g 5 none
    [BitVec.ofNat 32 k, BitVec.ofNat 32 status, BitVec.ofNat 32 (idx % 2 ^ 16)] true).bump (ctrHif 1)

/-- Ring k is stopped. -/
def RingGroup.isStopped (r : RingGroup) (k : Nat) : Bool := r.stopped.getLsbD k

/-- Opcodes of the command ring (Table 14-6). -/
def commandOpcodes : List Nat := [1, 2, 3, 4, 5, 6, 7, 8, 9, 0x10, 0x11, 0x12, 0x13, 0x18, 0x19, 0x1A, 0x1B, 0x1C, 0x1F]

/-- Ring k accepts an opcode (R404). -/
def ringAccepts (k opc : Nat) : Bool :=
  if k = 0 then commandOpcodes.contains opc else if k = 1 then opc == 0x40 else opc == 0x50

/-- Fetching of ring k pauses: 256 commands in progress, 4,096 output buffers held (R403). -/
def RingGroup.pauses (r : RingGroup) (k : Nat) : Bool :=
  if k = 0 then 256 ≤ r.cmds.length else if k = 1 then false else 4096 ≤ r.pool.length + r.outs.length

/-- A fetched descriptor joins its ring's list. -/
def RingGroup.take (r : RingGroup) (k : Nat) (d : Desc) : RingGroup :=
  if k = 0 then { r with cmds := r.cmds ++ [d] } else if k = 1 then { r with chunks := r.chunks ++ [d] }
  else { r with outs := r.outs ++ [d] }

/-- At most n descriptors of ring k are fetched, in index order, up to its producer index. -/
def State.fetchRing (g k : Nat) : Nat → State → State
  | 0, s => s
  | n + 1, s =>
    let r := s.rg g
    let i := r.fetched.getD k 0
    if i == r.producer.getD k 0 || r.isStopped k || r.pauses k then s
    else
      let a := r.base k + 64 * (i % r.entries k)
      if s.hostFails a 64 then s.stopRing g k stBadAddr i
      else
        let d : Desc := ⟨i, wordsOf (s.hostRead a 64), false⟩
        let s := s.updRg g fun r => { r with fetched := updAt k (fun x => (x + 1) % 2 ^ 16) r.fetched }
        let s := if ringAccepts k d.opc then s.updRg g fun r => r.take k d else s.complete g k d stBadOpcode 0 []
        State.fetchRing g k n s

/-- The doorbell line of ring k is read. -/
def State.readLine (g k : Nat) (s : State) : State :=
  let r := s.rg g
  let a := r.dbl.toNat + 64 * k
  if r.isStopped k then s
  else if s.hostFails a 64 then s.stopRing g k stBadAddr (if k = 3 then r.evConsumer else r.fetched.getD k 0)
  else
    let p := leNat (s.hostRead a 2)
    if k = 3 then s.updRg g fun r => { r with evConsumer := p }
    else if r.entries k < (p + 2 ^ 16 - r.fetched.getD k 0) % 2 ^ 16 then s.stopRing g k stBadField p
    else s.updRg g fun r => { r with producer := updAt k (fun _ => p) r.producer }

/-- Every ring of the group whose fetch paused or whose producer index has moved goes on. -/
def State.fetchAll (g : Nat) (s : State) : State :=
  s.forEach [0, 1, 2] fun k t => t.fetchRing g k 65535

/-- DOORBELL_FETCH: what the host has written is visible (R408) and what it has configured in force; a kick or a beat boundary has the lines read and then the
descriptors they cover; a fetch that paused goes on (R403, R406). -/
def execDoorbellFetch (g : Nat) (host : HostDelta) (s : State) : Res :=
  .next (let s := s.forEach host.writes fun w t => t.hostWrite w.1 w.2
    let s := s.updMem fun m => { m with hostFail := host.failing }
    let s := match host.config with
      | some c => s.hostConfig c
      | none => s
    if !s.mayPost g then s
    else
      let r := s.rg g
      let s := if r.kickDue || (r.beatDue && s.work.started) then
          (s.forEach [0, 1, 2, 3] fun k t => t.readLine g k).updRg g fun r => { r with kickDue := false, beatDue := false }
        else s
      let s := s.fetchAll g
      if s.hif.rgs.any fun r => r.en && r.beatDue then s
      else s.updWork fun w => { w with served := w.beat.getD w.served })

/-! ### Starting a command (R409, R412) -/

/-- Commands that name one stream, and commands that name one model slot, with the slot. -/
def Desc.namesStream (x : Desc) : Bool := 1 ≤ x.opc && x.opc ≤ 9

def Desc.namesSlot (x : Desc) : Option Nat :=
  if x.opc = 0x10 ∨ x.opc = 0x11 ∨ x.opc = 0x13 then some (bits (x.w 2) 0 8)
  else if x.opc = 0x18 ∧ bits (x.w 2) 0 2 = 0 then some (bits (x.w 2) 8 8)
  else if x.opc = 0x19 then some (bits (x.w 2) 2 8)
  else none

/-- Command x waits for an earlier command y of its ring that is still in progress (R412). -/
def Desc.waitsFor (x y : Desc) : Bool :=
  x.fence || (y.fence && !y.started) || (x.namesStream && y.namesStream && x.stream == y.stream) ||
    (x.namesSlot.isSome && x.namesSlot == y.namesSlot)

/-- Nothing earlier in the ring holds the command. -/
def RingGroup.ready (r : RingGroup) (x : Desc) : Bool :=
  !(r.cmds.takeWhile fun y => y.didx != x.didx).any fun y => x.waitsFor y

/-- A command of opcode `opc` starts: with its partition in the wrong state it completes with WRONG_STATE (R409), else it
has its effect `f`. -/
def State.runCmd (opc g d : Nat) (f : Desc → State → State) (s : State) : State :=
  match (s.rg g).cmds.find? fun x => x.didx == d with
  | none => s
  | some x =>
    if !s.mayPost g || x.opc != opc || x.started || !(s.rg g).ready x then s
    else
      let p := (s.rg g).part
      let s := s.updRg g fun r => { r with cmds := updWhere (fun y => y.didx == d) (fun y => { y with started := true }) r.cmds }
      let wrong := if opc = 0x1C then s.partStarted p
        else if opc = 0x1A ∨ opc = 0x1F then false else !s.partStarted p
      if wrong then s.finishCmd g d stWrongState [] else f x s

/-! ### Chunks (R47, R403, R417, R418) -/

/-- Completion of a chunk descriptor that does not run: words 3 to 6 are zero (R419). -/
def State.refuseChunk (g : Nat) (x : Desc) (status : Nat) (s : State) : State :=
  (s.updRg g fun r => { r with chunks := r.chunks.filter fun y => y.didx != x.didx }).complete g 1 x status 0 []

/-- A held chunk that will not run completes with a status; the half it holds is free (R95). -/
def State.dropChunk (id : Nat) (c : Chunk) (status : Nat) (s : State) : State :=
  match s.stream? id with
  | none => s
  | some x =>
    let s := s.updStream id fun x =>
      { x with
        waiting := x.waiting.filter fun y => y.didx != c.didx
        halves := match c.half with
          | some h => updAt h (fun _ => false) x.halves
          | none => x.halves }
    s.post x.rg 1 (compWords 0x40 status id c.tag c.didx 0 []) 0 c.irq

/-- Every chunk of a stream that has not launched completes with a status. -/
def State.dropChunks (id status : Nat) (s : State) : State :=
  match s.stream? id with
  | none => s
  | some x => s.forEach x.waiting fun c t => t.dropChunk id c status

/-- The bytes of an input buffer that its chunk uses, with the rest of the half zero (R94, R106). -/
def State.inputBytes (s : State) (x : Stream) (c : Chunk) : List Byte :=
  match s.slot? x.main with
  | none => []
  | some m => padTo (s.halfTiles x * 16384) (s.hostRead c.buf (m.hdr.inputNeed x.inkind c.len))

/-- The DM writes feature or token chunks into free halves, in order (R95, R106); a buffer that cannot be read completes the
chunk with BAD_ADDR (R430). -/
def State.fillInputs (id : Nat) : Nat → State → State
  | 0, s => s
  | n + 1, s =>
    match s.stream? id with
    | none => s
    | some x =>
      if x.inkind != 1 && x.inkind != 2 then s
      else
        match x.waiting.find? fun c => !c.ready with
        | none => s
        | some c =>
          let h := x.chunkNo % 2
          if x.halves.getD h false then s
          else if s.hostFails c.buf c.bytes then State.fillInputs id n (s.dropChunk id c stBadAddr)
          else
            let a := s.halfAddr x h
            let s := s.spmWrite (a / 2 ^ 23) (a % 2 ^ 23) (s.inputBytes x c)
            State.fillInputs id n (s.updStream id fun x =>
              { x with
                chunkNo := x.chunkNo + 1, halves := updAt h (fun _ => true) x.halves
                waiting := updWhere (fun y => y.didx == c.didx) (fun y => { y with ready := true, half := some h }) x.waiting })

/-- The fields of a chunk descriptor (Table 14-11); L of a PCM stream is its maximum length (R29). -/
def Desc.chunk (x : Desc) (st : Stream) : Chunk where
  didx := x.didx
  tag := x.tag
  quiet := x.quiet
  irq := x.irq
  buf := x.d64 2
  bytes := bits (x.w 4) 0 24
  nch := bits (x.w 4) 24 3 + 1
  chidx := bits (x.w 4) 27 3
  len := if st.inkind = 0 then st.maxLen else bits (x.w 5) 0 12 + 1
  mark := if (x.w 5).getLsbD 12 then some (bits (x.w 5) 13 12) else none
  time := x.d64 6
  converting := false
  ready := false
  half := none
  flags := 0
  delta := 0
  ek := 0

/-- The values of a chunk descriptor that R418 refuses. -/
def State.chunkBad (s : State) (st : Stream) (c : Chunk) : Bool :=
  st.inkind == 3 || c.nch ≤ c.chidx ||
    ((st.inkind == 1 || st.inkind == 2) &&
      (st.maxLen < c.len || c.bytes < ((s.slot? st.main).map fun m => m.hdr.inputNeed st.inkind c.len).getD 0))

/-- Chunks of a stream that are fetched and not yet launched: those that wait, and those decided ahead of their tick (R403). -/
def State.heldChunks (s : State) (x : Stream) : Nat :=
  x.waiting.length + (s.work.jobs.filter fun j => (j.phase == .decided || j.phase == .waiting || j.phase == .switching) &&
    j.rows.any fun r => r.stream == x.id && r.chunk.isSome).length

/-- CHUNK: the descriptor goes to its stream (R47, R403, R417, R418, Table 2-4); a stream that its hand-back has stopped
answers NOT_OWNER (R452). -/
def execChunk (g d : Nat) (s : State) : Res :=
  .next (match (s.rg g).chunks.find? fun x => x.didx == d with
    | none => s
    | some x =>
      if !s.mayPost g || ((s.rg g).chunks.takeWhile fun y => y.didx != d).any fun y => y.stream == x.stream then s
      else
        match s.stream? x.stream with
        | none => s.refuseChunk g x stNotOpen
        | some st =>
          let c := x.chunk st
          if st.state == .closing || s.liveLimit ≤ x.stream then s.refuseChunk g x stNotOpen
          else if st.rg != g then s.refuseChunk g x stNotOwner
          else if st.state == .opening then s
          else if st.state == .paused then s.refuseChunk g x stPausedDrop
          else if st.handback then s.refuseChunk g x stNotOwner
          else if s.chunkBad st c then s.refuseChunk g x stBadField
          else if 16 ≤ s.heldChunks st then s.refuseChunk g x stNoResource
          else
            let s := s.updRg g fun r => { r with chunks := r.chunks.filter fun y => y.didx != d }
            State.fillInputs st.id 16 (s.updStream st.id fun y => { y with waiting := y.waiting ++ [c] }))

/-! ### Output (R421 to R424) -/

/-- COMMIT_WAIT holds a completion of the chunk with sequence number `seq` (R447). -/
def State.holdsComp (s : State) (x : Stream) (seq : Nat) : Bool :=
  s.commitWait && s.mirrors x.part && s.pair.outbound.contains (x.id, seq)

/-- A completion of a stream's chunk or output is posted, or held until the partner has committed the hand-off. -/
def State.postComp (id seq k : Nat) (ws : List Word) (w7 : Nat) (irq : Bool) (s : State) : State :=
  match s.stream? id with
  | none => s
  | some x =>
    if s.holdsComp x seq then
      s.updStream id fun x => { x with heldComp := x.heldComp ++ [(seq, k, takePad 0 7 ws ++ [BitVec.ofNat 32 (w7 % 2 ^ 31)], irq)] }
    else s.post x.rg k ws w7 irq

/-- Output that a buffer no longer receives is discarded, counted and reported (R424). -/
def State.outDrop (id : Nat) (o : OutWait) (delivered : Bool) (s : State) : State :=
  match s.stream? id with
  | none => s
  | some x =>
    (s.bump (ctrHif 0)).postEvent x.rg 3 (some id)
      [BitVec.ofNat 32 o.seq, BitVec.ofNat 32 (o.seq / 2 ^ 32), BitVec.ofNat 32 (b01 delivered)] false

/-- One part of the oldest waiting output of a stream goes into buffer `b`. -/
def State.deliverPart (id : Nat) (o : OutWait) (b : OutBuf) (s : State) : State :=
  let n := min o.bytes.length b.len
  let rest := o.bytes.drop n
  let fails := s.hostFails b.addr n
  let more := !rest.isEmpty && o.part < 15 && !fails
  let s := if fails then s else s.hostWrite b.addr (o.bytes.take n)
  let s := s.updStream id fun x =>
    { x with outQ := if more then { o with bytes := rest, part := o.part + 1 } :: x.outQ.drop 1 else x.outQ.drop 1 }
  let w3 := n % 2 ^ 24 + (o.okind % 16) * 2 ^ 24 + o.part * 2 ^ 28
  let ws := compWords 0x50 (if fails then stBadAddr else stOK) id b.tag b.didx (o.flags % 2 ^ 16 + (if more then 2 ^ 11 else 0))
    [BitVec.ofNat 32 w3, BitVec.ofNat 32 o.lateness, BitVec.ofNat 32 o.time, BitVec.ofNat 32 (o.time / 2 ^ 32)]
  let s := s.postComp id o.seq 2 ws (o.seq % 2 ^ 31) b.irq
  s.when (!rest.isEmpty && !more && !fails) (State.outDrop id o true)

/-- The waiting output of a stream goes into the pool's buffers, in order, while there are any. -/
def State.deliver (id : Nat) : Nat → State → State
  | 0, s => s
  | n + 1, s =>
    match s.stream? id with
    | none => s
    | some x =>
      match x.outQ, (s.rg x.rg).pool with
      | o :: _, b :: bs =>
        if !s.mayPost x.rg then s
        else State.deliver id n ((s.updRg x.rg fun r => { r with pool := bs }).deliverPart id o b)
      | _, _ => s

/-- OUTPUT_BUFFER: a buffer joins the pool, and waiting output of the group's streams goes into it, the stream of the
earliest launch first (R421, R424). -/
def execOutputBuffer (g d : Nat) (s : State) : Res :=
  .next (match (s.rg g).outs with
    | [] => s
    | x :: rest =>
      if !s.mayPost g || x.didx != d then s
      else
        let s := s.updRg g fun r => { r with outs := rest }
        let len := bits (x.w 4) 0 24
        if len % 64 != 0 || len < 64 || 16777152 < len then s.complete g 2 x stBadField 0 []
        else
          let s := s.updRg g fun r => { r with pool := r.pool ++ [⟨x.didx, x.tag, x.irq, x.d64 2, len⟩] }
          let waiting := s.work.streams.filter fun y => y.rg == g && !y.outQ.isEmpty
          s.forEach ((sortBy (fun y => y.lastTick * 2 ^ 14 + y.id) waiting).map (·.id)) fun i t => t.deliver i 16)

/-! ### Moderation (R428) -/

/-- MODERATION_TIMER: USEC µs have passed since the first pending entry of a vector. -/
def execModerationTimer (g : Nat) (event : Bool) (s : State) : Res :=
  .next (let r := s.rg g
    let usec := bits r.modr 8 16
    match (if event then r.firstE else r.firstC) with
    | none => s
    | some t => if usec = 0 || !s.mayPost g then s else (s.advanceTo (t + usec * 1000)).fireGroup g event)

end Sys2Proof.Machine
end

