-- ==== Sys2Proof/Machine/Afe.lean ====
section
/-! DEFINITION. The audio front-end: placement of buffers on the timebase and conversion into feature tiles
(04_audio_front_end.md, R88 to R103). -/

namespace Sys2Proof.Machine

open Sys2Proof

/-! ### Samples (R88 to R90, R418) -/

/-- Whole sample frames of the buffer. -/
def sampleFrames (sfmt nch bytes : Nat) : Nat := bytes / (nch * sampleBytes sfmt)

/-- The sample of frame i that the stream takes. -/
def sampleAt (sfmt nch chidx : Nat) (buf : List Byte) (i : Nat) : Word × Bool :=
  let b := sampleBytes sfmt
  sampleValue sfmt (leNat ((buf.drop ((i * nch + chidx) * b)).take b))

/-! ### Placement (R98, R99, Table 4-4) -/

/-- Where a buffer lies against its window. -/
structure AfePlace where
  anchor : Nat
  ek : Nat
  /-- T − E_k before a re-anchor, in ns. -/
  delta : Int
  reanchor : Bool
  gap : Bool
  overlap : Bool
  zeros : Nat
  drop : Nat
  deriving DecidableEq, Repr

/-- The first of the first four rows of Table 4-4 whose condition holds: window start E_k of duration D ns, time T of the
first sample or 0, tolerance in ns, rate in Hz. -/
def afePlace (anchor : Option Nat) (ek dur t tol hz : Nat) : AfePlace :=
  let a := anchor.getD t
  let e := if anchor.isNone then t else ek
  let d : Int := if t = 0 then 0 else (t : Int) - e
  let base : AfePlace := ⟨a, e, d, false, false, false, 0, 0⟩
  if d.natAbs ≤ tol then base
  else if dur ≤ d.natAbs then { base with anchor := t, ek := t, reanchor := true }
  else if 0 < d then { base with gap := true, zeros := d.natAbs * hz / 1000000000 }
  else { base with overlap := true, drop := ceilDiv (d.natAbs * hz) 1000000000 }

/-- N_k (R98). -/
def windowSamples (anchor ek dur hz : Nat) : Nat :=
  (ek + dur - anchor) * hz / 1000000000 - (ek - anchor) * hz / 1000000000

/-- δ in whole µs, rounded away from zero (R99). -/
def deltaUs (d : Int) : Int := if 0 ≤ d then (ceilDiv d.natAbs 1000 : Nat) else -(ceilDiv d.natAbs 1000 : Nat)

/-- The window's samples, how many of them were replaced by zero, and whether it was short or long. -/
def windowOf (p : AfePlace) (n sfmt nch chidx : Nat) (buf : List Byte) : List Word × Nat × Bool × Bool :=
  let have' := sampleFrames sfmt nch buf.length
  let got := p.zeros + (have' - p.drop)
  let take := min (have' - p.drop) (n - p.zeros)
  let xs := (List.range take).map fun i => sampleAt sfmt nch chidx buf (p.drop + i)
  (takePad 0 n (List.replicate (min p.zeros n) 0 ++ xs.map (·.1)), (xs.filter (·.2)).length, got < n, n < got)

/-! ### Feature tiles (R91, R94) -/

/-- The rows that hold the frames of a chunk (R94). -/
def AfeParams.tiles (a : AfeParams) (frames : List (List Byte)) : List Byte :=
  (List.range (a.rows frames.length)).flatMap fun r => padTo 512 (((frames.drop (r * a.perRow)).take a.perRow).flatMap id)

/-! ### Conversion (R95, R96, R103) -/

/-- The tick that R34 gives a stream next. -/
def State.nextTick (s : State) (x : Stream) : Nat :=
  let n0 := s.beatIndex
  match (List.range (x.cadence + 1)).find? fun i => (n0 + i) % x.cadence == x.offset && s.tb.now ≤ s.tickTime (n0 + i) x.slot with
  | some i => s.tickTime (n0 + i) x.slot
  | none => s.tickTime (n0 + x.cadence) x.slot

/-- The first chunk of a PCM stream that waits for conversion, when its half is free. -/
def Stream.toConvert (x : Stream) : Option Chunk :=
  if x.inkind != 0 || x.waiting.any (·.converting) || x.halves.getD (x.chunkNo % 2) false then none
  else x.waiting.find? fun c => !c.ready

/-- Die of a stream's front end. -/
def Stream.afeDie (x : Stream) : Nat := x.afe.elim 0 (·.die)

/-- The front end of the stream's die is free, and no chunk of another stream comes first (R103). -/
def State.convertsNext (s : State) (x : Stream) : Bool :=
  let key (y : Stream) : Nat := s.nextTick y * 2 ^ 14 + y.id
  !(s.work.streams.any fun y => y.afe.isSome && y.afeDie == x.afeDie && y.waiting.any (·.converting)) &&
    !(s.work.streams.any fun y => y.afe.isSome && y.afeDie == x.afeDie && y.toConvert.isSome && key y < key x)

/-- Flags of Table 14-13 that a conversion raises. -/
def afeFlags (p : AfePlace) (short long bad : Bool) : Nat :=
  b01 p.gap + 2 * b01 p.overlap + 4 * b01 short + 8 * b01 long + 16 * b01 p.reanchor + 32 * b01 bad

/-- A chunk is converted: placed, its flags counted, its frames written into its half, the front end's values moved on. -/
def State.convert (x : Stream) (a : AfeStream) (c : Chunk) (h : ImageHdr) (s : State) : State :=
  let hz := rateHz a.rate
  let dur := c.len * h.step * 1000
  let p := afePlace a.anchor a.ek dur c.time (s.reg 0x9000C * 1000) hz
  let n := windowSamples p.anchor p.ek dur hz
  let w := windowOf p n a.sfmt c.nch c.chidx (s.hostRead c.buf c.bytes)
  let a := if p.reanchor then a.zeroed else a
  let frames := a.frames w.1 (c.len * h.framesPerStep)
  let half := x.chunkNo % 2
  let at' := s.halfAddr x half
  let s := s.spmWrite (at' / 2 ^ 23) (at' % 2 ^ 23)
    (padTo (s.halfTiles x * 16384) (a.params.tiles frames))
  let cnt (on : Bool) (k : Nat) (t : State) : State := t.when on (State.bump (ctrAfe k))
  let s := cnt p.reanchor 4 (cnt w.2.2.2 3 (cnt w.2.2.1 2 (cnt p.overlap 1 (cnt p.gap 0 s))))
  let s := if w.2.1 = 0 then s else s.count (ctrAfe 5) w.2.1
  let s := s.chargeStream x [(9, c.bytes)]
  let s := s.updStream x.id fun x =>
    { x with
      chunkNo := x.chunkNo + 1, halves := updAt half (fun _ => true) x.halves
      afe := some { a.keep w.1 frames.length with anchor := some p.anchor, ek := p.ek + dur, chunks := a.chunks + 1 }
      waiting := updWhere (fun y => y.didx == c.didx) (fun y =>
        { y with
          converting := true, half := some half, delta := deltaUs p.delta
          flags := afeFlags p w.2.2.1 w.2.2.2 (w.2.1 != 0), ek := if c.time = 0 then 0 else p.ek }) x.waiting }
  s.writeHeader x.id

/-- AFE_CONVERSION_START: the front end of the stream's die takes the stream's next chunk, in the order of R103; a buffer
that cannot be read completes the chunk with BAD_ADDR (R430). -/
def execAfeConversionStart (id : Nat) (s : State) : Res :=
  .next (match s.stream? id with
    | none => s
    | some x =>
      match x.afe, x.toConvert, s.slot? x.main with
      | some a, some c, some m =>
        if !s.alive || x.state == .opening || !s.convertsNext x then s
        else if s.hostFails c.buf c.bytes then s.dropChunk id c stBadAddr
        else s.convert x a c m.hdr
      | _, _, _ => s)

/-- AFE_CONVERSION_DONE: the feature tiles are written, and the chunk counts as fetched (R36, R103). -/
def execAfeConversionDone (id : Nat) (s : State) : Res :=
  .next (if s.alive then
    s.updStream id fun x =>
      { x with waiting := updWhere (fun c => c.converting) (fun c => { c with converting := false, ready := true }) x.waiting }
  else s)

end Sys2Proof.Machine
end

