-- ==== Sys2Proof/Machine/Lacing.lean ====
section
/-! DEFINITION. The Lacing Unit: scan contexts, the segmented forward scan, the reverse scan and live adaptation
(06_lacing_unit.md, R138 to R164). -/

namespace Sys2Proof.Machine

open Sys2Proof

/-! ### The scan descriptor (Table 6-3) -/

structure LuDesc where
  mode : Nat
  ofmt : Nat
  rnd : Bool
  nosat : Bool
  tape : Bool
  adpt : Bool
  ogate : Bool
  initz : Bool
  orows : Nat
  rank : Nat
  len : Nat
  nrow : Nat
  row0 : Nat
  cblk0 : Nat
  ncblk : Nat
  state : Nat
  sstride : Nat
  init : Nat
  mask : Nat
  lens : Nat
  out : Nat
  ogt : Nat
  tbase : Nat
  dbase : Nat
  abase : Nat
  astride : Nat
  ainit : Nat
  eta : Word
  clip : Word
  deriving DecidableEq, Repr

def luDesc (ws : List Word) : LuDesc :=
  let w (i : Nat) : Word := ws.getD i 0
  let lo (i : Nat) : Nat := bits (w i) 0 14
  let hi (i : Nat) : Nat := bits (w i) 14 14
  { mode := bits (w 0) 0 2, ofmt := bits (w 0) 2 4, rnd := (w 0).getLsbD 6, nosat := (w 0).getLsbD 7
    tape := (w 0).getLsbD 8, adpt := (w 0).getLsbD 9, ogate := (w 0).getLsbD 10, initz := (w 0).getLsbD 11
    orows := bits (w 0) 12 2, rank := 4 * (bits (w 0) 14 2 + 1)
    len := bits (w 1) 0 12 + 1, nrow := bits (w 1) 12 9 + 1, row0 := bits (w 1) 21 9
    cblk0 := bits (w 2) 0 10, ncblk := bits (w 2) 10 5 + 1
    state := lo 3, sstride := hi 3, init := lo 4, mask := hi 4, lens := lo 5, out := hi 5, ogt := lo 6, tbase := hi 6
    dbase := lo 7, abase := hi 7, astride := lo 8, ainit := hi 8, eta := w 9, clip := w 10 }

/-- Bytes of an OFMT element. -/
def LuDesc.e (d : LuDesc) : Nat := elemBits d.ofmt / 8

/-- Columns of the output matrix. -/
def LuDesc.cols (d : LuDesc) : Nat := 64 * d.ncblk

/-- Rows of SPM that the output matrix takes: whole tiles. -/
def LuDesc.outRows (d : LuDesc) : Nat :=
  32 * (ceilDiv (d.nrow * d.len) (rowMode d.orows) * ceilDiv d.cols (tileCols d.ofmt (rowMode d.orows)))

/-- The areas of Table 6-4 that a scan reads and that it writes, as first rows and numbers of rows. -/
def LuDesc.reads (d : LuDesc) (rev : Bool) : List (Nat × Nat) :=
  let use (c : Bool) (first n : Nat) : List (Nat × Nat) := if c then [(first, n)] else []
  let last := d.row0 + d.nrow
  let steps := d.ncblk * d.nrow * d.len
  use (!rev) d.state ((d.nrow - 1) * d.sstride + ceilDiv (64 * d.ncblk * d.e) 512) ++
  use (!rev && !d.initz) d.init (ceilDiv (64 * d.ncblk * d.e) 512) ++
  use true d.mask (ceilDiv (ceilDiv (last * d.len) 8) 512) ++
  use true d.lens (ceilDiv (2 * last) 512) ++
  use (!rev && d.ogate) d.ogt d.outRows ++
  use rev d.tbase steps ++ use rev d.dbase steps ++
  use d.adpt d.abase ((d.nrow - 1) * d.astride + d.ncblk * d.rank) ++
  use (d.adpt && !rev) d.ainit (d.ncblk * d.rank)

def LuDesc.writes (d : LuDesc) (rev : Bool) : List (Nat × Nat) :=
  let use (c : Bool) (first n : Nat) : List (Nat × Nat) := if c then [(first, n)] else []
  let steps := d.ncblk * d.nrow * d.len
  use (!rev) d.state ((d.nrow - 1) * d.sstride + ceilDiv (64 * d.ncblk * d.e) 512) ++
  use (!rev) d.out d.outRows ++
  use (!rev && d.tape) d.tbase steps ++ use rev d.dbase steps ++
  use d.adpt d.abase ((d.nrow - 1) * d.astride + d.ncblk * d.rank)

/-- FP32, finite and not negative. DESIGN CHOICE: R161 does not say whether −0 is negative; it compares as zero does, and does
not trap (notes/assumptions/101.md). -/
def finiteNonneg (w : Word) : Bool := (finite32 w && !(f32 w).sign) || w == 0x80000000

/-- The traps of R161 that the descriptor alone decides. -/
def LuDesc.bad (d : LuDesc) (rev : Bool) : Bool :=
  2 ≤ d.mode || 3 < d.ofmt || d.orows == 3 || 512 < d.row0 + d.nrow || 1024 < d.cblk0 + d.ncblk ||
  (d.reads rev ++ d.writes rev).any (fun a => 12288 < a.1 + a.2) ||
  (rev && d.adpt && (!finiteNonneg d.eta || !finiteNonneg d.clip))

/-! ### The operator (R138, R148) -/

def fneg (w : Word) : Word := w ^^^ 0x80000000

/-- A complex product: each component one rounded product and one fused multiply-add. -/
def cmul (xr xi yr yi : Word) : Word × Word := (fma xr yr (fneg (fmul xi yi)), fma xr yi (fmul xi yr))

/-- x × y elementwise in a mode. -/
def luMul (mode : Nat) : List Word → List Word → List Word
  | x :: x' :: xs, y :: y' :: ys =>
    if mode = 0 then fmul x y :: fmul x' y' :: luMul mode xs ys
    else (cmul x x' y y').1 :: (cmul x x' y y').2 :: luMul mode xs ys
  | _, _ => []

/-- x × y + z elementwise in a mode: one fused multiply-add, or a complex product and its sum with z
(notes/assumptions/30.md). -/
def luMac (mode : Nat) : List Word → List Word → List Word → List Word
  | x :: x' :: xs, y :: y' :: ys, z :: z' :: zs =>
    if mode = 0 then fma x y z :: fma x' y' z' :: luMac mode xs ys zs
    else fadd (cmul x x' y y').1 z :: fadd (cmul x x' y y').2 z' :: luMac mode xs ys zs
  | _, _, _ => []

/-- A step or a composite: its coefficients and its inputs. -/
abbrev Steps := List (List Word × List Word)

/-- combine(e2, e1) = (a2 × a1, a2 × b1 + b2). -/
def luCombine (mode : Nat) (e2 e1 : List Word × List Word) : List Word × List Word :=
  (luMul mode e2.1 e1.1, luMac mode e2.1 e1.2 e2.2)

/-- One level of distance d over the prefix composites of a window. -/
def luLevel (mode d : Nat) (ps : Steps) : Steps :=
  (List.range ps.length).map fun t =>
    if d ≤ t then luCombine mode (ps.getD t ([], [])) (ps.getD (t - d) ([], [])) else ps.getD t ([], [])

/-- The states of a window of at most eight steps that starts in state h. -/
def luWindow (mode : Nat) (h : List Word) (ps : Steps) : List (List Word) :=
  (luLevel mode 4 (luLevel mode 2 (luLevel mode 1 ps))).map fun p => luMac mode p.1 h p.2

/-- The coefficient of a padding step: one, in either mode. -/
def luOne (mode : Nat) : List Word :=
  if mode = 0 then List.replicate 64 0x3F800000 else (List.replicate 32 [(0x3F800000 : Word), 0]).flatten

def zeros64 : List Word := List.replicate 64 0

/-! ### Reading the areas (Table 6-4) -/

def State.luRead (s : State) (core row byte n : Nat) : List Byte := s.spmRead core (row * 512 + byte) n

/-- 64 values in OFMT, widened. -/
def State.luVals (s : State) (core ofmt row byte : Nat) : List Word :=
  (runValues ofmt 64 (s.luRead core row byte (64 * (elemBits ofmt / 8)))).map r32

/-- Mask bit of launch row n and step t. -/
def State.luMask (s : State) (core : Nat) (d : LuDesc) (n t : Nat) : Bool :=
  let i := n * d.len + t
  nbits ((s.luRead core d.mask (i / 8) 1).getD 0 0).toNat (i % 8) 1 == 1

/-- Row length entry of launch row n: l, and FREEZE. -/
def State.luLen (s : State) (core : Nat) (d : LuDesc) (n : Nat) : Nat × Bool :=
  let w := leNat (s.luRead core d.lens (2 * n) 2)
  (w % 2 ^ 13, nbits w 15 1 == 1)

/-- The highest step below l whose mask bit is set. -/
def State.luReset (s : State) (core : Nat) (d : LuDesc) (n l : Nat) : Option Nat :=
  ((List.range l).filter fun t => s.luMask core d n t).getLast?

/-- Adapters at a row: U then V, 64 × r each. -/
def State.luAdapters (s : State) (core row rank : Nat) : List Word × List Word :=
  let ws := wordsOf (s.luRead core row 0 (512 * rank))
  (ws.take (64 * rank), ws.drop (64 * rank))

/-! ### Adapters (R152, R154, R155; notes/assumptions/31.md, notes/assumptions/100.md) -/

/-- A sum in order, each product and each sum rounded to FP32. -/
def dot32 (xs ys : List Word) : Word := (List.zipWith fmul xs ys).foldl fadd 0

/-- The same of complex values. -/
def dotC (xs ys : List (Word × Word)) : Word × Word :=
  (xs.zip ys).foldl (fun a p =>
    let q := cmul p.1.1 p.1.2 p.2.1 p.2.2
    (fadd a.1 q.1, fadd a.2 q.2)) (0, 0)

/-- Complex value m of a run whose real and imaginary parts stand side by side. -/
def cAt (xs : List Word) (m : Nat) : Word × Word := (xs.getD (2 * m) 0, xs.getD (2 * m + 1) 0)

/-- Element (m, i) of a 32 × r complex matrix: rows 2m and 2m + 1 of the 64 × r words. -/
def cMat (rank : Nat) (w : List Word) (m i : Nat) : Word × Word := (w.getD (2 * m * rank + i) 0, w.getD ((2 * m + 1) * rank + i) 0)

/-- Mᵀ x of a 64 × r matrix: r values, complex ones in complex mode. -/
def matT (mode rank : Nat) (m x : List Word) : List Word :=
  if mode = 0 then (List.range rank).map fun i => dot32 ((List.range 64).map fun j => m.getD (j * rank + i) 0) x
  else (List.range rank).flatMap fun i =>
    let v := dotC ((List.range 32).map fun j => cMat rank m j i) ((List.range 32).map (cAt x))
    [v.1, v.2]

/-- M y of a 64 × r matrix: 64 values, 32 complex ones in complex mode. -/
def matV (mode rank : Nat) (m y : List Word) : List Word :=
  if mode = 0 then (List.range 64).map fun j => dot32 ((m.drop (j * rank)).take rank) y
  else (List.range 32).flatMap fun j =>
    let v := dotC ((List.range rank).map (cMat rank m j)) ((List.range rank).map (cAt y))
    [v.1, v.2]

/-- b + U (Vᵀ b). -/
def adaptInput (mode rank : Nat) (uv : List Word × List Word) (b : List Word) : List Word :=
  List.zipWith fadd b (matV mode rank uv.1 (matT mode rank uv.2 b))

/-- The outer product x yᵀ, row by row of a 64 × r matrix. -/
def outer (mode rank : Nat) (x y : List Word) : List Word :=
  if mode = 0 then x.flatMap fun a => y.map fun b => fmul a b
  else (List.range 32).flatMap fun m =>
    let p (i : Nat) : Word × Word := cmul (cAt x m).1 (cAt x m).2 (cAt y i).1 (cAt y i).2
    ((List.range rank).map fun i => (p i).1) ++ (List.range rank).map fun i => (p i).2

/-- The outer product x yᵀ added to an accumulator. -/
def addOuter (mode rank : Nat) (g x y : List Word) : List Word := List.zipWith fadd g (outer mode rank x y)

/-! ### Forward scan (R139, R144 to R152) -/

/-- Values narrowed to OFMT with the core's generator; each saturation counts in COR_LU_SAT. -/
def State.luNarrow (c : Nat) (d : LuDesc) (xs : List Word) (s : State) : List Byte × State :=
  let r := narrowList d.ofmt d.rnd d.nosat (xs.map f32) (s.core c).rng {}
  (packBits (elemBits d.ofmt) r.1,
    (s.updCore c fun k => { k with rng := r.2.1 }).count (ctrLu c 1) (r.2.2.sat + r.2.2.limit))

/-- The output of one step: zero for padding, else narrowed, gated under OGATE. -/
def State.luOutput (c : Nat) (d : LuDesc) (blk g : Nat) (pad : Bool) (h : List Word) (s : State) : State :=
  let at' := blockedAt d.ofmt (rowMode d.orows) d.cols g (64 * blk)
  if pad then s.spmWrite c (d.out * 512 + at') (List.replicate (64 * d.e) 0)
  else
    let y := if d.ogate then luMul d.mode h (s.luVals c d.ofmt d.ogt at') else h
    let r := s.luNarrow c d y
    r.2.spmWrite c (d.out * 512 + at') r.1

/-- The window's outputs, its first step being output row g0. -/
def State.luOutputs (c : Nat) (d : LuDesc) (blk g0 : Nat) (hs : List (List Word)) (pads : List Bool) (s : State) : State :=
  s.forEach ((List.range hs.length).zip (hs.zip pads)) fun x t => t.luOutput c d blk (g0 + x.1) x.2.2 x.2.1

/-- Row n of the launch that core c runs has a carry-out that is not finite: counted, for the flag of its chunk and for the record's
header (R151, Table 12-2). -/
def State.luNonfinite (c n : Nat) (s : State) : State :=
  let s := s.bump (ctrLu c 2)
  match (s.core c).job.bind s.job? with
  | none => s
  | some j => match j.rows[n]? with
    | some r => (s.updJob j.id fun k => { k with rows := updAt n (fun q => { q with nonfinite := true }) k.rows }).updStream
        r.stream fun x => { x with nonfinite := true }
    | none => s

/-- The carry-out of local row k of a block, and the adapters that a reset leaves (R147, R149, R151, R152). DESIGN CHOICE: a
carry-out holds a NaN or an infinity when the FP32 state does, before it is narrowed (notes/assumptions/102.md). -/
def State.luRowEnd (c : Nat) (d : LuDesc) (blk k : Nat) (h : List Word) (s : State) : State :=
  let s := s.when (h.any fun w => !finite32 w) (State.luNonfinite c (d.row0 + k))
  let r := s.luNarrow c d h
  let s := r.2.spmWrite c ((d.state + k * d.sstride) * 512 + 64 * blk * d.e) r.1
  let n := d.row0 + k
  s.when (d.adpt && (s.luReset c d n (s.luLen c d n).1).isSome) fun s =>
    s.spmWrite c ((d.abase + k * d.astride + blk * d.rank) * 512) (s.luRead c (d.ainit + blk * d.rank) 0 (512 * d.rank))

/-- The pair of one step after the adapter and the reset substitution (R144). -/
def State.luPair (s : State) (c : Nat) (d : LuDesc) (blk k t : Nat) (a b : List Word) : List Word × List Word :=
  let n := d.row0 + k
  let l := (s.luLen c d n).1
  if l ≤ t then (luOne d.mode, zeros64)
  else
    let late : Bool := match s.luReset c d n l with
      | some r => decide (r ≤ t)
      | none => false
    let row := if late then d.ainit + blk * d.rank else d.abase + k * d.astride + blk * d.rank
    let b := if d.adpt then adaptInput d.mode d.rank (s.luAdapters c row d.rank) b else b
    if s.luMask c d n t then
      let h := if d.initz then zeros64 else s.luVals c d.ofmt d.init (64 * blk * d.e)
      (zeros64, luMac d.mode a h b)
    else (a, b)

/-- The state a window leaves: that of its last step that is no padding (R145). -/
def luCarry (h : List Word) (hs : List (List Word)) (pads : List Bool) : List Word :=
  (((hs.zip pads).filter fun x => !x.2).map (·.1)).getLastD h

/-- The window of a block is composed into the running state and its outputs are written; the block's entries so far end at
output row g (R148, R160). -/
def State.luCompose (c : Nat) (d : LuDesc) (blk g : Nat) (b : LuBlock) (s : State) : LuBlock × State :=
  let hs := luWindow d.mode b.h (b.window.map fun x => (x.1.map (·.1), x.1.map (·.2)))
  let pads := b.window.map (·.2)
  (⟨b.arrived, luCarry b.h hs pads, []⟩, s.luOutputs c d blk (g - b.window.length) hs pads)

/-- One entry of a block of a context: the block after it, and the state after it. A window ends at every eighth step and at
the row's last. -/
def State.luStep (c : Nat) (d : LuDesc) (blk : Nat) (b : LuBlock) (entry : List (Word × Word)) (s : State) : LuBlock × State :=
  let k := b.arrived / d.len
  let t := b.arrived % d.len
  let n := d.row0 + k
  let pad := decide ((s.luLen c d n).1 ≤ t)
  let h := if t = 0 then s.luVals c d.ofmt (d.state + k * d.sstride) (64 * blk * d.e) else b.h
  let p := s.luPair c d blk k t (entry.map (·.1)) (entry.map (·.2))
  let s := s.when (!pad && s.luMask c d n t) (·.bump (ctrLu c 0))
  let tb := if pad then zeros64 else entry.map (·.2)
  let s := s.when d.tape fun s =>
    s.spmWrite c ((d.tbase + (blk * d.nrow + k) * d.len + t) * 512) (bytesOfWords ((p.1.zip tb).flatMap fun x => [x.1, x.2]))
  let b' : LuBlock := ⟨b.arrived + 1, h, b.window ++ [(p.1.zip p.2, pad)]⟩
  if (t + 1) % 8 = 0 ∨ t + 1 = d.len then
    let r := s.luCompose c d blk (k * d.len + t + 1) b'
    (r.1, r.2.when (t + 1 == d.len) (State.luRowEnd c d blk k r.1.h))
  else (b', s)

/-! ### Reverse scan (R153 to R155) -/

/-- The complex conjugate, and the value itself in diagonal mode. -/
def luConj (mode : Nat) : List Word → List Word
  | x :: x' :: xs => x :: (if mode = 0 then x' else fneg x') :: luConj mode xs
  | _ => []

/-- Pair t of the tape of a row. -/
def State.luTape (s : State) (c : Nat) (d : LuDesc) (blk k t : Nat) : List Word × List Word :=
  let ws := wordsOf (s.luRead c (d.tbase + (blk * d.nrow + k) * d.len + t) 0 512)
  ((List.range 64).map fun j => ws.getD (2 * j) 0, (List.range 64).map fun j => ws.getD (2 * j + 1) 0)

/-- The adapter update of R155 from the accumulated gradients. -/
def State.luUpdate (c : Nat) (d : LuDesc) (row : Nat) (uv g : List Word × List Word) (s : State) : State :=
  let all := g.1 ++ g.2
  let norm := fsqrt (f32 (all.foldl (fun acc x => fadd acc (fmul x x)) 0))
  let scaled := (f32 0).lt (f32 d.clip) && (f32 d.clip).lt (f32 norm)
  let q := fdiv d.clip norm
  let sc (xs : List Word) : List Word := if scaled then xs.map fun x => fmul x q else xs
  let next (xs gs : List Word) : List Word := List.zipWith (fun x y => fsub x (fmul d.eta y)) xs gs
  let gu := sc g.1
  let gv := sc g.2
  let u := next uv.1 gu
  let v := next uv.2 gv
  if (norm :: gu ++ gv ++ u ++ v).all finite32 then
    ((s.spmWrite c (row * 512) (bytesOfWords (u ++ v))).bump (ctrLu c 3)).when scaled (·.bump (ctrLu c 5))
  else s.bump (ctrLu c 4)

/-- Entries of a reverse scan. -/
def LuDesc.revEntries (d : LuDesc) : Nat := d.nrow * d.ncblk * d.len

/-- The next `m` entries of a reverse scan, which lie in one window of one row and block: row by row, the blocks of a row in
order, the steps of a block downwards. The adapters are those in the adapter area when the row's reverse scan starts. -/
def State.luRevPart (c : Nat) (d : LuDesc) (r : LuRev) (m : Nat) (s : State) : LuRev × State :=
  let j := r.done % d.len
  let k := r.done / d.len / d.ncblk
  let blk := r.done / d.len % d.ncblk
  let n := d.row0 + k
  let lf := s.luLen c d n
  let l := lf.1
  let row := d.abase + k * d.astride + blk * d.rank
  let zero : List Word := List.replicate (64 * d.rank) 0
  let uv := s.luAdapters c row d.rank
  let r : LuRev := if j = 0 then ⟨r.order, r.done, zeros64, zero, zero, uv.1, uv.2, r.paused⟩ else r
  let ts := (List.range m).map fun i => d.len - 1 - (j + i)
  let grad (t : Nat) : Nat := (d.dbase + (blk * d.nrow + k) * d.len + t) * 512
  let gs := luWindow d.mode r.g (ts.map fun t =>
    (if t + 1 = d.len then zeros64 else luConj d.mode (s.luTape c d blk k (t + 1)).1,
     if l ≤ t then zeros64 else wordsOf (s.spmRead c (grad t) 256)))
  let first := (s.luReset c d n l).getD 0
  let acc := ((ts.zip gs).filter fun x => first ≤ x.1 && x.1 < l).foldl (fun (g : List Word × List Word) x =>
    let b := (s.luTape c d blk k x.1).2
    (addOuter d.mode d.rank g.1 x.2 (matT d.mode d.rank r.v b), addOuter d.mode d.rank g.2 b (matT d.mode d.rank r.u x.2)))
    (r.gu, r.gv)
  let s := s.forEach (ts.zip gs) fun x t =>
    t.spmWrite c (grad x.1) (if l ≤ x.1 then List.replicate 256 0 else bytesOfWords x.2)
  let ends := j + m == d.len
  (⟨r.order, r.done + m, gs.getLastD r.g, acc.1, acc.2, r.u, r.v, r.paused⟩,
    s.when (ends && d.adpt && !lf.2 && !(f32 d.eta).isZero && first < l) (State.luUpdate c d row (r.u, r.v) acc))

/-- At most `n` more entries of a reverse scan, window by window. -/
def State.luRevRun (c : Nat) (d : LuDesc) : Nat → Nat → LuRev → State → LuRev × State
  | 0, _, r, s => (r, s)
  | fuel + 1, n, r, s =>
    let j := r.done % d.len
    let m := min (min n (d.revEntries - r.done)) (min (8 - j % 8) (d.len - j))
    if m = 0 then (r, s)
    else
      let q := s.luRevPart c d r m
      q.2.luRevRun c d fuel (n - m) q.1

/-! ### Contexts (R140, R159, R160, R161) -/

def LuContext.d (x : LuContext) : LuDesc := luDesc x.desc

/-- The open forward contexts of a core with their numbers. -/
def Core.luForward (k : Core) : List (Nat × LuContext) :=
  ((List.range 4).zip k.lu).filterMap fun p => match p.2 with
    | some x => if x.rev.isNone then some (p.1, x) else none
    | none => none

/-- The open reverse contexts in order of issue. -/
def Core.luReverse (k : Core) : List (Nat × LuContext × LuRev) :=
  sortBy (fun p => p.2.2.order) (((List.range 4).zip k.lu).filterMap fun p => match p.2 with
    | some x => x.rev.map fun r => (p.1, x, r)
    | none => none)

/-- A context takes its place. -/
def Core.luSet (i : Nat) (x : Option LuContext) (k : Core) : Core := { k with lu := updAt i (fun _ => x) k.lu }

/-- The first reverse scan in the order of issue goes on for at most `n` entries (R159); after its last adapter update its
context closes. -/
def State.luReverseOn (c n : Nat) (s : State) : State :=
  match (s.core c).luReverse with
  | [] => s
  | (i, x, r) :: _ =>
    let q := s.luRevRun c x.d (x.d.revEntries + 1) n r
    q.2.updCore c (Core.luSet i (if x.d.revEntries ≤ q.1.done then none else some { x with rev := some q.1 }))

/-- The oldest entry of the queue is taken (R139, R161): the context closes when it has all entries of every block. -/
def State.luEntry (c : Nat) (e : Nat × Nat × List (Word × Word)) (s : State) : State :=
  let bad (t : State) : State := (t.updCore c fun k => { k with luTag := e.1 }).trap c 3
  match (s.core c).luForward.find? fun p => p.2.d.cblk0 ≤ e.2.1 && e.2.1 < p.2.d.cblk0 + p.2.d.ncblk with
  | none => bad s
  | some (i, x) =>
    let d := x.d
    let blk := e.2.1 - d.cblk0
    match x.blocks[blk]? with
    | none => s
    | some b =>
      if d.nrow * d.len ≤ b.arrived then bad s
      else
        let r := s.luStep c d blk b e.2.2
        let x' : LuContext := { x with blocks := updAt blk (fun _ => r.1) x.blocks }
        r.2.updCore c (Core.luSet i (if x'.blocks.all fun y => d.nrow * d.len ≤ y.arrived then none else some x'))

/-- The Lacing unit takes every entry of its queue, oldest first. -/
def State.luDrain (c : Nat) (s : State) : State :=
  (s.forEach (s.core c).luq (State.luEntry c)).updCore c fun k => { k with luq := [] }

/-- An entry of activation row `tag` for a channel block comes from the gate pipeline (R130): a full queue is served first,
and the Lacing unit keeps pace (R157). -/
def State.luPush (c tag cblk : Nat) (entry : List (Word × Word)) (s : State) : State :=
  let s := s.when (8 ≤ (s.core c).luq.length) (State.luDrain c)
  (s.updCore c fun k => { k with luq := k.luq ++ [(tag, cblk, entry)] }).luDrain c

/-- The partial windows of the open forward contexts are composed into their running states at a pre-emption (R160). -/
def State.luSpill (c : Nat) (s : State) : State :=
  s.forEach (s.core c).luForward fun p s =>
    s.forEach (List.range p.2.d.ncblk) fun blk s =>
      match ((s.core c).lu.getD p.1 none).bind fun x => x.blocks[blk]? with
      | none => s
      | some b =>
        if b.window.isEmpty then s
        else
          let r := s.luCompose c p.2.d blk b.arrived b
          r.2.updCore c fun k => { k with lu := updAt p.1 (Option.map fun x : LuContext =>
            { x with blocks := updAt blk (fun _ => r.1) x.blocks }) k.lu }

/-- The block ranges of two contexts overlap. -/
def LuDesc.blocksMeet (a b : LuDesc) : Bool := a.cblk0 < b.cblk0 + b.ncblk && b.cblk0 < a.cblk0 + a.ncblk

/-! ### LSCAN -/

/-- What the control core finds at an LSCAN (R140 to R142, R161): an open context of that number holds the issue. DESIGN
CHOICE: a descriptor row beyond the slice traps as an area beyond it does (notes/assumptions/63.md). -/
def State.lscanPlan (s : State) (c : Nat) (w : BitVec 64) : OpPlan :=
  let i := bits w 8 2
  let rev := w.getLsbD 10
  let k := s.core c
  let row := s.sreg c (bits w 11 6)
  let ws := s.rowWords c row 16
  let d := luDesc ws
  { unit := .lu i, wait := (k.lu.getD i none).isSome, uses := [bits w 11 6], first := [(row, 1)], words := ws
    trap := if 12287 < row || d.bad rev || (!rev && k.luForward.any fun p => p.2.d.blocksMeet d) then some 3 else none
    reads := (row, 1) :: d.reads rev, writes := d.writes rev }

/-- The context opens (R140): its descriptor is the words read at issue, and its areas stay declared while it is open; a
reverse scan takes its place behind those that have not ended (R159). -/
def State.lscanOpen (c : Nat) (w : BitVec 64) (ws : List Word) (es : List SbEntry) (s : State) : State :=
  let d := luDesc ws
  let next := (s.core c).luReverse.foldl (fun m p => max m (p.2.2.order + 1)) 0
  let x : LuContext :=
    if w.getLsbD 10 then ⟨ws, [], some ⟨next, 0, [], [], [], [], [], false⟩, es⟩
    else ⟨ws, List.replicate d.ncblk ⟨0, [], []⟩, none, es⟩
  s.updCore c (Core.luSet (bits w 8 2) (some x))

end Sys2Proof.Machine
end

