-- ==== Sys2Proof/Machine/Matrix.lean ====
section
/-! DEFINITION. The matrix engine and the gate pipeline (05_matrix_engine_and_gates.md, R109 to R132). -/

namespace Sys2Proof.Machine

open Sys2Proof

/-! ### The MMA instruction (Table 5-5) -/

structure MmaOp where
  rows : Nat
  live : Nat
  afmt : Nat
  wfmt : Nat
  ofmt : Nat
  accum : Bool
  pair : Bool
  ncol : Nat
  prog : Nat
  queue : Bool
  dest : Nat
  rnd : Bool
  nosat : Bool
  atile : Nat
  waddr : Nat
  daddr : Nat
  deriving DecidableEq, Repr

def mmaOp (w : BitVec 128) : MmaOp :=
  { rows := bits w 8 2, live := bits w 10 5 + 1, afmt := bits w 15 4, wfmt := bits w 19 4, ofmt := bits w 23 4
    accum := w.getLsbD 27, pair := w.getLsbD 28, ncol := bits w 29 7 + 1, prog := bits w 36 5, queue := w.getLsbD 41
    dest := bits w 42 3, rnd := w.getLsbD 45, nosat := w.getLsbD 46, atile := bits w 48 14, waddr := bits w 62 14
    daddr := bits w 76 14 }

/-- Activation rows r of the row mode. -/
def MmaOp.r (m : MmaOp) : Nat := rowMode m.rows

/-- Rate class of a format (Table 5-1): bits of its operands. -/
def rateClass (code : Nat) : Nat :=
  if code = 0 ∨ code = 1 then 16 else if code = 5 ∨ code = 6 ∨ code = 0xB then 4 else 8

/-- MACs per cycle of the narrower class (R112). -/
def MmaOp.rate (m : MmaOp) : Nat :=
  let c := max (rateClass m.afmt) (rateClass m.wfmt)
  if c = 16 then 4096 else if c = 8 then 8192 else 16384

/-- Reduction extent K (R111). -/
def MmaOp.k (m : MmaOp) : Nat := 16384 * 8 / (m.r * elemBits m.afmt)

/-- Bytes of a weight column (R114). -/
def MmaOp.w (m : MmaOp) : Nat := m.k * elemBits m.wfmt / 8 + (if isMx m.wfmt then m.k / 32 else 0)

/-- Cycles of a weight column (R114). -/
def MmaOp.c (m : MmaOp) : Nat := max 2 (max (16384 * 8 / elemBits m.afmt / m.rate) (ceilDiv m.w 1024))

/-- Results per activation row. -/
def MmaOp.cols (m : MmaOp) : Nat := if m.pair then m.ncol / 2 else m.ncol

/-- SPM rows of the weight run (R311). -/
def MmaOp.runRows (m : MmaOp) : Nat := ceilDiv (m.ncol * m.w) 512

/-- The output is written in OFMT. -/
def MmaOp.writes (m : MmaOp) : Bool := m.dest == 1 || m.dest == 2 || m.dest == 4

/-- The output is written to the SPM. -/
def MmaOp.toSpm (m : MmaOp) : Bool := m.dest == 1 || m.dest == 4

/-- The output enters the finished-tile queue. -/
def MmaOp.toFtq (m : MmaOp) : Bool := m.dest == 2 || m.dest == 4

def MmaOp.shape (m : MmaOp) : AccShape := ⟨m.rows, m.live, m.ncol, m.pair⟩

/-! ### Gate programs (R126 to R129) -/

structure GateStage where
  op : Nat
  dst : Nat
  src1 : Nat
  src2 : Nat
  sreg : Nat
  deriving DecidableEq, Repr

def gateStage (w : Word) : GateStage := ⟨bits w 0 5, bits w 5 2, bits w 7 3, bits w 10 3, bits w 13 6⟩

/-- The stage has one source: MOV, ONEM to RELU, CLAMP. -/
def GateStage.single (g : GateStage) : Bool := g.op == 0 || 5 ≤ g.op

/-- Stages of a slot's words. -/
def gateStages (ws : List Word) : List GateStage :=
  ((ws.drop 1).take (bits (ws.getD 0 0) 0 4)).map gateStage

/-- Words of a slot: slot 0, and a slot nothing has loaded, has no stages and emits p (R128, R519). -/
def Core.gate (k : Core) (slot : Nat) : List Word :=
  if slot = 0 then [0] else ((k.gates.find? fun g => g.1 == slot).map (·.2)).getD [0]

/-- A stage that GPLOAD refuses (R128). -/
def GateStage.bad (g : GateStage) : Bool :=
  let ext (x : Nat) : Bool := 4 ≤ x && x ≤ 6
  11 < g.op || g.src1 == 7 || (!g.single && g.src2 == 7) || (!g.single && ext g.src1 && ext g.src2) ||
    (g.op == 11 && 62 < g.sreg)

/-- A function of Table 5-9 at a finite value: a free value within the bound of R129 (notes/assumptions/32.md). -/
def gateFunction (op : Nat) (a : Word) : Word :=
  let x := gateReal op (f32 a)
  bounded (Config.gateFn op a) x (gateBound op x)

/-- A gate operation on its sources, on DST, and on the CLAMP bounds (Table 5-9). DESIGN CHOICE: CLAMP takes the larger and the
smaller as the vector engine does (Table 7-7), NaN if either is NaN and −0 below +0 (notes/assumptions/103.md). -/
def gateResult (op : Nat) (dst a b lo hi : Word) : Word :=
  match op with
  | 0 => a
  | 1 => fadd a b
  | 2 => fsub a b
  | 3 => fmul a b
  | 4 => fma a b dst
  | 5 => fsub 0x3F800000 a
  | 6 => if isNan a then 0x7FC00000 else if a = 0x7F800000 then 0x3F800000 else if a = 0xFF800000 then 0 else gateFunction 6 a
  | 7 => if isNan a then 0x7FC00000 else if a = 0x7F800000 then 0x3F800000 else if a = 0xFF800000 then 0xBF800000
         else gateFunction 7 a
  | 8 => if isNan a then 0x7FC00000 else if a = 0x7F800000 then a else if a = 0xFF800000 then 0 else gateFunction 8 a
  | 9 => if isNan a then 0x7FC00000 else if a = 0x7F800000 then a else if a = 0xFF800000 then 0 else gateFunction 9 a
  | 10 => if isNan a then a else fmax a 0
  | 11 => fmin (fmax a lo) hi
  | _ => dst

/-- Source of a stage for element j of activation row i (Table 5-7). -/
def gateSource (pqtu vec : List Word) (scal : Word) (i j code : Nat) : Word :=
  if code < 4 then pqtu.getD code 0
  else if code = 4 then vec.getD j 0
  else if code = 5 then vec.getD i 0
  else scal

/-- The registers after the stages; each stage comes with the row and the scalars its register names. -/
def gateRun (i j : Nat) (p q : Word) (stages : List (GateStage × List Word × Word × Word)) : List Word :=
  stages.foldl (fun r x =>
    let g := x.1
    let src (c : Nat) : Word := gateSource r x.2.1 x.2.2.1 i j c
    updAt g.dst (fun d => gateResult g.op d (src g.src1) (src g.src2) x.2.2.1 x.2.2.2) r) [p, q, 0, 0]

/-- The stage reads the SPM row whose index is in s[SREG] (source codes 4 and 5). -/
def GateStage.row (g : GateStage) : Bool :=
  g.src1 == 4 || g.src1 == 5 || (!g.single && (g.src2 == 4 || g.src2 == 5))

/-- The scalars s[SREG] and s[SREG + 1] of each stage, as an MMA captures them at issue. -/
def State.gateScalars (s : State) (c : Nat) (stages : List GateStage) : List Word :=
  stages.flatMap fun g => [BitVec.ofNat 32 (s.sreg c g.sreg), BitVec.ofNat 32 (s.sreg c (g.sreg + 1))]

/-- Scalar registers that the stages read: through source codes 4 to 6, and the bounds of CLAMP. -/
def gateUses (stages : List GateStage) : List Nat :=
  stages.flatMap fun g =>
    if g.op = 11 then [g.sreg, g.sreg + 1]
    else if (4 ≤ g.src1 && g.src1 ≤ 6) || (!g.single && 4 ≤ g.src2 && g.src2 ≤ 6) then [g.sreg] else []

/-- Rows that the stages read (R127). -/
def gateRows (stages : List GateStage) (sregs : List Word) : List Nat :=
  ((stages.zip (List.range stages.length)).filter fun g => g.1.row).map fun g => wordAt sregs (2 * g.2)

/-- A program's stages with the row and the scalars s[SREG] and s[SREG + 1]. -/
def State.gateEnv (s : State) (c : Nat) (stages : List GateStage) (sregs : List Word) : List (GateStage × List Word × Word × Word) :=
  (stages.zip (List.range stages.length)).map fun g =>
    (g.1, (if g.1.row then s.rowWords c (wordAt sregs (2 * g.2)) 128 else []), sregs.getD (2 * g.2) 0, sregs.getD (2 * g.2 + 1) 0)

/-! ### The traps of R117 -/

def MmaOp.badForm (m : MmaOp) : Bool :=
  m.rows == 3 || m.r < m.live || 6 < m.afmt || 0xC < m.wfmt || (m.writes && 0xD < m.ofmt) ||
  isIntFmt m.afmt != isIntFmt m.wfmt || min 128 (256 / m.c) < m.ncol || (m.pair && m.ncol % 2 == 1) ||
  (m.dest == 3 && !m.pair) || 5 ≤ m.dest || (m.writes && isMx m.ofmt && m.cols % 32 != 0) ||
  m.atile % 32 != 0 || (m.toSpm && m.daddr % 32 != 0) || 12288 < m.atile + 32 ||
  (!m.queue && 12288 < m.waddr + m.runRows) || (m.toSpm && 12288 < m.daddr + 32)

/-! ### Arithmetic (R118 to R120) -/

/-- One level of the binary tree: adjacent pairs, each sum rounded to FP32. -/
def addPairs : List FV → List FV
  | x :: y :: xs => f32 (r32 (x.add y)) :: addPairs xs
  | xs => xs

/-- The sum of the 32 exact products of a block: a rounded binary tree in the 16-bit class, else exact. -/
def blockSum (tree : Bool) (ps : List FV) : FV :=
  if tree then (addPairs (addPairs (addPairs (addPairs (addPairs ps))))).headD (.fin false 0 0)
  else ps.foldl FV.add (.fin false 0 0)

/-- An activation row and a weight column, block by block, added to a sum. -/
def mmaDot (tree : Bool) (xs ws scales : List FV) (acc : Word) : Word :=
  ((pieces 32 (xs.length / 32 + 1) xs).zip ((pieces 32 (ws.length / 32 + 1) ws).zip scales)).foldl (fun a b =>
    fadd a (r32 ((blockSum tree (List.zipWith FV.mul b.1 b.2.1)).mul b.2.2))) acc

/-- The sums of an operation, row by row: each live activation row with each column. -/
def mmaSums (m : MmaOp) (tile run : List Byte) (start : List Word) : List Word :=
  let tree := m.rate == 4096
  let cols := (List.range m.ncol).map fun j =>
    let bs := (run.drop (j * m.w)).take m.w
    (runValues m.wfmt m.k bs, runScales m.wfmt m.k bs)
  (List.range m.live).flatMap fun i =>
    let xs := runValues m.afmt m.k ((tile.drop (i * (16384 / m.r))).take (16384 / m.r))
    ((List.range m.ncol).zip cols).map fun jc => mmaDot tree xs jc.2.1 jc.2.2 (start.getD (i * m.ncol + jc.1) 0)

/-! ### Emission (R130, R131) -/

/-- The registers of every live row and result. -/
def mmaRegs (m : MmaOp) (env : List (GateStage × List Word × Word × Word)) (sums : List Word) : List (List (List Word)) :=
  (List.range m.live).map fun i => (List.range m.cols).map fun j =>
    let at' (x : Nat) : Word := sums.getD (i * m.ncol + x) 0
    gateRun i j (at' j) (if m.pair then at' (m.cols + j) else 0) env

/-- One entry: 64 pairs, the ones above NCOL/2 − 1 being a = 1, b = 0. -/
def mmaEntry (hdr : Word) (regs : List (List Word)) : List (Word × Word) :=
  takePad (0x3F800000, 0) 64 (regs.map fun r => (r.getD (bits hdr 4 2) 0, r.getD (bits hdr 6 2) 0))

/-- The output tile: the live rows in the blocked layout, with the generator and tallies after. -/
def mmaTile (m : MmaOp) (hdr : Word) (regs : List (List (List Word))) (g : DWord) : List Byte × DWord × Tally :=
  let r := regs.foldl (fun (acc : List Byte × DWord × Tally) row =>
    let n := narrowRow m.ofmt m.rnd m.nosat (row.map fun x => f32 (x.getD (bits hdr 4 2) 0)) acc.2.1 acc.2.2
    (acc.1 ++ takePad 0 (16384 / m.r) n.1, n.2)) ([], g, {})
  (takePad 0 16384 r.1, r.2)

/-- The bytes of a tile that are not zero. -/
def tileCells (bs : List Byte) : Mem := (cellsFrom 0 bs).filter fun c => c.2 != 0

/-- Counters of a narrowed output (R123, R124). -/
def State.meTally (c : Nat) (t : Tally) (s : State) : State :=
  ((s.count (ctrMe c 5) (t.sat + t.limit)).count (ctrMe c 6) t.special).count (ctrMe c 7) t.nanblk

/-- The gate pipeline takes the sums of an operation with a destination, with the program and the scalars of its issue. -/
def State.gateOut (c : Nat) (m : MmaOp) (ws sregs sums : List Word) (s : State) : State :=
  let hdr := ws.getD 0 0
  let regs := mmaRegs m (s.gateEnv c (gateStages ws) sregs) sums
  if m.dest = 3 then
    s.forEach ((List.range regs.length).zip regs) fun r t =>
      if t.keeper.fstop then t else t.luPush c r.1 (m.daddr % 2 ^ 10) (mmaEntry hdr r.2)
  else
    let t := mmaTile m hdr regs (s.core c).rng
    let s := (s.updCore c fun k => { k with rng := t.2.1 }).meTally c t.2.2
    let s := s.when m.toSpm (State.spmWrite c (m.daddr * 512) t.1)
    s.when m.toFtq fun s => s.updCore c fun k => { k with ftq := k.ftq ++ [tileCells t.1] }

/-- Sums an operation starts from: zero, or the accumulator. After an operation that has passed its sums to the gate
pipeline the manual gives the accumulator no value: free values (notes/assumptions/33.md). -/
def State.mmaStart (s : State) (c : Nat) (m : MmaOp) : List Word :=
  if !m.accum then []
  else if (s.core c).acc.isEmpty then (List.range (m.live * m.ncol)).map fun i => (Config.freeValue (s.free + i)).truncate 32
  else (s.core c).acc

/-- The effect of an operation whose weight columns are at hand. -/
def State.mmaRun (c : Nat) (m : MmaOp) (ws sregs : List Word) (run : List Byte) (s : State) : State :=
  let k := s.core c
  let sums := mmaSums m (s.spmRead c (m.atile * 512) 16384) run (s.mmaStart c m)
  let s := if m.accum && k.acc.isEmpty then { s with free := s.free + m.live * m.ncol } else s
  let s := s.updCore c fun x => { x with acc := if m.dest = 0 then sums else [] }
  if m.dest = 0 then s else s.gateOut c m ws sregs sums

/-- The matrix engine goes on with an operation (R131, R132): it takes the rows of its weight run out of the expansion queue as
they come, and stalls while rows are missing or the finished-tile queue holds 16 tiles. Answers what is left of it. -/
def State.mmaOn (c : Nat) (f : Flight) (m : MmaOp) (s : State) : Option Progress × State :=
  let need := if m.queue then m.runRows - f.prog.done else 0
  let got := (s.core c).xq.take need
  let bytes := f.prog.bytes ++ got.flatten
  let s := s.when m.queue fun s => s.updCore c fun k => { k with xq := k.xq.drop need }
  if got.length < need || (m.toFtq && 16 ≤ (s.core c).ftq.length) then
    (some { f.prog with done := f.prog.done + got.length, bytes := bytes }, s)
  else
    let run := if m.queue then bytes else s.spmRead c (m.waddr * 512) (m.ncol * m.w)
    (none, s.mmaRun c m f.words f.sregs run)

/-- What the control core finds at an MMA (R115 to R117, R127): the program of its slot and the scalars that its stages name are
captured, and the tiles, the weight run and the rows that the stages read are declared (notes/assumptions/104.md). -/
def State.mmaPlan (s : State) (c : Nat) (w : BitVec 128) : OpPlan :=
  let m := mmaOp w
  let ws := if m.dest = 0 then [] else (s.core c).gate m.prog
  let sregs := s.gateScalars c (gateStages ws)
  let rows := gateRows (gateStages ws) sregs
  { unit := .me, uses := gateUses (gateStages ws), sregs := sregs, words := ws
    trap := if m.badForm || (m.accum && (s.core c).accShape != some m.shape) || rows.any (12287 < ·) then some 1 else none
    reads := (m.atile, 32) :: (if m.queue then [] else [(m.waddr, m.runRows)]) ++ rows.map fun r => (r, 1)
    writes := if m.toSpm then [(m.daddr, 32)] else [] }

/-! ### GPLOAD -/

/-- A gate program that GPLOAD refuses (R128). -/
def gateBad (ws : List Word) : Bool := 8 < bits (ws.getD 0 0) 0 4 || (gateStages ws).any GateStage.bad

/-- What the control core finds at a GPLOAD, its own instruction: the row it loads, or the trap ILLEGAL_GP (R128;
notes/assumptions/63.md for a row beyond the slice). -/
def State.gploadPlan (s : State) (c slot row : Nat) : OpPlan :=
  let ws := s.rowWords c row 9
  { unit := .cc, first := [(row, 1)], words := ws
    trap := if slot = 0 || 31 < slot || 12287 < row || gateBad ws then some 2 else none, reads := [(row, 1)] }

/-- The slot takes the program. -/
def State.gpload (c slot : Nat) (ws : List Word) (s : State) : State :=
  s.updCore c fun k => { k with gates := putKey slot (ws.take (1 + bits (ws.getD 0 0) 0 4)) k.gates }

end Sys2Proof.Machine
end

