-- ==== Sys2Proof/Machine/Attention.lean ====
section
/-! DEFINITION. The attention passes of the matrix engine: score, value and latent expansion
(08_attention_and_kv.md, R199 to R224). -/

namespace Sys2Proof.Machine

open Sys2Proof

/-! ### The attention descriptor (Table 8-7) -/

structure AttDesc where
  dsel : Nat
  qfmt : Nat
  kfmt : Nat
  ofmt : Nat
  rot : Bool
  halves : Bool
  causal : Bool
  accum : Bool
  fin : Bool
  rnd : Bool
  nosat : Bool
  liveq : Nat
  npg : Nat
  col0 : Nat
  qrow : Nat
  plist : Nat
  drow : Nat
  stats : Nat
  posq : Nat
  sqs : Nat
  theta : Word
  scale : Word
  hrot : Nat
  nh : Nat
  wrow : Nat
  rkl : Nat
  window : Nat
  deriving DecidableEq, Repr

def attDesc (ws : List Word) : AttDesc :=
  let w (i : Nat) : Word := ws.getD i 0
  { dsel := bits (w 0) 0 2, qfmt := bits (w 0) 2 4, kfmt := bits (w 0) 6 4, ofmt := bits (w 0) 10 4, rot := (w 0).getLsbD 14
    halves := (w 0).getLsbD 15, causal := (w 0).getLsbD 16, accum := (w 0).getLsbD 17, fin := (w 0).getLsbD 18
    rnd := (w 0).getLsbD 19, nosat := (w 0).getLsbD 20, liveq := bits (w 1) 0 8 + 1, npg := bits (w 1) 8 5 + 1
    col0 := bits (w 1) 13 19, qrow := bits (w 2) 0 14, plist := bits (w 2) 14 14, drow := bits (w 3) 0 14
    stats := bits (w 3) 14 14, posq := bits (w 4) 0 14, sqs := bits (w 4) 14 14, theta := w 5, scale := w 6
    hrot := bits (w 7) 0 8, nh := bits (w 7) 8 5 + 1, wrow := bits (w 7) 13 14, rkl := bits (w 7) 27 3
    window := (w 8).toNat }

/-- Head dimension D. -/
def AttDesc.d (x : AttDesc) : Nat := 64 * 2 ^ x.dsel

/-- Latent rank ρ. -/
def AttDesc.rho (x : AttDesc) : Nat := 128 + 64 * x.rkl

/-- Bytes of a plain element of the query, probability or latent format, and of the output format. -/
def AttDesc.eq (x : AttDesc) : Nat := elemBits x.qfmt / 8
def AttDesc.eo (x : AttDesc) : Nat := elemBits x.ofmt / 8

/-- Queries of a stationary tile (R222). -/
def AttDesc.qcap (x : AttDesc) : Nat := 16384 / (x.d * x.eq)

/-- Bytes of 32 elements in a format, scale included. -/
def bytes32 (code : Nat) : Nat := if isMx code then mxBytes code else 4 * elemBits code

/-- Bytes of n elements, n a multiple of 32 for an MX format. -/
def runBytes (code n : Nat) : Nat := if isMx code then ceilDiv n 32 * mxBytes code else n * elemBits code / 8

/-- T_p of K and V pages (R200). -/
def AttDesc.tp (x : AttDesc) : Nat := 32 * (16384 / (x.d * bytes32 x.kfmt))

/-- T_L of latent pages (R200). -/
def AttDesc.tl (x : AttDesc) : Nat := 16384 / (x.rho * x.eq)

/-- A page-list entry (Table 8-8) with its stride filled in. -/
structure AttPage where
  row : Nat
  tp : Nat
  cnt : Nat
  p0 : Nat
  /-- TP is 0: a stored page, on a tile boundary. -/
  stored : Bool
  deriving DecidableEq, Repr

def attPage (std lo hi : Nat) : AttPage :=
  let t := nbits lo 14 9
  ⟨nbits lo 0 14, if t = 0 then std else t, nbits lo 23 9, hi, t == 0⟩

/-- The page list of a pass, from the words of its rows. -/
def AttDesc.pages (x : AttDesc) (std : Nat) (ws : List Word) : List AttPage :=
  (List.range x.npg).map fun i => attPage std (ws.getD (2 * i) 0).toNat (ws.getD (2 * i + 1) 0).toNat

/-- Key columns of a pass. -/
def attCols (ps : List AttPage) : Nat := sumBy (·.cnt) ps

/-! ### The traps of R224 -/

/-- Key and value formats of Table 8-1. -/
def pageFmt (f : Nat) : Bool := [0, 1, 2, 3, 7, 8, 0xB].contains f

/-- Floating-point weight codes of Table 5-1. -/
def floatWeight (f : Nat) : Bool := [0, 1, 2, 3, 5, 7, 8, 9, 0xA, 0xB].contains f

/-- First rows and byte lengths of the areas that a score pass reads and that it writes (R210); the old statistics are read
under ACC alone. -/
def AttDesc.scoreReads (x : AttDesc) (ps : List AttPage) : List (Nat × Nat) :=
  [(x.qrow, x.liveq * x.d * x.eq), (x.plist, 8 * x.npg), (x.posq, 4 * x.liveq)] ++
  (if x.accum then [(x.stats, 32 * x.liveq)] else []) ++ ps.map fun p => (p.row, p.cnt * runBytes x.kfmt x.d)

def AttDesc.scoreWrites (x : AttDesc) (ps : List AttPage) : List (Nat × Nat) :=
  [(x.stats, 32 * x.liveq), (x.drow, (x.liveq - 1) * x.sqs * 512 + (x.col0 + attCols ps) * x.eo)]

/-- Those of a value pass; the old outputs are read under ACC alone. -/
def AttDesc.valueReads (x : AttDesc) (ps : List AttPage) : List (Nat × Nat) :=
  [(x.qrow, (x.liveq - 1) * x.sqs * 512 + (x.col0 + attCols ps) * x.eq), (x.plist, 8 * x.npg), (x.stats, 32 * x.liveq)] ++
  (if x.accum then [(x.drow, x.liveq * x.d * x.eo)] else []) ++
  ps.map fun p => (p.row, if p.cnt = 0 then 0 else x.d * runBytes x.kfmt p.tp)

def AttDesc.valueWrites (x : AttDesc) : List (Nat × Nat) := [(x.drow, x.liveq * x.d * x.eo)]

/-- Rows of a transient page, and of the whole transient area in whole tiles (R221). -/
def AttDesc.xp (x : AttDesc) : Nat := ceilDiv (x.tl * x.d * x.eo) 512
def AttDesc.xrows (x : AttDesc) : Nat := 32 * ceilDiv (x.npg * x.nh * 2 * x.xp) 32

/-- Bytes of an up-projection column. -/
def AttDesc.w (x : AttDesc) : Nat := runBytes x.kfmt x.rho

/-- Those of an expansion pass. -/
def AttDesc.expandReads (x : AttDesc) (ps : List AttPage) : List (Nat × Nat) :=
  [(x.plist, 8 * x.npg), (x.wrow, 2 * x.nh * x.d * x.w)] ++ ps.map fun p => (p.row, 16384)

def AttDesc.expandWrites (x : AttDesc) : List (Nat × Nat) := [(x.drow, 512 * x.xrows)]

def areasBad (as : List (Nat × Nat)) : Bool := as.any fun a => 12288 * 512 < a.1 * 512 + a.2

/-- What every pass traps on. -/
def AttDesc.badForm (x : AttDesc) (ps : List AttPage) : Bool :=
  x.dsel == 3 || x.rkl == 7 || 3 < x.qfmt || ps.any fun p => p.tp < p.cnt || (p.stored && p.row % 32 != 0)

def AttDesc.badScore (x : AttDesc) (ps : List AttPage) : Bool :=
  x.badForm ps || !pageFmt x.kfmt || (x.ofmt != 0 && x.ofmt != 0xD) ||
  (x.rot && (isMx x.kfmt || x.d / 2 < x.hrot || !finite32 x.theta || !(f32 0x3F800000).lt (f32 x.theta))) ||
  x.qcap < x.liveq || x.sqs * 512 < (x.col0 + attCols ps) * x.eo || areasBad (x.scoreReads ps ++ x.scoreWrites ps)

def AttDesc.badValue (x : AttDesc) (ps : List AttPage) : Bool :=
  x.badForm ps || !pageFmt x.kfmt || !([0, 1, 2, 0xD].contains x.ofmt) || (x.accum && x.ofmt != 0xD) ||
  x.sqs * 512 < (x.col0 + attCols ps) * x.eq || areasBad (x.valueReads ps ++ x.valueWrites)

def AttDesc.badExpand (x : AttDesc) (ps : List AttPage) : Bool :=
  x.badForm ps || !floatWeight x.kfmt || 3 < x.ofmt || x.drow % 32 != 0 || areasBad (x.expandReads ps ++ x.expandWrites)

/-- The rows of areas. -/
def areaRows (as : List (Nat × Nat)) : List (Nat × Nat) := as.map fun a => (a.1, ceilDiv a.2 512)

/-! ### Rotary position codes (R216) -/

/-- ⌊π × 2^256⌋. -/
def piNum : Nat := 0x3243f6a8885a308d313198a2e03707344a4093822299f31d0082efa98ec4e6c89

/-- n is at most the rounded frequency: (2n − 1) π θ^(m / hrot) ≤ 2^64. -/
def freqAtMost (sig : Nat) (e : Int) (hrot m n : Nat) : Bool :=
  let l := ((2 * n - 1) * piNum) ^ hrot * sig ^ m
  let r := 2 ^ (320 * hrot)
  if 0 ≤ e then l * 2 ^ (e.toNat * m) ≤ r else l ≤ r * 2 ^ ((-e).toNat * m)

/-- The largest n of k more bits. -/
def freqBits (sig : Nat) (e : Int) (hrot m : Nat) : Nat → Nat → Nat
  | 0, n => n
  | k + 1, n => freqBits sig e hrot m k (if freqAtMost sig e hrot m (n + 2 ^ k) then n + 2 ^ k else n)

/-- w[m] = round(2^64 × θ^(−2m / (2 × hrot)) / 2π). -/
def rotaryFreq (theta : Word) (hrot m : Nat) : Nat :=
  match f32 theta with
  | .fin false sig e => freqBits sig e hrot m 63 0
  | _ => 0

/-- Cosine and sine of the angle of a phase, each within 2^−22 of the exact one. -/
def rotaryPair (phase : DWord) : Word × Word :=
  let x := turnCosSin phase.toNat (2 ^ 64)
  let f := Config.rotary phase
  (bounded f.1 x.1 (.fin false 1 (-22)), bounded f.2 x.2 (.fin false 1 (-22)))

/-- A pair rotated: fused multiply-adds in FP32. -/
def rotatePair (cs : Word × Word) (x y : Word) : Word × Word :=
  (fma x cs.1 (fneg (fmul y cs.2)), fma x cs.2 (fmul y cs.1))

/-- A vector of D elements rotated at a position: rotated pairs are rounded once into their own format, the other elements
pass; with the saturations. -/
def rotate (x : AttDesc) (fmt : Nat) (freqs : List Nat) (pos : Nat) (xs : List FV) : List FV × Nat :=
  let ix (m : Nat) : Nat × Nat := if x.halves then (m, m + x.d / 2) else (2 * m, 2 * m + 1)
  ((List.range x.hrot).zip freqs).foldl (fun acc mw =>
    let i := ix mw.1
    let r := rotatePair (rotaryPair (BitVec.ofNat 64 (pos * mw.2))) (r32 (acc.1.getD i.1 .nan)) (r32 (acc.1.getD i.2 .nan))
    let a := narrowPlain fmt none x.nosat (f32 r.1)
    let b := narrowPlain fmt none x.nosat (f32 r.2)
    let sat (e : NarrowEv) : Nat := if e == .sat || e == .limit then 1 else 0
    (updAt i.1 (fun _ => elemValue fmt a.1) (updAt i.2 (fun _ => elemValue fmt b.1) acc.1), acc.2 + sat a.2 + sat b.2)) (xs, 0)

/-! ### The passes -/

/-- Values narrowed with the core's generator (R121, R123): saturations count in COR_AT_SAT (Table 8-11), values written as NaN
in COR_ME_NAN_OUT. -/
def State.attNarrow (c fmt : Nat) (x : AttDesc) (xs : List FV) (s : State) : List Nat × State :=
  let r := narrowList fmt x.rnd x.nosat xs (s.core c).rng {}
  (r.1, ((s.updCore c fun k => { k with rng := r.2.1 }).count (ctrAt c 1) (r.2.2.sat + r.2.2.limit)).count (ctrMe c 6)
    r.2.2.special)

/-- The rounded tree is used when an operand is 16-bit (R112, R118, R215). -/
def AttDesc.tree (x : AttDesc) : Bool := max (rateClass x.qfmt) (rateClass x.kfmt) == 16

/-- A 32-bit word of a row area. -/
def State.attWord (s : State) (c row byte : Nat) : Word := BitVec.ofNat 32 (leNat (s.spmRead c (row * 512 + byte) 4))

/-- MACs per cycle of a pass (R112, R215), and the cycles of a streamed column of w bytes (R222). -/
def AttDesc.rate (x : AttDesc) : Nat :=
  let k := max (rateClass x.qfmt) (rateClass x.kfmt)
  if k = 16 then 4096 else if k = 8 then 8192 else 16384

def AttDesc.cycles (x : AttDesc) (w : Nat) : Nat := max 2 (max (16384 / x.eq / x.rate) (ceilDiv w 1024))

/-! ### Score pass (R213 to R217) -/

/-- Keys of one operation (Table 8-10). -/
def AttDesc.scoreKeys (x : AttDesc) : Nat := min 128 (min (256 / x.cycles (runBytes x.kfmt x.d)) (4096 / x.qcap))

/-- Operations of the pass; a pass over no key has one, which writes its statistics. -/
def AttDesc.scoreOps (x : AttDesc) (ps : List AttPage) : Nat := max 1 (ceilDiv (attCols ps) x.scoreKeys)

/-- Byte and position of every key of a page list, in list order. -/
def attTokens (n : Nat) (ps : List AttPage) : List (Nat × Nat) :=
  ps.flatMap fun p => (List.range p.cnt).map fun j => (p.row * 512 + j * n, p.p0 + j)

/-- Key columns: the position of each and its values and scales, with the saturations of their rotation. -/
def State.attKeys (s : State) (c : Nat) (x : AttDesc) (freqs : List Nat) (toks : List (Nat × Nat)) :
    List (Nat × List FV × List FV) × Nat :=
  let n := runBytes x.kfmt x.d
  toks.foldl (fun acc a =>
    let bs := s.spmRead c a.1 n
    let r := if x.rot then rotate x x.kfmt freqs a.2 (runValues x.kfmt x.d bs) else (runValues x.kfmt x.d bs, 0)
    (acc.1 ++ [(a.2, r.1, runScales x.kfmt x.d bs)], acc.2 + r.2)) ([], 0)

/-- Key position k is admitted for query position q (R213). -/
def AttDesc.admits (x : AttDesc) (q k : Nat) : Bool :=
  (!x.causal || k ≤ q) && (x.window == 0 || (q : Int) - k < x.window)

/-- The largest and the number of scores admitted so far, taken further; +0 for none. -/
def attMax (old : Word × Nat) (scores : List Word) : Word × Nat :=
  scores.foldl (fun a y => (if a.2 = 0 then y else fmax a.1 y, a.2 + 1)) old

/-- M and N of a row after a score pass whose admitted scores give `new` (R214). -/
def attStats (accum : Bool) (old new : Word × Nat) : Word × Nat :=
  if !accum || old.2 = 0 then new else (if new.2 = 0 then old.1 else fmax old.1 new.1, old.2 + new.2)

/-- Query row i: its position, and its values rotated there, with the saturations of the rotation. -/
def State.attQuery (s : State) (c : Nat) (x : AttDesc) (freqs : List Nat) (i : Nat) : Nat × List FV × Nat :=
  let pos := (s.attWord c x.posq (4 * i)).toNat
  let q := runValues x.qfmt x.d (s.spmRead c (x.qrow * 512 + i * x.d * x.eq) (x.d * x.eq))
  (pos, if x.rot then rotate x x.qfmt freqs pos q else (q, 0))

/-- One query row of an operation on the key columns from `col` on: its scores are written, and those admitted enter the
row's maximum and count. -/
def State.attScoreRow (c : Nat) (x : AttDesc) (freqs : List Nat) (col : Nat) (keys : List (Nat × List FV × List FV)) (i : Nat)
    (old : Word × Nat) (s : State) : (Word × Nat) × State :=
  let q := s.attQuery c x freqs i
  let vals := keys.map fun k =>
    if x.admits q.1 k.1 then f32 (fmul x.scale (mmaDot x.tree q.2.1 k.2.1 k.2.2 0)) else .inf true
  let out := s.attNarrow c x.ofmt x vals
  let good := ((keys.zip out.1).filter fun k => x.admits q.1 k.1.1).map fun k => r32 (elemValue x.ofmt k.2)
  (attMax old good, out.2.spmWrite c ((x.drow + i * x.sqs) * 512 + col * x.eo) (out.1.flatMap fun v => leBytes x.eo v))

/-- The statistics of row i at the end of a score pass (R212, R214): M at byte 0 of its record and N at byte 4. -/
def State.attRowStats (c : Nat) (x : AttDesc) (i : Nat) (new : Word × Nat) (s : State) : State :=
  let old := (s.attWord c x.stats (32 * i), (s.attWord c x.stats (32 * i + 4)).toNat)
  let st := attStats x.accum old new
  s.spmWrite c (x.stats * 512 + 32 * i) (leBytes 4 st.1.toNat ++ leBytes 4 st.2)

/-- The next operation of a score pass. What its progress keeps is the maximum and the count of each row. -/
def State.attScoreOp (c : Nat) (x : AttDesc) (ps : List AttPage) (p : Progress) (s : State) : Progress × State :=
  let freqs := if x.rot then (List.range x.hrot).map (rotaryFreq x.theta x.hrot) else []
  let toks := ((attTokens (runBytes x.kfmt x.d) ps).drop (p.done * x.scoreKeys)).take x.scoreKeys
  let ks := s.attKeys c x freqs toks
  let qsat := if p.done = 0 then sumBy (fun i => (s.attQuery c x freqs i).2.2) (List.range x.liveq) else 0
  let r := (List.range x.liveq).foldl (fun (acc : List Word × State) i =>
    let n := acc.2.attScoreRow c x freqs (x.col0 + p.done * x.scoreKeys) ks.1 i
      (p.sums.getD (2 * i) 0, (p.sums.getD (2 * i + 1) 0).toNat)
    (acc.1 ++ [n.1.1, BitVec.ofNat 32 n.1.2], n.2)) ([], s.count (ctrAt c 1) (ks.2 + qsat))
  ({ p with done := p.done + 1, sums := r.1 },
    r.2.when (p.done + 1 == x.scoreOps ps) fun s => s.forEach (List.range x.liveq) fun i t =>
      t.attRowStats c x i (r.1.getD (2 * i) 0, (r.1.getD (2 * i + 1) 0).toNat))

/-! ### Value pass (R219, R220; notes/assumptions/34.md) -/

/-- Rows of the stationary tile of a row block that starts at row i0, and the rows it serves (Table 8-10). -/
def AttDesc.blockLive (x : AttDesc) (i0 : Nat) : Nat := min 32 (x.liveq - i0)
def AttDesc.blockRows (x : AttDesc) (i0 : Nat) : Nat :=
  if x.blockLive i0 ≤ 8 then 8 else if x.blockLive i0 ≤ 16 then 16 else 32

/-- Keys of a slice, K_s, and output dimensions of an operation. -/
def AttDesc.sliceKeys (x : AttDesc) (i0 : Nat) : Nat := 16384 / (x.blockRows i0 * x.eq)
def AttDesc.valueDims (x : AttDesc) (i0 : Nat) : Nat := min x.d (256 / x.cycles (runBytes x.kfmt (x.sliceKeys i0)))

/-- Blocks of at most 32 tokens of the pages: page, block in the page, first key column of the list, tokens. -/
def attBlocks (ps : List AttPage) : List (AttPage × Nat × Nat × Nat) :=
  (ps.foldl (fun (acc : List (AttPage × Nat × Nat × Nat) × Nat) p =>
    (acc.1 ++ (List.range (ceilDiv p.cnt 32)).map fun k => (p, k, acc.2 + 32 * k, min 32 (p.cnt - 32 * k)), acc.2 + p.cnt))
    ([], 0)).1

/-- Operations of a row block: every slice of every group of dimensions. -/
def AttDesc.valueSlices (x : AttDesc) (ps : List AttPage) (i0 : Nat) : Nat :=
  max 1 (ceilDiv (attBlocks ps).length (x.sliceKeys i0 / 32))
def AttDesc.valueGroups (x : AttDesc) (i0 : Nat) : Nat := ceilDiv x.d (x.valueDims i0)

/-- The operations of the pass: row block by row block, group of dimensions by group, slice by slice, as first row, group,
slice, and whether it is the group's last slice. -/
def AttDesc.valueOps (x : AttDesc) (ps : List AttPage) : List (Nat × Nat × Nat × Bool) :=
  (List.range (ceilDiv x.liveq 32)).flatMap fun b =>
    let i0 := 32 * b
    let n := x.valueSlices ps i0
    (List.range (x.valueGroups i0)).flatMap fun g => (List.range n).map fun k => (i0, g, k, k + 1 == n)

/-- A sum taken further over the blocks of a slice: probabilities of the row, values of output d. -/
def State.attValueDot (s : State) (c : Nat) (x : AttDesc) (blks : List (AttPage × Nat × Nat × Nat)) (i d : Nat) (acc : Word) : Word :=
  blks.foldl (fun a b =>
    let probs := runValues x.qfmt b.2.2.2 (s.spmRead c ((x.qrow + i * x.sqs) * 512 + (x.col0 + b.2.2.1) * x.eq) (b.2.2.2 * x.eq))
    let n := bytes32 x.kfmt
    let bs := s.spmRead c (b.1.row * 512 + d * runBytes x.kfmt b.1.tp + b.2.1 * n) n
    mmaDot x.tree probs ((runValues x.kfmt 32 bs).take b.2.2.2) (runScales x.kfmt 32 bs) a) acc

/-- Outputs of row i in a group of dimensions after its last slice (R219): times W, plus the old output under ACC, narrowed;
under FIN a row whose NG is zero takes +0 and counts once (R220). -/
def State.attValueRow (c : Nat) (x : AttDesc) (i d0 : Nat) (sums : List Word) (s : State) : State :=
  let at' := x.drow * 512 + (i * x.d + d0) * x.eo
  let ng := s.attWord c x.stats (32 * i + 16)
  if x.fin && ng == 0 then
    (s.when (d0 == 0) (·.bump (ctrAt c 0))).spmWrite c at' (List.replicate (sums.length * x.eo) 0)
  else
    let w := s.attWord c x.stats (32 * i + 12)
    let o := ((List.range sums.length).zip sums).map fun y =>
      let v := fmul y.2 w
      if x.accum then fadd v (BitVec.ofNat 32 (leNat (s.spmRead c (at' + 4 * y.1) 4))) else v
    let out := s.attNarrow c x.ofmt x (o.map f32)
    out.2.spmWrite c at' (out.1.flatMap fun v => leBytes x.eo v)

/-- The next operation of a value pass. What its progress keeps is the sums of the row block's rows in the group. -/
def State.attValueOp (c : Nat) (x : AttDesc) (ps : List AttPage) (p : Progress) (s : State) : Progress × State :=
  match (x.valueOps ps)[p.done]? with
  | none => (p, s)
  | some (i0, g, k, last) =>
    let n := x.valueDims i0
    let d0 := g * n
    let dims := min n (x.d - d0)
    let per := x.sliceKeys i0 / 32
    let blks := ((attBlocks ps).drop (k * per)).take per
    let rows := List.range (x.blockLive i0)
    let sums := rows.flatMap fun i => (List.range dims).map fun d =>
      s.attValueDot c x blks (i0 + i) (d0 + d) (if k = 0 then 0 else p.sums.getD (i * dims + d) 0)
    ({ p with done := p.done + 1, sums := sums },
      s.when last fun s => s.forEach rows fun i t => t.attValueRow c x (i0 + i) d0 ((sums.drop (i * dims)).take dims))

/-! ### Latent expansion (R221) -/

/-- Columns of one operation. -/
def AttDesc.expandCols (x : AttDesc) : Nat := min 128 (min (256 / x.cycles x.w) (4096 / x.tl))

/-- Operations of one page. -/
def AttDesc.expandOps (x : AttDesc) : Nat := ceilDiv (2 * x.nh * x.d) x.expandCols

/-- Byte of the result of token j and up-projection column q of list entry p: head, kind and dimension are in the column's
place, and the layout of the transient page is that of Table 8-3. -/
def AttDesc.expandAt (x : AttDesc) (p j q : Nat) : Nat :=
  let kind := q / x.d % 2
  let d := q % x.d
  (x.drow + (p * x.nh * 2 + q / x.d) * x.xp) * 512 + (if kind = 0 then j * x.d + d else d * x.tl + j) * x.eo

/-- The next operation of an expansion pass. The first one clears the area; tokens at or beyond CNT stay zero. -/
def State.attExpandOp (c : Nat) (x : AttDesc) (ps : List AttPage) (p : Progress) (s : State) : Progress × State :=
  let s := s.when (p.done == 0) (State.spmWrite c (x.drow * 512) (List.replicate (x.xrows * 512) 0))
  let e := p.done / x.expandOps
  let q0 := p.done % x.expandOps * x.expandCols
  let pg := ps.getD e ⟨0, 0, 0, 0, false⟩
  let qs := (List.range (min x.expandCols (2 * x.nh * x.d - q0))).map (q0 + ·)
  let cols := qs.map fun q =>
    let bs := s.spmRead c (x.wrow * 512 + q * x.w) x.w
    (runValues x.kfmt x.rho bs, runScales x.kfmt x.rho bs)
  let sums := (List.range (min pg.cnt x.tl)).map fun j =>
    let row := runValues x.qfmt x.rho (s.spmRead c (pg.row * 512 + j * x.rho * x.eq) (x.rho * x.eq))
    cols.map fun w => f32 (mmaDot x.tree row w.1 w.2 0)
  ({ p with done := p.done + 1 },
    s.forEach ((List.range sums.length).zip sums) fun r t =>
      let n := t.attNarrow c x.ofmt x r.2
      n.2.forEach (qs.zip n.1) fun v u => u.spmWrite c (x.expandAt e r.1 v.1) (leBytes x.eo v.2))

/-! ### The ATT instruction (R209, R210, R222 to R224) -/

/-- Operations of a pass. -/
def AttDesc.ops (x : AttDesc) (pass : Nat) (ps : List AttPage) : Nat :=
  if pass = 0 then x.scoreOps ps else if pass = 1 then (x.valueOps ps).length else x.npg * x.expandOps

/-- At most `n` more operations of a pass. -/
def State.attOps (c pass : Nat) (x : AttDesc) (ps : List AttPage) : Nat → Progress → State → Progress × State
  | 0, p, s => (p, s)
  | n + 1, p, s =>
    let r := if pass = 0 then s.attScoreOp c x ps p else if pass = 1 then s.attValueOp c x ps p else s.attExpandOp c x ps p
    r.2.attOps c pass x ps n r.1

/-- The page list of a pass among the words captured at its issue: they follow those of the descriptor. -/
def AttDesc.listed (x : AttDesc) (pass : Nat) (ws : List Word) : List AttPage :=
  x.pages (if pass = 2 then x.tl else x.tp) (ws.drop 16)

/-- The matrix engine goes on with a pass: `n` operations, or all that are left. Answers what is left of it. -/
def State.attOn (c : Nat) (n : Option Nat) (f : Flight) (pass : Nat) (s : State) : Option Progress × State :=
  let x := attDesc f.words
  let ps := x.listed pass f.words
  let left := x.ops pass ps - f.prog.done
  let m := match n with
    | some k => min k left
    | none => left
  let r := s.attOps c pass x ps m f.prog
  (if m = left then none else some r.1, r.2)

/-- What the control core finds at an ATT: the descriptor and the page list are read at issue, and every area is declared
(R209, R210, R224). -/
def State.attPlan (s : State) (c : Nat) (w : BitVec 64) : OpPlan :=
  let pass := bits w 8 2
  let row := s.sreg c (bits w 10 6)
  let ws := s.rowWords c row 16
  let x := attDesc ws
  let list := rowsOf (x.plist * 512) (8 * x.npg)
  let ws := ws ++ wordsOf (s.spmRead c (x.plist * 512) (8 * x.npg))
  let ps := x.listed pass ws
  let bad := if pass = 0 then x.badScore ps else if pass = 1 then x.badValue ps else x.badExpand ps
  let reads := if pass = 0 then x.scoreReads ps else if pass = 1 then x.valueReads ps else x.expandReads ps
  let writes := if pass = 0 then x.scoreWrites ps else if pass = 1 then x.valueWrites else x.expandWrites
  { unit := .me, uses := [bits w 10 6], first := [(row, 1), list], words := ws
    trap := if pass = 3 || 12287 < row || bad then some 6 else none
    reads := (row, 1) :: rowRanges (areaRows reads), writes := rowRanges (areaRows writes) }

end Sys2Proof.Machine
end

