-- ==== Sys2Proof/Machine/Bridle.lean ====
section
/-! DEFINITION. The Bridle: certificates, images, the boot chain, firmware replacement, attestation, SPDM and the sideband
(17_bridle_security.md). -/

namespace Sys2Proof.Machine

open Sys2Proof

/-! ### Certificates and images (R477 to R480) -/

/-- Bytes `lo` to `lo + n - 1` of a byte string. -/
def slice (bs : List Byte) (lo n : Nat) : List Byte := takePad 0 n (bs.drop lo)

/-- A vendor certificate is accepted for a role (R478). -/
def certOk (role : Nat) (cert : List Byte) : Bool :=
  let rootPk := slice cert 76 68
  Config.shake256 rootPk 32 == Config.romRootDigest &&
    Config.xmssVerify rootPk (slice cert 0 144) (slice cert 144 2820) &&
    leNat (slice cert 0 4) == role

/-- ISSUED_PK of a certificate. -/
def issuedPk (cert : List Byte) : List Byte := slice cert 8 68

/-- Bytes of a flash image slot. -/
def State.flashRead (s : State) (b : Bool) (off n : Nat) : List Byte :=
  (if b then s.bridle.flashB else s.bridle.flashA).read (Config.flashByte (b01 b)) off n

/-- A 32-bit or narrower header field of the image in a slot (Table 17-2). -/
def State.imgField (s : State) (b : Bool) (off n : Nat) : Nat := leNat (s.flashRead b off n)

/-- BODY_LEN of the image in a slot. -/
def State.imgLen (s : State) (b : Bool) : Nat := s.imgField b 16 4

/-- The tests of R480, in order, on the image in slot A (false) or B (true). -/
def State.imageOk (s : State) (b : Bool) : Bool :=
  let dev := s.imgField b 24 8
  let cert := s.flashRead b 256 3072
  s.imgField b 0 4 == 0x534C5453 && s.imgField b 4 2 == 1 && 1 ≤ s.imgLen b && s.imgLen b ≤ 8376320 &&
  s.reg 0xB0010 ≤ s.imgField b 12 4 &&
  (dev == 0 || dev == s.deviceId) &&
  certOk 1 cert && Config.xmssVerify (issuedPk cert) (s.flashRead b 0 256) (s.flashRead b 3328 2820) &&
  (match s.bridle.owner with
    | none => true
    | some pk => s.imgField b 6 1 % 2 == 1 && Config.xmssVerify pk (s.flashRead b 0 256) (s.flashRead b 6148 2820)) &&
  s.flashRead b 32 64 == Config.shake256 (s.flashRead b 12288 (s.imgLen b)) 64

/-! ### The random source (R491) -/

/-- A 64-bit value drawn from the Bridle's random source; the source is reseeded every 2^20 requests. -/
def State.draw (s : State) : DWord × State :=
  (Config.drbg s.bridle.drbgDraws, s.updBridle fun b =>
    { b with drbgDraws := b.drbgDraws + 1
             drbgRequests := if b.drbgRequests + 1 < 2 ^ 20 then b.drbgRequests + 1 else 0
             drbgSeeds := if b.drbgRequests + 1 < 2 ^ 20 then b.drbgSeeds else b.drbgSeeds + 1 })

/-- The random generator of every core loaded from the random source (R122, R519). -/
def State.seedCores (s : State) : State :=
  s.forEach (s.cores.map (·.num)) fun c t =>
    let v := t.draw
    v.2.updCore c fun k => { k with rng := v.1 }

/-! ### Measurements (Table 17-7) -/

/-- Measurement m takes a value. -/
def State.setMeas (m : Nat) (v : List Byte) (s : State) : State :=
  s.updBridle fun b => { b with meas := updAt (m - 1) (fun _ => v) b.meas }

/-- The manifest body. -/
def State.manifestBody (s : State) : List Byte :=
  let m := s.bridle.inForce
  Config.manifestBody [m.version, m.svn, s.deviceId, m.variant, m.dieEn.toNat, m.stackEn.toNat]

/-- Measurements 1 to 6 as a boot fixes them, measurements 7 and 8 as they start (R481, Table 17-7). -/
def State.bootMeasure (s : State) : State :=
  let b := s.bridle.runningB
  let h (x : List Byte) : List Byte := Config.shake256 x 64
  let zero := List.replicate 64 (0 : Byte)
  ((((((((s.setMeas 1 (h Config.romContents)).setMeas 2 (h (s.flashRead b 0 256 ++ s.flashRead b 12288 (s.imgLen b)))).setMeas
    3 (h s.manifestBody)).setMeas 4 (h (s.bridle.owner.getD (List.replicate 68 0)))).setMeas
    5 (h (s.idnRead 0 65536))).setMeas
    6 (h (leBytes 4 (s.reg 0xB0010) ++ leBytes 4 (s.reg 0xB0014) ++ leBytes 4 (s.reg 0xB0018)))).setMeas 7 zero).setMeas 8 zero)

/-! ### The boot chain (R481 to R483) -/

/-- Recovery with an outcome code (R483): the device never reports ready. -/
def State.enterRecovery (code : Nat) (s : State) : State :=
  (s.updBridle fun b => { b with recovery := true, outcome := code }).updPower fun p =>
    { p with booting := false, ready := false }

/-- The device secret: read from the PUF at a cold reset, kept in the key register at a warm reset (R490). -/
def State.readSecret (cold : Bool) (s : State) : State :=
  if cold then
    let n := s.bridle.coldResets + 1
    let ok := Config.pufReconstructs n
    s.updBridle fun b => { b with coldResets := n, secret := ok, pufOk := ok }
  else s.updBridle fun b => { b with pufOk := b.secret }

/-- Both image slots are verified (R482, R485); each that fails is counted. The preferred one runs, else the other. -/
def State.chooseImage (s : State) : State :=
  let pref := s.bridle.preferredB
  let okP := s.imageOk pref
  let okO := s.imageOk (!pref)
  let s := (s.when (!okP) (State.bump (ctrBrd 2))).when (!okO) (State.bump (ctrBrd 2))
  let s := s.updBridle fun b => { b with otherOk := okO }
  if okP || okO then
    let run := if okP then pref else !pref
    let s := s.updBridle fun b =>
      { b with
        runningB := run, recovery := false
        outcome := if !b.secret then 2 else if okP then 0 else 1
        fwVer := s.imgField run 8 4, fwSvn := s.imgField run 12 4, pairProto := s.imgField run 20 4 }
    (s.bootMeasure).updPower fun p => { p with booting := true }
  else s.enterRecovery 0x30

/-- The boot chain of a cold or a warm reset: the secret, the identity region, the manifest, the images (Table 17-3). The
signing index starts at the reserved bound (R493), and the random source is seeded (R491). -/
def State.bootChain (cold : Bool) (s : State) : State :=
  let s := s.readSecret cold
  let s := s.updBridle fun b =>
    { b with
      inForce := if cold then b.manifest else b.inForce, sessions := [], recovery := false
      drbgRequests := 0, drbgSeeds := b.drbgSeeds + 1, ideKeys := [] }
  let s := s.setReg 0xB0020 (s.reg 0xB0028)
  if !(s.bridle.idnLocked && s.bridle.idnCrcOk) then s.enterRecovery 0x21
  else if !s.bridle.inForce.valid then (s.bump (ctrBrd 2)).enterRecovery 0x20
  else
    let s := s.when cold State.seedCores
    s.chooseImage

/-! ### Replacing the firmware (R484, R485) -/

/-- The inactive slot; in recovery no slot runs, and the one that is not preferred counts as inactive. -/
def State.inactive (s : State) : Bool :=
  if s.bridle.recovery then !s.bridle.preferredB else !s.bridle.runningB

/-- Slot and offset that a flash address names: an offset within the inactive slot, or in recovery, where both slots are
open, an offset in the flash (R479, R483, notes/assumptions/9.md). -/
def State.flashPlace (s : State) (a : Nat) : Option (Bool × Nat) :=
  if s.bridle.recovery then (if a < 0x1000000 then some (0x800000 ≤ a, a % 0x800000) else none)
  else if a < 0x800000 then some (s.inactive, a) else none

/-- A flash slot changed. -/
def State.updFlash (b : Bool) (f : Mem → Mem) (s : State) : State :=
  s.updBridle fun x => if b then { x with flashB := f x.flashB } else { x with flashA := f x.flashA }

/-- A write of BRD_FLASH_ADDR: a 4 KiB-aligned offset erases its sector to all ones; another value is ignored and
counted (R484). -/
def State.flashAddr (v : Nat) (s : State) : State :=
  match s.flashPlace v with
  | some (b, a) =>
    if v % 4096 = 0 then (s.setReg 0xB0044 v).updFlash b fun m => m.write a (List.replicate 4096 0xFF)
    else s.ignore .brd
  | none => s.ignore .brd

/-- A write of word i of the selected sector. An erased word takes the value; what a word written twice without an erase
holds is a free value (notes/assumptions/9.md). -/
def State.flashData (i v : Nat) (s : State) : State :=
  match s.flashPlace (s.reg 0xB0044 + 4 * i) with
  | some (b, a) =>
    if s.flashRead b a 4 = List.replicate 4 0xFF then s.updFlash b fun m => m.write a (leBytes 4 v)
    else (s.updFlash b fun m => m.write a (leBytes 4 s.freeVal)).nextFree
  | none => s.ignore .brd

/-- A write of ACTIVATE: the inactive image is verified; a passing one becomes preferred and is recorded (R484). -/
def State.activate (s : State) : State :=
  let t := s.inactive
  if s.imageOk t then
    (s.updBridle fun b => { b with preferredB := t, result := 1 }).addRecord 5
      (leBytes 4 s.bridle.fwVer ++ leBytes 4 (s.imgField t 8 4))
  else (s.bump (ctrBrd 2)).updBridle fun b => { b with result := 2 }

/-! ### Signing (R493) -/

/-- A signature is asked for: the index that signs, and the state after; none when signing is refused. -/
def State.takeIndex (s : State) : Option Nat × State :=
  if s.bridle.attExhausted || !s.bridle.secret then (none, s.bump (ctrBrd 1))
  else
    let i := s.reg 0xB0020
    let s := if i == s.reg 0xB0028 then s.setReg 0xB0028 (i + 1024) else s
    let s := s.bump (ctrBrd 0)
    if i == 2 ^ 40 - 1 then (some i, s.updBridle fun b => { b with attExhausted := true })
    else (some i, s.setReg 0xB0020 (i + 1))

/-- The SPDM ERROR of a refused signature: code 0xFF with KEY_EXHAUSTED, and an SPDM event to every subscriber (R493). -/
def State.keyExhausted (via : Transport) (s : State) : State :=
  (s.emit (.spdm "ERROR_FF_KEY_EXHAUSTED" via [])).emit (.spdm "EVENT" via [])

/-- SPDM is served over a transport: over DOE in RUN, over the sideband also in SLEEP once the I/O die's clocks run
(R494, R497); recovery serves none (R483). -/
def State.spdmServed (s : State) (via : Transport) : Bool :=
  s.power.vtack && !s.bridle.recovery && !s.power.powerFail && s.power.resetting.isNone &&
    (match via with
    | .doe => s.power.dev == .run
    | .sideband => s.power.dev == .run || (s.power.dev == .sleep && s.power.sbClocks))

/-- A request over SPDM: served by `f`; over the sideband with the fast clocks off it receives ERROR Busy, and the wake
sequencer starts the clocks when the main rails are present (R497, R503). -/
def State.spdm (via : Transport) (f : State → State) (s : State) : State :=
  if s.spdmServed via then f s
  else if via == .sideband && s.power.vtack && !s.bridle.recovery && s.power.dev != .run && s.power.dev != .off then
    (s.emit (.spdm "ERROR_BUSY" via [])).updPower fun p => { p with sbClocks := p.dev == .sleep }
  else s

/-- Sign a message and send it with its signature, or refuse (R493, R494). -/
def State.signAndSend (via : Transport) (name : String) (msg : List Byte) (s : State) : State :=
  match s.takeIndex with
  | (some i, t) => t.emit (.spdm name via (msg ++ Config.attSign i msg))
  | (none, t) => t.keyExhausted via

/-- The device certificate chain: a 4-byte length at 4,096 of the identity region, then the chain (R492). -/
def State.certChain (s : State) : List Byte := s.idnRead 4100 (min (leNat (s.idnRead 4096 4)) 61432)

/-! ### Meanings -/

/-- DRBG_RESEED: the entropy source reseeds the random source (R491). -/
def execDrbgReseed (s : State) : Res :=
  .next (s.updBridle fun b => { b with drbgRequests := 0, drbgSeeds := b.drbgSeeds + 1 })

/-- NEGOTIATE_ALGORITHMS: the algorithms of Table 17-6. -/
def execNegotiateAlgorithms (via : Transport) (s : State) : Res :=
  .next (s.spdm via fun t => t.emit (.spdm "ALGORITHMS" via []))

/-- GET_CERTIFICATE: slot 0 serves the chain; slots 1 to 7 are empty (R492). -/
def execGetCertificate (via : Transport) (slot off len : Nat) (s : State) : Res :=
  .next (s.spdm via fun t =>
    if slot == 0 then t.emit (.spdm "CERTIFICATE" via ((t.certChain.drop off).take len))
    else t.emit (.spdm "ERROR_INVALID_REQUEST" via []))

/-- CHALLENGE: CHALLENGE_AUTH uses one signing index (R494). -/
def execChallenge (via : Transport) (slot : Nat) (nonce : List Byte) (s : State) : Res :=
  .next (s.spdm via fun t =>
    if slot == 0 then t.signAndSend via "CHALLENGE_AUTH" (nonce ++ t.bridle.meas.flatten)
    else t.emit (.spdm "ERROR_INVALID_REQUEST" via []))

/-- Measurement values an index names: all ten for 0xFF, one for 1 to 10. -/
def State.measOf (s : State) (index : Nat) : List Byte :=
  if index == 0xFF then s.bridle.meas.flatten
  else if index == 0 then [10]
  else s.bridle.meas.getD (index - 1) []

/-- GET_MEASUREMENTS: the values as they stand; a signed reply uses one signing index (R494, R496). -/
def execGetMeasurements (via : Transport) (index : Nat) (signed : Bool) (nonce : List Byte) (s : State) : Res :=
  .next (s.spdm via fun t =>
    if signed then t.signAndSend via "MEASUREMENTS" (nonce ++ t.measOf index)
    else t.emit (.spdm "MEASUREMENTS" via (t.measOf index)))

/-- The lowest session number from 1 that is not in use. -/
def freeSession (used : List Nat) : Nat := ((List.range 9).find? fun i => 0 < i && !used.contains i).getD 0

/-- KEY_EXCHANGE: up to 8 sessions; a further one is answered with ERROR Busy (R494). -/
def execKeyExchange (via : Transport) (slot : Nat) (encap : List Byte) (s : State) : Res :=
  .next (s.spdm via fun t =>
    if slot != 0 then t.emit (.spdm "ERROR_INVALID_REQUEST" via [])
    else if 8 ≤ t.bridle.sessions.length then t.emit (.spdm "ERROR_BUSY" via [])
    else match t.takeIndex with
      | (none, u) => u.keyExhausted via
      | (some i, u) =>
        let ct := Config.mlkemCiphertext encap u.bridle.drbgDraws
        let v := u.draw.2
        (v.updBridle fun b => { b with sessions := b.sessions ++ [freeSession b.sessions] }).emit
          (.spdm "KEY_EXCHANGE_RSP" via (ct ++ Config.attSign i ct)))

/-- A message of an open session is served, over the transport of the session (R494, R497). -/
def State.sessionServed (s : State) (session : Nat) : Bool :=
  s.bridle.sessions.contains session && (s.spdmServed .doe || s.spdmServed .sideband)

/-- KEY_UPDATE on an open session. -/
def execKeyUpdate (session : Nat) (s : State) : Res :=
  .next (if s.sessionServed session then s.emit (.spdm "KEY_UPDATE_ACK" .doe (leBytes 4 session)) else s)

/-- HEARTBEAT on an open session. -/
def execSpdmHeartbeat (session : Nat) (s : State) : Res :=
  .next (if s.sessionServed session then s.emit (.spdm "HEARTBEAT_ACK" .doe (leBytes 4 session)) else s)

/-- A session ends. -/
def execSessionEnd (session : Nat) (s : State) : Res :=
  .next (if s.sessionServed session then
    (s.updBridle fun b => { b with sessions := b.sessions.filter (· != session) }).emit
      (.spdm "END_SESSION_ACK" .doe (leBytes 4 session))
  else s)

/-- The bytes an endorsement signs: DEVICE_ID, EPOCH and OWNER_PK (R488). -/
def endorsementMsg (e : Endorsement) : List Byte := leBytes 8 e.deviceId ++ leBytes 4 e.epoch ++ takePad 0 68 e.ownerPk

/-- The endorsement is accepted (R488). -/
def State.endorsed (s : State) (e : Endorsement) : Bool :=
  certOk 3 e.vcert && Config.xmssVerify (issuedPk e.vcert) (endorsementMsg e) e.vsig && e.deviceId == s.deviceId &&
    s.reg 0xB0018 < e.epoch &&
    (match s.bridle.owner with
    | none => true
    | some pk => Config.xmssVerify pk (endorsementMsg e) e.ownerSig)

/-- SET_OWNER in a secured session: the key is stored, or removed when it is all zero, and the epoch rises (R488). -/
def execSetOwner (session : Nat) (e : Endorsement) (s : State) : Res :=
  .next (if !s.sessionServed session then s
    else if s.endorsed e then
      ((s.setReg 0xB0018 (min e.epoch all32)).updBridle fun b =>
        { b with owner := if (takePad 0 68 e.ownerPk).all (· == 0) then none else some (takePad 0 68 e.ownerPk) }).emit
        (.spdm "SET_OWNER_RSP" .doe [0])
    else (s.bump (ctrBrd 2)).emit (.spdm "SET_OWNER_RSP" .doe [1]))

/-- KIND of die record i of the identity region; HBM stack k has an identifier that is not zero (Table 17-5). -/
def State.dieKind (s : State) (i : Nat) : Nat := leNat (s.idnRead (16 + 16 * i + 12) 1)
def State.stackPresent (s : State) (k : Nat) : Bool := (s.idnRead (352 + 16 * k) 16).any (· != 0)

/-- The tests of a manifest (R487). DESIGN CHOICE (notes/assumptions/121.md): R487 lists no test of VARIANT against DIE_EN, so a
manifest with VARIANT 1 that enables dies 5 to 9 of a 21-die part is accepted, although R1 gives the IY920 dies 0 to 4. -/
def State.manifestOk (s : State) (m : ManifestMsg) : Bool :=
  let body := Config.manifestBody [m.version, m.svn, m.deviceId, m.variant, m.dieEn.toNat, m.stackEn.toNat]
  m.magic == 0x4E414D53 && certOk 2 m.vcert && Config.xmssVerify (issuedPk m.vcert) body m.vsig &&
    s.reg 0xB0014 ≤ m.svn && m.deviceId == s.deviceId &&
    (List.range 10).all (fun d => !m.dieEn.getLsbD d || (s.dieKind (1 + d) == 2 && s.dieKind (11 + d) == 3)) &&
    (List.range 20).all (fun k => !m.stackEn.getLsbD k || s.stackPresent k) &&
    (List.range 20).all (fun k => m.stackEn.getLsbD k == m.dieEn.getLsbD (k / 2))

/-- SET_MANIFEST in a secured session: the manifest in MRAM is replaced and BRD_SVN_MAN raised; it comes into force at the
next cold reset (R487). -/
def execSetManifest (session : Nat) (m : ManifestMsg) (s : State) : Res :=
  .next (if !s.sessionServed session then s
    else if s.manifestOk m then
      ((s.setReg 0xB0014 (min (max (s.reg 0xB0014) m.svn) all32)).updBridle fun b =>
        { b with manifest := ⟨m.version, m.svn, m.variant, m.dieEn, m.stackEn, true⟩ }).emit
        (.spdm "SET_MANIFEST_RSP" .doe [0])
    else (s.bump (ctrBrd 2)).emit (.spdm "SET_MANIFEST_RSP" .doe [1]))

/-- KEY_PROG of IDE_KM in a secured session: the link IDE stream 0 and selective streams 1 to 4 take keys (R495). -/
def execIdeKmKeyProg (session strm : Nat) (key : List Byte) (s : State) : Res :=
  .next (if s.sessionServed session && strm ≤ 4 then
    (s.updBridle fun b => { b with ideKeys := putKey strm key b.ideKeys }).emit (.spdm "KP_ACK" .doe (leBytes 1 strm))
  else s)

/-- The sideband is served in every device state except OFF (R497, R566). -/
def State.sideband (s : State) (f : State → State) : State := if s.power.vtack then f s else s

/-- GET_IDENTITY: bytes of the identity region. -/
def execGetIdentity (off len : Nat) (s : State) : Res :=
  .next (s.sideband fun t => t.emit (.sideband "IDENTITY" (t.idnRead off (min len (65536 - off)))))

/-- GET_KEEPER_HEAD: KPR_HEAD, KPR_OLDEST and KPR_FSTOP_TOTAL. -/
def execGetKeeperHead (s : State) : Res :=
  .next (s.sideband fun t => t.emit (.sideband "KEEPER_HEAD"
    (leBytes 8 t.keeper.head ++ leBytes 8 t.keeper.oldest ++ leBytes 4 (t.reg ctrFstop.off))))

/-- GET_KEEPER: the record of a SEQ with a valid byte, under the rules of R474. -/
def execGetKeeper (seq : Nat) (s : State) : Res :=
  .next (s.sideband fun t => t.emit (.sideband "KEEPER" (match t.keeper.find seq with
    | some r => 1 :: r.bytes
    | none => 0 :: List.replicate 4096 0)))

/-- GET_BOOT: BRD_BOOT and BRD_STATUS. -/
def execGetBoot (s : State) : Res :=
  .next (s.sideband fun t => t.emit (.sideband "BOOT" (leBytes 4 t.brdBoot ++ leBytes 4 t.brdStatus)))

/-- SIDEBAND_CLOCK_STOP: 100 ms after the last response in SLEEP the clocks stop again (R503). -/
def execSidebandClockStop (s : State) : Res := .next (s.updPower fun p => { p with sbClocks := false })

/-- DYNAMIC_ADDRESS_ASSIGNMENT: the I3C controller gives the target its address (R566). -/
def execDynamicAddressAssignment (addr : Nat) (s : State) : Res :=
  .next (s.sideband fun t => t.updBoard fun b => { b with i3cAddr := some (addr % 128) })

end Sys2Proof.Machine
end

