-- ==== Sys2Proof/Machine/Dma.lean ====
section
/-! DEFINITION. The DMA mover, windows, the time read and undefined opcodes (11_tensor_layout.md, R312 to R329; R71, R282 to
R284, R334, R458). -/

namespace Sys2Proof.Machine

open Sys2Proof

/-! ### Reads and writes at an offset from a base (R313, R319) -/

/-- The address `d` bytes beyond the base of a move; none where the base sets a bit that its space does not use, or where the
address leaves the space (R291, R313). -/
def moveAddr (base : Nat) (d : Int) : Option Nat := if baseOk base then addrAdd base d else none

/-- A DM read of `n` bytes `d` bytes beyond a base. -/
def State.dmReadAt (s : State) (c base : Nat) (d : Int) (n : Nat) : List Byte × State :=
  match moveAddr base d with
  | some a => s.dmRead c a n
  | none => (List.replicate n 0, s.bump (ctrSpm c 3))

/-- A DM write of bytes `d` bytes beyond a base. -/
def State.dmWriteAt (c base : Nat) (d : Int) (bs : List Byte) (s : State) : State :=
  match moveAddr base d with
  | some a => s.dmWrite c a bs
  | none => s.bump (ctrSpm c 3)

/-- What a location holds before part of it is written, without counting. -/
def State.dmPeek (s : State) (c base : Nat) (d : Int) (n : Nat) : List Byte :=
  match (moveAddr base d).bind fun a => s.dmLoc c a n with
  | some l => s.readLoc l n
  | none => List.replicate n 0

/-! ### DMOV (R312 to R314, R323) -/

structure MoveDesc where
  src : Nat
  dst : Nat
  nr : Nat
  nrep : Nat
  sstep : Int
  dstep : Int
  deriving DecidableEq, Repr

def moveDesc (ws : List Word) : MoveDesc :=
  let w (i : Nat) : Word := ws.getD i 0
  { src := (w 0).toNat + (w 1).toNat * 2 ^ 32, dst := (w 2).toNat + (w 3).toNat * 2 ^ 32
    nr := bits (w 4) 0 16 + 1, nrep := bits (w 4) 16 16 + 1, sstep := (w 5).toInt, dstep := (w 6).toInt }

/-- The last row of an aligned tile that a move carries whole to the partner, both its ends aligned: the tile's tag goes with it
(R299, R301). -/
def State.moveTag (c : Nat) (m : MoveDesc) (p k : Nat) (s : State) : State :=
  let ends (base : Nat) (step : Int) : Bool :=
    match moveAddr base ((p * step + k) * 512) with
    | some a => (a + 512) % 16384 == 0
    | none => false
  if m.dst / 2 ^ 60 = 5 ∧ m.src / 2 ^ 60 ≠ 5 ∧ 31 ≤ k ∧ ends m.src m.sstep ∧ ends m.dst m.dstep then
    match (moveAddr m.dst ((p * m.dstep + k - 31) * 512)).bind fun a => (s.dmLoc c a 16384).map fun _ => a with
    | some a =>
      s.emit (.flit "TAG" [a % 2 ^ 60, crc32c ((List.range 32).flatMap fun i => s.dmPeek c m.src ((p * m.sstep + (k - 31 + i : Nat)) * 512) 512)])
    | none => s
  else s

/-- One row of a move; a device in fault stop moves nothing. -/
def State.moveRow (c : Nat) (m : MoveDesc) (p k : Nat) (s : State) : State :=
  if s.keeper.fstop then s
  else
    let r := s.dmReadAt c m.src ((p * m.sstep + k) * 512) 512
    (r.2.dmWriteAt c m.dst ((p * m.dstep + k) * 512) r.1).moveTag c m p k

/-- Rows of a move. -/
def MoveDesc.total (m : MoveDesc) : Nat := m.nrep * m.nr

/-- Rows `i` to `i + n - 1` of a move, in ascending piece and row order (R323). -/
def State.moveRows (c : Nat) (m : MoveDesc) (i n : Nat) (s : State) : State :=
  s.forEach (List.range n) fun k t => t.moveRow c m ((i + k) / m.nr) ((i + k) % m.nr)

/-- Rows of the own slice from offset `lo` to below offset `hi` of an operand's base; every row where the operand is indexed
(R324). -/
def operandRows (c base : Nat) (lo hi : Int) (indexed : Bool) : List (Nat × Nat) :=
  if base / 2 ^ 60 ≠ 0 ∨ nbits base 23 8 ≠ c then []
  else if indexed then [(0, 12288)]
  else
    let b : Int := (nbits base 0 23 : Nat)
    let first := (max 0 (b + lo)).toNat
    let last := (max 0 (min (12288 * 512) (b + hi))).toNat
    rowRanges [rowsOf first (last - first)]

/-- The byte offsets that a move's pieces span on one side. -/
def MoveDesc.span (m : MoveDesc) (step : Int) : Int × Int :=
  let last : Int := (m.nrep - 1 : Nat) * step
  (min 0 last * 512, (max 0 last + m.nr) * 512)

/-- What the control core finds at a DMOV: its descriptor, the rows of the own slice that it spans, and the trap of R325. -/
def State.dmovPlan (s : State) (c sreg : Nat) : OpPlan :=
  let row := s.sreg c sreg
  let ws := s.rowWords c row 8
  let m := moveDesc ws
  let a := m.span m.sstep
  let b := m.span m.dstep
  { unit := .dm, uses := [sreg], first := [(row, 1)], words := ws, trap := if 12287 < row then some 8 else none
    reads := (row, 1) :: operandRows c m.src a.1 a.2 false, writes := operandRows c m.dst b.1 b.2 false }

/-- Rows still to come of an instruction that has done `done` of `total`: `n`, or all. -/
def stepsNow (n : Option Nat) (total done : Nat) : Nat :=
  match n with
  | some k => min k (total - done)
  | none => total - done

/-- The DM goes on with a move: `n` rows, or all that are left. Answers what is left of it. -/
def State.dmovOn (c : Nat) (n : Option Nat) (f : Flight) (s : State) : Option Progress × State :=
  let m := moveDesc f.words
  let k := stepsNow n m.total f.prog.done
  (if m.total ≤ f.prog.done + k then none else some { f.prog with done := f.prog.done + k }, s.moveRows c m f.prog.done k)

/-- A move reads the byte at device address `a`. -/
def MoveDesc.reads (m : MoveDesc) (a : Nat) : Bool :=
  (List.range m.nrep).any fun p =>
    match moveAddr m.src (p * m.sstep * 512) with
    | some b => b ≤ a && a < b + m.nr * 512
    | none => false

/-! ### Tensor descriptors (R316 to R320) -/

structure Tensor where
  base : Nat
  fmt : Nat
  rank : Nat
  blocked : Bool
  r : Nat
  sizes : List Nat
  /-- Strides of the six dimensions; zero at or above the rank (R321). -/
  strides : List Int
  deriving DecidableEq, Repr

def tensorDesc (ws : List Word) : Tensor :=
  let w (i : Nat) : Nat := (ws.getD i 0).toNat
  let dim (d : Nat) : Nat := w (4 + 2 * d) + w (5 + 2 * d) * 2 ^ 32
  let rank := min 6 (nbits (w 2) 4 3 + 1)
  { base := w 0 + w 1 * 2 ^ 32, fmt := nbits (w 2) 0 4, rank := rank, blocked := nbits (w 2) 7 1 == 1
    r := rowMode (nbits (w 2) 8 2), sizes := (List.range rank).map fun d => nbits (dim d) 0 24
    strides := (List.range 6).map fun d => if d < rank then signed 40 (nbits (dim d) 24 40) else 0 }

/-- Where a unit lies: the byte offset of its element, or of its MX block, from BASE, and its position there: a nibble of a
4-bit format, an element of a block. -/
structure UnitAt where
  off : Int
  pos : Nat
  deriving DecidableEq, Repr

/-- π of an offset of o elements (R308, R317): floors round towards minus infinity. -/
def piAt (fmt : Nat) (o : Int) : UnitAt :=
  if isMx fmt then ⟨(mxBytes fmt : Int) * (o / 32), (o % 32).toNat⟩
  else if elemBits fmt = 4 then ⟨o / 2, (o % 2).toNat⟩
  else ⟨o * (elemBits fmt / 8 : Nat), 0⟩

/-- The unit at index x of a tensor (R317, R318). -/
def Tensor.unit (t : Tensor) (x : List Int) : UnitAt :=
  if t.blocked then
    let n := x.getD 0 0
    let m := if t.rank = 1 then 0 else x.getD 1 0
    let kt : Nat := tileCols t.fmt t.r
    let nb : Nat := ceilDiv (t.sizes.getD 0 0) kt
    let tile := m / (t.r : Int) * nb + n / (kt : Int)
    let outer := (((x.zip t.strides).drop 2).map fun p => p.1 * p.2).foldl (· + ·) 0
    let u := piAt t.fmt (n % (kt : Int))
    ⟨u.off + 16384 * (tile + outer) + m % (t.r : Int) * (16384 / t.r : Nat), u.pos⟩
  else piAt t.fmt (((x.zip t.strides).map fun p => p.1 * p.2).foldl (· + ·) 0)

/-- Bytes that hold a unit: its element's, or its whole block's. -/
def unitBytes (fmt : Nat) : Nat := if isMx fmt then mxBytes fmt else if elemBits fmt = 4 then 1 else elemBits fmt / 8

/-- A unit's bits, and the scale byte of an MX block, from the bytes that hold it. -/
def unitGet (fmt pos : Nat) (bs : List Byte) : Nat × Nat :=
  if isMx fmt then (mxElem fmt pos bs, (bs.getD 0 0).toNat)
  else if elemBits fmt = 4 then (nbits (bs.getD 0 0).toNat (4 * pos) 4, 127)
  else (leNat bs, 127)

/-- The bytes that hold a unit with its bits replaced, and the scale byte of an MX block (R322). -/
def unitPut (fmt pos v scale : Nat) (bs : List Byte) : List Byte :=
  let b := elemBits fmt
  if isMx fmt then BitVec.ofNat 8 scale :: leBytes (4 * b) (setField (leNat (bs.drop 1)) (b * pos) b v)
  else if b = 4 then leBytes 1 (setField (leNat bs) (4 * pos) 4 v)
  else leBytes (b / 8) v

def State.unitRead (s : State) (c : Nat) (t : Tensor) (x : List Int) : (Nat × Nat) × State :=
  let u := t.unit x
  let r := s.dmReadAt c t.base u.off (unitBytes t.fmt)
  (unitGet t.fmt u.pos r.1, r.2)

def State.unitWrite (c : Nat) (t : Tensor) (x : List Int) (v scale : Nat) (s : State) : State :=
  let u := t.unit x
  s.dmWriteAt c t.base u.off (unitPut t.fmt u.pos v scale (s.dmPeek c t.base u.off (unitBytes t.fmt)))

/-! ### DTENS (R320 to R326) -/

structure TensMove where
  src : Tensor
  dst : Tensor
  idx : Nat
  istride : Int
  gdim : Nat
  gmode : Nat
  deriving DecidableEq, Repr

def tensMove (ws : List Word) : TensMove :=
  let w (i : Nat) : Word := ws.getD (32 + i) 0
  { src := tensorDesc (ws.take 16), dst := tensorDesc ((ws.drop 16).take 16)
    idx := (w 0).toNat + (w 1).toNat * 2 ^ 32, istride := (w 2).toInt, gdim := bits (w 3) 0 3
    gmode := if bits (w 3) 3 2 = 3 then 0 else bits (w 3) 3 2 }

/-- Sizes of the iteration space (R321). -/
def TensMove.space (m : TensMove) : List Nat := if m.gmode = 2 then m.src.sizes else m.dst.sizes

/-- The index vector of λ, dimension 0 fastest, of six dimensions. -/
def spaceIndex : List Nat → Nat → List Int
  | [], _ => []
  | n :: ns, l => ((l % n : Nat) : Int) :: spaceIndex ns (l / n)

/-- One unit of the move (R323, R326). -/
def State.tensUnit (c : Nat) (m : TensMove) (l : Nat) (s : State) : State :=
  if s.keeper.fstop then s
  else
    let x := takePad 0 6 (spaceIndex m.space l)
    let ix := if m.gmode = 0 then (some 0, s)
      else
        let r := s.dmReadAt c m.idx (4 * x.getD m.gdim 0 * m.istride) 4
        let j := signed 32 (leNat r.1)
        (if j < 0 then none else some j, r.2)
    let at' (j : Int) : List Int := updAt m.gdim (fun _ => j) x
    if m.gmode = 2 then
      match ix.1 with
      | none => ix.2.bump (ctrScat c)
      | some j =>
        let v := ix.2.unitRead c m.src x
        v.2.unitWrite c m.dst (at' j) v.1.1 v.1.2
    else
      match ix.1 with
      | none => ix.2.unitWrite c m.dst x 0 0
      | some j =>
        let v := ix.2.unitRead c m.src (if m.gmode = 1 then at' j else x)
        v.2.unitWrite c m.dst x v.1.1 v.1.2

/-- Units of a move. -/
def TensMove.total (m : TensMove) : Nat := m.space.foldl (· * ·) 1

/-- Units `i` to `i + n - 1` of a move, in ascending order of the iteration index. -/
def State.tensUnits (c : Nat) (m : TensMove) (i n : Nat) (s : State) : State :=
  s.forEach (List.range n) fun k t => t.tensUnit c m (i + k)

/-- The byte offsets that the iteration space spans on one side: from the lowest unit's first byte to beyond the highest unit's
last (R324). -/
def Tensor.span (t : Tensor) (space : List Nat) : Int × Int :=
  let far := space.map fun n => ((n - 1 : Nat) : Int)
  let reach (skip : Nat) (f : Int → Int) : Int :=
    (((far.zip t.strides).drop skip).map fun p => f (p.1 * p.2)).foldl (· + ·) 0
  if t.blocked then
    let n := far.getD 0 0
    let m := if t.rank = 1 then 0 else far.getD 1 0
    let u := ({ t with strides := [] } : Tensor).unit [n, m]
    (16384 * reach 2 (min 0), u.off + 16384 * reach 2 (max 0) + unitBytes t.fmt)
  else ((piAt t.fmt (reach 0 (min 0))).off, (piAt t.fmt (reach 0 (max 0))).off + unitBytes t.fmt)

/-- What the control core finds at a DTENS: its descriptor, the rows of the own slice that its sizes and strides reach, those of
the index tensor, every row where an indexed operand lies in the own slice, and the trap of R325 (R315, R324). -/
def State.dtensAt (s : State) (c row : Nat) (uses : List Nat) : OpPlan :=
  let ws := s.rowWords c row 48
  let m := tensMove ws
  let a := m.src.span m.space
  let b := m.dst.span m.space
  let last : Int := 4 * ((m.space.getD m.gdim 1 - 1 : Nat) : Int) * m.istride
  { unit := .dm, uses := uses, first := [(row, 1)], words := ws, trap := if 12287 < row then some 8 else none
    reads := (row, 1) :: (if m.total = 0 then [] else
      operandRows c m.src.base a.1 a.2 (m.gmode == 1) ++
        if m.gmode = 0 then [] else operandRows c m.idx (min 0 last) (max 0 last + 4) false)
    writes := if m.total = 0 then [] else operandRows c m.dst.base b.1 b.2 (m.gmode == 2) }

/-- The same, its descriptor row named by a scalar register. -/
def State.dtensPlan (s : State) (c sreg : Nat) : OpPlan := s.dtensAt c (s.sreg c sreg) [sreg]

/-- The DM goes on with a DTENS: `n` units, or all that are left. Answers what is left of it. -/
def State.dtensOn (c : Nat) (n : Option Nat) (f : Flight) (s : State) : Option Progress × State :=
  let m := tensMove f.words
  let k := stepsNow n m.total f.prog.done
  (if m.total ≤ f.prog.done + k then none else some { f.prog with done := f.prog.done + k }, s.tensUnits c m f.prog.done k)

/-- A DTENS reads the 512 bytes at device address `a` or a part of them as its source. -/
def State.tensReadsRow (s : State) (c : Nat) (m : TensMove) (a : Nat) : Bool :=
  (List.range m.total).any fun l =>
    let x := takePad 0 6 (spaceIndex m.space l)
    let j := signed 32 (leNat (s.dmPeek c m.idx (4 * x.getD m.gdim 0 * m.istride) 4))
    let u := m.src.unit (if m.gmode = 1 then updAt m.gdim (fun _ => j) x else x)
    match moveAddr m.src.base u.off with
    | some b => a < b + unitBytes m.src.fmt && b < a + 512
    | none => false

/-! ### Windows (R282, R284) -/

/-- What the control core finds at a WOPEN: the descriptor's two words, or a trap. -/
def State.wopenPlan (s : State) (c n sreg : Nat) : OpPlan :=
  let row := s.sreg c sreg
  let ws := s.rowWords c row 2
  { unit := .cc, uses := [sreg], first := [(row, 1)], words := ws, reads := [(row, 1)]
    trap := if 8 ≤ n || 12287 < row || !windowLegal (ws.getD 0 0) (ws.getD 1 0) then some 9 else none }

/-- The window opens, or is replaced, with LANDED zero. -/
def State.wopen (c n : Nat) (ws : List Word) (s : State) : State :=
  s.updCore c fun k => { k with windows := updAt n (fun _ => openWindow (ws.getD 0 0) (ws.getD 1 0)) k.windows }

def State.wclose (c n : Nat) (s : State) : State :=
  s.updCore c fun k => { k with windows := updAt n (fun x => { x with isOpen := false }) k.windows }

/-! ### Time reads and undefined opcodes -/

/-- CIN_NOW as the local copy of a die shows it: within 1 ns (R70). -/
def State.localTime (s : State) (d : Nat) : Nat := s.tb.now + (Config.localSkew d s.tb.now).val - 1

/-- The local copy of the core's die in scalar registers `sreg` (low word) and `sreg` + 1 (R71, notes/assumptions/36.md). -/
def State.timeRead (c sreg : Nat) (s : State) : State :=
  let t := s.localTime (c / 16)
  (s.setSreg c sreg (t % 2 ^ 32)).setSreg c (sreg + 1) (t / 2 ^ 32)

/-- Trap code of an opcode that names no instruction: the undefined ones of the VE and of the DM are their units' traps
(R194, R325), any other is ILLEGAL_OP (Table 16-3). -/
def opTrap (op : Nat) : Nat :=
  if (0x35 ≤ op ∧ op ≤ 0x37) ∨ (0x3C ≤ op ∧ op ≤ 0x3F) then 4 else if op = 0x42 ∨ op = 0x43 then 8 else 10

end Sys2Proof.Machine
end

