-- ==== Sys2Proof/Machine/Stamp.lean ====
section
/-! DEFINITION. Stamps: the per-element programs of the vector engine, and its look-up tables (07_vector_engine.md, R174 to
R182). -/

namespace Sys2Proof.Machine

open Sys2Proof

/-! ### Look-up tables (R178 to R180) -/

/-- fma(d, f, v) with the exact position f in the segment. -/
def lutSegment (vd : Word × Word) (f : FV) : FV := f32 (r32 (((f32 vd.2).mul f).add (f32 vd.1)))

/-- A fixed table's pair of a segment (notes/assumptions/35.md). -/
def fixedPair (b k : Nat) : Word × Word := tablePair b k (Config.lutPair b k)

/-- The exact fraction num / 2^den. -/
def fracFV (num den : Nat) : FV := .fin false num (-(den : Int))

/-- ±m × 2^e, m not 0, as its exponent q and the fraction of u = x / 2^q beyond 1: numerator over 2^den. -/
def normParts (m : Nat) (e : Int) : Int × Nat × Nat :=
  let l := Nat.log2 m
  (e + l, m - 2 ^ l, l)

/-- Segment and position in it for n segments over a fraction. -/
def segOf (n num den : Nat) : Nat × FV := (n * num / 2 ^ den, fracFV (n * num % 2 ^ den) den)

/-- T over one octave. -/
def octave (b num den : Nat) : FV :=
  let sg := segOf 256 num den
  lutSegment (fixedPair b sg.1) sg.2

/-- e^x (table 0). -/
def lutExp (x : Word) : Word :=
  match f32 (fmul x 0x3FB8AA3B) with
  | .nan => 0x7FC00000
  | .inf true => 0
  | .inf false => 0x7F800000
  | .fin s m e =>
    let y : FV := .fin s m e
    let n := y.toInt true
    if n < -400 then 0 else if 400 < n then 0x7F800000
    else
      match y.sub (.ofInt n) with
      | .fin _ m' e' => r32 ((octave 0 m' (-e').toNat).scale n)
      | _ => 0x7FC00000

/-- ln x (table 1). -/
def lutLn (x : Word) : Word :=
  match f32 x with
  | .nan => 0x7FC00000
  | .inf true => 0x7FC00000
  | .inf false => 0x7F800000
  | .fin s m e =>
    if m = 0 then 0xFF800000
    else if s then 0x7FC00000
    else
      let p := normParts m e
      fma (r32 (.ofInt p.1)) 0x3F317218 (r32 (octave 1 p.2.1 p.2.2))

/-- 1 / x (table 5). -/
def lutRecip (x : Word) : Word :=
  match f32 x with
  | .nan => 0x7FC00000
  | .inf s => r32 (.fin s 0 0)
  | .fin s m e =>
    if m = 0 then r32 (.inf s)
    else
      let p := normParts m e
      let t := (octave 5 p.2.1 p.2.2).scale (-p.1)
      r32 (if s then t.neg else t)

/-- 1 / √x (table 6): 128 segments on [1, 2) and 128 on [2, 4). -/
def lutRsqrt (x : Word) : Word :=
  match f32 x with
  | .nan => 0x7FC00000
  | .inf s => if s then 0x7FC00000 else 0
  | .fin s m e =>
    if m = 0 then r32 (.inf s)
    else if s then 0x7FC00000
    else
      let p := normParts m e
      let odd := p.1 % 2 = 1
      let sg := segOf 128 p.2.1 p.2.2
      r32 ((lutSegment (fixedPair 6 (sg.1 + (if odd then 128 else 0))) sg.2).scale (-(p.1 / 2)))

/-- A uniform table (R179). -/
def lutUniform (lo invstep below above : Word) (belowX aboveX : Bool) (pair : Nat → Word × Word) (x : Word) : Word :=
  if isNan x then 0x7FC00000
  else
    let p := fmul (fsub x lo) invstep
    if (f32 p).lt (f32 0) then (if belowX then x else below)
    else if !(f32 p).lt (f32 0x43800000) then (if aboveX then x else above)
    else
      let k := ((f32 p).toInt true).toNat
      let vd := pair k
      fma vd.2 (fsub p (r32 (.ofInt k))) vd.1

/-- A user table that nothing has loaded (R181). -/
def UserTable.init : UserTable := ⟨0, 0x3F800000, 0, 0, false, false, []⟩

/-- Table b at x. -/
def lut (tables : List (Nat × UserTable)) (b : Nat) (x : Word) : Word :=
  match b with
  | 0 => lutExp x
  | 1 => lutLn x
  | 2 => lutUniform 0xC1000000 0x41800000 0 0x3F800000 false false (fixedPair 2) x
  | 3 => lutUniform 0xC1000000 0x41800000 0xBF800000 0x3F800000 false false (fixedPair 3) x
  | 4 => lutUniform 0xC1000000 0x41800000 0 0 false true (fixedPair 4) x
  | 5 => lutRecip x
  | 6 => lutRsqrt x
  | _ =>
    let t := (((tables.find? fun p => p.1 == b - 8).map (·.2)).getD UserTable.init)
    lutUniform t.lo t.invstep t.below t.above t.belowX t.aboveX (fun k => t.pairs.getD k (0, 0)) x

/-! ### Stamp words (Table 7-5) -/

structure StampOp where
  op : Nat
  dst : Nat
  a : Nat
  b : Nat
  c : Nat
  sreg : Nat
  deriving DecidableEq, Repr

def stampOp (w : Word) : StampOp := ⟨bits w 0 6, bits w 6 3, bits w 9 5, bits w 14 5, bits w 19 5, bits w 24 6⟩

/-- Operations of a slot's words. -/
def stampOps (ws : List Word) : List StampOp := ((ws.drop 1).take (bits (ws.getD 0 0) 0 6)).map stampOp

def stampEmit (ws : List Word) : Nat := bits (ws.getD 0 0) 6 3
def stampPred (ws : List Word) : Nat := bits (ws.getD 0 0) 9 3

/-- Sources an operation reads; table B of LUT is not a source. -/
def StampOp.sources (o : StampOp) : List Nat :=
  if o.op = 4 ∨ o.op = 0xD ∨ o.op = 0x11 then [o.a, o.b, o.c]
  else if [0, 7, 8, 0xB, 0xC, 0x12, 0x13, 0x14].contains o.op then [o.a]
  else [o.a, o.b]

/-- The stamp reads a source. -/
def stampReads (src : Nat) (ws : List Word) : Bool := (stampOps ws).any fun o => o.sources.contains src

/-- Slots that an operation takes (Table 7-7), and a stamp's S of R169. -/
def StampOp.slots (o : StampOp) : Nat := if o.op = 9 ∨ o.op = 0xA then 4 else if o.op = 0x12 then 2 else 1
def stampSlots (ws : List Word) : Nat := sumBy StampOp.slots (stampOps ws)

/-- Scalar registers that a stamp reads through source 11. -/
def stampScalars (ws : List Word) : List Nat := ((stampOps ws).filter fun o => o.sources.contains 11).map (·.sreg)

/-- A stamp that VSLOAD refuses (R194). -/
def stampBad (ws : List Word) : Bool :=
  32 < bits (ws.getD 0 0) 0 6 ||
  (stampOps ws).any fun o =>
    0x20 < o.op || o.sources.any (fun x => 16 < x) || (o.op == 0x12 && (o.b == 7 || 11 < o.b))

/-! ### Running a stamp (R175, R176) -/

/-- What a stamp reads for one element. -/
structure StampEnv where
  x : Word
  y : Word
  z : Word
  i : Nat
  r : Nat
  sregs : List Word
  tables : List (Nat × UserTable)

def StampEnv.source (v : StampEnv) (t : List Word) (sreg src : Nat) : Word :=
  if src < 8 then t.getD src 0
  else
    match src with
    | 8 => v.x
    | 9 => v.y
    | 10 => v.z
    | 11 => v.sregs.getD sreg 0
    | 12 => BitVec.ofNat 32 v.i
    | 13 => BitVec.ofNat 32 v.r
    | 15 => 0x3F800000
    | 16 => 1
    | _ => 0

def boolWord (b : Bool) : Word := if b then 1 else 0

/-- The result of an operation (Table 7-7). -/
def stampResult (tables : List (Nat × UserTable)) (o : StampOp) (a b c : Word) : Word :=
  match o.op with
  | 0x00 => a
  | 0x01 => fadd a b
  | 0x02 => fsub a b
  | 0x03 => fmul a b
  | 0x04 => fma a b c
  | 0x05 => fmin a b
  | 0x06 => fmax a b
  | 0x07 => if isNan a then 0x7FC00000 else a &&& 0x7FFFFFFF
  | 0x08 => if isNan a then 0x7FC00000 else a ^^^ 0x80000000
  | 0x09 => fdiv a b
  | 0x0A => if (f32 b).isZero then 0 else fdiv a b
  | 0x0B => r32 ((f32 a).integral false)
  | 0x0C => r32 ((f32 a).integral true)
  | 0x0D => fmin (fmax a b) c
  | 0x0E => boolWord ((f32 a).lt (f32 b))
  | 0x0F => boolWord ((f32 a).lt (f32 b) || (f32 a).eq (f32 b))
  | 0x10 => boolWord ((f32 a).eq (f32 b))
  | 0x11 => if a = 0 then c else b
  | 0x12 => lut tables o.b a
  | 0x13 => match f32 a with
    | .nan => 0
    | .inf s => if s then 0x80000000 else 0x7FFFFFFF
    | x => satI32 (x.toInt false)
  | 0x14 => r32 (.ofInt a.toInt)
  | 0x15 => a + b
  | 0x16 => a - b
  | 0x17 => a * b
  | 0x18 => if b.toInt < a.toInt then b else a
  | 0x19 => if a.toInt < b.toInt then b else a
  | 0x1A => a &&& b
  | 0x1B => a ||| b
  | 0x1C => a ^^^ b
  | 0x1D => a <<< (b.toNat % 32)
  | 0x1E => a.sshiftRight (b.toNat % 32)
  | 0x1F => boolWord (a.toInt < b.toInt)
  | 0x20 => boolWord (a == b)
  | _ => 0

/-- The temporaries after a stamp, and its SDIV zero denominators. -/
def stampRun (v : StampEnv) (ws : List Word) : List Word × Nat :=
  (stampOps ws).foldl (fun acc o =>
    let src (n : Nat) : Word := v.source acc.1 o.sreg n
    let b := src o.b
    let zd := o.op == 0x0A && (f32 b).isZero
    (updAt o.dst (fun _ => stampResult v.tables o (src o.a) b (src o.c)) acc.1, acc.2 + (if zd then 1 else 0)))
    (List.replicate 8 0, 0)

/-- What a stamp emits for an element: EMIT, or X with no operations. -/
def stampOut (v : StampEnv) (ws : List Word) (t : List Word) : Word :=
  if bits (ws.getD 0 0) 0 6 = 0 then v.x else t.getD (stampEmit ws) 0

end Sys2Proof.Machine
end

