-- ==== Sys2Proof/Machine/Vector.lean ====
section
/-! DEFINITION. The vector engine: streaming instructions, compress, expand, permute, reductions, buffers and loads
(07_vector_engine.md, R166 to R194). -/

namespace Sys2Proof.Machine

open Sys2Proof

/-! ### Streaming instructions (Table 7-4) -/

structure VeOp where
  stamp : Nat
  n : Nat
  xloc : Nat
  yloc : Nat
  zloc : Nat
  mrow : Nat
  xfmt : Nat
  yfmt : Nat
  zfmt : Nat
  msrc : Nat
  mzero : Bool
  minv : Bool
  ybc : Bool
  rnd : Bool
  nosat : Bool
  reps : Nat
  rsreg : Nat
  sdst : Nat
  sden : Bool
  rop : Nat
  deriving DecidableEq, Repr

def veOp (w : BitVec 128) : VeOp :=
  { stamp := bits w 8 4, n := bits w 12 13 + 1, xloc := bits w 25 15, yloc := bits w 40 15, zloc := bits w 55 15
    mrow := bits w 70 14, xfmt := bits w 84 4, yfmt := bits w 88 4, zfmt := bits w 92 4, msrc := bits w 96 2
    mzero := w.getLsbD 98, minv := w.getLsbD 99, ybc := w.getLsbD 100, rnd := w.getLsbD 101, nosat := w.getLsbD 102
    reps := bits w 103 8 + 1, rsreg := bits w 111 6, sdst := bits w 117 6, sden := w.getLsbD 123, rop := bits w 124 3 }

/-- Formats of Table 7-1, and the bytes of an element. -/
def veFmt (f : Nat) : Bool := f ≤ 4 || f == 0xD || f == 0xE
def veSize (f : Nat) : Nat := elemBits f / 8

/-- A location (R167): a buffer or the slice, and a byte offset in it. -/
structure VeLoc where
  buf : Option Nat
  byte : Nat
  deriving DecidableEq, Repr

/-- Location `l` advanced by `rows` rows. -/
def veLoc (l rows : Nat) : VeLoc :=
  if nbits l 14 1 = 1 then ⟨some (nbits l 12 2), (nbits l 0 5 + rows) * 512⟩ else ⟨none, (nbits l 0 14 + rows) * 512⟩

/-- `n` bytes from a location stay in their buffer or in the slice. -/
def VeLoc.fits (l : VeLoc) (n : Nat) : Bool :=
  match l.buf with
  | some _ => l.byte + n ≤ 16384
  | none => l.byte + n ≤ 12288 * 512

/-- Two byte ranges meet. -/
def VeLoc.meets (a : VeLoc) (n : Nat) (b : VeLoc) (m : Nat) : Bool :=
  a.buf == b.buf && a.byte < b.byte + m && b.byte < a.byte + n

def State.veRead (s : State) (c : Nat) (l : VeLoc) (off n : Nat) : List Byte :=
  match l.buf with
  | some b => (((s.core c).bufs.getD b ([], false)).1).read (fun _ => 0) (l.byte + off) n
  | none => s.spmRead c (l.byte + off) n

/-- Bytes written; a buffer becomes live (R192). -/
def State.veWrite (c : Nat) (l : VeLoc) (off : Nat) (bs : List Byte) (s : State) : State :=
  match l.buf with
  | some b => s.updCore c fun k => { k with bufs := updAt b (fun x => (x.1.writeZ (l.byte + off) bs, true)) k.bufs }
  | none => s.spmWrite c (l.byte + off) bs

/-- An element widened (Table 7-1). -/
def veWiden (f v : Nat) : Word :=
  if f = 4 then BitVec.ofInt 32 (signed 8 (v % 256))
  else if f = 0xD ∨ f = 0xE then BitVec.ofNat 32 v
  else r32 (elemValue f v)

def State.veElem (s : State) (c : Nat) (l : VeLoc) (f i : Nat) : Word :=
  veWiden f (leNat (s.veRead c l (i * veSize f) (veSize f)))

/-- A row step of s[RSREG]: X, Y, Z and the mask are bytes 0 to 3; 0 with one repetition (R171). -/
def veStep (sregs : List Word) (v : VeOp) (k : Nat) : Nat :=
  if v.reps = 1 then 0 else bits (sregs.getD v.rsreg 0) (8 * k) 8

/-- The operands of one instruction: its stamp, its row steps, and the scalars captured at issue (R173). -/
structure VePlan where
  op : VeOp
  kind : VeKind
  words : List Word
  sx : Nat
  sy : Nat
  sz : Nat
  sm : Nat
  sregs : List Word

/-- Words of a stamp slot: slot 0, and one that nothing has loaded, has no operations and emits X. -/
def Core.stamp (k : Core) (slot : Nat) : List Word :=
  if slot = 0 then [0] else ((k.stamps.find? fun g => g.1 == slot).map (·.2)).getD [0]

/-- The stamp that an instruction issued now will use: loads run in VE issue order (R174). -/
def Core.stampSoon (k : Core) (slot : Nat) : List Word :=
  let loads := k.flights.filterMap fun f => match f.op with
    | .vsload n _ => if n = slot && f.issued then some f.words else none
    | _ => none
  loads.getLastD (k.stamp slot)

def vePlan (kind : VeKind) (v : VeOp) (words sregs : List Word) : VePlan :=
  { op := v, kind := kind, words := words, sx := veStep sregs v 0, sy := veStep sregs v 1
    sz := veStep sregs v 2, sm := veStep sregs v 3, sregs := sregs }

/-- Y is a stream: the index of VPERM, or source 9 of the stamp of VMAP and VRED. -/
def VePlan.readsY (p : VePlan) : Bool :=
  match p.kind with
  | .perm => true
  | .map => stampReads 9 p.words
  | .red => stampReads 9 p.words
  | _ => false

/-- Y holds the counts of VCPR and VXPN. -/
def VePlan.counts (p : VePlan) : Bool := p.kind == .cpr || p.kind == .xpn

def VePlan.masked (p : VePlan) : Bool := p.op.msrc == 1 || p.op.msrc == 3

def VePlan.x (p : VePlan) (r : Nat) : VeLoc := veLoc p.op.xloc (r * p.sx)
def VePlan.y (p : VePlan) (r : Nat) : VeLoc := veLoc p.op.yloc (if p.op.ybc || p.counts then 0 else r * p.sy)
def VePlan.z (p : VePlan) (r : Nat) : VeLoc := veLoc p.op.zloc (if p.kind == .red then 0 else r * p.sz)

def VePlan.xBytes (p : VePlan) : Nat := p.op.n * veSize p.op.xfmt
def VePlan.yBytes (p : VePlan) : Nat :=
  if p.counts then 4 * p.op.reps else (if p.op.ybc then p.op.reps else p.op.n) * veSize p.op.yfmt
def VePlan.zBytes (p : VePlan) : Nat := (if p.kind == .red then p.op.reps else p.op.n) * veSize p.op.zfmt

/-- ZFMT that a reduction writes (Table 7-11). -/
def redFmt (rop zfmt : Nat) : Bool :=
  if rop ≤ 2 then zfmt ≤ 3 || zfmt == 0xD else if rop ≤ 5 then zfmt == 4 || zfmt == 0xE else zfmt == 0xE

/-- The traps of R194 for a streaming instruction. -/
def VePlan.bad (p : VePlan) : Bool :=
  let v := p.op
  let rs := List.range v.reps
  !veFmt v.xfmt || !veFmt v.zfmt || (p.readsY && !veFmt v.yfmt) ||
  (p.kind == .red && !redFmt v.rop v.zfmt) ||
  (p.kind == .xpn && (v.msrc == 2 || v.msrc == 3)) ||
  (p.kind == .perm && (v.yfmt != 0xE || nbits v.xloc 14 1 == 0 ||
    rs.any fun r => rs.any fun q => (p.x r).meets p.xBytes (p.z q) p.zBytes)) ||
  rs.any fun r => !(p.x r).fits p.xBytes || !(p.z r).fits p.zBytes || ((p.readsY || p.counts) && !(p.y r).fits p.yBytes) ||
    (p.masked && 12288 * 512 < (v.mrow + r * p.sm) * 512 + ceilDiv v.n 8)

/-- The group width (R169). -/
def VePlan.group (p : VePlan) : Nat :=
  if veSize p.op.xfmt = 4 || (p.readsY && !p.op.ybc && veSize p.op.yfmt == 4) || (p.kind != .red && veSize p.op.zfmt == 4)
  then 128 else 256

/-- The old Z is read (R184): where inactive elements keep it, and by a stamp that names source 10. -/
def VePlan.readsZ (p : VePlan) : Bool :=
  stampReads 10 p.words ||
    (!p.op.mzero && (p.kind == .cpr || p.kind == .xpn || ((p.kind == .map || p.kind == .perm) && p.op.msrc != 0)))

/-- SPM rows of a location. -/
def VeLoc.rows (l : VeLoc) (n : Nat) : List (Nat × Nat) := if l.buf.isNone then [rowsOf l.byte n] else []

/-- The SPM rows that the instruction reads and that it writes over all repetitions (R172): one range for each stream, from its
lowest row to its highest (notes/assumptions/99.md). -/
def VePlan.reads (p : VePlan) : List (Nat × Nat) :=
  let rs := List.range p.op.reps
  hull (rs.flatMap fun r => (p.x r).rows p.xBytes) ++
  (if p.readsY then hull (rs.flatMap fun r => (p.y r).rows p.yBytes) else []) ++
  (if p.readsZ then hull (rs.flatMap fun r => (p.z r).rows p.zBytes) else []) ++
  (if p.masked then hull (rs.map fun r => (p.op.mrow + r * p.sm, ceilDiv p.op.n 4096)) else [])

def VePlan.writes (p : VePlan) : List (Nat × Nat) :=
  let rs := List.range p.op.reps
  hull (rs.flatMap fun r => (p.z r).rows p.zBytes) ++ (if p.counts then hull ((p.y 0).rows p.yBytes) else [])

/-! ### Pieces (R169, R193) -/

/-- Groups of one repetition, and of the whole instruction. -/
def VePlan.perRep (p : VePlan) : Nat := ceilDiv p.op.n p.group
def VePlan.total (p : VePlan) : Nat := p.op.reps * p.perRep

/-- Cycles of a group: c of R169, or the least a repetition takes where it has one group. -/
def VePlan.groupCycles (p : VePlan) : Nat :=
  let stream (use : Bool) (l : VeLoc) (f : Nat) : Nat := if use && l.buf.isNone then p.group * veSize f else 0
  let r := stream true (p.x 0) p.op.xfmt + stream (p.readsY && !p.op.ybc) (p.y 0) p.op.yfmt + stream p.readsZ (p.z 0) p.op.zfmt
  let w := stream (p.kind != .red) (p.z 0) p.op.zfmt
  let c := max (max 1 (ceilDiv (stampSlots p.words) 4)) (max (ceilDiv r 1024) (ceilDiv w 512))
  let m := if p.kind == .map || p.kind == .perm then 1 else 2
  if p.perRep * c < m then m else c

/-- Groups of a piece: 32 rows of output, or what 256 cycles hold. -/
def VePlan.piece (p : VePlan) : Nat :=
  let byRows := if p.kind == .red then 256 else 16384 / (p.group * veSize p.op.zfmt)
  max 1 (min (256 / p.groupCycles) byRows)

/-! ### One element -/

/-- Bit i of the mask stream of repetition r, with MINV (R183); true where the mask is not a condition. -/
def State.veMask (s : State) (c : Nat) (p : VePlan) (r i : Nat) : Bool :=
  if !p.masked then true
  else
    let b := (s.spmRead c ((p.op.mrow + r * p.sm) * 512 + i / 8) 1).getD 0 0
    b.getLsbD (i % 8) != p.op.minv

/-- An element evaluated (R175, R176, R183): whether it is active, what the stamp emits, and its zero denominators. The stamp runs
on every element, also where the mask leaves it inactive. The old Z element of a reduction is the one its repetition writes
(notes/assumptions/106.md). -/
def State.veEval (s : State) (c : Nat) (p : VePlan) (r i : Nat) (x : Word) : Bool × Word × Nat :=
  let y := if p.readsY then s.veElem c (p.y r) p.op.yfmt (if p.op.ybc then r else i) else 0
  let z := if stampReads 10 p.words then s.veElem c (p.z r) p.op.zfmt (if p.kind == .red then r else i) else 0
  let env : StampEnv := ⟨x, y, z, i, r, p.sregs, (s.core c).tables⟩
  let t := stampRun env p.words
  (s.veMask c p r i && (p.op.msrc < 2 || t.1.getD (stampPred p.words) 0 != 0), stampOut env p.words t.1, t.2)

/-- The X element of element i: its own, or for VPERM the indexed one (R187). -/
def State.veX (s : State) (c : Nat) (p : VePlan) (r i : Nat) : Word :=
  if p.kind == .perm then
    let j := (s.veElem c (p.y r) 0xE (if p.op.ybc then r else i)).toInt
    if 0 ≤ j ∧ j < p.op.n then s.veElem c (p.x r) p.op.xfmt j.toNat else 0
  else s.veElem c (p.x r) p.op.xfmt i

/-- Z element k of a repetition takes an emitted value in ZFMT (R177). -/
def State.vePut (c : Nat) (v : VeOp) (l : VeLoc) (k : Nat) (e : Word) (s : State) : State :=
  let at' := k * veSize v.zfmt
  if v.zfmt = 0xD ∨ v.zfmt = 0xE then s.veWrite c l at' (leBytes 4 e.toNat)
  else if v.zfmt = 4 then
    let n := max (-128) (min 127 e.toInt)
    (s.when (n != e.toInt) (·.bump (ctrVe c 1))).veWrite c l at' (leBytes 1 (unsigned 8 n))
  else
    let d := drawRnd v.rnd (s.core c).rng
    let r := narrowPlain v.zfmt d.1 v.nosat (f32 e)
    let s := s.updCore c fun k => { k with rng := d.2 }
    let s := s.when (r.2 == .sat) (·.bump (ctrVe c 1))
    let s := s.when (r.2 == .limit || r.2 == .special) (·.bump (ctrVe c 2))
    s.veWrite c l at' (leBytes (veSize v.zfmt) r.1)

/-- A zero of ZFMT at element k. -/
def State.veZero (c : Nat) (v : VeOp) (l : VeLoc) (k : Nat) (s : State) : State :=
  s.veWrite c l (k * veSize v.zfmt) (List.replicate (veSize v.zfmt) 0)

/-- The element indices of group g. -/
def VePlan.lanes (p : VePlan) (g : Nat) : List Nat :=
  (List.range (min p.group (p.op.n - g * p.group))).map fun k => g * p.group + k

/-- Every input of a group is read before any output is written (R172): the evaluated elements. -/
def State.veGroup (s : State) (c : Nat) (p : VePlan) (r g : Nat) : List (Nat × Bool × Word × Nat) :=
  (p.lanes g).map fun i => (i, s.veEval c p r i (s.veX c p r i))

/-- The zero denominators of a group are counted. -/
def State.veZdiv (c : Nat) (es : List (Nat × Bool × Word × Nat)) (s : State) : State :=
  let n := sumBy (fun e => e.2.2.2) es
  if n = 0 then s else s.count (ctrVe c 3) n

/-! ### VMAP and VPERM (R170, R184, R187) -/

/-- The outputs of a group: active elements, and zeros where MZERO asks for them. -/
def State.vePutAll (c : Nat) (p : VePlan) (r : Nat) (es : List (Nat × Bool × Word × Nat)) (s : State) : State :=
  s.forEach es fun e v =>
    if e.2.1 then v.vePut c p.op (p.z r) e.1 e.2.2.1
    else if p.op.mzero then v.veZero c p.op (p.z r) e.1 else v

def State.veMapGroup (c : Nat) (p : VePlan) (r g : Nat) (s : State) : State :=
  let es := s.veGroup c p r g
  (s.veZdiv c es).vePutAll c p r es

/-! ### VCPR and VXPN (R185, R186) -/

/-- The count of a repetition, written to element r of Y and, for the last repetition, to s[SDST] (R171, R173). -/
def State.veCount (c : Nat) (p : VePlan) (r k : Nat) (s : State) : State :=
  (s.veWrite c (p.y r) (4 * r) (leBytes 4 k)).when (p.op.sden && r + 1 == p.op.reps) fun t => t.setSreg c p.op.sdst k

/-- A group of a compress from position `pos` on; after a repetition's last group its tail and its count. -/
def State.veCompressGroup (c : Nat) (p : VePlan) (r g pos : Nat) (s : State) : Nat × State :=
  let es := s.veGroup c p r g
  let a := es.foldl (fun (a : Nat × State) e =>
    if e.2.1 then (a.1 + 1, a.2.vePut c p.op (p.z r) a.1 e.2.2.1) else a) (pos, s.veZdiv c es)
  (a.1, a.2.when (g + 1 == p.perRep) fun u =>
    (u.when p.op.mzero fun u =>
      u.forEach ((List.range p.op.n).filter fun i => a.1 ≤ i) fun i v => v.veZero c p.op (p.z r) i).veCount c p r a.1)

/-- The elements of a group of an expand, its X elements taken from position `pos` on. -/
def State.veExpandRead (s : State) (c : Nat) (p : VePlan) (r g pos : Nat) : Nat × List (Nat × Bool × Word × Nat) :=
  (p.lanes g).foldl (fun (a : Nat × List (Nat × Bool × Word × Nat)) i =>
    if s.veMask c p r i then (a.1 + 1, a.2 ++ [(i, s.veEval c p r i (s.veElem c (p.x r) p.op.xfmt a.1))])
    else (a.1, a.2 ++ [(i, false, 0, 0)])) (pos, [])

def State.veExpandGroup (c : Nat) (p : VePlan) (r g pos : Nat) (s : State) : Nat × State :=
  let es := s.veExpandRead c p r g pos
  (es.1, ((s.veZdiv c es.2).vePutAll c p r es.2).when (g + 1 == p.perRep) (State.veCount c p r es.1))

/-! ### VRED (R189, R190) -/

/-- One level of a tree of adjacent results. -/
def treeLevel {α : Type} (f : α → α → α) : List α → List α
  | x :: y :: xs => f x y :: treeLevel f xs
  | xs => xs

/-- A binary tree over at most 256 lanes. -/
def tree256 {α : Type} (f : α → α → α) (d : α) (xs : List α) : α :=
  let l := treeLevel f
  (l (l (l (l (l (l (l (l xs)))))))).headD d

/-- a is above b, −0 below +0; NaN is above nothing. -/
def argAbove (a b : Word) : Bool := (f32 b).lt (f32 a) || ((f32 a).eq (f32 b) && (f32 b).sign && !(f32 a).sign)

/-- The accumulator of a reduction: an FP32 value, an exact integer, or the best element with its index. -/
structure RedAcc where
  f : Word
  i : Int
  best : Option (Word × Nat)

def redIdentity (rop : Nat) : RedAcc :=
  ⟨if rop = 1 then 0xFF800000 else if rop = 2 then 0x7F800000 else 0,
   if rop = 4 then -(2 ^ 31) else if rop = 5 then 2 ^ 31 - 1 else 0, none⟩

/-- Two results combined; the first one lies at the lower lanes. -/
def redCombine (rop : Nat) (a b : RedAcc) : RedAcc :=
  match rop with
  | 0 => { a with f := fadd a.f b.f }
  | 1 => { a with f := fmax a.f b.f }
  | 2 => { a with f := fmin a.f b.f }
  | 3 => { a with i := a.i + b.i }
  | 4 => { a with i := max a.i b.i }
  | 5 => { a with i := min a.i b.i }
  | _ => { a with best := match a.best, b.best with
      | none, y => y
      | x, none => x
      | some x, some y =>
        if (if rop = 6 then argAbove y.1 x.1 else argAbove x.1 y.1) then some y else some x }

/-- The contribution of a lane. -/
def redLeaf (rop : Nat) (e : Nat × Bool × Word × Nat) : RedAcc :=
  if !e.2.1 then redIdentity rop
  else ⟨e.2.2.1, e.2.2.1.toInt, if isNan e.2.2.1 then none else some (e.2.2.1, e.1)⟩

/-- The 32 bits of a result, and whether an integer sum saturated. -/
def redResult (rop : Nat) (a : RedAcc) : Word × Bool :=
  if rop ≤ 2 then (a.f, false)
  else if rop ≤ 5 then (satI32 a.i, a.i < -(2 ^ 31) || 2 ^ 31 - 1 < a.i)
  else ((match a.best with
    | some b => BitVec.ofNat 32 b.2
    | none => BitVec.allOnes 32), false)

/-- The accumulator that a progress holds. -/
def Progress.red (p : Progress) : RedAcc := ⟨p.accF, p.accI, p.best⟩

/-- The result of a repetition, written to element r of Z and, for the last repetition, to s[SDST]. -/
def State.veRedEnd (c : Nat) (p : VePlan) (r : Nat) (a : RedAcc) (s : State) : State :=
  let w := redResult p.op.rop a
  ((s.when (w.2 && p.op.zfmt == 0xE) (·.bump (ctrVe c 1))).vePut c p.op (p.z r) r w.1).when
    (p.op.sden && r + 1 == p.op.reps) fun v => v.setSreg c p.op.sdst w.1.toNat

def State.veReduceGroup (c : Nat) (p : VePlan) (r g : Nat) (a : RedAcc) (s : State) : RedAcc × State :=
  let rop := p.op.rop
  let es := s.veGroup c p r g
  let leaves := takePad (redIdentity rop) p.group (es.map (redLeaf rop))
  let a := redCombine rop a (tree256 (redCombine rop) (redIdentity rop) leaves)
  (a, (s.veZdiv c es).when (g + 1 == p.perRep) (State.veRedEnd c p r a))

/-! ### The streaming instructions, group by group (R172) -/

/-- The next group of an instruction. -/
def State.veNext (c : Nat) (p : VePlan) (pr : Progress) (s : State) : Progress × State :=
  let r := pr.done / p.perRep
  let g := pr.done % p.perRep
  let pos := if g = 0 then 0 else pr.pos
  match p.kind with
  | .cpr =>
    let x := s.veCompressGroup c p r g pos
    ({ pr with done := pr.done + 1, pos := x.1 }, x.2)
  | .xpn =>
    let x := s.veExpandGroup c p r g pos
    ({ pr with done := pr.done + 1, pos := x.1 }, x.2)
  | .red =>
    let x := s.veReduceGroup c p r g (if g = 0 then redIdentity p.op.rop else pr.red)
    ({ pr with done := pr.done + 1, accF := x.1.f, accI := x.1.i, best := x.1.best }, x.2)
  | _ => ({ pr with done := pr.done + 1 }, s.veMapGroup c p r g)

/-- At most `n` more groups. -/
def State.veRun (c : Nat) (p : VePlan) : Nat → Progress → State → Progress × State
  | 0, pr, s => (pr, s)
  | n + 1, pr, s =>
    let x := s.veNext c p pr
    x.2.veRun c p n x.1

/-- The vector engine goes on with a streaming instruction: `n` pieces, or all that is left. Answers what is left of it. -/
def State.veOn (c : Nat) (n : Option Nat) (f : Flight) (kind : VeKind) (v : VeOp) (s : State) : Option Progress × State :=
  let p := vePlan kind v f.words f.sregs
  let left := p.total - f.prog.done
  let m := match n with
    | some k => min (k * p.piece) left
    | none => left
  let r := s.veRun c p m f.prog
  (if m = left then none else some r.1, r.2)

/-- What the control core finds at a streaming instruction: its stamp and the scalars captured, or the trap ILLEGAL_VE (R172,
R173, R194). -/
def State.streamPlan (s : State) (c : Nat) (kind : VeKind) (w : BitVec 128) : OpPlan :=
  let v := veOp w
  let k := s.core c
  let ws := k.stampSoon v.stamp
  let p := vePlan kind v ws k.sregs
  { unit := .ve, uses := (if v.reps = 1 then [] else [v.rsreg]) ++ stampScalars ws, sregs := k.sregs, words := ws
    trap := if p.bad then some 4 else none, reads := p.reads, writes := p.writes }

/-! ### Control instructions of the vector engine -/

/-- The head of the finished-tile queue moves into a buffer, which becomes live; on an empty queue the VE waits (R191). -/
def State.vqpopOn (c b : Nat) (s : State) : Option Progress × State :=
  match (s.core c).ftq with
  | [] => (some .start, s)
  | t :: rest => (none, s.updCore c fun k => { k with ftq := rest, bufs := updAt b (fun _ => (t, true)) k.bufs })

/-- What the control core finds at a VSLOAD: the slot's words, or a trap (R174, R194). -/
def State.vsloadPlan (s : State) (c slot sreg : Nat) : OpPlan :=
  let row := s.sreg c sreg
  let ws := s.rowWords c row 33
  { unit := .ve, uses := [sreg], first := [(row, 1)], words := ws.take (1 + bits (ws.getD 0 0) 0 6), reads := [(row, 1)]
    trap := if slot = 0 || 12287 < row then some 4 else if stampBad ws then some 5 else none }

/-- The slot takes the stamp. -/
def State.vsload (c slot : Nat) (ws : List Word) (s : State) : State :=
  s.updCore c fun k => { k with stamps := putKey slot ws k.stamps }

/-- A user table from the five rows of Table 7-9. -/
def userTable (row0 body : List Word) : UserTable :=
  { lo := row0.getD 0 0, invstep := row0.getD 1 0, below := row0.getD 2 0, above := row0.getD 3 0
    belowX := (row0.getD 4 0).getLsbD 0, aboveX := (row0.getD 4 0).getLsbD 1
    pairs := (List.range 256).map fun k => (body.getD (2 * k) 0, body.getD (2 * k + 1) 0) }

/-- A table that VTLOAD refuses (R182). -/
def UserTable.bad (t : UserTable) : Bool := !finite32 t.lo || !finite32 t.invstep || !(f32 0).lt (f32 t.invstep)

/-- What the control core finds at a VTLOAD: the words of the table's five rows, or the trap of R182. -/
def State.vtloadPlan (s : State) (c sreg : Nat) : OpPlan :=
  let row := s.sreg c sreg
  let ws := s.rowWords c row 5 ++ s.rowWords c (row + 1) 512
  { unit := .ve, uses := [sreg], first := [(row, 5)], words := ws, reads := [(row, 5)]
    trap := if 12283 < row || (userTable (ws.take 5) (ws.drop 5)).bad then some 4 else none }

/-- The user table takes its contents. -/
def State.vtload (c n : Nat) (ws : List Word) (s : State) : State :=
  s.updCore c fun k => { k with tables := putKey n (userTable (ws.take 5) (ws.drop 5)) k.tables }

/-- The buffers of a set are no longer live; they keep their contents (R192). -/
def State.vbrel (c set : Nat) (s : State) : State :=
  s.updCore c fun k => { k with bufs := ((List.range 4).zip k.bufs).map fun p =>
    (p.2.1, p.2.2 && nbits set p.1 1 == 0) }

end Sys2Proof.Machine
end

