-- ==== Sys2Proof/Machine/Issue.lean ====
section
/-! DEFINITION. How the control core issues the instructions of a tile program to the five engines, what holds an issue, and how
the engines go on (R22, R23, R173, R273, R275, R276, R283). -/

namespace Sys2Proof.Machine

open Sys2Proof

/-! ### Opcodes -/

/-- The instruction that bits [7:0] of a word select (R115, R140, R170, R209, R259, R282, R312, R315); 64-bit instructions lie in
the low half. -/
def coreOp (w : BitVec 128) (hostWritten : Bool := false) : CoreOp :=
  let v := w.setWidth 64
  let n (lo len : Nat) : Nat := bits w lo len
  match bits w 0 8 with
  | 0x20 => .mma w
  | 0x24 => .att v
  | 0x28 => .lscan v
  | 0x2C => .skx v
  | 0x2D => .skc v hostWritten
  | 0x30 => .stream .map w
  | 0x31 => .stream .red w
  | 0x32 => .stream .cpr w
  | 0x33 => .stream .xpn w
  | 0x34 => .stream .perm w
  | 0x38 => .vqpop (n 8 2)
  | 0x39 => .vsload (n 8 4) (n 12 6)
  | 0x3A => .vtload (n 8 2) (n 10 6)
  | 0x3B => .vbrel (n 8 4)
  | 0x40 => .dmov (n 8 6)
  | 0x41 => .dtens (n 8 6)
  | 0x44 => .wopen (n 8 4) (n 12 6)
  | 0x45 => .wclose (n 8 4)
  | op => .illegal (opTrap op)

/-- What the control core finds at an instruction. -/
def State.opPlan (s : State) (c : Nat) : CoreOp → OpPlan
  | .mma w => s.mmaPlan c w
  | .gpload slot row => s.gploadPlan c slot row
  | .lscan w => s.lscanPlan c w
  | .att w => s.attPlan c w
  | .stream kind w => s.streamPlan c kind w
  | .vqpop _ => { unit := .ve }
  | .vsload slot r => s.vsloadPlan c slot r
  | .vtload _ r => s.vtloadPlan c r
  | .vbrel _ => { unit := .ve }
  | .skx w => s.skxPlan c w
  | .skc w hostWritten => s.skcPlan c w hostWritten
  | .dmov r => s.dmovPlan c r
  | .dtens r => s.dtensPlan c r
  | .wopen n r => s.wopenPlan c n r
  | .wclose n => { unit := .cc, trap := if 8 ≤ n then some 9 else none }
  | .timeRead _ => { unit := .cc }
  | .illegal code => { unit := .cc, trap := some code }

/-! ### Holds -/

/-- The scalar register that an instruction of the VE writes when it completes (R173). -/
def CoreOp.sdst : CoreOp → Option Nat
  | .stream kind w =>
    let v := veOp w
    if v.sden && (kind == .red || kind == .cpr || kind == .xpn) then some v.sdst else none
  | _ => none

/-- Scalar registers with a write pending. -/
def Core.pendingScalars (k : Core) : List Nat := (k.flights.filter (·.issued)).filterMap (·.op.sdst)

def OpPlan.entries (p : OpPlan) : List SbEntry := declare p.unit p.reads p.writes

/-- The scoreboard or a waiting window holds the issue: on the rows that say what the instruction declares, and, where it does
not trap, on all that it declares (R275, R283). -/
def Core.rangesHold (k : Core) (p : OpPlan) : Bool :=
  let first := declare p.unit p.first []
  (first.any fun d => k.entries.any d.against) || k.windowHeld first ||
    (p.trap.isNone && (k.sbHeld p.entries || k.windowHeld p.entries))

/-- Bank separation holds it (R273). -/
def Core.banksHold (k : Core) (p : OpPlan) : Bool := p.trap.isNone && k.bankHeld p.entries

/-- The control core holds the issue. -/
def Core.holds (k : Core) (p : OpPlan) : Bool :=
  p.wait || p.uses.any k.pendingScalars.contains || k.rangesHold p || k.banksHold p

/-- The cycles of a hold are counted once: as many as the environment says, and one at least. -/
def State.countHold (c : Nat) (u : Upset) (p : OpPlan) (s : State) : State :=
  let k := s.core c
  if k.rangesHold p then s.count (ctrSpm c 0) (max 1 u.sbHold)
  else if k.banksHold p then s.count (ctrSpm c 1) (max 1 u.bankHold)
  else s

/-! ### Stalls and errors of an instruction -/

/-- Stall cycles of an instruction are counted, each where the instruction can meet it: those of the matrix engine (R125, R130 to
R132), the wait of a VQPOP (R191), the cycles a reverse scan yields (R159). -/
def State.opStalls (c : Nat) (op : CoreOp) (u : Upset) (s : State) : State :=
  match op with
  | .mma w =>
    let m := mmaOp w
    (((s.tally (ctrMe c 0) (if m.queue then u.xqStall else 0)).tally (ctrMe c 1) (if m.toFtq then u.ftqStall else 0)).tally
      (ctrMe c 2) (if m.dest = 3 then u.luqStall else 0)).tally (ctrMe c 3) u.gpWait
  | .vqpop _ => s.tally (ctrVe c 0) u.ftqStall
  | .lscan w => s.tally (ctrLu c 6) (if w.getLsbD 10 then u.revWait else 0)
  | _ => s

/-- The instruction reads the byte at a device address: rows of its own slice that it declares, ranges outside it, and what a
move reads. -/
def State.opReads (s : State) (c : Nat) (op : CoreOp) (p : OpPlan) (a : Nat) : Bool :=
  (ownSlice c a && p.reads.any fun r => r.1 ≤ nbits a 0 23 / 512 && nbits a 0 23 / 512 < r.1 + r.2) ||
  (p.ext.any fun r => r.1 ≤ a && a < r.1 + r.2) ||
  match op with
  | .dmov _ => (moveDesc p.words).reads a
  | .dtens _ => s.tensReadsRow c (tensMove p.words) (a / 512 * 512)
  | _ => false

/-- The errors that an instruction meets; VQPOP verifies every tile (R191, R300). -/
def State.opErrors (c : Nat) (op : CoreOp) (p : OpPlan) (u : Upset) (s : State) : State :=
  s.readErrors (some c) p.unit.code u (s.opReads c op p) (match op with
    | .vqpop _ => true
    | _ => false)

/-! ### Issue -/

/-- Flight i of a core. -/
def Core.putFlight (i : Nat) (f : Flight) (k : Core) : Core := { k with flights := updAt i (fun _ => f) k.flights }
def Core.dropFlight (i : Nat) (k : Core) : Core := { k with flights := k.flights.eraseIdx i }

/-- An instruction that has been taken up and not issued. -/
def newFlight (op : CoreOp) (u : Upset) : Flight := ⟨op, u, .cc, false, [], [], [], .start, false, true, false⟩

/-- The control core's own instructions, and the opening of a scan context, take effect at their issue. -/
def State.atIssue (c : Nat) (op : CoreOp) (p : OpPlan) (s : State) : State :=
  match op with
  | .gpload slot _ => s.gpload c slot p.words
  | .lscan w => s.lscanOpen c w p.words p.entries
  | .wopen n _ => s.wopen c n p.words
  | .wclose n => s.wclose c n
  | .timeRead r => s.timeRead c r
  | .mma w => s.updCore c fun k => { k with accShape := some (mmaOp w).shape }
  | _ => s

/-- The instruction has ended with its issue. -/
def CoreOp.atOnce : CoreOp → Bool
  | .gpload _ _ => true
  | .lscan _ => true
  | .wopen _ _ => true
  | .wclose _ => true
  | .timeRead _ => true
  | .illegal _ => true
  | _ => false

/-- Flight i is issued: its stalls and errors are counted, it traps, or it goes to its unit with what it captures and what it
declares (R141, R173, R209, R275). -/
def State.issue (c i : Nat) (f : Flight) (p : OpPlan) (s : State) : State :=
  match p.trap with
  | some code => s.trap c code
  | none =>
    let s := ((s.opStalls c f.op f.upset).corrected f.upset).opErrors c f.op p f.upset
    if s.keeper.fstop then s
    else
      let s := s.atIssue c f.op p
      s.updCore c (if f.op.atOnce then Core.dropFlight i else
        Core.putFlight i { f with unit := p.unit, issued := true, sregs := p.sregs, words := p.words, entries := p.entries })

/-- The first instruction that waits for its issue: the control core issues in program order. -/
def Core.nextIssue (k : Core) : Option (Nat × Flight) :=
  ((List.range k.flights.length).zip k.flights).find? fun x => !x.2.issued

/-- It is issued, if nothing holds it. -/
def State.issueNext (c : Nat) (s : State) : Option State :=
  match (s.core c).nextIssue with
  | none => none
  | some (i, f) =>
    let p := s.opPlan c f.op
    if (s.core c).holds p then none else some (s.issue c i f p)

/-! ### The engines go on -/

/-- The instruction can be cut between two of its pieces (R193, R223, R261, R325). -/
def CoreOp.cuttable : CoreOp → Bool
  | .att _ => true
  | .stream _ _ => true
  | .skx _ => true
  | .skc _ _ => true
  | .dmov _ => true
  | .dtens _ => true
  | _ => false

/-- A unit goes on with an issued instruction: `n` pieces, or all that it can do. Answers what is left of it, and none at its
end. -/
def State.opOn (c : Nat) (n : Option Nat) (f : Flight) (s : State) : Option Progress × State :=
  match f.op with
  | .mma w => s.mmaOn c f (mmaOp w)
  | .att w => s.attOn c n f (bits w 8 2)
  | .stream kind w => s.veOn c n f kind (veOp w)
  | .vqpop b => s.vqpopOn c b
  | .vsload slot _ => (none, s.vsload c slot f.words)
  | .vtload t _ => (none, s.vtload c t f.words)
  | .vbrel set => (none, s.vbrel c set)
  | .skx _ => s.skxOn c n f
  | .skc w _ => s.skcOn c (bits w 14 6) n f
  | .dmov _ => s.dmovOn c n f
  | .dtens _ => s.dtensOn c n f
  | _ => (none, s)

/-- The instructions that are first at their unit: each unit executes its own in issue order (R22). -/
def Core.heads (k : Core) : List (Nat × Flight) :=
  let fs := (List.range k.flights.length).zip k.flights
  fs.filter fun x => x.2.issued && !x.2.paused && !fs.any fun y => y.1 < x.1 && y.2.issued && y.2.unit == x.2.unit

/-- The first of these instructions that can go on does so; none where every one waits. -/
def State.advance (c : Nat) : List (Nat × Flight) → State → Option State
  | [], _ => none
  | (i, f) :: rest, s =>
    let n := if f.fresh && f.op.cuttable then f.upset.cut else none
    let r := s.opOn c n f
    match r.1 with
    | none => some (r.2.updCore c (Core.dropFlight i))
    | some p =>
      if n.isNone && p = f.prog then s.advance c rest
      else some (r.2.updCore c (Core.putFlight i { f with prog := p, fresh := false, paused := n.isSome }))

/-- A reverse scan can go on: the first in the order of issue (R159). -/
def Core.reverseReady (k : Core) : Bool :=
  match k.luReverse with
  | [] => false
  | (_, _, r) :: _ => !r.paused

/-- The core goes on until every instruction has ended or waits: the engines first, then a reverse scan, then the next issue. -/
def State.pump (c : Nat) : Nat → State → State
  | 0, s => s
  | n + 1, s =>
    if s.keeper.fstop then s
    else
      match s.advance c (s.core c).heads with
      | some t => t.pump c n
      | none =>
        if (s.core c).reverseReady then (s.luReverseOn c (2 ^ 40)).pump c n
        else
          match s.issueNext c with
          | some t => t.pump c n
          | none => s

/-- Steps enough for every queue of a core to run empty. -/
def pumpFuel : Nat := 10000

/-- What the environment has stopped runs on. -/
def Core.unpause (k : Core) : Core :=
  { k with
    flights := k.flights.map fun f => { f with paused := false }
    lu := k.lu.map (Option.map fun x => { x with rev := x.rev.map fun r => { r with paused := false } }) }

/-- Every instruction of the core goes on. -/
def State.settle (c : Nat) (s : State) : State := (s.updCore c Core.unpause).pump c pumpFuel

/-- A reverse scan that a command finds in flight has done only the entries the environment says. -/
def State.cutReverse (c : Nat) (op : CoreOp) (u : Upset) (s : State) : State :=
  match op, u.cut with
  | .lscan w, some n =>
    if w.getLsbD 10 && (s.core c).luReverse.length = 1 then
      (s.luReverseOn c n).updCore c fun k => { k with
        lu := k.lu.map (Option.map fun x => { x with rev := x.rev.map fun r => { r with paused := true } }) }
    else s
  | _, _ => s

/-- A new instruction meets what is in flight: it is issued beside it, or its hold is counted. -/
def State.meet (c : Nat) (s : State) : State :=
  match (s.core c).nextIssue with
  | none => s
  | some (i, f) =>
    let p := s.opPlan c f.op
    if (s.core c).holds p then
      if f.held then s else (s.countHold c f.upset p).updCore c (Core.putFlight i { f with held := true })
    else (s.issue c i f p).cutReverse c f.op f.upset

/-- Cores on which an instruction of a running job has not ended; a suspended job runs nothing (R369). -/
def State.busyCores (s : State) : List Nat :=
  (s.cores.filter fun k => !k.flights.isEmpty && (k.job.bind s.job?).any fun j => j.phase == .running).map (·.num)

/-- What waits on any core may have become free, because rows have landed or a window has closed: every core goes on, until a
whole round changes nothing. -/
def State.rounds : Nat → State → State
  | 0, s => s
  | n + 1, s =>
    let t := s.forEach s.busyCores fun c t => t.pump c pumpFuel
    if t.cores.map (·.flights) = s.cores.map (·.flights) then t else t.rounds n

def State.rouse (s : State) : State := s.rounds 160

/-- The tile program of a core comes to its next instruction: taken up behind those before it, issued or held; then the engines
go on, and with them what waits on other cores for rows of this one. -/
def State.instruct (c : Nat) (op : CoreOp) (u : Upset) (s : State) : State :=
  if !s.canIssue c then s
  else
    let s := (s.updCore c Core.unpause).updCore c fun k => { k with flights := k.flights ++ [newFlight op u] }
    ((s.meet c).pump c pumpFuel).rouse

end Sys2Proof.Machine
end

