-- ==== Sys2Proof/Machine/Instructions.lean ====
section
/-! DEFINITION. The instructions of a tile program, one meaning each: the word is decoded, taken up and issued or held (R22; 05 to
11, R71, R458). -/

namespace Sys2Proof.Machine

open Sys2Proof

/-- A 64-bit instruction, which the control core reads as the low half of its word. -/
def narrowOp (w : BitVec 64) (hostWritten : Bool := false) : CoreOp := coreOp (w.setWidth 128) hostWritten

/-- MMA (OPC 0x20): a tile operation of the matrix engine (R115 to R125). -/
def execMma (core : Nat) (w : BitVec 128) (u : Upset) (s : State) : Res := .next (s.instruct core (coreOp w) u)

/-- GPLOAD: a gate program slot loaded from a row (R128). -/
def execGpload (core slot row : Nat) (u : Upset) (s : State) : Res := .next (s.instruct core (.gpload slot row) u)

/-- LSCAN with DIR 0 (OPC 0x28): opens a forward scan context (R140, R144). -/
def execLscanForward (core : Nat) (w : BitVec 64) (u : Upset) (s : State) : Res := .next (s.instruct core (narrowOp w) u)

/-- LSCAN with DIR 1 (OPC 0x28): a reverse scan, which updates the adapters (R153 to R155). -/
def execLscanReverse (core : Nat) (w : BitVec 64) (u : Upset) (s : State) : Res := .next (s.instruct core (narrowOp w) u)

/-- ATT pass 0 (OPC 0x24): scores and their statistics (R209 to R216). -/
def execAttScore (core : Nat) (w : BitVec 64) (u : Upset) (s : State) : Res := .next (s.instruct core (narrowOp w) u)

/-- ATT pass 1: the value pass (R217 to R220). -/
def execAttValue (core : Nat) (w : BitVec 64) (u : Upset) (s : State) : Res := .next (s.instruct core (narrowOp w) u)

/-- ATT pass 2: the expansion of a latent page (R221). -/
def execAttExpand (core : Nat) (w : BitVec 64) (u : Upset) (s : State) : Res := .next (s.instruct core (narrowOp w) u)

/-- VMAP (OPC 0x30): a stamp on each active element (R184). -/
def execVmap (core : Nat) (w : BitVec 128) (u : Upset) (s : State) : Res := .next (s.instruct core (coreOp w) u)

/-- VRED (OPC 0x31): a reduction (R188 to R190). -/
def execVred (core : Nat) (w : BitVec 128) (u : Upset) (s : State) : Res := .next (s.instruct core (coreOp w) u)

/-- VCPR (OPC 0x32): compress, or a count (R185). -/
def execVcpr (core : Nat) (w : BitVec 128) (u : Upset) (s : State) : Res := .next (s.instruct core (coreOp w) u)

/-- VXPN (OPC 0x33): expand (R186). -/
def execVxpn (core : Nat) (w : BitVec 128) (u : Upset) (s : State) : Res := .next (s.instruct core (coreOp w) u)

/-- VPERM (OPC 0x34): permute (R187). -/
def execVperm (core : Nat) (w : BitVec 128) (u : Upset) (s : State) : Res := .next (s.instruct core (coreOp w) u)

/-- VQPOP (OPC 0x38): the oldest finished tile into a buffer (R191). -/
def execVqpop (core : Nat) (w : BitVec 64) (u : Upset) (s : State) : Res := .next (s.instruct core (narrowOp w) u)

/-- VSLOAD (OPC 0x39): a stamp slot (R174). -/
def execVsload (core : Nat) (w : BitVec 64) (u : Upset) (s : State) : Res := .next (s.instruct core (narrowOp w) u)

/-- VTLOAD (OPC 0x3A): a user look-up table (R181). -/
def execVtload (core : Nat) (w : BitVec 64) (u : Upset) (s : State) : Res := .next (s.instruct core (narrowOp w) u)

/-- VBREL (OPC 0x3B): buffers given up (R192). -/
def execVbrel (core : Nat) (w : BitVec 64) (u : Upset) (s : State) : Res := .next (s.instruct core (narrowOp w) u)

/-- SKX (OPC 0x2C): expands stored tiles (R256, R257). -/
def execSkx (core : Nat) (w : BitVec 64) (u : Upset) (s : State) : Res := .next (s.instruct core (narrowOp w) u)

/-- SKC (OPC 0x2D): codes raw tiles (R258, R259). `hostWritten` says that the tile program is one of host software (R245). -/
def execSkc (core : Nat) (w : BitVec 64) (hostWritten : Bool) (u : Upset) (s : State) : Res := .next (s.instruct core (narrowOp w hostWritten) u)

/-- DMOV (OPC 0x40): whole rows (R312 to R314). -/
def execDmov (core : Nat) (w : BitVec 64) (u : Upset) (s : State) : Res := .next (s.instruct core (narrowOp w) u)

/-- DTENS (OPC 0x41): a strided copy, gather or scatter of units (R315 to R326). -/
def execDtens (core : Nat) (w : BitVec 64) (u : Upset) (s : State) : Res := .next (s.instruct core (narrowOp w) u)

/-- WOPEN (OPC 0x44): a window opened or replaced, LANDED zero (R282). -/
def execWopen (core : Nat) (w : BitVec 64) (u : Upset) (s : State) : Res := .next (s.instruct core (narrowOp w) u)

/-- WCLOSE (OPC 0x45): a window closed (R282). -/
def execWclose (core : Nat) (w : BitVec 64) (u : Upset) (s : State) : Res := .next (s.instruct core (narrowOp w) u)

/-- TIME_READ: the local copy of the core's die into two scalar registers (R71, notes/assumptions/36.md). -/
def execTimeRead (core sreg : Nat) (s : State) : Res := .next (s.instruct core (.timeRead sreg) Upset.clean)

/-- An instruction whose opcode no chapter defines traps (R458, Table 16-3). -/
def execIllegalOp (core : Nat) (w : BitVec 64) (s : State) : Res :=
  .next (s.instruct core (.illegal (opTrap (bits w 0 8))) Upset.clean)

/-- TENSOR_MOVE (0x1C): the descriptor is copied into a row of the named core, and one DTENS runs there and ends (R334, R415,
R430). -/
def State.hostTensor (c row : Nat) (ds : List Byte) (u : Upset) (s : State) : State :=
  let s := s.spmWrite c (row * 512) ds
  let p := s.dtensAt c row []
  let s := (s.corrected u).opErrors c (.dtens 0) p u
  let m := tensMove p.words
  if s.keeper.fstop then s else (s.tensUnits c m 0 m.total).rouse

end Sys2Proof.Machine
end

