-- ==== Sys2Proof/Machine/Images.lean ====
section
/-! DEFINITION. Model images: header, tables, regions and the tests of a load (14_host_rings.md, Tables 14-8 and 14-9, R416;
04_audio_front_end.md, Table 4-3). -/

namespace Sys2Proof.Machine

open Sys2Proof

/-- The little-endian field of n bytes at byte o. -/
def field (bs : List Byte) (o n : Nat) : Nat := leNat ((bs.drop o).take n)

/-! ### AFE parameter blocks (Tables 4-3, 14-8) -/

def afeOfBytes (bs : List Byte) : AfeParams where
  rate := field bs 0 1
  bins := field bs 1 1
  nfft := field bs 2 1
  wshape := field bs 3 1
  wlen := field bs 4 2
  hop := field bs 6 2
  alpha := field bs 8 1
  opts := field bs 9 1 % 8
  loge := field bs 10 1
  oelem := field bs 11 1
  flow := field bs 12 2
  fhigh := field bs 14 2

/-- Model rate in Hz by its code. -/
def modelHz (code : Nat) : Nat :=
  if code = 1 then 8000 else if code = 2 then 16000 else if code = 3 then 24000 else if code = 4 then 32000 else 48000

/-- BINS and OELEM, which every block declares (R92). -/
def AfeParams.layoutOk (a : AfeParams) : Bool := a.bins ≤ 1 && (a.oelem == 0 || a.oelem == 1 || a.oelem == 0xD)

/-- The encodings of Table 14-8 for a block that declares a PCM front end. -/
def AfeParams.encOk (a : AfeParams) : Bool :=
  a.layoutOk && 1 ≤ a.rate && a.rate ≤ 5 && a.nfft ≤ 2 && a.wshape ≤ 3 && 20 ≤ a.wlen && a.wlen ≤ 128 && 10 ≤ a.hop &&
    a.hop ≤ 80 && a.loge ≤ 63

/-- The ranges of Table 4-3. -/
def AfeParams.ok (a : AfeParams) : Bool :=
  let hz := modelHz a.rate
  let hi := if a.fhigh = 0 then hz / 2 else a.fhigh
  a.encOk && a.hop ≤ a.wlen && a.wlen * hz ≤ 256 * 2 ^ a.nfft * 2000 && a.flow ≤ 1000 && a.flow + 1000 ≤ hi && hi ≤ hz / 2

/-! ### Image header (Table 14-9) -/

/-- Region j of an image: offset, length and entry count. -/
def imageRegion (hd : List Byte) (j : Nat) : Nat × Nat × Nat :=
  (field hd (160 + 16 * j) 8, field hd (168 + 16 * j) 4, field hd (172 + 16 * j) 4)

/-- The bytes of a region. -/
def regionBytes (img : List Byte) (j : Nat) : List Byte :=
  let r := imageRegion img j
  (img.drop r.1).take r.2.1

/-- A weight-table entry. -/
def weightEntry (e : List Byte) : List Nat :=
  [field e 0 8, field e 8 4, field e 12 1, field e 13 1 % 2, field e 14 2, field e 16 4, field e 20 4]

/-- Size of one entry of regions 1, 2, 4 and 5; regions 0 and 3 are read whole. -/
def regionUnit (j : Nat) : Nat := if j = 1 ∨ j = 2 then 32 else if j = 4 then 4 else if j = 5 then 256 else 0

/-- What the device keeps of an image. -/
def imageOf (img : List Byte) : ImageHdr :=
  let entries (j : Nat) : List (List Byte) := (pieces (regionUnit j) (imageRegion img j).2.2 (regionBytes img j)).take (imageRegion img j).2.2
  let nt := field img 8 1 + 1
  let ws := (entries 1).map weightEntry
  { layout := field img 4 4
    ntiles := nt
    inkinds := field img 9 1
    step := field img 12 4
    a0 := field img 16 4
    a1 := field img 20 4
    defcad := field img 24 1
    deflen := field img 26 2 + 1
    sect := wordsOf ((img.drop 32).take 64)
    afe := afeOfBytes ((img.drop 96).take 64)
    init := takePad 0 (nt * 16384) (regionBytes img 3)
    program := regionBytes img 0
    weights := ws
    layers := entries 2
    tokens := wordsOf ((regionBytes img 4).take (4 * (imageRegion img 4).2.2))
    bytes := sumBy (fun w : List Nat => w.getD 1 0) ws
    digest := Config.shake256 img 64 }

/-- The sections overlap or exceed NTILEM1, or a section's fields lie outside Table 12-3 (R416). -/
def sectionsBad (nt : Nat) (sect : List Word) : Bool :=
  let used := sect.filter fun w => bits w 16 4 != 0
  let first (w : Word) : Nat := bits w 0 8
  let n (w : Word) : Nat := bits w 8 8
  used.any (fun w => 4 < bits w 16 4 || first w == 0 || n w == 0 || nt < first w + n w) ||
    (List.range used.length).any fun i => (List.range i).any fun j =>
      let a := used.getD i 0
      let b := used.getD j 0
      first a < first b + n b && first b < first a + n a

/-- Formats of Table 11-1. -/
def formatOk (f : Nat) : Bool := f ≤ 0xE

/-- A field of a layer-table entry lies outside its range (R416): KIND; MODE and OFMT of a recurrent entry (Table 6-3); DSEL, the
page format, RKL, HROT and under ROT the base of an attention entry (Tables 8-1, 8-7; notes/assumptions/127.md). -/
def layerBad (l : List Byte) : Bool :=
  let b (i : Nat) : Nat := field l i 1
  let fmt := b 4 % 16
  if b 0 = 1 then 1 < nbits (b 1) 0 2 || 3 < nbits (b 1) 2 4
  else if b 0 = 2 ∨ b 0 = 3 then
    2 < b 1 || (if b 5 = 0xFF then !pageOk 0 fmt (b 1) else !pageOk 2 fmt (b 5)) || 32 * 2 ^ b 1 < b 7 ||
      ((b 6).testBit 2 && (isMx fmt || !finite32 (BitVec.ofNat 32 (field l 8 4)) ||
        !(f32 0x3F800000).lt (f32 (BitVec.ofNat 32 (field l 8 4)))))
  else true

/-- The values of R416 that refuse a load of `len` bytes; region 5, and a weight's index into it, count where shard records are
honoured. -/
def imageBad (img : List Byte) (len : Nat) (shards : Bool) : Bool :=
  let h := imageOf img
  let regions := (List.range 6).filter fun j => j != 5 || shards
  field img 0 4 != 1 || len < 256 ||
    regions.any (fun j => let r := imageRegion img j
      len < r.1 + r.2.1 || r.2.1 < r.2.2 * regionUnit j) ||
    sectionsBad h.ntiles h.sect || 16 ≤ h.inkinds || h.step == 0 || h.defcad == 0 || 16 < h.defcad || 4096 < h.deflen ||
    (if h.afe.rate = 0 then !h.afe.layoutOk else !h.afe.encOk) ||
    h.weights.any (fun w => !formatOk (w.getD 2 0) || len < w.getD 0 0 + w.getD 1 0 ||
      (shards && (imageRegion img 5).2.2 < w.getD 4 0)) ||
    h.layers.any layerBad

/-! ### Control levels -/

/-- Region 5 is honoured from a PF, or from a VF whose partition is under expert control (R416): a partition with a pinned core
region, core set or weight pin is (notes/assumptions/25.md). -/
def State.expertPart (s : State) (p : Nat) : Bool :=
  s.partFunc p == 0 || s.work.groups.any (fun g => g.part == p && g.corePin) ||
    s.work.slots.any (fun m => m.part == p && m.pin.isSome) ||
    (coreList (s.partCores p)).any fun c => (s.core c).rgnPins.any id

end Sys2Proof.Machine
end

