-- ==== Sys2Proof/Machine/Shards.lean ====
section
/-! DEFINITION. Shard records: which part of a tensor each holder has, and the records that the device refuses
(11_tensor_layout.md, R330 to R333). -/

namespace Sys2Proof.Machine

open Sys2Proof

/-- How a dimension is split (AXIS of Table 11-7). -/
inductive Axis where
  | none | core | device | both
  deriving DecidableEq, Repr

/-- A dimension of a shard record: its global size, its axis and its grain. -/
structure ShardDim where
  size : Nat
  axis : Axis
  grain : Nat
  deriving DecidableEq, Repr

/-- A shard record in its fields (R330). -/
structure ShardRec where
  dims : List ShardDim
  /-- The core axis, in order. -/
  cores : List Nat
  /-- The rank field names more dimensions than the record holds. -/
  badRank : Bool
  deriving DecidableEq, Repr

def axisOf (v : Nat) : Axis := if v = 0 then .none else if v = 1 then .core else if v = 2 then .device else .both

/-- The record of 256 bytes. -/
def shardRec (r : List Byte) : ShardRec :=
  let rank := field r 0 4 % 8 + 1
  { dims := (List.range (min 6 rank)).map fun d =>
      let v := field r (8 + 8 * d) 8
      ⟨nbits v 0 32, axisOf (nbits v 32 2), nbits v 34 16⟩
    cores := (List.range (field r 0 4 / 8 % 256 + 1)).map fun p => (r.getD (64 + p) 0).toNat
    badRank := 6 < rank }

/-- Parts of a dimension: the cores of the core axis, the devices of the pair, or both (R331). -/
def Axis.parts (a : Axis) (cores devices : Nat) : Nat :=
  match a with
  | .none => 1
  | .core => cores
  | .device => devices
  | .both => devices * cores

/-- First grain of part p of P, of a dimension with Γ grains: ⌊pΓ / P⌋. -/
def firstGrain (parts grains p : Nat) : Nat := p * grains / parts

/-- The global indices lo to hi − 1 of part p of P of a dimension of size S with grain G (R331); a part may be empty. -/
def partRange (size grain parts p : Nat) : Nat × Nat :=
  let grains := ceilDiv size grain
  (grain * firstGrain parts grains p, min size (grain * firstGrain parts grains (p + 1)))

/-- Global index of local index i of part p (R331). -/
def globalIndex (size grain parts p i : Nat) : Nat := (partRange size grain parts p).1 + i

/-- The part that the holder at position `core` of the core axis on device `device` has of a dimension: the whole of it where its
axis splits nothing (R331). -/
def ShardDim.partOf (d : ShardDim) (cores device core : Nat) : Nat :=
  match d.axis with
  | .none => 0
  | .core => core
  | .device => device
  | .both => device * cores + core

/-- The global range, of each dimension, of the shard of a holder (R331). -/
def ShardRec.shard (r : ShardRec) (devices device core : Nat) : List (Nat × Nat) :=
  r.dims.map fun d =>
    let n := r.cores.length
    partRange d.size d.grain (d.axis.parts n devices) (d.partOf n device core)

/-- Dimensions that an axis splits. -/
def ShardRec.splits (r : ShardRec) (a : Axis) : Nat := (r.dims.filter fun d => d.axis == a || d.axis == .both).length

/-- A shard record that the device refuses (R332), or with a field outside Table 11-7 (notes/assumptions/125.md). -/
def ShardRec.bad (cores : CoreSet) (r : ShardRec) : Bool :=
  r.badRank || 160 < r.cores.length || 1 < r.splits .core || 1 < r.splits .device ||
    r.cores.eraseDups.length != r.cores.length || r.cores.any (fun c => !(c < 160 && cores.getLsbD c)) ||
    r.dims.any fun d => d.grain == 0

def shardBad (cores : CoreSet) (r : List Byte) : Bool := (shardRec r).bad cores

/-- Grain of the output columns of a weight matrix that the Saddler splits itself (R333). -/
def columnGrain : Nat := 128

/-- The columns of a weight matrix of `cols` output columns that each core of a list has (R333). -/
def columnShards (cols : Nat) (cores : List Nat) : List (Nat × Nat × Nat) :=
  cores.zipIdx.map fun c => (c.1, partRange cols columnGrain cores.length c.2)

end Sys2Proof.Machine
end

