-- ==== Sys2Proof/Machine/Placement.lean ====
section
/-! DEFINITION. Where the Saddler places groups, copies of weights and records: predicted runs, launch points, dies and cores
(02_streams_and_beats.md, R44, R55 to R58, R575; 03, R81; 10, R288; 13, R364 to R367, R372, R373, R376, R382 to R384). -/

namespace Sys2Proof.Machine

open Sys2Proof

/-! ### Cycles and nanoseconds (R81, R505, R565) -/

/-- f_min of a die in units of 10^-9 cycles per ns: 1.4 GHz × (1 − s), and × (1 − 10^-5) while REFM_HOLD is set. -/
def State.fminDie (s : State) (d : Nat) : Nat :=
  14 * (1000 - nbits (s.reg (0xC0080 + 4 * d)) 0 4) * (if s.power.refmHold then 99999 else 100000)

/-- Dies of a core set, rising. -/
def coreDies (cs : CoreSet) : List Nat := ((coreList cs).map (· / 16)).eraseDups

/-- The least f_min of the dies of a core set. -/
def State.fmin (s : State) (cs : CoreSet) : Nat := ((coreDies cs).map s.fminDie).foldl min (s.fminDie ((coreDies cs).headD 0))

/-- ⌊T × f_min⌋ cycles of T ns. -/
def cyclesOf (f t : Nat) : Nat := t * f / 1000000000

/-- ⌈C / f_min⌉ ns of `c256` / 256 cycles. -/
def nsOf (f c256 : Nat) : Nat := ceilDiv (c256 * 1000000000) (256 * f)

/-! ### Priorities (R366, R367) -/

def Job.eff (j : Job) : Nat := min 3 (j.base + j.age)

/-- Group number of a launch job. -/
def Job.grp? (j : Job) : Option Nat :=
  match j.kind with
  | .launch g => some g
  | _ => none

/-- Two core sets share a core. -/
def coresMeet (a b : CoreSet) : Bool := a &&& b != 0

/-! ### Costs and predicted runs (R372, R373, R381) -/

/-- a0 and the a1 of n cores that a group uses: those host software has set, else the declared ones (R372, R381). -/
def groupCost (h : ImageHdr) (costs : Option (Nat × Nat)) (n : Nat) : Nat × Nat :=
  let c := costs.getD (h.a0, h.a1)
  (c.1, c.2 * 16 / max 1 n)

def State.groupCosts (s : State) (g : Group) : Nat × Nat :=
  match s.slot? g.model with
  | some m => groupCost m.hdr g.costs (coreList g.cores).length
  | none => (0, 0)

/-- The history takes the scaled a1 (R372). -/
def State.seedHist (n : Nat) (s : State) : State :=
  match s.group? n with
  | some g => let c := s.groupCosts g
    s.updGroup n fun g => { g with hist := min c.2 all32 }
  | none => s

/-- Predicted ns of a run of `rows` rows of `len` steps on a group's cores (R373). -/
def State.runNs (s : State) (g : Group) (rows len : Nat) : Nat :=
  nsOf (s.fmin g.cores) ((s.groupCosts g).1 * 256 + g.hist * rows * len)

/-- The longest chunk that rows of these streams may have. -/
def longest (xs : List Stream) : Nat := xs.foldl (fun n x => max n x.maxLen) 1

/-- Predicted ns of a full launch of a group. -/
def State.fullRun (s : State) (g : Group) : Nat :=
  let xs := s.launchers g
  s.runNs g (max 1 xs.length) (longest xs)

/-- A stream's deadline margin in µs (R373, R380, R381). -/
def State.marginOf (s : State) (x : Stream) : Nat := x.margin.getD (s.reg 0x3001C)

/-- A row is on time. -/
def State.onTime (s : State) (x : Stream) (t finish : Nat) : Bool :=
  finish + s.marginOf x * 1000 ≤ t + x.budget * 1000

/-! ### Launch points (R32, R34, R44) -/

/-- Two launch points that fall on one tick of some beat: equal slots, and offsets that agree modulo both cadences. -/
def sameTick (k1 o1 s1 k2 o2 s2 : Nat) : Bool := s1 == s2 && o1 % Nat.gcd k1 k2 == o2 % Nat.gcd k1 k2

/-- Cores that groups use at a tick of this cadence, offset and slot (R44), groups of the numbers `but` apart. -/
def State.tickCores (s : State) (but : List Nat) (k o sl : Nat) : CoreSet :=
  (s.work.groups.filter fun g => !but.contains g.num && sameTick k o sl g.cadence g.offset g.slot).foldl
    (fun m g => m ||| g.cores) 0

/-- ns from a beat's start to a slot's tick (R32). -/
def State.slotNs (s : State) (sl : Nat) : Nat := sl * s.period / 64

/-- ns from the start of beat 0 to a launch point's first tick. -/
def State.pointNs (s : State) (o sl : Nat) : Nat := o * s.period + s.slotNs sl

/-- Runs of r1 ns from t1 at every k1-th beat and of r2 ns from t2 at every k2-th meet in some beats of period p. -/
def runsMeet (p k1 t1 r1 k2 t2 r2 : Nat) : Bool :=
  let d := Nat.gcd k1 k2 * p
  let x := (((t2 : Int) - t1) % d).toNat
  x == 0 || x < r1 || d - x < r2

/-- Pins of a stream that hold its group in place. -/
def Pins.placed (p : Pins) : Bool := p.offset.isSome || p.slot.isSome || p.group.isSome || p.cores.isSome

/-- A group that a pin of its own or of a member holds in place: it counts neither towards R56 nor towards R383 (R57, R384). -/
def State.pinnedPlace (s : State) (g : Group) : Bool := g.corePin || (s.launchers g).any fun x => x.pins.placed

/-- Groups that the Saddler spreads (R56). -/
def State.spread (s : State) : List Group := s.work.groups.filter fun g => g.companionOf.isNone && !s.pinnedPlace g

/-! ### Copies of weights (R288, R333, R364) -/

/-- Bytes of partition p's model area in use: every copy counts, and a slot that loads counts one (R364). -/
def State.modelUsed (s : State) (p : Nat) : Nat :=
  sumBy (fun m : ModelSlot => if m.part == p then m.hdr.bytes * max 1 m.copies.length else 0) s.work.slots

/-- n more bytes fit in the model area. -/
def State.modelRoom (s : State) (p n : Nat) : Bool := s.modelUsed p + n ≤ s.partModelMib p * 2 ^ 20

/-- A copy lies whole on die d. -/
def WeightCopy.wholeOn (c : WeightCopy) (d : Nat) : Bool := c.split.isNone && c.pieces.any fun q => q.1 == d

/-- Cores of a set find the weights on their own dies: a copy on the one die, the split form over several, or a whole copy on each
(R288, R364). -/
def ModelSlot.servesCores (m : ModelSlot) (cs : CoreSet) : Bool :=
  (coreDies cs).all (fun d => m.copies.any (·.wholeOn d)) || m.copies.any fun c => c.split == some cs

/-- The model area has the copy that a group on these cores needs, or holds it (R364). -/
def State.copiesFit (s : State) (slot : Nat) (cs : CoreSet) : Bool :=
  match s.slot? slot with
  | none => true
  | some m => m.servesCores cs || s.modelRoom m.part m.hdr.bytes

/-- The bytes of a run of weights that die d holds of a copy for a core set: the whole run on one die; over several, the columns of
its cores, split with a grain of 128, column j at byte j × w, each core's columns from a row boundary (R288, R311, R333). -/
def dieRun (w : List Nat) (raw : List Byte) (cs : CoreSet) (d : Nat) : List Byte :=
  if (coreDies cs).length ≤ 1 then padTo 512 raw
  else
    let col := w.getD 6 0
    ((columnShards (w.getD 5 0) (coreList cs)).filter fun q => q.1 / 16 == d).flatMap fun q =>
      padTo 512 ((raw.drop (q.2.1 * col)).take ((q.2.2 - q.2.1) * col))

/-- A run in its stored form: coded where the model declares it coded, with the table names of its blocks (Table 9-8, R249, R263). -/
def State.storeRun (m : ModelSlot) (w : List Nat) (raw : List Byte) (s : State) : (List Byte × List (Nat × Nat)) × State :=
  if w.getD 3 0 != 1 then ((raw, []), s)
  else
    let fmt := w.getD 2 0
    let tiles := (pieces 16384 (raw.length / 16384 + 1) raw).map (padTo 16384)
    let ch := s.chooseCoding m.part m.num clsWeights (some fmt)
    let r := ch.2.codeTiles m.part (fmtEw fmt) ch.1 tiles
    ((r.1.flatMap fun t => t.bytes, r.1.flatMap fun t => tileNames t.bytes), r.2)

/-- The part of a copy that die d holds, run after run. -/
def State.storePart (m : ModelSlot) (cs : CoreSet) (d : Nat) (s : State) : (List Byte × List (Nat × Nat)) × State :=
  m.hdr.weights.foldl (fun (a : (List Byte × List (Nat × Nat)) × State) w =>
    let raw := (m.image.drop (w.getD 0 0)).take (w.getD 1 0)
    let r := a.2.storeRun m w (dieRun w raw cs d)
    ((a.1.1 ++ r.1.1, a.1.2 ++ r.1.2), r.2)) (([], []), s)

/-- The parts of a copy are written into the pools of their dies: their places and the names they hold; none where a die has no such
place. -/
def State.storeParts (m : ModelSlot) (cs : CoreSet) : List Nat → State → Option ((List (Nat × Nat × Nat) × List (Nat × Nat)) × State)
  | [], s => some (([], []), s)
  | d :: rest, s =>
    let r := s.storePart m cs d
    match r.2.freeSpot d r.1.1.length with
    | none => none
    | some o =>
      (State.storeParts m cs rest (r.2.dieWrite d o r.1.1)).map fun t =>
        (((d, o, r.1.1.length) :: t.1.1, r.1.2 ++ t.1.2), t.2)

/-- A copy for a core set is placed: whole on the one die, split over several; its names count (R249, R288, R364). -/
def State.addCopy (m : ModelSlot) (cs : CoreSet) (s : State) : Option State :=
  let ds := coreDies cs
  (State.storeParts m cs ds s).map fun r =>
    (r.2.updSlot m.num fun y =>
      { y with copies := y.copies ++ [⟨if ds.length ≤ 1 then none else some cs, r.1.1⟩], names := y.names ++ r.1.2 }).addNames m.part r.1.2

/-- The copy that a core set needs is placed, while the model area holds it (R364). -/
def State.placeCopies (slot : Nat) (cs : CoreSet) (s : State) : State :=
  match s.slot? slot with
  | none => s
  | some m =>
    if m.state != .ready || cs == 0 || m.servesCores cs || !s.modelRoom m.part m.hdr.bytes then s
    else (s.addCopy m cs).getD s

/-! ### What is to be placed -/

/-- What the Saddler needs to know to place a group: its model and cadence, the stream that it begins with, and what binds it. -/
structure Want where
  model : Nat
  part : Nat
  cad : Nat
  /-- Steps of a chunk, and the budget less the margin in ns. -/
  len : Nat
  room : Nat
  /-- Tiles of a record that takes a home on a die of the group, AFE units, and bytes of an input area; 0 where none is needed. -/
  tiles : Nat
  units : Nat
  input : Nat
  pins : Pins
  source : Option Nat
  /-- Cores that the group does not take, and groups that count as gone. -/
  avoid : CoreSet
  gone : List Nat
  deriving DecidableEq, Repr

/-- Unit ceiling of a die (Table 4-6). -/
def afeDieCap : Nat := 0x1400

/-- A die has room for the units of a stream (R102). -/
def State.unitsRoom (s : State) (d u : Nat) : Bool := s.afeUsedDie d + u ≤ afeDieCap

/-- The input area of a stream: free rows of the first core of a set whose die has room for its units (R95, R102, R104). -/
def State.inputPlace (s : State) (cs : CoreSet) (units bytes tiles : Nat) : Option Nat :=
  if bytes = 0 then some 0
  else ((coreList cs).filter fun c => s.unitsRoom (c / 16) units).findSome? fun c => s.inputSpot c bytes (32 * tiles)

/-- A core set can take what is to be placed: a home, units with an input area, and the copy of the weights. -/
def State.hosts (s : State) (w : Want) (cs : CoreSet) : Bool :=
  (w.tiles = 0 || (coreDies cs).any fun d => s.homeRoom w.part d w.tiles && (s.freeSpot d (w.tiles * 16384)).isSome) &&
    (s.inputPlace cs w.units w.input w.tiles).isSome && s.copiesFit w.model cs

/-- The group that stands for what is to be placed. -/
def State.wantGroup (s : State) (w : Want) (num prio : Nat) (cs : CoreSet) (o sl : Nat) : Group :=
  let g : Group :=
    { num := num, model := w.model, part := w.part, prio := prio, cadence := w.cad, offset := o, slot := sl, cores := cs
      corePin := w.pins.cores.isSome, nextCores := none, companionOf := none, costs := none, hist := 0 }
  { g with hist := min (s.groupCosts g).2 all32 }

/-- Predicted ns of its first run on a core set. -/
def State.wantRun (s : State) (w : Want) (cs : CoreSet) : Nat := s.runNs (s.wantGroup w 0 0 cs 0 0) 1 w.len

/-! ### The choice of a launch point (R56, R575) -/

/-- Cadence and offset of a source's group, and the predicted end of its chunk after the start of its beat. -/
def State.sourceEnd (s : State) (src : Nat) : Option (Nat × Nat × Nat) :=
  ((s.stream? src).bind fun x => s.group? x.group).map fun g => (g.cadence, g.offset, s.slotNs g.slot + s.fullRun g)

/-- The decision lead in ns (R35). -/
def State.leadNs (s : State) : Nat := min (s.reg 0x30014 * 1000) s.period

/-- How a launch point suits a linked stream: 0 where the decision falls after the predicted end of its source's chunk in the same
beat; else the ns from that beat to the first later launch whose decision does (R575). -/
def State.linkRank (s : State) (cad : Nat) (source : Option Nat) (o sl : Nat) : Nat :=
  match source.bind s.sourceEnd with
  | none => 0
  | some (k, o', e) =>
    let d := Nat.gcd cad k
    let b := (((o : Int) - o') % d).toNat
    let at' := s.slotNs sl
    let need := e + s.leadNs
    if b = 0 && need ≤ at' then 0
    else
      let first := if b = 0 then d else b
      (first + d * ceilDiv (ceilDiv (need - at') (max 1 s.period) - first) d) * s.period + at'

/-- Groups of one cadence at a beat offset. -/
def State.offsetLoad (s : State) (k o : Nat) : Nat := (s.spread.filter fun g => g.cadence == k && g.offset == o).length

/-- Groups that tick with a launch point, and the slots from it to the nearest other tick of its beats. -/
def State.slotLoad (s : State) (k o sl : Nat) : Nat × Nat :=
  let near := s.spread.filter fun g => g.offset % Nat.gcd k g.cadence == o % Nat.gcd k g.cadence
  ((near.filter fun g => g.slot == sl).length, (near.map fun g => max (g.slot - sl) (sl - g.slot)).foldl min 64)

/-- The order of launch points: R575 first; then the offset with the fewest groups of the cadence, then the slot with the fewest
groups, then the one farthest from other ticks (R56, notes/assumptions/111.md); then the one that the command names. -/
def State.pointKey (s : State) (w : Want) (hint : Nat × Nat) (p : Nat × Nat) : Nat :=
  let l := s.slotLoad w.cad p.1 p.2
  (((s.linkRank w.cad w.source p.1 p.2 * 8192 + s.offsetLoad w.cad p.1) * 8192 + l.1) * 128 + (64 - l.2)) * 2 + b01 (p != hint)

/-- The launch points that the pins leave. -/
def Want.points (w : Want) : List (Nat × Nat) :=
  ((w.pins.offset.map fun o => [o]).getD (List.range w.cad)).flatMap fun o =>
    ((w.pins.slot.map fun k => [k]).getD (List.range 64)).map fun k => (o, k)

/-- No group on these cores ticks at the launch point (R44) and, for `apart`, no predicted run there overlaps one from it (R382). -/
def State.pointFree (s : State) (w : Want) (cs : CoreSet) (apart : Bool) (p : Nat × Nat) : Bool :=
  let run := s.wantRun w cs
  !s.work.groups.any fun h => !w.gone.contains h.num && coresMeet h.cores cs &&
    (sameTick w.cad p.1 p.2 h.cadence h.offset h.slot ||
      (apart && runsMeet s.period w.cad (s.pointNs p.1 p.2) run h.cadence (s.pointNs h.offset h.slot) (s.fullRun h)))

/-- The best launch point on a core set. -/
def State.bestPoint (s : State) (w : Want) (hint : Nat × Nat) (apart : Bool) (cs : CoreSet) : Option (Nat × Nat) :=
  minBy (s.pointKey w hint) (w.points.filter (s.pointFree w cs apart))

/-! ### The choice of cores (R56, R364, R382) -/

/-- Groups with a core on a die. -/
def State.dieLoad (s : State) (d : Nat) : Nat := (s.spread.filter fun g => (coreDies g.cores).contains d).length

/-- Cores of a partition on some dies, but for those to avoid. -/
def State.coresOf (s : State) (w : Want) (ds : List Nat) : CoreSet :=
  coreSetOf ((coreList (s.partCores w.part &&& ~~~w.avoid)).filter fun c => ds.contains (c / 16))

/-- The dies of a partition, the one with the fewest groups first: groups go round by die (R56, R382). -/
def State.dieOrder (s : State) (w : Want) (die : Nat) : List Nat :=
  sortBy (fun d => s.dieLoad d * 20 + b01 (d != die) * 10 + d) ((s.partDies w.part).filter fun d => s.coresOf w [d] != 0)

/-- Core sets in the order of preference: the pinned one, or the cores of as few dies as possible, less used dies first (R382). -/
def State.coreSets (s : State) (w : Want) (die : Nat) : List CoreSet :=
  match w.pins.cores with
  | some c => [c]
  | none =>
    let ds := s.dieOrder w die
    ((List.range ds.length).flatMap fun m =>
      if m = 0 then ds.map fun d => s.coresOf w [d]
      else ds.flatMap fun a => ds.map fun b => s.coresOf w (((a :: b :: ds).eraseDups).take (m + 1))).eraseDups

/-- The first run on a core set keeps the budget. -/
def State.fastEnough (s : State) (w : Want) (cs : CoreSet) : Bool := s.wantRun w cs ≤ w.room

/-- Cores, beat offset and phase slot for a group: on as few dies as its predicted work allows, where no predicted runs overlap;
failing that on the most cores, then where only R44 holds, then on the cores that R44 leaves of a set (R44, R382, R575). -/
def State.site (s : State) (w : Want) (hint : Placement) : Option (CoreSet × Nat × Nat) :=
  let sets := (s.coreSets w hint.die).filter fun cs => s.hosts w cs
  let pick (apart : Bool) (cs : CoreSet) : Option (CoreSet × Nat × Nat) :=
    (s.bestPoint w (hint.offset, hint.slot) apart cs).map fun p => (cs, p.1, p.2)
  let rest (cs : CoreSet) : Option (CoreSet × Nat × Nat) :=
    if w.pins.cores.isSome then none
    else (sortBy (s.pointKey w (hint.offset, hint.slot)) w.points).findSome? fun p =>
      let left := cs &&& ~~~s.tickCores w.gone w.cad p.1 p.2
      if left != 0 && s.hosts w left then some (left, p.1, p.2) else none
  ((((sets.filter (s.fastEnough w)).findSome? (pick true)).or (sets.reverse.findSome? (pick true))).or
    (sets.findSome? (pick false))).or (sets.findSome? rest)

/-- A group number that no group has and that no pin reserves for a new group (R40, R57). -/
def State.numberFree (s : State) (n : Nat) : Bool :=
  n < 4096 && (s.group? n).isNone && !s.work.streams.any fun x => x.pins.group == some n

/-- The number that the command names where it is free, else the lowest free one (R40). -/
def State.newGroupNum (s : State) (hint : Nat) : Option Nat := (hint :: List.range 4096).find? s.numberFree

/-- No placement is named. -/
def noHint : Placement := ⟨4096, 64, 64, 10, 0⟩

/-! ### Joining (R383, R575) -/

/-- A group that a stream of this model, cadence and pins may join. -/
def Group.takes (g : Group) (main cad : Nat) (p : Pins) : Bool :=
  g.companionOf.isNone && g.model == main && g.cadence == cad && (p.offset.elim true fun o => o == g.offset) &&
    (p.slot.elim true fun k => k == g.slot) && (p.cores.elim true fun c => c == g.cores)

/-- The launch of a group with one row more keeps every row on time, and overlaps no other run on its cores (R382, R383). -/
def State.joinKeeps (s : State) (g : Group) (w : Want) : Bool :=
  let xs := s.members g.num
  let run := s.runNs g (xs.length + 1) (max w.len (longest xs))
  run ≤ w.room && xs.all (fun x => run + s.marginOf x * 1000 ≤ x.budget * 1000) &&
    !s.work.groups.any fun h => h.num != g.num && coresMeet h.cores g.cores &&
      runsMeet s.period g.cadence (s.pointNs g.offset g.slot) run h.cadence (s.pointNs h.offset h.slot) (s.fullRun h)

/-- A linked stream is as well served at a group's launch point as at any that its cadence admits (R575). -/
def State.linkSuits (s : State) (g : Group) (w : Want) : Bool :=
  let mine := s.linkRank w.cad w.source g.offset g.slot
  mine == 0 || w.points.all fun p => mine ≤ s.linkRank w.cad w.source p.1 p.2

/-- The group that an opening stream joins: of its model, cadence and priority, with the fewest rows below 256, held in place by
pins only where the stream has pins of its own (R383, R384). -/
def State.joinable (s : State) (w : Want) (prio hint : Nat) : Option Group :=
  minBy (fun g => (s.members g.num).length * 2 + b01 (g.num != hint)) (s.work.groups.filter fun g =>
    g.part == w.part && g.takes w.model w.cad w.pins && g.prio == prio && (s.members g.num).length < 256 &&
      (w.pins.placed || !s.pinnedPlace g) && s.joinKeeps g w && s.linkSuits g w && s.hosts w g.cores)

end Sys2Proof.Machine
end

