-- ==== Sys2Proof/Machine/Open.lean ====
section
/-! DEFINITION. Opening a stream: its checks in the order of R573, pins, placement, and the end of its initialisation
(02_streams_and_beats.md, R28 to R58; 04, R92 to R105; 12, R341, R357; 13, R372 to R383; 14, R413 to R415, R573). -/

namespace Sys2Proof.Machine

open Sys2Proof

/-! ### Pins (R57, R58, R105, R357, R415) -/

/-- The pins of words 8 to 13, and NEWGRP. -/
def Desc.pins (x : Desc) : Pins × Bool :=
  let w := x.w 8
  let opt (b : Nat) (v : Nat) : Option Nat := if w.getLsbD b then some v else none
  (⟨opt 4 (bits w 0 4), opt 11 (bits w 5 6), if w.getLsbD 25 then none else opt 24 (bits w 12 12), opt 28 (bits w 26 2),
    if w.getLsbD 29 then some (x.cores 9) else none⟩, w.getLsbD 25)

def Pins.empty : Pins := ⟨none, none, none, none, none⟩

/-- Some launch point that the pins leave keeps R44 on the pinned cores, or on some core of the partition; groups `gone` count as
none. -/
def State.pinsFit (s : State) (part cad : Nat) (p : Pins) (gone : List Nat) : Bool :=
  let offs := (p.offset.map fun o => [o]).getD (List.range cad)
  let slots := (p.slot.map fun k => [k]).getD (List.range 64)
  offs.any fun o => slots.any fun k =>
    let busy := s.tickCores gone cad o k
    match p.cores with
    | some c => c &&& busy == 0
    | none => s.partCores part &&& ~~~busy != 0

/-- The status that refuses pins, 0 when none does; `gone` is the stream's own group when it is already open and alone in it, which
it then leaves (R57, R58). -/
def State.pinStatus (s : State) (part main cad : Nat) (p : Pins) (newGrp : Bool) (gone : List Nat) : Nat :=
  if (p.offset.elim false fun o => cad ≤ o) || (p.home == some 3) ||
      (p.cores.elim false fun c => c == 0 || c &&& ~~~s.partCores part != 0) then stBadField
  else
    match p.group with
    | some n =>
      (match s.group? n with
      | none => stBadField
      | some g =>
        if g.part != part then stNotOwner
        else if !g.takes main cad p || 512 ≤ (s.members n).length then stBadField else stOK)
    | none =>
      let joins := !newGrp && s.work.groups.any fun g => g.part == part && g.takes main cad p && (s.members g.num).length < 512
      if joins || !(newGrp || p.placed) || s.pinsFit part cad p gone then stOK else stBadField

/-! ### An OPEN in its fields (Tables 14-7, 2-5) -/

/-- What an OPEN asks for. -/
structure OpenReq where
  id : Nat
  rg : Nat
  part : Nat
  main : Nat
  fb : Option Nat
  inkind : Nat
  prio : Nat
  adapt : Bool
  source : Nat
  cad : Nat
  maxLen : Nat
  budget : Nat
  rate : Nat
  sfmt : Nat
  afep : Nat
  pins : Pins
  newGrp : Bool
  deriving DecidableEq, Repr

/-- Cadence under CADAUTO: the beats of the model's default chunk, where that is a whole number from 1 to 16, else its
default cadence (notes/assumptions/26.md). -/
def State.autoCadence (s : State) (h : ImageHdr) : Nat :=
  let ns := h.deflen * h.step * 1000
  if 0 < s.period ∧ ns % s.period = 0 ∧ 1 ≤ ns / s.period ∧ ns / s.period ≤ 16 then ns / s.period else h.defcad

/-- Steps of a PCM chunk, when they are a whole number from 1 to 4,096 (R29). -/
def State.pcmSteps (s : State) (cad step : Nat) : Option Nat :=
  let n := cad * s.period
  let st := step * 1000
  if 0 < st ∧ n % st = 0 ∧ 1 ≤ n / st ∧ n / st ≤ 4096 then some (n / st) else none

/-- The fields of an OPEN descriptor. -/
def State.openReq (s : State) (g : Nat) (x : Desc) : OpenReq :=
  let main := bits (x.w 2) 0 8
  let cad := if (x.w 3).getLsbD 30 then ((s.slot? main).map fun m => s.autoCadence m.hdr).getD 1 else bits (x.w 3) 14 4 + 1
  let inkind := bits (x.w 2) 17 2
  let pn := if (x.w 2).getLsbD 22 then x.pins else (Pins.empty, false)
  { id := x.stream, rg := g, part := (s.rg g).part, main := main
    fb := if (x.w 2).getLsbD 16 then some (bits (x.w 2) 8 8) else none
    inkind := inkind, prio := bits (x.w 2) 19 2, adapt := (x.w 2).getLsbD 21, source := bits (x.w 3) 0 14, cad := cad
    maxLen := if inkind = 0 then ((s.slot? main).bind fun m => s.pcmSteps cad m.hdr.step).getD 1 else bits (x.w 3) 18 12 + 1
    budget := bits (x.w 4) 0 20, rate := bits (x.w 5) 0 3, sfmt := bits (x.w 5) 3 2, afep := x.d64 6
    pins := pn.1, newGrp := pn.2 }

/-- AFE parameters in force: the model's, or an override that keeps B, OELEM and frames per step (R92, R93, R105). -/
def State.afeParams (s : State) (h : ImageHdr) (afep : Nat) : Option AfeParams :=
  let check (a : AfeParams) (fps : Nat) : Option AfeParams :=
    if a.ok && h.step % a.hopUs == 0 && h.step / a.hopUs == fps then some a else none
  if afep = 0 then (if h.afe.rate = 0 then none else check h.afe (h.step / h.afe.hopUs))
  else
    let o := afeOfBytes (s.hostRead afep 64)
    let a := { o with rate := if o.rate = 0 then h.afe.rate else o.rate }
    if a.bins = h.afe.bins ∧ a.oelem = h.afe.oelem then check a h.framesPerStep else none

/-- Units of a stream (Table 4-5), doubled for a hop below 10 ms (R101). -/
def afeUnitsOf (rate hop : Nat) : Nat := ([1, 2, 3, 4, 6, 6].getD rate 6) * (if hop < 20 then 2 else 1)

/-- Unit ceiling of the device (Table 4-6). -/
def State.afeDeviceCap (s : State) : Nat := if s.iy920 then 0x6000 else 0xC000

/-- The fallback image serves the stream in place of the main image (R338, R375). -/
def fallbackFits (m f : ImageHdr) (inkind : Nat) : Bool :=
  f.layout == m.layout && f.ntiles == m.ntiles && f.inkinds.testBit inkind &&
    (inkind != 0 || (f.step == m.step && f.afe.bins == m.afe.bins && f.afe.oelem == m.afe.oelem &&
      f.framesPerStep == m.framesPerStep))

/-- Units that the OPEN reserves. -/
def State.openUnits (s : State) (q : OpenReq) : Nat :=
  if q.inkind = 0 then
    match (s.slot? q.main).bind fun m => s.afeParams m.hdr q.afep with
    | some a => afeUnitsOf q.rate a.hop
    | none => 0
  else 0

/-- Bytes that a record takes in the CXL tier at most. -/
def extentBound (tiles : Nat) : Nat := recordDirBytes tiles + tiles * 16392

/-- Home tier `t` has room for a record of partition p: rows of a slice of the cores, or the CXL share (R357). -/
def State.tierRoom (s : State) (p : Nat) (cores : CoreSet) (tiles t : Nat) : Bool :=
  if t = 0 then (coreList cores).any fun c =>
    let g := (s.core c).gap
    (freeRows c g.1 (g.2 - s.launchNeed c) (tiles * 16384) (s.sliceRanges c)).isSome
  else if t = 2 then s.cxlUsed p + extentBound tiles ≤ s.partCxlGib p * 2 ^ 30
  else true

/-- Cores on which the pins leave the stream's group. -/
def State.openCores (s : State) (q : OpenReq) : CoreSet :=
  match q.pins.group.bind s.group? with
  | some g => g.cores
  | none => q.pins.cores.getD (s.partCores q.part)

/-- What an OPEN asks of placement. -/
def State.openWant (s : State) (q : OpenReq) (h : ImageHdr) : Want where
  model := q.main
  part := q.part
  cad := q.cad
  len := q.maxLen
  room := (q.budget - s.reg 0x3001C) * 1000
  tiles := h.ntiles
  units := s.openUnits q
  input := 2 * h.halfTiles q.inkind q.maxLen * 16384
  pins := q.pins
  source := if q.inkind = 3 then some q.source else none
  avoid := 0
  gone := []

/-- The group of an opening stream: the pinned one, one that it joins, or a new one; a stream with pins joins any group that meets them
when no new one may stand there (R57, R382, R383). -/
def State.openGroup (s : State) (q : OpenReq) (h : ImageHdr) (pl : Placement) : Option Group :=
  match q.pins.group with
  | some n => s.group? n
  | none =>
    let w := s.openWant q h
    let fresh := match s.newGroupNum pl.group with
      | some n => (s.site w pl).map fun p => s.wantGroup w n q.prio p.1 p.2.1 p.2.2
      | none => none
    let other := if q.newGrp || !q.pins.placed then none
      else s.work.groups.find? fun g => g.part == q.part && g.takes q.main q.cad q.pins && (s.members g.num).length < 512
    ((if q.newGrp then none else s.joinable w q.prio pl.group).or fresh).or other

/-- Homes on a die. -/
def State.homesOn (s : State) (d : Nat) : Nat :=
  (s.work.streams.filter fun x => x.record.home.isSome && x.record.die == d).length

/-- The home of an opening stream: on a die of its group with room, homes going round by die; the place that the command names where it
is free (R341, R356). -/
def State.homePlace (s : State) (part tiles : Nat) (cores : CoreSet) (pl : Placement) : Option (Nat × Nat) :=
  let ds := (coreDies cores).filter fun d => s.homeRoom part d tiles && (s.freeSpot d (tiles * 16384)).isSome
  (minBy (fun d => s.homesOn d * 2 + b01 (d != pl.die)) ds).bind fun d =>
    (if d = pl.die && s.spotFree d pl.home (tiles * 16384) then some pl.home else s.freeSpot d (tiles * 16384)).map fun o => (d, o)

/-- Where an opening stream goes: its group, the die and place of its home, and its input area. -/
def State.openPlace (s : State) (q : OpenReq) (h : ImageHdr) (pl : Placement) : Option (Group × (Nat × Nat) × Nat) :=
  match s.openGroup q h pl with
  | none => none
  | some g =>
    match s.homePlace q.part h.ntiles g.cores pl, s.inputPlace g.cores (s.openUnits q) (s.openWant q h).input h.ntiles with
    | some m, some a => some (g, m, a)
    | _, _ => none

/-- No room: state pool, AFE units, group count or a pinned tier (R102, R341, R357). -/
def State.openLacks (s : State) (q : OpenReq) (h : ImageHdr) (pl : Placement) : Bool :=
  (q.inkind == 0 && s.afeDeviceCap < s.afeUsed + s.openUnits q) ||
    (q.pins.home.elim false fun t => !s.tierRoom q.part (s.openCores q) h.ntiles t) || (s.openPlace q h pl).isNone

/-- The partner holds the ID, as far as this device knows (R441). -/
def State.partnerHolds (s : State) (id : Nat) : Bool :=
  (s.pair.state.follows || s.pair.state == .isolated) &&
    (s.pair.mirrors.any (fun m => m.stream == id) ||
      (s.pair.state.mirroring && (s.pair.partner.elim false fun p => p.openIds.contains id)))

/-- A field of the OPEN that a rule refuses (step 5 of R573). -/
def State.openFieldBad (s : State) (q : OpenReq) (h : ImageHdr) : Bool :=
  !h.inkinds.testBit q.inkind || q.cad = 0 || q.budget < 100 || q.cad * s.period / 1000 < q.budget ||
    (q.inkind == 0 && ((s.pcmSteps q.cad h.step).isNone || 5 < q.rate || 2 < q.sfmt || (s.afeParams h q.afep).isNone)) ||
    (q.fb.elim false fun f => (s.slot? f).elim true fun m => !fallbackFits h m.hdr q.inkind)

/-- The status that an OPEN completes with when the device refuses it, in the order of R573; 0 when it opens. -/
def State.openStatus (s : State) (q : OpenReq) (pl : Placement) : Nat :=
  let foreign (k : Nat) : Bool := (s.slot? k).elim false fun m => m.part != q.part
  if s.liveLimit ≤ q.id then stBadField
  else if (s.stream? q.id).isSome || s.partnerHolds q.id then stBusy
  else if foreign q.main || q.fb.elim false foreign then stNotOwner
  else
    match s.slot? q.main with
    | none => stWrongState
    | some m =>
      if m.state != .ready || q.fb.elim false (fun f => (s.slot? f).elim true fun x => x.state == .unloading) then stWrongState
      else if q.inkind = 0 ∧ q.afep ≠ 0 ∧ s.hostFails q.afep 64 then stBadAddr
      else if s.openFieldBad q m.hdr then stBadField
      else
        let pin := s.pinStatus q.part q.main q.cad q.pins q.newGrp []
        if pin ≠ 0 then pin
        else if q.inkind = 3 ∧ (s.stream? q.source).elim true (fun y => y.state == .opening || y.state == .closing) then stNotOpen
        else if q.inkind = 3 ∧ (s.stream? q.source).elim false (fun y => y.part != q.part) then stNotOwner
        else if s.openLacks q m.hdr pl then stNoResource
        else stOK

/-! ### The stream in OPENING -/

/-- The stream in OPENING. -/
def State.newStream (s : State) (q : OpenReq) (h : ImageHdr) (g : Group) (d input : Nat) (home : Nat × Nat) : Stream where
  id := q.id
  state := .opening
  group := g.num
  part := q.part
  rg := q.rg
  main := q.main
  fb := q.fb
  inkind := q.inkind
  prio := q.prio
  adapt := q.adapt
  freeze := !q.adapt
  source := if q.inkind = 3 then some q.source else none
  cadence := q.cad
  offset := g.offset
  slot := g.slot
  maxLen := q.maxLen
  budget := q.budget
  margin := none
  fbDisabled := false
  fbForced := false
  fbMode := false
  fbCount := 0
  pins := if q.newGrp then { q.pins with group := some g.num } else q.pins
  afe := if q.inkind = 0 then
      (s.afeParams h q.afep).map fun a =>
        AfeStream.zeroed
          { params := a, rate := q.rate, sfmt := q.sfmt, units := afeUnitsOf q.rate a.hop, die := input / 2 ^ 27
            anchor := none, ek := 0, hist := [], pre := 0, chunks := 0 }
    else none
  input := input
  halves := [false, false]
  chunkNo := 0
  noInput := 0
  noInputOvf := false
  waiting := []
  resetMark := false
  seq := 0
  lastTick := 0
  nonfinite := false
  pages := []
  ctx := []
  carriedSteps := 0
  covered := 0
  sealed := 0
  sealTime := 0
  record :=
    { state := .H, tiles := h.ntiles, layout := h.layout, sect := h.sect, home := some home.2, die := home.1, spm := none
      ext := none, newHome := none, dirty := 0, chg := 0, mirRead := false, hdrHeld := false, lent := false }
  outQ := []
  cmd := some (1, q.rg, d)
  decided := false
  lastBeat := none
  keep := false
  mirrored := false
  outHand := 0
  waitId := s.pair.state.mirroring
  heldComp := []
  handback := false
  leaving := []
  leaveAll := false

/-- A group's cores have their region maps written, and the copy of the weights that they need is placed (R270, R364). -/
def State.settleGroup (g : Group) (s : State) : State := (s.forEach (coreList g.cores) State.mapCore).placeCopies g.model g.cores

/-- A stream joins the streams, and its group the groups, with its history seeded when it is new. -/
def State.addStream (x : Stream) (g : Group) (s : State) : State :=
  let isNew := (s.group? g.num).isNone
  let s := s.updWork fun w =>
    { w with streams := insertBy (·.id) x w.streams, groups := if isNew then insertBy (·.num) g w.groups else w.groups }
  (s.when isNew (State.seedHist g.num)).settleGroup g

/-- OPEN (0x01): refused with the status of R573, or the stream enters OPENING where the Saddler places it; an open under a pair waits
for the partner's answer (R441). -/
def execCmdOpen (g d : Nat) (pl : Placement) (s : State) : Res :=
  .next (s.runCmd 1 g d (fun x t =>
    let q := t.openReq g x
    let st := t.openStatus q pl
    if st ≠ 0 then t.finishCmd g d st []
    else
      match t.slot? q.main, (t.slot? q.main).bind fun m => t.openPlace q m.hdr pl with
      | some m, some (grp, home, input) =>
        let t := t.addStream (t.newStream q m.hdr grp d input home) grp
        t.when t.pair.state.mirroring (State.sendFlit "ID_REQUEST" [q.id, q.part, m.hdr.ntiles])
      | _, _ => t.finishCmd g d stNoResource []))

/-- OPEN_INIT_DONE: the initial record stands in the home, the stream is PARKED, and the open completes with its placement
(Tables 2-3, 14-10). -/
def execOpenInitDone (id : Nat) (s : State) : Res :=
  .next (match s.stream? id with
    | none => s
    | some x =>
      if !s.alive || x.state != .opening || x.waitId then s
      else
        let raw := ((s.slot? x.main).map fun m => m.hdr.init).getD []
        let s := s.dieWrite x.record.die (x.record.home.getD 0) (takePad 0 (x.record.tiles * 16384) raw)
        let s := (s.recordPut id 0 (List.replicate 16384 0)).writeHeader id
        let s := (s.writePageList id).updStream id fun x =>
          { x with state := .parked, cmd := none, record := { x.record with chg := 0 } }
        let s := s.when (s.mirrors x.part) (State.handOffFull id)
        match x.cmd with
        | none => s
        | some c =>
          s.finishCmd c.2.1 c.2.2 stOK
            [BitVec.ofNat 32 (x.group + x.offset * 2 ^ 12 + x.slot * 2 ^ 16 + x.record.die * 2 ^ 22),
             BitVec.ofNat 32 (x.cadence - 1 + (x.maxLen - 1) * 2 ^ 4)])

end Sys2Proof.Machine
end

