-- ==== Sys2Proof/Machine/StreamCmds.lean ====
section
/-! DEFINITION. Commands that name a stream: close, pause, resume, reset, control, query, state read and write
(02_streams_and_beats.md, Tables 2-3 and 2-4, R45 to R51; 12, R355, R574; 14, Tables 14-7 and 14-10, R415). -/

namespace Sys2Proof.Machine

open Sys2Proof

/-! ### Common -/

/-- A command that names a stream of its own ring group (R3, R47). -/
def State.streamCmd (opc g d : Nat) (f : Desc → Stream → State → State) (s : State) : State :=
  s.runCmd opc g d fun x t =>
    match (if t.liveLimit ≤ x.stream then none else t.stream? x.stream) with
    | none => t.finishCmd g d stNotOpen []
    | some st =>
      if st.state == .closing then t.finishCmd g d stNotOpen []
      else if st.rg != g then t.finishCmd g d stNotOwner []
      else f x st t

/-- The stream runs a chunk, or its cores are armed for one. -/
def Stream.busy (x : Stream) : Bool := x.state == .armed || x.state == .running

/-- Row of a stream in a job. -/
def Job.row? (j : Job) (id : Nat) : Option LaunchRow := j.rows.find? fun r => r.stream == id

/-- The longest chunk among the rows (R42). -/
def maxLen (rows : List LaunchRow) : Nat := rows.foldl (fun n r => max n r.len) 0

/-- The job of a launch that has not started loses the row of a stream: the row's chunk waits again, and what the decision
took from the stream returns (R30, R51, R379). A job without rows is over. -/
def State.unlaunchRow (id : Nat) (j : Job) (s : State) : State :=
  match j.row? id with
  | none => s
  | some r =>
    let s := s.updStream id fun x =>
      { x with
        decided := false
        waiting := match r.chunk with
          | some c => c :: x.waiting
          | none => x.waiting
        resetMark := x.resetMark || r.cmdMark
        carriedSteps := x.carriedSteps + (r.len - r.chunk.elim (max 1 r.source) (·.len))
        covered := x.covered - r.source }
    let rows := j.rows.filter fun r => r.stream != id
    s.updJobs fun js =>
      (updWhere (fun k => k.id == j.id) (fun k => { k with rows := rows, len := maxLen rows }) js).filter fun k =>
        k.id != j.id || !rows.isEmpty

/-- The launches of a stream that are decided and have not started lose its row, the latest first: it pauses or closes
(Table 2-4). -/
def State.unlaunch (id : Nat) (s : State) : State :=
  s.forEach ((s.work.jobs.filter fun j => j.phase != .running && j.phase != .suspended && (j.row? id).isSome).reverse)
    (State.unlaunchRow id)

/-- The stream is PAUSED: every chunk not launched completes with PAUSED_DROP, and the waiting command with OK. -/
def State.enterPaused (id : Nat) (s : State) : State :=
  match s.stream? id with
  | none => s
  | some x =>
    let s := (s.unlaunch id).dropChunks id stPausedDrop
    let s := s.updStream id fun x => { x with state := .paused, cmd := none }
    match x.cmd with
    | some c => s.finishCmd c.2.1 c.2.2 stOK []
    | none => s

/-- The stream is CLOSING: every chunk not launched completes with STREAM_CLOSED, and its moves are cancelled (Table 12-5). -/
def State.enterClosing (id : Nat) (s : State) : State :=
  let s := (s.unlaunch id).dropChunks id stStreamClosed
  (s.cancelMove id).updStream id fun x => { x with state := .closing }

/-! ### CLOSE, PAUSE, RESUME, RESET -/

/-- CLOSE (0x02): a source that open streams still name stays open (R49); a running chunk ends first. -/
def execCmdClose (g d : Nat) (s : State) : Res :=
  .next (s.streamCmd 2 g d fun _ x t =>
    if t.work.streams.any fun y => y.source == some x.id && y.state != .closing then t.finishCmd g d stWrongState []
    else
      let t := t.updStream x.id fun x => { x with cmd := some (2, g, d) }
      if x.busy then t else t.enterClosing x.id)

/-- PAUSE (0x03). -/
def execCmdPause (g d : Nat) (s : State) : Res :=
  .next (s.streamCmd 3 g d fun _ x t =>
    if x.state == .paused then t.finishCmd g d stOK []
    else
      let t := t.updStream x.id fun x => { x with cmd := some (3, g, d) }
      if x.busy then t else t.enterPaused x.id)

/-- RESUME (0x04): the stream rejoins its group from the next beat boundary, where the command completes (R50). -/
def execCmdResume (g d : Nat) (s : State) : Res :=
  .next (s.streamCmd 4 g d fun _ x t =>
    if x.state != .paused then t.finishCmd g d stOK []
    else t.updStream x.id fun x => { x with cmd := some (4, g, d) })

/-- The state a resumed stream takes: that of its authoritative copy (Table 2-4). -/
def RecState.streamState : RecState → StreamState
  | .S => .resident
  | .spill => .resident
  | .C => .cold
  | .fillC => .cold
  | .pro => .cold
  | _ => .parked

/-- Streams whose resume waits rejoin their groups at a beat boundary (Table 2-4, R50). -/
def State.rejoin (id : Nat) (s : State) : State :=
  match s.stream? id with
  | none => s
  | some x =>
    match x.cmd with
    | some (4, g, d) =>
      if x.state != .paused then s
      else
        (s.updStream id fun x => { x with state := x.record.state.streamState, cmd := none }).finishCmd g d stOK []
    | _ => s

/-- Kind, format and shape of the pages of a model's self-attention layers, with the window of each. -/
def selfShapes (h : ImageHdr) : List (Nat × Nat × Nat × Nat) :=
  (h.layers.filter fun l => (l.getD 0 0).toNat == 2).flatMap fun l =>
    let b (i : Nat) : Nat := (l.getD i 0).toNat
    let w := leNat ((l.drop 16).take 4)
    if b 5 != 0xFF then [(2, b 4 % 16, b 5, w)] else [(0, b 4 % 16, b 1, w), (1, b 4 % 16, b 1, w)]

/-- Self-attention pages of a stream: pages it holds that are not its source's and have the shape of a self-attention layer. -/
def State.selfPages (s : State) (x : Stream) : List Page :=
  let sh := ((s.slot? x.main).map fun m => selfShapes m.hdr).getD []
  ((x.pages.filter fun n => !x.ctx.contains n).filterMap s.page?).filter fun p =>
    sh.any fun q => q.1 == p.kind && q.2.1 == p.fmt && q.2.2.1 == p.shape

/-- The stream runs a chunk that started before: what a decision meanwhile releases goes at that chunk's end (R205). -/
def State.runsNow (s : State) (id : Nat) : Bool :=
  s.work.jobs.any fun j => (j.phase == .running || j.phase == .suspended) && (j.row? id).isSome

/-- Pages that a launch decision releases: at once, or at the end of the chunk that still runs (R205, Table 8-5). -/
def State.letGo (id : Nat) (ns : List Nat) (s : State) : State :=
  if s.runsNow id then s.updStream id fun x => { x with leaving := (x.leaving ++ ns).eraseDups }
  else s.releasePages id ns

/-- A reset releases every self-attention page, those that a chunk still running appends among them (R53, R205). -/
def State.letGoSelf (id : Nat) (s : State) : State :=
  match s.stream? id with
  | none => s
  | some x => (s.updStream id fun y => { y with leaveAll := y.leaveAll || s.runsNow id }).letGo id ((s.selfPages x).map (·.num))

/-- A mark at step 0 of a row. -/
def LaunchRow.markNow (r : LaunchRow) : LaunchRow := { r with cmdMark := true, marks := (0 :: r.marks).eraseDups }

/-- The launch of a stream that is decided and has not started. -/
def State.nextLaunch (s : State) (id : Nat) : Option Job :=
  s.work.jobs.find? fun j => j.phase != .running && j.phase != .suspended && (j.row? id).isSome

/-- RESET (0x05): a mark at step 0 of the next chunk to launch (R51): the one whose launch is decided, else that of the next
decision. -/
def execCmdReset (g d : Nat) (s : State) : Res :=
  .next (s.streamCmd 5 g d fun _ x t =>
    let t := match t.nextLaunch x.id with
      | some j =>
        (t.updJob j.id fun k => { k with rows := updWhere (fun r => r.stream == x.id) LaunchRow.markNow k.rows }).letGoSelf x.id
      | none => t.updStream x.id fun x => { x with resetMark := true }
    t.finishCmd g d stOK [])

/-! ### STREAM_CTL (R415) -/

/-- What a pin needs and does not find: units on the dies of a core set or of a group, the copy of the weights there, room in a home
tier (R105, R357, R364, notes/assumptions/112.md). -/
def State.pinLacks (s : State) (x : Stream) (p : Pins) : Bool :=
  (match p.cores.or ((p.group.bind s.group?).map (·.cores)) with
    | some cs =>
      (x.afe.any fun a => !(coreDies cs).any fun k => k == a.die || s.unitsRoom k a.units) || !s.copiesFit x.main cs
    | none => false) ||
  (match p.home with
    | some t => !s.tierRoom x.part ((s.group? x.group).elim 0 (·.cores)) x.record.tiles t
    | none => false)

/-- The new pins over the old ones. -/
def Pins.over (p q : Pins) : Pins :=
  ⟨p.offset.or q.offset, p.slot.or q.slot, p.group.or q.group, p.home.or q.home, p.cores.or q.cores⟩

/-- Items 0 to 9: the status, and the state after. -/
def State.streamItem (x : Stream) (d : Desc) (s : State) : Nat × State :=
  let v := (d.w 3).toNat
  let upd (f : Stream → Stream) : Nat × State := (stOK, s.updStream x.id f)
  match bits (d.w 2) 0 4 with
  | 0 => upd fun x => { x with prio := v % 4 }
  | 1 => if x.budget < v then (stBadField, s) else upd fun x => { x with margin := some v }
  | 2 => upd fun x => { x with fbDisabled := true }
  | 3 => upd fun x => { x with fbDisabled := false }
  | 4 => upd fun x => { x with fbForced := true, fbMode := x.fb.isSome, fbCount := 0 }
  | 5 => upd fun x => { x with fbForced := false }
  | 6 => (stOK, (s.updStream x.id fun x => { x with freeze := true }).writeHeader x.id)
  | 7 => (stOK, (s.updStream x.id fun x => { x with freeze := !x.adapt }).writeHeader x.id)
  | 8 =>
    let p := d.pins
    let all := p.1.over x.pins
    let reserved := p.1.group.isNone && x.pins.group.any fun n => (s.group? n).isNone
    let asked := if p.2 || reserved then { all with group := none } else all
    let alone := (s.members x.group).all fun y => y.id == x.id
    let st := s.pinStatus x.part x.main x.cadence asked (p.2 || reserved) (if alone then [x.group] else [])
    if st ≠ 0 then (st, s)
    else if s.pinLacks x p.1 || (p.2 && (s.newGroupNum 4096).isNone) then (stNoResource, s)
    else upd fun x => { x with pins := if p.2 then { all with group := s.newGroupNum 4096 } else all }
  | 9 =>
    upd fun x =>
      { x with pins :=
        ⟨if v.testBit 0 then none else x.pins.offset, if v.testBit 1 then none else x.pins.slot,
         if v.testBit 2 then none else x.pins.group, if v.testBit 3 then none else x.pins.home,
         if v.testBit 4 then none else x.pins.cores⟩ }
  | _ => (stBadField, s)

/-- STREAM_CTL (0x06): the item is recorded; it takes effect from the stream's next launch decision. -/
def execCmdStreamCtl (g d : Nat) (s : State) : Res :=
  .next (s.streamCmd 6 g d fun k x t =>
    let r := t.streamItem x k
    r.2.finishCmd g d r.1 [])

/-! ### QUERY -/

/-- State codes of QUERY (Table 14-10). -/
def StreamState.code : StreamState → Nat
  | .opening => 1
  | .parked => 2
  | .cold => 3
  | .resident => 4
  | .armed => 5
  | .running => 6
  | .paused => 7
  | .closing => 8

/-- Words 3 to 6 of a QUERY completion. -/
def Stream.queryWords (x : Stream) : List Word :=
  [BitVec.ofNat 32 (x.state.code + 16 * b01 x.fbMode + (x.fbCount % 256) * 2 ^ 8 + x.group * 2 ^ 16 + 2 ^ 31 * b01 x.noInputOvf),
   BitVec.ofNat 32 x.noInput, BitVec.ofNat 32 x.seq, BitVec.ofNat 32 (x.seq / 2 ^ 32)]

/-- QUERY (0x07): a CLOSED ID reports state CLOSED with words 3 to 6 zero (R47). -/
def execCmdQuery (g d : Nat) (s : State) : Res :=
  .next (s.runCmd 7 g d fun x t =>
    if t.liveLimit ≤ x.stream then t.finishCmd g d stNotOpen []
    else
      match t.stream? x.stream with
      | none => t.finishCmd g d stOK []
      | some st => if st.rg != g then t.finishCmd g d stNotOwner [] else t.finishCmd g d stOK st.queryWords)

/-! ### STATE_READ, STATE_WRITE (R355, R574) -/

/-- The tile range and the buffer of a state command. -/
def Desc.tileRange (x : Desc) : Nat × Nat := (bits (x.w 2) 0 8, bits (x.w 2) 8 8 + 1)

/-- The status that refuses a state command, 0 when none does. -/
def State.stateStatus (s : State) (write : Bool) (x : Desc) (st : Stream) : Nat :=
  let r := x.tileRange
  let n := r.2 * 16384
  if st.state != .paused then stWrongState
  else if st.record.tiles < r.1 + r.2 || x.d64 4 % 4096 != 0 then stBadField
  else if s.hostFails (x.d64 4) n then stBadAddr
  else if write && r.1 == 0 &&
      (let h := s.hostRead (x.d64 4) 12
       field h 4 4 != st.record.layout || field h 8 1 + 1 != st.record.tiles) then stBadField
  else stOK

/-- A move of the record has started, or a hand-off still reads it: a state command waits (R353, R355). -/
def State.recordBusy (s : State) (x : Stream) : Bool :=
  x.record.mirRead || ((s.move? x.id).elim false (·.started))

/-- Words 3 to 6 with SEQ in words 5 and 6. -/
def seqWords (seq : Nat) : List Word := [0, 0, BitVec.ofNat 32 seq, BitVec.ofNat 32 (seq / 2 ^ 32)]

/-- STATE_READ (0x08): whole tiles go to host memory while the stream is PAUSED; a started move ends first. -/
def execCmdStateRead (g d : Nat) (u : Upset) (s : State) : Res :=
  .next (s.streamCmd 8 g d fun x st t =>
    let e := t.stateStatus false x st
    if e ≠ 0 then t.finishCmd g d e []
    else if t.recordBusy st then s.updStream st.id fun y => { y with cmd := some (8, g, d) }
    else
      let t := t.moveErrors (if st.record.state.coded then 4 else 5) u [st.recordRange]
      if t.keeper.fstop then t
      else if t.extPoisoned st then t.uncorrectable none 5 3 st.recordRange.1
      else
      match t.recordBytes st with
      | .error m => t.skiverMismatch none st.recordRange.1 m.1 m.2
      | .ok raw =>
        let r := x.tileRange
        let t := t.hostWrite (x.d64 4) ((raw.drop (r.1 * 16384)).take (r.2 * 16384))
        (t.updStream st.id fun y => { y with cmd := none }).finishCmd g d stOK (seqWords st.seq))

/-- The tiles are written into the record; header words 0 to 6 stay as the device holds them; SEQ counts, and the record is
mirrored (R355). -/
def State.stateWrite (x : Desc) (id : Nat) (s : State) : State :=
  let r := x.tileRange
  let bs := s.hostRead (x.d64 4) (r.2 * 16384)
  let s := s.recordPut id (r.1 * 16384) bs
  let s := s.updStream id fun y =>
    let y := { y with seq := y.seq + 1, cmd := none }
    if r.1 = 0 then
      { y with
        afe := y.afe.map fun a => a.ofTile (bs.take 16384)
        record := { y.record with sect := wordsOf ((bs.drop 64).take 64) } }
    else y
  let s := s.recordPut id 0 (bytesOfWords (((s.stream? id).map fun y => y.headerWords.take 7).getD []))
  s.handOff id

/-- The end of a STATE_WRITE, with its completion; a home tier pinned to the CXL tier is left again (R574). -/
def State.stateWriteEnd (g d : Nat) (x : Desc) (id : Nat) (s : State) : State :=
  let e := if s.hostFails (x.d64 4) (x.tileRange.2 * 16384) then stBadAddr else stOK
  let s := if e = 0 then s.stateWrite x id else s.updStream id fun y => { y with cmd := none }
  match s.stream? id with
  | none => s
  | some y =>
    let s := s.when (y.pins.home == some 2 && y.record.state == .H) (State.queueMove id .demote 0 none)
    s.finishCmd g d e (if e = 0 then seqWords y.seq else [])

/-- STATE_WRITE (0x09): into the record where it lies; a record in C is promoted first, at urgent (R574). -/
def execCmdStateWrite (g d : Nat) (s : State) : Res :=
  .next (s.streamCmd 9 g d fun x st t =>
    let e := t.stateStatus true x st
    if e ≠ 0 then t.finishCmd g d e []
    else if t.recordBusy st then s.updStream st.id fun y => { y with cmd := some (9, g, d) }
    else if st.record.state == .C then
      let t := (t.dropMove st.id).queueMove st.id .promote 3 none
      let t := t.updMoves (updWhere (fun m => m.stream == st.id) fun m => { m with forWrite := true })
      t.updStream st.id fun y => { y with cmd := some (9, g, d) }
    else t.stateWriteEnd g d x st.id)

/-- PROMOTION_DONE: the record stands in its home; a state write that waited for it goes on (R574). -/
def execPromotionDone (id : Nat) (u : Upset) (s : State) : Res :=
  .next (match s.stream? id with
    | none => s
    | some x =>
      if !s.alive || x.record.state != .pro then s
      else
        let forWrite := (s.move? id).elim false (·.forWrite)
        let s := s.promotionEnd id u
        match x.cmd with
        | some (9, g, d) =>
          (match (s.rg g).cmds.find? fun k => k.didx == d with
          | some k => if forWrite && !s.keeper.fstop then s.stateWriteEnd g d k id else s
          | none => s)
        | _ => s)

/-! ### Release (Table 2-4, R48) -/

/-- CLOSE_RELEASE_DONE: the stream's pages, record, extent, units and mirror are free, and the close completes as the last
completion of the stream. Output that still waits for a buffer is discarded (notes/assumptions/27.md). -/
def execCloseReleaseDone (id : Nat) (s : State) : Res :=
  .next (match s.stream? id with
    | none => s
    | some x =>
      if !s.alive || x.state != .closing || !x.heldComp.isEmpty || x.record.mirRead then s
      else
        let s := s.forEach x.outQ fun o t => t.outDrop id o (o.part != 0)
        let s := (s.releasePages id x.pages).freeExtent id
        let s := s.when x.mirrored (State.sendFlit "MIRROR_FREE" [id])
        let s := s.removeStream id
        match x.cmd with
        | some c => s.finishCmd c.2.1 c.2.2 stOK []
        | none => s)

/-- NOP (0x1F). -/
def execCmdNop (g d : Nat) (s : State) : Res := .next (s.runCmd 0x1F g d fun _ t => t.finishCmd g d stOK [])

end Sys2Proof.Machine
end

