-- ==== Sys2Proof/Machine/ModelCmds.lean ====
section
/-! DEFINITION. Model slots, group and weight pins, cached prefixes, table commands, region pins and windows
(13_saddler.md, R363, R364, R381, R384; 14, R412 to R416; 08, R229, R230; 09, R251, R252, R264; 10, R271, R281, R284). -/

namespace Sys2Proof.Machine

open Sys2Proof

/-! ### Model slots (Table 13-1) -/

/-- Bytes in MiB, rounded up. -/
def mibUp (n : Nat) : Nat := ceilDiv n (2 ^ 20)

/-- A job is queued: its age counts from now (R366). -/
def State.queueJob (kind : JobKind) (part base : Nat) (s : State) : State :=
  let j : Job :=
    { id := s.work.nextJob, kind := kind, part := part, base := base, age := 0, due := s.tb.now, phase := .waiting, cores := 0
      rows := [], len := 0, beat := 0, tick := 0, fb := false, predicted := 0, start := 0, waitFrom := s.tb.now
      woken := false, lateArm := false, deferred := false }
  s.updWork fun w => { w with jobs := w.jobs ++ [j], nextJob := w.nextJob + 1 }

/-- The job of a kind is over. -/
def State.endJob (kind : JobKind) (s : State) : State := s.updJobs (·.filter fun j => j.kind != kind)

/-- MODEL_LOAD (0x10): an EMPTY slot takes the image's header and waits for the load job (R363, R364, R416). -/
def execCmdModelLoad (g d : Nat) (s : State) : Res :=
  .next (s.runCmd 0x10 g d fun x t =>
    let p := (t.rg g).part
    let k := bits (x.w 2) 0 8
    let len := (x.w 6).toNat
    match t.slot? k with
    | some m => t.finishCmd g d (if m.part = p then stWrongState else stNotOwner) []
    | none =>
      if t.hostFails (x.d64 4) len then t.finishCmd g d stBadAddr []
      else
        let img := t.hostRead (x.d64 4) len
        let shards := t.expertPart p
        let h := imageOf img
        let recs := if shards then pieces 256 (imageRegion img 5).2.2 (regionBytes img 5) else []
        if imageBad img len shards || recs.any (shardBad (t.partCores p)) then t.finishCmd g d stBadField []
        else if !t.modelRoom p h.bytes then t.finishCmd g d stNoResource []
        else
          let m : ModelSlot :=
            { num := k, state := .loading, part := p, hdr := h, copies := [], cmd := some (g, d), pin := none, image := img
              names := [] }
          (t.updWork fun w => { w with slots := insertBy (·.num) m w.slots }).queueJob (.modelLoad k) p (bits (x.w 2) 8 2))

/-- A declared prefix is computed once per partition and model (R229). -/
def State.declarePrefix (m : ModelSlot) (s : State) : State :=
  if m.hdr.tokens.isEmpty then s
  else
    match (List.range 65536).find? fun n => (s.prefix? n).isNone with
    | none => s
    | some n =>
      let x : KvPrefix :=
        { id := n, part := m.part, slot := m.num, tokens := m.hdr.tokens, pages := [], pinned := false, done := false, declared := true, cmd := none }
      (s.updCaches fun c => { c with prefixes := insertBy (·.id) x c.prefixes }).queueJob (.prefixComp n) m.part 1

/-- MODEL_LOAD_DONE: the copy is placed, on the lowest die of the partition's cores, and the slot is READY; the model log
takes the image, and groups of the slot seed their history (R363, R364, R372, Table 17-7). -/
def execModelLoadDone (slot : Nat) (s : State) : Res :=
  .next (match s.slot? slot with
    | none => s
    | some m =>
      if !s.alive || m.state != .loading then s
      else
        match (s.partDies m.part).findSome? fun d => s.addCopy m (coreSetOf ((coreList (s.partCores m.part)).filter fun c => c / 16 == d)) with
        | none => s
        | some s =>
        let s := s.updSlot slot fun y => { y with state := .ready, cmd := none }
        let s := s.setMeas 8 (Config.shake256 (s.bridle.meas.getD 7 [] ++ leBytes 1 slot ++ m.hdr.digest) 64)
        let s := s.forEach ((s.work.groups.filter fun g => g.model == slot).map (·.num)) State.seedHist
        let s := s.chargeOverhead m.part [(7, m.hdr.bytes), (9, m.image.length)]
        let s := (s.endJob (.modelLoad slot)).declarePrefix m
        match m.cmd with
        | some c => s.finishCmd c.1 c.2 stOK [BitVec.ofNat 32 (mibUp m.hdr.bytes)]
        | none => s)

/-- MODEL_UNLOAD (0x11): of a READY slot that no open stream names as its main model (Table 13-1). -/
def execCmdModelUnload (g d : Nat) (s : State) : Res :=
  .next (s.runCmd 0x11 g d fun x t =>
    let k := bits (x.w 2) 0 8
    match t.slot? k with
    | none => t.finishCmd g d stWrongState []
    | some m =>
      if m.part != (t.rg g).part then t.finishCmd g d stNotOwner []
      else if m.state != .ready || t.work.streams.any (fun y => y.main == k) then t.finishCmd g d stWrongState []
      else
        let ids := (t.work.streams.filter fun y => y.fb == some k).map (·.id)
        let t := t.forEach ids fun i t => (t.updStream i fun y => { y with fb := none, fbMode := false, fbCount := 0 }).writeHeader i
        (t.updSlot k fun y => { y with state := .unloading, cmd := some (g, d) }).queueJob (.modelUnload k) m.part 0)

/-- MODEL_UNLOAD_DONE: the weights are released and the slot is EMPTY; its prefixes go with it. -/
def execModelUnloadDone (slot : Nat) (s : State) : Res :=
  .next (match s.slot? slot with
    | none => s
    | some m =>
      if !s.alive || m.state != .unloading then s
      else
        let s := (s.dropNames m.part m.names).leaveSlots slot
        let s := s.forEach ((s.caches.prefixes.filter fun x => x.slot == slot && x.done).map (·.id)) State.dropPrefix
        let s := s.updWork fun w => { w with slots := w.slots.filter (·.num != slot) }
        let s := s.updCores fun cs => cs.map fun k => { k with progs := k.progs.filter fun p => p.1 != slot }
        let s := s.endJob (.modelUnload slot)
        match m.cmd with
        | some c => s.finishCmd c.1 c.2 stOK [BitVec.ofNat 32 (mibUp m.hdr.bytes)]
        | none => s)

/-! ### GROUP_CTL (R381, R384, R415) -/

/-- A stream's input area moves, with its units, to a core of a set whose die has room for them; the units that it leaves do not
count there (R102, R384). -/
def State.moveInput (cores : CoreSet) (id : Nat) (s : State) : State :=
  match s.stream? id with
  | none => s
  | some x =>
    let n := 2 * s.halfTiles x * 16384
    let fits (c : Nat) : Bool := x.afe.all fun a => c / 16 == a.die || s.unitsRoom (c / 16) a.units
    if n = 0 then s
    else
      match ((coreList cores).filter fits).findSome? fun c => s.inputSpot c n 0 with
      | none => s
      | some a =>
        let bs := s.spmRead (x.input / 2 ^ 23) (x.input % 2 ^ 23) n
        (s.spmWrite (a / 2 ^ 23) (a % 2 ^ 23) bs).updStream id fun x =>
          { x with input := a, afe := x.afe.map fun f => { f with die := a / 2 ^ 27 } }

/-- The units of streams find room, one stream after the other, on the dies of a list with the free units of each (R105, R384). -/
def unitsPack : List Nat → List (Nat × Nat) → Bool
  | [], _ => true
  | u :: us, ds =>
    match ds.find? fun d => u ≤ d.2 with
    | none => false
    | some d => unitsPack us (ds.map fun e => if e.1 = d.1 then (e.1, e.2 - u) else e)

/-- The dies of a new core set together have the AFE units that the group's PCM streams elsewhere need, the largest placed first. -/
def State.groupUnitsFit (s : State) (g : Nat) (cores : CoreSet) : Bool :=
  let ds := coreDies cores
  let need := (s.members g).filterMap fun x => x.afe.bind fun a => if ds.contains a.die then none else some a.units
  unitsPack (sortBy id need).reverse (ds.map fun d => (d, afeDieCap - s.afeUsedDie d))

/-- A group's core-set pin takes effect: its cores, its members' input areas, its copy of the weights and, where the number of cores
changes, its history (R364, R372, R384). -/
def State.applyCores (n : Nat) (s : State) : State :=
  match s.group? n with
  | none => s
  | some g =>
    match g.nextCores with
    | none => s
    | some (cs, rg, d) =>
      let s := s.updGroup n fun y => { y with cores := cs, corePin := true, nextCores := none }
      let s := s.forEach ((s.members n).map (·.id)) fun i t =>
        match t.stream? i with
        | some x => if cs.getLsbD (x.input / 2 ^ 23) then t else t.moveInput cs i
        | none => t
      let s := s.forEach (coreList (cs ||| g.cores)) State.mapCore
      let s := s.placeCopies g.model cs
      (s.when ((coreList cs).length != (coreList g.cores).length) (State.seedHist n)).finishCmd rg d stOK []

/-- GROUP_CTL (0x12). A core-set pin takes effect, and completes, at the group's next launch decision (R384, Table 14-10); a later one
follows it, and costs take effect at once. -/
def execCmdGroupCtl (g d : Nat) (s : State) : Res :=
  .next (s.runCmd 0x12 g d fun x t =>
    let n := bits (x.w 2) 0 12
    let cs := x.cores 3
    let p := (t.rg g).part
    match t.group? n with
    | none => t.finishCmd g d stBadField []
    | some grp =>
      if grp.part != p then t.finishCmd g d stNotOwner []
      else
        match bits (x.w 2) 12 4 with
        | 0 =>
          if cs == 0 || cs &&& ~~~t.partCores p != 0 ||
              cs &&& t.tickCores [n] grp.cadence grp.offset grp.slot != 0 then t.finishCmd g d stBadField []
          else if !t.groupUnitsFit n cs || !t.copiesFit grp.model cs then t.finishCmd g d stNoResource []
          else if grp.nextCores.isSome then s
          else t.updGroup n fun y => { y with nextCores := some (cs, g, d) }
        | 1 => (t.updGroup n fun y => { y with corePin := false }).finishCmd g d stOK []
        | 2 => ((t.updGroup n fun y => { y with costs := some ((x.w 3).toNat, (x.w 4).toNat) }).seedHist n).finishCmd g d stOK []
        | 3 => ((t.updGroup n fun y => { y with costs := none }).seedHist n).finishCmd g d stOK []
        | _ => t.finishCmd g d stBadField [])

/-! ### WEIGHT_PIN (R384) -/

/-- Bytes of a core's RESIDENT rows (R271). -/
def Core.residentBytes (k : Core) : Nat := k.rowsOfKind 1 * 512

/-- The rows of the RESIDENT regions of cores, in rising order. -/
def State.residentRows (s : State) (cs : CoreSet) : List (Nat × Nat) :=
  (coreList cs).flatMap fun c => ((s.core c).segments.filter fun g => g.2.2 == 1).flatMap fun g =>
    (List.range g.2.1).map fun i => (c, g.1 + i)

/-- The runs of a model's weights that are not declared coded are written into those rows, one after the other from row boundaries
(R268, Table 9-8, notes/assumptions/28.md). -/
def State.fillResident (m : ModelSlot) (cs : CoreSet) (s : State) : State :=
  let runs := (m.hdr.weights.filter fun w => w.getD 3 0 != 1).flatMap fun w => padTo 512 ((m.image.drop (w.getD 0 0)).take (w.getD 1 0))
  s.forEach ((s.residentRows cs).zip (pieces 512 (runs.length / 512 + 1) runs)) fun q t => t.spmWrite q.1.1 (q.1.2 * 512) q.2

/-- WEIGHT_PIN (0x13). -/
def execCmdWeightPin (g d : Nat) (s : State) : Res :=
  .next (s.runCmd 0x13 g d fun x t =>
    let k := bits (x.w 2) 0 8
    let p := (t.rg g).part
    let cs := x.cores 3
    match t.slot? k with
    | none => t.finishCmd g d stWrongState []
    | some m =>
      if m.part != p then t.finishCmd g d stNotOwner []
      else if (x.w 2).getLsbD 8 then (t.updSlot k fun y => { y with pin := none }).finishCmd g d stOK []
      else if m.state != .ready then t.finishCmd g d stWrongState []
      else if cs == 0 || cs &&& ~~~t.partCores p != 0 then t.finishCmd g d stBadField []
      else if sumBy (fun c => (t.core c).residentBytes) (coreList cs) < m.hdr.bytes || !t.copiesFit k cs then
        t.finishCmd g d stNoResource []
      else (((t.updSlot k fun y => { y with pin := some cs }).placeCopies k cs).fillResident m cs).finishCmd g d stOK [])

/-! ### PREFIX (R229, R230) -/

/-- PREFIX (0x18): create, pin, unpin or drop a cached prefix. -/
def execCmdPrefix (g d : Nat) (s : State) : Res :=
  .next (s.runCmd 0x18 g d fun x t =>
    let p := (t.rg g).part
    let op := bits (x.w 2) 0 2
    if op = 0 then
      let k := bits (x.w 2) 8 8
      let n := (x.w 6).toNat
      match t.slot? k with
      | none => t.finishCmd g d stWrongState []
      | some m =>
        if m.part != p then t.finishCmd g d stNotOwner []
        else if m.state != .ready then t.finishCmd g d stWrongState []
        else if n = 0 then t.finishCmd g d stBadField []
        else if t.hostFails (x.d64 4) (4 * n) then t.finishCmd g d stBadAddr []
        else
          match (List.range 65536).find? fun i => (t.prefix? i).isNone with
          | none => t.finishCmd g d stNoResource []
          | some i =>
            let y : KvPrefix :=
              { id := i, part := p, slot := k, tokens := wordsOf (t.hostRead (x.d64 4) (4 * n)), pages := [], pinned := false
                done := false, declared := false, cmd := some (g, d) }
            (t.updCaches fun c => { c with prefixes := insertBy (·.id) y c.prefixes }).queueJob (.prefixComp i) p 1
    else
      let i := bits (x.w 3) 0 16
      match t.prefix? i with
      | none => t.finishCmd g d stBadField []
      | some y =>
        let ws : List Word := [BitVec.ofNat 32 i, BitVec.ofNat 32 y.pages.length]
        if y.part != p then t.finishCmd g d stNotOwner []
        else if !y.done then t.finishCmd g d stWrongState []
        else if op = 1 then (t.pinPrefix i true).finishCmd g d stOK ws
        else if op = 2 then (t.pinPrefix i false).finishCmd g d stOK ws
        else (t.dropPrefix i).finishCmd g d stOK ws)

/-- Pages that n tokens of a model's prefix take: K and V of each KV head, or latent, of each self-attention layer, in the
layer's page format (Table 14-9, Table 8-2). -/
def prefixShapes (h : ImageHdr) (n : Nat) : List (Nat × Nat × Nat × Nat) :=
  (h.layers.filter fun l => (l.getD 0 0).toNat == 2).flatMap fun l =>
    let b (i : Nat) : Nat := (l.getD i 0).toNat
    let fmt := b 4 % 16
    let run (kind shape : Nat) : List (Nat × Nat × Nat × Nat) :=
      let t := max 1 (pageTokens kind fmt shape)
      (List.range (ceilDiv n t)).map fun i => (kind, fmt, shape, i * t)
    if b 5 != 0xFF then run 2 (b 5)
    else (List.range (b 3)).flatMap fun _ => run 0 (b 1) ++ run 1 (b 1)

/-- Bytes of free values, and the state after them. -/
def State.freeBytes (n : Nat) (s : State) : List Byte × State :=
  ((List.range n).map fun i => BitVec.ofNat 8 (Config.freeValue (s.free + i)).toNat, { s with free := s.free + n })

/-- One page of a prefix, full of what the model's program computes, which the model does not know; bytes of no token read zero (R201,
notes/assumptions/29.md). -/
def State.prefixPage (k part model tokens : Nat) (named : List Nat) (q : Nat × Nat × Nat × Nat) (s : State) : State :=
  match s.takeFrame part named with
  | none => s
  | some (fr, t) =>
    let n := t.newPageNum
    let have' := min (pageTokens q.1 q.2.1 q.2.2.1) (tokens - q.2.2.2)
    let now := t.tb.now
    let pg := { Page.fresh n part q.1 q.2.1 q.2.2.1 q.2.2.2 0 model fr with
      refc := 0, cached := true, nowr := true, filln := have', sealn := have', idleSince := now }
    let b := (t.makePage pg).freeBytes 16384
    let t := b.2.landPage pg fr (clipTokens q.1 q.2.1 q.2.2.1 have' b.1)
    let t := t.updCaches fun c =>
      { c with prefixes := updWhere (fun y => y.id == k) (fun y => { y with pages := y.pages ++ [n] }) c.prefixes }
    t.toReclaim n

/-- PREFIX_DONE: the prefix is computed and its pages are CACHED; `pages` names frames that placement prefers (R229). -/
def execPrefixDone (pfx : Nat) (pages : List Nat) (s : State) : Res :=
  .next (match s.prefix? pfx with
    | none => s
    | some x =>
      if !s.alive || x.done then s
      else
        match s.slot? x.slot with
        | none => s
        | some m =>
          let s := s.forEach (prefixShapes m.hdr x.tokens.length) (State.prefixPage pfx x.part x.slot x.tokens.length pages)
          let s := s.updCaches fun c =>
            { c with prefixes := updWhere (fun y => y.id == pfx) (fun y => { y with done := true, cmd := none }) c.prefixes }
          let s := s.endJob (.prefixComp pfx)
          match x.cmd with
          | some c =>
            s.finishCmd c.1 c.2 stOK [BitVec.ofNat 32 pfx, BitVec.ofNat 32 (((s.prefix? pfx).map (·.pages.length)).getD 0)]
          | none => s)

/-! ### SKV_CTL (R251, R252, R264) -/

/-- The pages of a build: in use, of the partition, and of one element width; none otherwise. -/
def State.buildSet (s : State) (p : Nat) (nums : List Nat) : Option (Nat × List Page) :=
  let pgs := nums.filterMap s.page?
  match pgs with
  | [] => none
  | pg :: _ =>
    if pgs.length = nums.length ∧ pgs.all fun q => q.part == p && fmtEw q.fmt == fmtEw pg.fmt then some (fmtEw pg.fmt, pgs) else none

/-- SKV_CTL (0x19): a pin of a data class, a table load, or a build over pages. A loaded table whose entries R245 refuses (a
zero entry, two equal entries) is BAD_FIELD. -/
def execCmdSkvCtl (g d : Nat) (s : State) : Res :=
  .next (s.runCmd 0x19 g d fun x t =>
    let p := (t.rg g).part
    let op := bits (x.w 2) 0 2
    let m := bits (x.w 2) 2 8
    let cls := bits (x.w 2) 10 3
    let mode := bits (x.w 2) 13 2
    let ts := bits (x.w 2) 15 3
    let target := (t.skvSlot p ts).target
    let blocked := t.skvValid p ts target
    let done (t : State) : State := t.finishCmd g d stOK [BitVec.ofNat 32 target]
    if op = 0 then
      (match t.slot? m with
      | none => t.finishCmd g d stWrongState []
      | some y =>
        if y.part != p then t.finishCmd g d stNotOwner []
        else if 4 < cls || (mode == 2 && 3 < ts) then t.finishCmd g d stBadField []
        else
          (t.updCaches fun c =>
            let rest := c.skvPins.filter fun k => !(k.part == p && k.model == m && k.cls == cls)
            { c with skvPins := if mode = 0 then rest else ⟨p, m, cls, mode - 1, ts⟩ :: rest }).finishCmd g d stOK [0])
    else if op = 1 then
      if t.hostFails (x.d64 4) 64 then t.finishCmd g d stBadAddr []
      else
        let bs := t.hostRead (x.d64 4) 64
        let ew := field bs 0 1
        let n := field bs 1 1
        let es := (elemsOf ew (bs.drop 4)).take n
        if 2 < ew || 15 < n || es.contains 0 || decide (¬ es.Nodup) then t.finishCmd g d stBadField []
        else if blocked then t.finishCmd g d stBusy []
        else done (t.putTable p ts ew es)
    else if op = 2 then
      let n := (x.w 6).toNat
      if n = 0 then t.finishCmd g d stBadField []
      else if t.hostFails (x.d64 4) (4 * n) then t.finishCmd g d stBadAddr []
      else
        match t.buildSet p ((wordsOf (t.hostRead (x.d64 4) (4 * n))).map (·.toNat)) with
        | none => t.finishCmd g d stBadField []
        | some (ew, pgs) =>
          match t.rawPages pgs with
          | .error e => t.skiverMismatch none e.1 e.2.1 e.2.2
          | .ok raws =>
            let t := t.buildPass p ts ew (raws.map (·.2))
            if blocked then t.finishCmd g d stBusy [] else done t
    else t.finishCmd g d stBadField [])

/-! ### REGION_PIN (R271, R415) -/

/-- Streams whose record has a byte among n bytes of SPM from device address a. -/
def State.recordsIn (s : State) (a n : Nat) : List Stream :=
  s.work.streams.filter fun x => x.record.spm.elim false fun b => meets b (x.record.tiles * 16384) a n

/-- The Saddler moves its own data out of rows of a slice: resident records swap out at once, input areas move within the
slice. -/
def State.clearRows (c first n : Nat) (s : State) : State :=
  let a := c * 2 ^ 23 + first * 512
  let s := s.forEach (s.recordsIn a (n * 512)) fun x t =>
    if x.record.state.inSpm then (t.updRec x.id fun r => { r with state := .spill }).swapOutEnd x.id else t.cancelMove x.id
  let ins := s.work.streams.filter fun x => s.halfTiles x != 0 && meets x.input (2 * s.halfTiles x * 16384) a (n * 512)
  s.forEach ins fun x t => t.moveInput (coreSetOf [c]) x.id

/-- A region pin takes effect: the entry is written and pinned, or its pin is cleared. -/
def State.applyRegion (c e : Nat) (r : Word) (clear : Bool) (s : State) : State :=
  if clear then (s.updCore c fun k => { k with rgnPins := updAt e (fun _ => false) k.rgnPins, rgnWait := none }).mapCore c
  else
    ((s.updCore c fun k =>
      { k with regions := updAt e (fun _ => r) k.regions, rgnPins := updAt e (fun _ => true) k.rgnPins, rgnWait := none }).clearRows c
        (rgnFirst r) (rgnRows r)).mapCore c

/-- Region pins of a core that wait take effect as soon as no launch holds it and no hand-off reads a record that must leave (R353,
R415). -/
def State.regionPins (c : Nat) (s : State) : State :=
  match (s.core c).rgnWait with
  | some (g, d, e, r, cl) =>
    let held := !cl && (s.recordsIn (c * 2 ^ 23 + rgnFirst r * 512) (rgnRows r * 512)).any fun x => x.record.mirRead
    if s.coreDecided c || held then s else (s.applyRegion c e r cl).finishCmd g d stOK []
  | none => s

/-- MIRROR_READ_DONE: the mirroring channel has read every tile that the hand-off marked (R353); a region pin that waited for it takes
effect. -/
def execMirrorReadDone (id : Nat) (u : Upset) (s : State) : Res :=
  .next (match s.stream? id with
    | some x =>
      if s.alive && x.record.mirRead then
        let s := s.moveErrors 8 u (x.recordRange :: (s.pagesToSend x).map Page.range)
        if s.keeper.fstop then s
        else (s.mirrorRead id).forEach ((s.cores.filter fun k => k.rgnWait.isSome).map (·.num)) State.regionPins
      else s
    | none => s)

/-- REGION_PIN (0x1A). -/
def execCmdRegionPin (g d : Nat) (s : State) : Res :=
  .next (s.runCmd 0x1A g d fun x t =>
    let c := bits (x.w 2) 0 8
    let e := bits (x.w 2) 8 4
    let cl := (x.w 2).getLsbD 12
    let r := x.w 3 &&& 0x7FFFFFFF
    if !(c < 160 && (t.partCores (t.rg g).part).getLsbD c) || (!cl && (12288 < rgnFirst r + rgnRows r || rgnKind r == 7)) then
      t.finishCmd g d stBadField []
    else if (t.core c).rgnWait.isSome then s
    else (t.updCore c fun k => { k with rgnWait := some (g, d, e, r, cl) }).regionPins c)

/-! ### WINDOW (R281, R284, R415) -/

/-- WINDOW (0x1B): window 14 or 15 of a core of the partition, for the partner or the host. An instruction that waited for the window
goes on (R283). -/
def execCmdWindow (g d : Nat) (s : State) : Res :=
  .next (s.runCmd 0x1B g d fun x t =>
    let c := bits (x.w 2) 0 8
    let w := 14 + bits (x.w 2) 8 1
    if !(c < 160 && (t.partCores (t.rg g).part).getLsbD c) then t.finishCmd g d stBadField []
    else if (x.w 2).getLsbD 12 then
      (t.updCore c fun k => { k with windows := updAt w (fun y => { y with isOpen := false }) k.windows }).rouse.finishCmd g d stOK []
    else if bits (x.w 3) 28 2 < 2 || !windowLegal (x.w 3) (x.w 4) then t.finishCmd g d stBadField []
    else
      (t.updCore c fun k => { k with windows := updAt w (fun _ => openWindow (x.w 3) (x.w 4)) k.windows }).rouse.finishCmd g d stOK [])

/-! ### TENSOR_MOVE (R334, R415, R430) -/

/-- The row of a core into which a TENSOR_MOVE copies its descriptor: the row that the Saddler's firmware chooses where it is a WORK
row, else the first WORK row; the chosen one where the core has no WORK region (R415, notes/assumptions/113.md). -/
def Core.workRow (k : Core) (row : Nat) : Nat :=
  if k.kindAt row = 5 then row else ((k.segments.find? fun g => g.2.2 == 5).map (·.1)).getD (min row 12287)

/-- TENSOR_MOVE (0x1C): one DTENS on a core of the partition, which is not started. -/
def execCmdTensorMove (g d row : Nat) (u : Upset) (s : State) : Res :=
  .next (s.runCmd 0x1C g d fun x t =>
    let c := bits (x.w 2) 0 8
    if !(c < 160 && t.coreOn c && (t.partCores (t.rg g).part).getLsbD c) then t.finishCmd g d stBadField []
    else if t.hostFails (x.d64 4) 192 then t.finishCmd g d stBadAddr []
    else
      let t := t.hostTensor c ((t.core c).workRow row) (t.hostRead (x.d64 4) 192) u
      if t.keeper.fstop then t else t.finishCmd g d stOK [])

end Sys2Proof.Machine
end

