-- ==== Sys2Proof/Machine/Saddler.lean ====
section
/-! DEFINITION. The Saddler's launch decision: clock conversions, the deadline monitor's prediction, membership, rows, main or
fallback, pages and moves (02_streams_and_beats.md, R34 to R58; 03, R81; 08, R204 to R208; 13, R365 to R384; 18, R565). -/

namespace Sys2Proof.Machine

open Sys2Proof

/-! ### The prediction (R373) -/

/-- An instruction of a unit that some pieces of have been done and that has not ended. -/
def Core.cutAt (k : Core) (p : CoreOp → Bool) : Bool := k.flights.any fun f => f.issued && f.prog != .start && p f.op

/-- Bytes of a core's engine contexts in tiles of 16 KiB: the accumulator where it holds sums, the open scan contexts, the live
buffers, the VE's context tile, and the progress tiles of the instructions that are cut: two of an attention pass, one of a VE
and of a Skiver instruction (R134, R160, R193, R223, R261). -/
def Core.engineBytes (k : Core) : Nat :=
  let att (o : CoreOp) : Bool := match o with
    | .att _ => true
    | _ => false
  let ve (o : CoreOp) : Bool := match o with
    | .stream _ _ => true
    | _ => false
  let sk (o : CoreOp) : Bool := match o with
    | .skx _ => true
    | .skc _ _ => true
    | _ => false
  16384 * (b01 (!k.acc.isEmpty) + (k.lu.filter Option.isSome).length + (k.bufs.filter (·.2)).length + 1 +
    2 * b01 (k.cutAt att) + b01 (k.cutAt ve) + b01 (k.cutAt sk))

/-- Bytes live on a core: its engine contexts, and the rows of its INPUT, WORK, STAGE and LAUNCH regions (R369). -/
def Core.liveBytes (k : Core) : Nat :=
  k.engineBytes + 512 * (k.rowsOfKind 3 + k.rowsOfKind 4 + k.rowsOfKind 5 + k.rowsOfKind 6)

/-- Predicted end of the runs on a group's cores at an effective priority of at least `prio`, with ticks up to `t`. -/
def State.runsEnd (s : State) (g : Group) (prio t : Nat) : Nat :=
  (s.work.jobs.filter fun j => j.grp?.isSome && coresMeet j.cores g.cores && prio ≤ j.eff && j.tick ≤ t).foldl
    (fun n j => max n (max s.tb.now j.predicted)) 0

/-- The end of the switch where the launch would pre-empt a running job (R368, R370). -/
def State.switchEnd (s : State) (g : Group) (prio t : Nat) : Nat :=
  if s.work.jobs.any fun j => j.phase == .running && coresMeet j.cores g.cores && j.eff < prio && t < j.predicted then
    let live := (coreList g.cores).foldl (fun n c => max n ((s.core? c).elim 0 Core.liveBytes)) 0
    t + 400 + ceilDiv live 150
  else 0

/-- Half cycles that the expander spends on n blocks (Table 9-6). -/
def blockHalves : Nat → List Byte → Nat
  | 0, _ => 0
  | n + 1, bs =>
    let h := leNat (bs.take 8)
    let e := ewElems (nbits h 2 2)
    let nnz := nbits h 16 10
    let form := nbits h 0 2
    let here := if form = 0 ∨ form = 3 then 1
      else 2 * max (max 1 (ceilDiv (2 * nnz) e)) (if form = 2 then ceilDiv (nbits h 26 10) 16 else 0)
    if bs.isEmpty then 0 else here + blockHalves n (bs.drop (nbits h 36 10))

/-- Half cycles of a stored tile: 16 cycles when it is not coded, else its blocks and 1 cycle at its start (R255). -/
def tileHalves (bs : List Byte) : Nat := if tileUncoded bs then 32 else 2 + blockHalves 32 (bs.drop 8)

/-- ns that filling a record takes at the rates R349 guarantees, on `n` cores of the record's die: 150 GB/s a core from HBM; from
the CXL tier the lower of the Skiver's rate and 121 GB/s of a port or 242 GB/s of the interleave. -/
def State.fillNs (s : State) (cs : CoreSet) (x : Stream) : Nat :=
  let n := max 1 ((coreList cs).filter fun c => c / 16 == x.record.die).length
  let raw := ceilDiv (x.record.tiles * 16384) (150 * n)
  let coded := match x.record.ext with
    | some e =>
      let bs := (s.devRead e.1 e.2).getD []
      let halves := sumBy (fun i => ((recordTile bs i).map tileHalves).getD 0) (List.range x.record.tiles)
      max (ceilDiv e.2 (if nbits e.1 44 1 = 1 then 242 else 121)) (nsOf (s.fminDie x.record.die) (128 * ceilDiv halves n))
    | none => raw
  match x.record.state with
  | .S => 0
  | .spill => ceilDiv ((tileList (x.record.dirty &&& tileMask x.record.tiles)).length * 16384) 150 + raw
  | .C => coded
  | .fillC => coded
  | .pro => coded + raw
  | _ => raw

/-- ns of the moves queued or started on a die at an effective priority of at least `prio`, those of stream `id` apart. -/
def State.movesNs (s : State) (cs : CoreSet) (d prio id : Nat) : Nat :=
  sumBy (fun m : Move =>
    if m.die == d && m.stream != id && prio ≤ m.eff then ((s.stream? m.stream).map (s.fillNs cs)).getD 0 else 0) s.work.moves

/-- Predicted end of the fills of rows that are not resident: each is queued now, starts 4 µs later or after the moves
ahead of it on its die, in the order of R348 (R349, R373). -/
def State.fillsEnd (s : State) (cs : CoreSet) (xs : List Stream) : Nat :=
  let now := s.tb.now
  let rows := sortBy (fun x : Stream => (3 - x.prio) * 2 ^ 14 + x.id) (xs.filter fun x => x.record.state != .S)
  let ends := rows.foldl (fun (acc : List (Nat × Nat)) x =>
    let d := x.record.die
    let from' := max (now + s.movesNs cs d x.prio x.id) ((getKey d acc).getD 0)
    putKey d (max (now + 4000) from' + s.fillNs cs x) acc) []
  ends.foldl (fun n e => max n e.2) 0

/-- End of the rows' previous chunks; a mirror read in progress ends at a free value of time, since the manual states no
formula for its predicted end (notes/assumptions/37.md). -/
def State.prevEnd (s : State) (xs : List Stream) : Nat :=
  let runs := (s.work.jobs.filter fun j => j.rows.any fun r => xs.any fun x => x.id == r.stream).foldl
    (fun n j => max n (max s.tb.now j.predicted)) 0
  if xs.any fun x => x.record.mirRead then max runs (s.tb.now + s.freeVal) else runs

/-- Predicted start and finish of a launch of group g at tick t (R373). -/
def State.predict (s : State) (g : Group) (xs : List Stream) (len t : Nat) : Nat × Nat :=
  let prio := xs.foldl (fun n x => max n x.prio) 0
  let start := max (max t (s.runsEnd g prio t)) (max (s.switchEnd g prio t) (max (s.fillsEnd g.cores xs) (s.prevEnd xs)))
  (start, start + nsOf (s.fmin g.cores) ((s.groupCosts g).1 * 256 + g.hist * xs.length * len))

/-! ### Membership (R40, R43, R55, R57, R383, R415) -/

/-- The group satisfies a stream's pins. -/
def Group.meets (g : Group) (p : Pins) : Bool :=
  (p.offset.elim true fun o => o == g.offset) && (p.slot.elim true fun k => k == g.slot) &&
    (p.group.elim true fun n => n == g.num) && (p.cores.elim true fun c => c == g.cores)

/-- Groups that no stream and no companion's main group keeps: they count as gone where another is placed. -/
def State.emptyGroups (s : State) : List Nat := (s.work.groups.filter fun g => (s.launchers g).isEmpty).map (·.num)

/-- A stream's input area stays, or finds rows and units on the dies of a core set (R102, R104). -/
def State.inputMoves (s : State) (x : Stream) (cores : CoreSet) : Bool :=
  let n := 2 * s.halfTiles x * 16384
  n = 0 || cores.getLsbD (x.input / 2 ^ 23) ||
    ((coreList cores).filter fun c => x.afe.all fun a => c / 16 == a.die || s.unitsRoom (c / 16) a.units).any fun c =>
      (s.inputSpot c n 0).isSome

/-- The stream joins a group, its input area moving with it (R102, R384); a new group takes its place among the groups, its history
seeded (R372). -/
def State.joinGroup (id : Nat) (g : Group) (s : State) : State :=
  let isNew := (s.group? g.num).isNone
  let s := s.updWork fun w =>
    { w with
      groups := if isNew then insertBy (·.num) g w.groups else w.groups
      streams := updWhere (fun x => x.id == id) (fun x => { x with group := g.num, offset := g.offset, slot := g.slot }) w.streams }
  let s := s.when isNew (State.seedHist g.num)
  let s := match s.stream? id with
    | some x => if g.cores.getLsbD (x.input / 2 ^ 23) then s else s.moveInput g.cores id
    | none => s
  s.settleGroup g

/-- What an open stream asks of placement when it leaves its group; its home stays and is re-homed afterwards (R384). -/
def State.streamWant (s : State) (x : Stream) : Want where
  model := x.main
  part := x.part
  cad := x.cadence
  len := x.maxLen
  room := (x.budget - s.marginOf x) * 1000
  tiles := 0
  units := (x.afe.map (·.units)).getD 0
  input := 2 * s.halfTiles x * 16384
  pins := { x.pins with group := none }
  source := x.source
  avoid := 0
  gone := s.emptyGroups

/-- A new group for a stream that leaves its own, near the old launch point and die where the rules leave a choice (R56, R57). -/
def State.pinnedGroup (s : State) (g : Group) (x : Stream) : Option Group :=
  let hint : Placement := ⟨4096, g.offset, g.slot, (coreDies g.cores).headD 0, 0⟩
  let w := s.streamWant x
  match (x.pins.group.filter fun n => (s.group? n).isNone).or (if x.pins.group.isSome then none else s.newGroupNum 4096) with
  | none => none
  | some n => (s.site w hint).map fun p => s.wantGroup w n x.prio p.1 p.2.1 p.2.2

/-- Members of a group that it no longer suits: their pins ask for another (R43, R57). -/
def State.leavers (s : State) (g : Group) : List Nat :=
  ((s.members g.num).filter fun x => !x.decided && x.state != .opening && x.state != .closing && !g.meets x.pins).map (·.id)

/-- A stream that has left joins a group that meets its pins, or a new one; where none can be had it stays where it was. -/
def State.rejoinPins (g : Group) (id : Nat) (s : State) : State :=
  match s.stream? id with
  | none => s
  | some x =>
    let old := s.work.groups.find? fun h =>
      h.part == x.part && h.takes x.main x.cadence x.pins && h.meets x.pins && h.num != g.num &&
        (s.members h.num).length < 512 && s.inputMoves x h.cores
    match old.or (s.pinnedGroup g x) with
    | some h => s.joinGroup id h
    | none => s.updStream id fun x => { x with group := g.num }

/-- Membership at a launch decision: every leave comes before any join (R43). Between the two a stream is of no group. -/
def State.regroup (g : Group) (s : State) : State :=
  let ids := s.leavers g
  let s := s.updStreams (updWhere (fun x => ids.contains x.id) fun x => { x with group := 4096 })
  (s.forEach ids (State.rejoinPins g)).when (!ids.isEmpty) State.prune

/-- No linked stream that its group served in its source's beat is served worse (R575). -/
def State.linksHold (s t : State) : Bool :=
  t.work.streams.all fun y => y.source.isNone || t.linkRank y.cadence y.source y.offset y.slot == 0 ||
    (s.stream? y.id).all fun x => s.linkRank x.cadence x.source x.offset x.slot != 0

/-- The members of group g join another of its model, cadence and priority: at another beat offset or a later slot, with at most 256
rows together and every row on time, where neither is held by a pin (R383); their dies have the AFE units (R104), and linked
streams stay as well placed as they were (R575). -/
def State.mergeInto (s : State) (g : Group) (beat : Nat) : Option State :=
  let xs := s.members g.num
  if s.pinnedPlace g || xs.isEmpty || xs.any (fun x => x.decided || x.state == .opening) then none
  else
    s.work.groups.findSome? fun h =>
      let ys := s.members h.num
      let all := xs ++ ys
      let t := s.tickTime (beat + (h.offset + g.cadence - g.offset) % g.cadence) h.slot
      let fin := (s.predict h all (longest all) t).2
      if h.num != g.num && h.model == g.model && h.part == g.part && h.cadence == g.cadence && h.prio == g.prio &&
          (h.offset != g.offset || g.slot < h.slot) && h.companionOf.isNone && !ys.isEmpty && !s.pinnedPlace h &&
          all.length ≤ 256 && all.all (fun x => s.onTime x t fin) && s.groupUnitsFit g.num h.cores &&
          xs.all (fun x => s.inputMoves x h.cores) then
        let u := s.forEach (xs.map (·.id)) fun i t => t.joinGroup i h
        if s.linksHold u then some u.prune else none
      else none

/-! ### Rows (R30, R36, R37, R41, R51, R52, R54, R379) -/

/-- A row as the decision finds it, before its pages are settled. -/
def newRow (id len : Nat) (chunk : Option Chunk) (marks : List Nat) (flags deadline source time : Nat) (freeze mark : Bool) : LaunchRow :=
  { stream := id, len := len, chunk := chunk, marks := marks, flags := flags, deadline := deadline, held := 0, source := source
    freeze := freeze, time := time, cmdMark := mark, views := [], spans := 1, staged := [], nonfinite := false }

/-- Step length in ns of a model slot. -/
def State.stepNs (s : State) (slot : Nat) : Nat := ((s.slot? slot).map fun m => m.hdr.step * 1000).getD 0

/-- A member that may take a row at this beat. -/
def Stream.mayLaunch (x : Stream) (beat : Nat) : Bool :=
  (match x.state with
    | .parked => true
    | .cold => true
    | .resident => true
    | .armed => true
    | .running => true
    | _ => false) &&
  !x.handback && (x.cmd.elim true fun c => c.1 != 2 && c.1 != 3) && (x.lastBeat.elim true fun b => b < beat)

/-- Marks of a launch: step 0 of a reset command, and the chunk's mark when it lies below the length; a mark beyond it
raises RESET_RANGE. -/
def rowMarks (resetMark : Bool) (mark : Option Nat) (len : Nat) : List Nat × Nat :=
  let a := if resetMark then [0] else []
  match mark with
  | none => (a, 0)
  | some m => if m < len then ((a ++ [m]).eraseDups, 0) else (a, 64)

/-- The row that a member takes at tick t: its first fetched chunk, or for a linked stream the source output sealed since its
previous launch; none when a host-fed stream has no chunk. A linked chunk has one step for each step of source output, whatever the
two models' step lengths, and its first launch covers the output since the source opened (R30, notes/assumptions/115.md). Held steps
come before the chunk's own: the offset of a reset mark counts from the first of them, and is compared with the lengthened length
(R54, R379, notes/assumptions/115.md). -/
def State.rowOf (s : State) (x : Stream) (t : Nat) : Option LaunchRow :=
  let deadline := t + x.budget * 1000
  match x.source with
  | some src =>
    let fresh := min (((s.stream? src).map (·.sealed)).getD 0 - x.covered) x.maxLen
    let len := max 1 fresh + x.carriedSteps
    some (newRow x.id len none (rowMarks x.resetMark none len).1 0 deadline fresh (if fresh = 0 then 0 else x.sealTime) x.freeze x.resetMark)
  | none =>
    match x.waiting with
    | c :: _ =>
      if !c.ready then none
      else
        let len := c.len + x.carriedSteps
        let m := rowMarks x.resetMark c.mark len
        some (newRow x.id len (some c) m.1 (c.flags + m.2) deadline 0 c.ek x.freeze x.resetMark)
    | [] => none

/-! ### Pages at a launch decision (R204, R205, R208) -/

/-- Longest context window of a model's cross-attention layers; 0 where one has none. -/
def crossWindow (h : ImageHdr) : Nat :=
  let ws := (h.layers.filter fun l => (l.getD 0 0).toNat == 3).map fun l => leNat ((l.drop 16).take 4)
  if ws.contains 0 then 0 else ws.foldl max 0

/-- A page lies wholly outside a window of `w` positions that ends at `newest`; 0 is no window. -/
def Page.outside (p : Page) (w newest : Nat) : Bool := w != 0 && p.p0 + p.filln + w ≤ newest

/-- Self-attention pages wholly outside the window of their layer. -/
def State.staleSelf (s : State) (x : Stream) : List Nat :=
  let sh := ((s.slot? x.main).map fun m => selfShapes m.hdr).getD []
  let ps := s.selfPages x
  (ps.filter fun p =>
    let newest := (ps.filter fun q => q.kind == p.kind && q.fmt == p.fmt && q.shape == p.shape).foldl
      (fun n q => max n (q.p0 + q.filln)) 0
    (sh.filter fun q => q.1 == p.kind && q.2.1 == p.fmt && q.2.2.1 == p.shape).all fun q => p.outside q.2.2.2 newest).map (·.num)

/-- Output pages of a source: those it holds apart from its self-attention pages, with a sealed token. -/
def State.sourcePages (s : State) (src : Stream) : List Page :=
  let own := (s.selfPages src).map (·.num)
  (src.pages.filterMap s.page?).filter fun p => !own.contains p.num && 0 < p.sealn

/-- A page of the reader that stands for page p of its source: p itself, or a copy of it under R208. -/
def Page.standsFor (q p : Page) : Bool :=
  q.num == p.num || q.orig == some p.num

/-- A copy under R208 takes the tokens that its original has sealed since. -/
def State.refreshCopy (p q : Page) (s : State) : State :=
  if q.num == p.num || p.sealn ≤ q.sealn then s
  else
    match s.pageRaw p with
    | .ok raw =>
      (s.frameWrite q.tier q.frame (clipTokens p.kind p.fmt p.shape p.sealn raw)).updPage q.num fun y =>
        { y with filln := p.sealn, sealn := p.sealn }
    | .error e => s.skiverMismatch none (frameAddr p.tier p.frame) e.1 e.2

/-- A page need that finds no page at a decision: an eviction begins, or the hold is counted (R227). -/
def State.lacking (l : Lack) (x : Stream) (s : State) : State :=
  match l with
  | .evict n => s.startEvict n x
  | .hold => s.bump (ctrKv 5)

/-- A linked stream gains a page of its source that its window reaches; where a copy under R208 finds no page, the first step of its
chunk is held, and the next decision tries again (notes/assumptions/114.md). -/
def State.reachPage (id : Nat) (p : Page) (held : Bool) (s : State) : Bool × State :=
  let n := ((s.stream? id).map (·.pages.length)).getD 0
  match s.addRef id p.num [], s.stream? id with
  | .ok t, _ => (held, t.updStream id fun y => { y with ctx := y.ctx ++ y.pages.drop n })
  | .error l, some x => (true, s.lacking l x)
  | .error _, none => (held, s)

/-- The context window of a linked stream moves (Table 8-5): pages it reaches gain its reference, pages wholly outside lose it,
copies are refreshed. Answers whether the first step is held. -/
def State.contextWindow (id : Nat) (s : State) : Bool × State :=
  match s.stream? id with
  | none => (false, s)
  | some x =>
    match x.source.bind s.stream?, s.slot? x.main with
    | some src, some m =>
      let w := crossWindow m.hdr
      let ps := s.sourcePages src
      let newest := ps.foldl (fun n p => max n (p.p0 + p.sealn)) 0
      let inside := ps.filter fun p => !(w != 0 && p.p0 + p.sealn + w ≤ newest)
      let held := x.ctx.filterMap s.page?
      let s := s.letGo id ((held.filter fun q => !inside.any fun p => q.standsFor p).map (·.num))
      let r := inside.foldl (fun a p => match held.find? fun q => q.standsFor p with
        | some q => (a.1, a.2.refreshCopy p q)
        | none => a.2.reachPage id p a.1) (false, s)
      (r.1, r.2.writePageList id)
    | _, _ => (false, s)

/-- What a reader sees of its pages: the SEALN that each has now (R204). -/
def State.pageViews (s : State) (id : Nat) : List (Nat × Nat) :=
  match s.stream? id with
  | none => []
  | some x => ((x.pages.filter fun n => !x.leaving.contains n).filterMap s.page?).map fun p => (p.num, p.sealn)

/-- Span, of k, that holds the i-th of n pages in position order: contiguous runs of whole pages whose lengths differ by at most one
(R225, R333). -/
def spanOf (n k i : Nat) : Nat :=
  ((List.range k).find? fun j => let r := partRange n 1 k j; r.1 ≤ i && i < r.2).getD 0

/-! ### Main or fallback (R374, R376, R380, R381) -/

/-- What a companion asks of placement: the launch point of its main group, and cores outside its core set (R376). -/
def State.compWant (s : State) (g : Group) (fb : Nat) : Want where
  model := fb
  part := g.part
  cad := g.cadence
  len := longest (s.members g.num)
  room := ((s.members g.num).foldl (fun n x => min n (x.budget - s.marginOf x)) (16 * 40000)) * 1000
  tiles := 0
  units := 0
  input := 0
  pins := ⟨some g.offset, some g.slot, none, none, none⟩
  source := none
  avoid := g.cores
  gone := []

/-- The companion group of a main group on a fallback slot: the one that exists, else a new one, placed as any group is; where R44
leaves no core at the tick, on the cores of the least used die, where it waits or pre-empts. None can be formed where a number is
lacking, or a core outside the main group's set (R376). -/
def State.companion (s : State) (g : Group) (fb : Nat) : Option Group :=
  match s.work.groups.find? fun h => h.companionOf == some g.num && h.model == fb with
  | some h => some h
  | none =>
    let w := s.compWant g fb
    let any := ((s.dieOrder w 10).head?).map fun d => (s.coresOf w [d], g.offset, g.slot)
    match s.newGroupNum 4096, (s.site w noHint).or any with
    | some n, some p => some { s.wantGroup w n g.prio p.1 p.2.1 p.2.2 with companionOf := some g.num }
    | _, _ => none

/-- A companion that is new joins the groups, at its main group's launch point, with its history seeded (R372, R376). -/
def State.formCompanion (h : Group) (s : State) : State :=
  if (s.group? h.num).isSome then s
  else ((s.updWork fun w => { w with groups := insertBy (·.num) h w.groups }).seedHist h.num).settleGroup h

/-- The fallback of a stream is usable, its companion apart. -/
def State.fbUsable (s : State) (x : Stream) : Bool :=
  nbits (s.reg 0x30000) 1 1 == 1 && !x.fbDisabled &&
    (x.fb.bind s.slot?).any fun m => m.state == .ready && m.part == x.part

/-- The choice of R374 for one row: the companion it runs in, the stream's mode and count after, and whether SDL_NOFB counts. -/
def State.chooseModel (s : State) (g : Group) (x : Stream) (onTime : Bool) : Option Group × Bool × Nat × Bool :=
  let able := s.fbUsable x
  let comp := if able then x.fb.bind (s.companion g) else none
  let noComp := able && comp.isNone
  match comp with
  | some h =>
    if x.fbForced then (some h, true, 0, false)
    else if !x.fbMode then (if onTime then (none, false, x.fbCount, false) else (some h, true, 0, false))
    else
      let n := if onTime then x.fbCount + 1 else 0
      if n = 3 then (none, false, n, false) else (some h, true, n, false)
  | none => (none, false, x.fbCount, !onTime && (!x.fbMode || noComp))

/-! ### The decision -/

/-- The decision takes from a stream what its launch needs, and its record's moves follow; its pages are settled, and the row keeps
what its reader sees of them and over how many cores its heads are split, which the Saddler chooses: a free value (R36, R46, R51,
R204, R205, R229, Table 12-5). -/
def State.takeRow (cores : CoreSet) (r : LaunchRow) (beat tick : Nat) (mode : Bool) (count : Nat) (s : State) : LaunchRow × State :=
  match s.stream? r.stream with
  | none => (r, s)
  | some x =>
    let adv := match x.source.bind s.stream? with
      | some y => r.source * s.stepNs y.main
      | none => 0
    let s := s.updStream x.id fun x =>
      { x with
        decided := true, lastBeat := some beat, resetMark := false, carriedSteps := 0, fbMode := mode, fbCount := count
        waiting := if r.chunk.isSome then x.waiting.drop 1 else x.waiting
        covered := x.covered + r.source, sealTime := if x.sealTime = 0 then 0 else x.sealTime + adv }
    let s := if r.marks.isEmpty then s.letGo x.id (s.staleSelf x) else s.letGoSelf x.id
    let c := if x.source.isSome then s.contextWindow x.id else (false, s.writePageList x.id)
    let s := c.2.when c.1 (State.bump (ctrSdl 5))
    let r := { r with held := b01 c.1, views := s.pageViews x.id, spans := 1 + s.freeVal % max 1 (coreList cores).length }
    (r, s.nextFree.decideMoves x.id x.prio tick)

/-- The launch job of a group with rows: one row a stream, ascending (R41, R42, R365). -/
def State.launchJob (g : Group) (fb : Bool) (rows : List LaunchRow) (beat tick : Nat) (pred : Nat × Nat) (s : State) : State :=
  if rows.isEmpty then s
  else
    let base := rows.foldl (fun n r => max n (((s.stream? r.stream).map (·.prio)).getD 0)) 0
    let j : Job :=
      { id := s.work.nextJob, kind := .launch g.num, part := g.part, base := base, age := 0, due := tick, phase := .decided
        cores := g.cores, rows := rows, len := maxLen rows, beat := beat, tick := tick, fb := fb, predicted := pred.2
        start := pred.1, waitFrom := tick, woken := false, lateArm := false, deferred := false }
    s.updWork fun w => { w with jobs := w.jobs ++ [j], nextJob := w.nextJob + 1 }

/-- A host-fed member without a chunk: its no-input counter counts (R37). -/
def Stream.countNoInput (beat : Nat) (x : Stream) : Stream :=
  { x with
    noInput := min (x.noInput + 1) all32, noInputOvf := x.noInputOvf || all32 ≤ x.noInput + 1, lastBeat := some beat }

/-- The choice of R374 for each row in turn; a companion that is needed and new is formed before the next choice (R376). -/
def State.pickRows (g : Group) (tick finish : Nat) :
    List (LaunchRow × Stream) → State → List (LaunchRow × Option Group × Bool × Nat × Bool) × State
  | [], s => ([], s)
  | q :: rest, s =>
    let ch := s.chooseModel g q.2 (s.onTime q.2 tick finish)
    let r := State.pickRows g tick finish rest (match ch.1 with
      | some h => s.formCompanion h
      | none => s)
    ((q.1, ch) :: r.1, r.2)

/-- The rows that a decision takes, one stream after the other, each with the group it runs in. -/
def State.takeRows (g : Group) (beat tick : Nat) :
    List (LaunchRow × Option Group × Bool × Nat × Bool) → State → List (LaunchRow × Option Group) × State
  | [], s => ([], s)
  | q :: rest, s =>
    let t := s.takeRow ((q.2.1.getD g).cores) q.1 beat tick q.2.2.1 q.2.2.2.1
    let r := State.takeRows g beat tick rest t.2
    ((t.1, q.2.1) :: r.1, r.2)

/-- The rows of a decision go to the main group and to its companions, with the counters of R374. -/
def State.assignRows (g : Group) (beat tick : Nat) (rows : List LaunchRow) (s : State) : State :=
  let xs := rows.filterMap fun r => s.stream? r.stream
  let pred := s.predict g xs (maxLen rows) tick
  let s := s.when (xs.any fun x => x.record.mirRead) State.nextFree
  let picked := s.pickRows g tick pred.2 (rows.zip xs)
  let s := picked.2.count (ctrSdl 2) (picked.1.filter fun q => q.2.2.2.2).length
  let s := s.count (ctrSdl 1) (picked.1.filter fun q => q.2.1.isSome).length
  let took := s.takeRows g beat tick picked.1
  let s := took.2
  if s.keeper.fstop then s else
  let s := s.launchJob g false ((took.1.filter fun q => q.2.isNone).map (·.1)) beat tick pred
  s.forEach ((took.1.filterMap fun q => q.2.map (·.num)).eraseDups) fun n t =>
    match t.group? n with
    | none => t
    | some h =>
      let t := t.placeCopies h.model h.cores
      let rs := (took.1.filter fun q => q.2.any fun k => k.num == n).map fun q => { q.1 with flags := q.1.flags + 256 }
      t.launchJob h true rs beat tick (t.predict h (rs.filterMap fun r => t.stream? r.stream) (maxLen rs) tick)

/-- The decision of a group whose place and members stand: its rows, and the members without a chunk (R36, R37, R41). -/
def State.decide (g : Group) (beat tick : Nat) (s : State) : State :=
  let s := s.placeCopies g.model g.cores
  let xs := (s.members g.num).filter fun x => x.mayLaunch beat
  let rows := xs.filterMap fun x => s.rowOf x tick
  let idle := (xs.filter fun x => (s.rowOf x tick).isNone).map (·.id)
  let s := s.updStreams fun ys => ys.map fun y => if idle.contains y.id then y.countNoInput beat else y
  (s.when (!rows.isEmpty) (State.assignRows g beat tick rows)).prune

/-- LAUNCH_DECISION of a group for its tick of a beat, at the tick minus the decision lead: a core-set pin takes effect, members leave
and join, the group merges into another or takes its rows (R35 to R43, R373 to R384). -/
def execLaunchDecision (grp beat : Nat) (s : State) : Res :=
  .next (match s.group? grp with
    | none => s
    | some g =>
      let tick := s.tickTime beat g.slot
      if !s.alive || !s.work.started || g.companionOf.isSome || beat % g.cadence != g.offset || !s.partStarted g.part ||
          s.work.partReset.contains g.part || tick < s.tb.now then s
      else
        let s := (s.advanceTo (tick - s.leadNs)).applyCores grp
        let s := s.regroup ((s.group? grp).getD g)
        match s.group? grp with
        | none => s
        | some g => (s.mergeInto g beat).getD (s.decide g beat tick))

end Sys2Proof.Machine
end

