-- ==== Sys2Proof/Machine/Strobe.lean ====
section
/-! DEFINITION. From the wake to the first instruction: core power states, the tick, pre-emption, switches, resumption and
aging (02_streams_and_beats.md, Tables 2-3 and 2-4; 03, R74 to R80; 13, R366 to R371, R385, R386; 18, R507 to R510, R522). -/

namespace Sys2Proof.Machine

open Sys2Proof

/-! ### Jobs of a group, and time -/

/-- The launch job of a group in a phase; the one with the earliest tick is the first in the list. -/
def State.jobIn (s : State) (grp : Nat) (p : Job → Bool) : Option Job :=
  s.work.jobs.find? fun j => j.grp? == some grp && p j

/-! ### Core power states (R77 to R80, R507 to R509) -/

/-- Effective wake lead of a state: the larger of its register and its wake time plus 100 ns (R77). -/
def State.wakeLead (s : State) : PState → Nat
  | .doze => max (s.reg 0x20048) 250
  | .nap => max (s.reg 0x2004C) 4100
  | .deep => max (s.reg 0x20050) 60100
  | _ => 0

/-- Entry times (Table 18-3). -/
def PState.entryNs : PState → Nat
  | .armed => 10
  | .doze => 40
  | .nap => 1500
  | .deep => 12000
  | .active => 0

/-- Depth of a state, shallowest first. -/
def PState.depth : PState → Nat
  | .active => 0
  | .armed => 1
  | .doze => 2
  | .nap => 3
  | .deep => 4

/-- The deepest state that the floor of a core allows (R80, R545); none while capping is engaged (R522). -/
def State.floorOf (s : State) (c : Nat) : PState :=
  if s.capping then .deep
  else
    match nbits (s.reg (corBase c + 0x8)) 0 3 with
    | 1 => .nap
    | 2 => .doze
    | 3 => .armed
    | _ => .deep

/-- Tick of a group at or after a time: within two cadences of the current beat. -/
def State.groupNext (s : State) (g : Group) (t : Nat) : Nat :=
  let n0 := s.beatIndex
  match (List.range (2 * g.cadence + 2)).find? fun i => (n0 + i) % g.cadence == g.offset && t ≤ s.tickTime (n0 + i) g.slot with
  | some i => s.tickTime (n0 + i) g.slot
  | none => s.tickTime (n0 + 2 * g.cadence + 2) g.slot

/-- Tick of the next run on a core, when a group uses it. -/
def State.coreNext (s : State) (c t : Nat) : Option Nat :=
  minBy id ((s.work.groups.filter fun g => g.cores.getLsbD c).map fun g => s.groupNext g t)

/-- The deepest state whose entry time and effective wake lead fit before the next run, and that the floor allows (R79, R80). -/
def State.restState (s : State) (c t : Nat) : PState :=
  let fits (p : PState) : Bool := p.depth ≤ (s.floorOf c).depth &&
    (match s.coreNext c t with
      | some n => t + p.entryNs + s.wakeLead p ≤ n
      | none => true)
  if fits .deep then .deep else if fits .nap then .nap else if fits .doze then .doze else .armed

/-- A launch job waits for this core or has ordered its wake, or one is suspended there: no gap is left before it. -/
def State.coreWanted (s : State) (c : Nat) : Bool :=
  (s.core c).susp.isSome || s.work.jobs.any fun j =>
    j.grp?.isSome && j.cores.getLsbD c && (j.phase == .waiting || j.phase == .suspended || (j.phase == .decided && j.woken))

/-- A core that ends a run goes to its rest, by the gap from the predicted end of that run, which is never in the past; it is ARMED
for a job that waits for it (R79, R508). -/
def State.restCore (predicted c : Nat) (s : State) : State :=
  let p := if s.coreWanted c then .armed else s.restState c (max s.tb.now predicted)
  s.updCore c fun k => { k with entering := some p }

/-- A wake is ordered: it takes effect at once, or when the entry in progress has completed (R508). -/
def Core.wake (k : Core) : Core :=
  if k.entering.isSome then { k with wakePending := true }
  else
    match k.pstate with
    | .doze => { k with waking := true }
    | .nap => { k with waking := true }
    | .deep => { k with waking := true }
    | _ => k

/-- CORE_STATE_ENTRY_DONE: the core is in the state ordered (R507 to R509). On entry to DEEP it writes its context to the last
16 KiB of its spill area, whose layout the manual does not give, and copies its scalar registers (R546). -/
def execCoreStateEntryDone (core : Nat) (s : State) : Res :=
  .next (match s.core? core with
    | none => s
    | some k =>
      match k.entering with
      | none => s
      | some p =>
        if !s.alive then s
        else
          let s := if p == .deep then
              let r := s.freeBytes 16384
              r.2.dieWrite (core / 16) (core % 16 * spillBytes + 6384 * 1024) r.1
            else s
          s.updCore core fun k =>
            { k with
              pstate := p, entering := none, deepCtx := k.deepCtx || p == .deep, snap := if p == .deep then k.sregs else k.snap
              waking := k.wakePending, wakePending := false })

/-- CORE_ARMED: the wake is complete; a core in DEEP has restored its context (R507, R509), which is a read of HBM like any other
(R293); a row corrected meanwhile counts (R510). -/
def execCoreArmed (core : Nat) (u : Upset) (s : State) : Res :=
  .next (match s.core? core with
    | none => s
    | some k =>
      if s.alive && k.waking && k.entering.isNone then
        let a := dieAddr (core / 16) (core % 16 * spillBytes + 6384 * 1024)
        let s := s.moveErrors 10 u (if k.pstate == .deep then [(a, 16384)] else [])
        if s.keeper.fstop then s else s.updCore core fun k => { k with pstate := .armed, waking := false, deepCtx := false }
      else s)

/-- The group's cores have been woken: rows that are RESIDENT are ARMED (Table 2-3). -/
def State.armRows (j : Job) (s : State) : State :=
  s.forEach j.rows fun r t => t.updStream r.stream fun x =>
    if x.state == .resident && x.record.state == .S then { x with state := .armed } else x

/-- The deepest power state among cores, that which a core is entering taken for its own. -/
def State.deepest (s : State) (cs : List Nat) : PState :=
  cs.foldl (fun p c =>
    let k := s.core c
    let q := k.entering.getD k.pstate
    if p.depth < q.depth then q else p) .active

/-- WAKE_ISSUE: at the tick minus the effective wake lead of the deepest state among the group's cores (R77). -/
def execWakeIssue (grp : Nat) (s : State) : Res :=
  .next (match s.jobIn grp fun j => !j.woken && (j.phase == .decided || j.phase == .waiting) with
    | none => s
    | some j =>
      if !s.alive then s
      else
        let s := s.advanceTo (j.tick - s.wakeLead (s.deepest (coreList j.cores)))
        let s := s.forEach (coreList j.cores) fun c t => t.updCore c Core.wake
        (s.updJob j.id fun j => { j with woken := true }).armRows j)

/-! ### Gates (R74, R340, R346, R353) -/

/-- Every row's residency bit is set. -/
def State.resident (s : State) (j : Job) : Bool :=
  j.rows.all fun r => (s.stream? r.stream).any fun x => x.record.state == .S

/-- The mirroring channel still reads the record of some row. -/
def State.mirReads (s : State) (j : Job) : Bool :=
  j.rows.any fun r => (s.stream? r.stream).any fun x => x.record.mirRead

/-- No row's stream runs another chunk (R378). -/
def State.rowsFree (s : State) (j : Job) : Bool :=
  !s.work.jobs.any fun k => k.id != j.id && (k.phase == .running || k.phase == .suspended) &&
    k.rows.any fun r => j.rows.any fun q => q.stream == r.stream

/-- What a dispatch waits for besides its cores. -/
def State.gatesOpen (s : State) (j : Job) : Bool := s.resident j && !s.mirReads j && s.rowsFree j

/-- Capping starts no job whose effective priority is background (R522). -/
def State.capsJob (s : State) (j : Job) : Bool := s.capping && j.eff == 0

/-- A core is free for a job: no other job holds it. -/
def State.coreFree (s : State) (j : Job) (c : Nat) : Bool := (s.core c).job.all fun i => i == j.id

/-- A core can be strobed: ARMED, and entering no other state (R74, R76). -/
def Core.strobeReady (k : Core) : Bool := k.pstate == .armed && k.entering.isNone && !k.waking

/-- A core that a switch leaves to the incoming job: ARMED, or ACTIVE under the job that it interrupts (R370). -/
def Core.switchReady (k : Core) : Bool := (k.pstate == .armed || k.pstate == .active) && k.entering.isNone && !k.waking

/-- Job a comes before job b among jobs that wait for the same cores (R367). -/
def Job.before (a b : Job) : Bool :=
  b.eff < a.eff || (a.eff == b.eff && (a.due < b.due || (a.due == b.due && a.grp?.getD 0 < b.grp?.getD 0)))

/-- No other job that waits for the same cores and could start comes first (R367). -/
def State.firstOf (s : State) (j : Job) : Bool :=
  !s.work.jobs.any fun k => k.id != j.id && k.grp?.isSome && (k.phase == .waiting || k.phase == .suspended) &&
    coresMeet k.cores j.cores && k.before j && s.gatesOpen k && !s.capsJob k && (coreList k.cores).all (s.coreFree k)

/-! ### The launch area (R142, R340, R385, R386) -/

/-- Rows of a launch move within the SPM so that those on one core lie at one stride, in launch-row order, on a core of the group
(R340, R376); where no rows are free for that, each stays where it lies. -/
def State.layRecords (ids : List Nat) (cores : CoreSet) (s : State) : State :=
  let xs := ids.filterMap s.stream?
  let home (x : Stream) : Nat := (x.record.spm.getD 0) / 2 ^ 23
  let target (x : Stream) : Nat := if cores.getLsbD (home x) then home x else (coreList cores).headD 0
  s.forEach ((xs.map target).eraseDups) fun c t =>
    let mine := xs.filter fun x => target x == c
    let tiles := mine.foldl (fun n x => max n x.record.tiles) 0
    let first := ((mine.head?).bind fun x => x.record.spm).getD 0
    let inPlace := first / 2 ^ 23 == c && (mine.zipIdx).all fun q => q.1.record.spm == some (first + q.2 * tiles * 16384)
    if inPlace then t
    else
      let cleared := t.forEach mine fun x u => u.updRec x.id fun r => { r with spm := none }
      match cleared.stateSpot c (mine.length * tiles * 16384) [] with
      | none => t
      | some a =>
        let datas := mine.map fun x =>
          let b := x.record.spm.getD 0
          (x.id, s.spmRead (b / 2 ^ 23) (b % 2 ^ 23) (x.record.tiles * 16384))
        cleared.forEach datas.zipIdx fun q u =>
          let b := a + q.2 * tiles * 16384
          (u.spmWrite (b / 2 ^ 23) (b % 2 ^ 23) q.1.2).updRec q.1.1 fun r => { r with spm := some b }

/-- Bytes of a bit list, bit 0 first. -/
def bitBytes (bs : List Bool) : List Byte :=
  (List.range (ceilDiv bs.length 8)).map fun i =>
    BitVec.ofNat 8 ((List.range 8).foldl (fun n k => n + b01 (bs.getD (8 * i + k) false) * 2 ^ k) 0)

/-- The reset mask: bit n × L + t is set where row n carries a mark at step t (R52, Table 6-4). -/
def Job.maskBytes (j : Job) : List Byte :=
  bitBytes (j.rows.flatMap fun r => (List.range j.len).map fun t => r.marks.contains t)

/-- The row-length table: 16 bits a row, FREEZE in bit 15 (Table 6-4). -/
def Job.lenBytes (j : Job) : List Byte := j.rows.flatMap fun r => leBytes 2 (r.len % 2 ^ 13 + 2 ^ 15 * b01 r.freeze)

/-- A table entry of R386 for an SPM device address: core and first row. -/
def tableEntry (a : Nat) : List Byte := leBytes 4 (nbits a 23 8 + 2 ^ 8 * nbits a 9 14)

/-- The record and input tables. -/
def State.recordTable (s : State) (j : Job) : List Byte :=
  j.rows.flatMap fun r => tableEntry (((s.stream? r.stream).bind fun x => x.record.spm).getD 0)

def State.inputTable (s : State) (j : Job) : List Byte :=
  j.rows.flatMap fun r => tableEntry (((s.stream? r.stream).map fun x =>
    s.halfAddr x ((r.chunk.bind (·.half)).getD 0)).getD 0)

/-- The Saddler's place for a launch area of n rows on a core: the first of its LAUNCH rows that are not pinned and suffice
(R270, R271). -/
def State.launchRow (s : State) (c n : Nat) : Option Nat :=
  let k := s.core c
  (k.segments.find? fun g => g.2.2 == 6 && n ≤ g.2.1 && k.unpinned g.1 n).map (·.1)

/-- The launch area of core c, at position i of the group's core list, with its scalar registers (R385, R386). The output area of a
row is the program's: its table entries are free values (notes/assumptions/38.md). -/
def State.launchCore (j : Job) (model : Nat) (i c : Nat) (s : State) : State :=
  let n := j.rows.length
  let mask := j.maskBytes
  let lens := j.lenBytes
  let mRows := ceilDiv mask.length 512
  let lRows := ceilDiv lens.length 512
  let tRows := ceilDiv (4 * n) 512
  let place := s.launchRow c (1 + mRows + lRows + 3 * tRows)
  let outs := s.freeBytes (4 * n)
  let early := j.rows.foldl (fun m r => min m r.deadline) ((j.rows.head?).elim 0 (·.deadline))
  let row := place.getD 0
  let m := row + 1
  let l := m + mRows
  let r := l + lRows
  let desc := [BitVec.ofNat 32 ((n - 1) + (j.len - 1) * 2 ^ 9 + b01 j.fb * 2 ^ 21 + model * 2 ^ 22),
    BitVec.ofNat 32 (m + l * 2 ^ 14), BitVec.ofNat 32 (r + (r + tRows) * 2 ^ 14), BitVec.ofNat 32 (r + 2 * tRows),
    BitVec.ofNat 32 j.tick, BitVec.ofNat 32 (j.tick / 2 ^ 32),
    BitVec.ofNat 32 (cyclesOf (s.fminDie (c / 16)) (early - j.tick))]
  let put (a : Nat) (bs : List Byte) (t : State) : State := t.spmWrite c (a * 512) bs
  let s := if place.isNone then s
    else
      put (r + 2 * tRows) outs.1 (put (r + tRows) (s.inputTable j) (put r (s.recordTable j)
        (put l lens (put m mask (put row (padTo 64 (bytesOfWords desc)) outs.2)))))
  s.updCore c fun k =>
    let old := (getKey model k.progs).getD (List.replicate 64 0)
    { k with sregs := [BitVec.ofNat 32 row, BitVec.ofNat 32 i, BitVec.ofNat 32 (coreList j.cores).length,
        BitVec.ofNat 32 (j.grp?.getD 0)] ++ old.drop 4 }

/-! ### Staged copies and head-split windows (R204, R225, R229, R281) -/

/-- Page p, of which a reader saw `seen` tokens at its launch decision, grows for it: its own appends apart, tokens beyond those
have come or may come. -/
def Page.growsFor (p : Page) (id seen : Nat) : Bool :=
  (p.nowr || p.writer != id) && seen < p.tokens && (!p.nowr || seen < p.sealn)

/-- Core that reads page p of a row: that of the span which holds the page among those of its kind, in position order (R225). -/
def State.pageCore (s : State) (j : Job) (r : LaunchRow) (p : Page) : Nat :=
  let like := (r.views.filterMap fun v => s.page? v.1).filter fun q => q.kind == p.kind && q.fmt == p.fmt && q.shape == p.shape
  let cs := coreList j.cores
  cs.getD (spanOf like.length r.spans (like.filter fun q => q.p0 < p.p0).length) (cs.headD 0)

/-- A copy of a growing page is staged in STAGE rows of its reader's slice, with only the tokens that the reader sees; where no such
rows are free, the list names the page itself (R204, notes/assumptions/117.md). -/
def State.stagePage (j : Job) (i : Nat) (r : LaunchRow) (v : Nat × Nat) (s : State) : State :=
  match s.page? v.1 with
  | none => s
  | some p =>
    if !p.growsFor r.stream v.2 then s
    else
      let c := s.pageCore j r p
      match s.stageSpot c [], s.pageRaw p, s.stream? r.stream with
      | some a, .ok raw, some x =>
        ((s.spmWrite c (a % 2 ^ 23) (clipTokens p.kind p.fmt p.shape v.2 raw)).chargeStream x
          [(if p.tier = 2 then 8 else 7, 16384)]).updJob j.id fun k =>
            { k with rows := updAt i (fun q => { q with staged := q.staged ++ [⟨p.num, a, v.2⟩] }) k.rows }
      | some _, .error e, _ => s.skiverMismatch none p.range.1 e.1 e.2
      | _, _, _ => s

/-- The growing pages of every row of a launch are staged. -/
def State.stageRows (j : Job) (s : State) : State :=
  s.forEach j.rows.zipIdx fun q t => t.forEach q.1.views (State.stagePage j q.2 q.1)

/-- The Saddler's window for the exchange of a head's (M, N, L): window 8 over the first WORK rows of each core among which a head
is split, for any core of the partition, with WANT 0 (R225, R281, notes/assumptions/116.md). -/
def Core.exchangeWindow (k : Core) : Core :=
  match k.segments.find? fun g => g.2.2 == 5 with
  | some g => { k with windows := updAt 8 (fun _ => openWindow (BitVec.ofNat 32 (g.1 + g.2.1 * 2 ^ 14)) 0) k.windows }
  | none => k

/-- Cores over which some row's heads are split: none where each head has one core. -/
def Job.exchangeCores (j : Job) : List Nat :=
  let n := j.rows.foldl (fun m r => max m r.spans) 1
  if n = 1 then [] else (coreList j.cores).take n

/-! ### The first instruction issues -/

/-- A recurrent layer-table entry declares adapters: bit 9 of the encodings of Table 6-3, which begin in byte 1
(notes/assumptions/21.md). -/
def layerAdpt (l : List Byte) : Bool := (l.getD 0 0).toNat == 1 && (l.getD 2 0).getLsbD 1

/-- The tiles of a record's adapter sections are those of the model's initial record (R53, R156). -/
def State.initAdapters (id : Nat) (h : ImageHdr) (s : State) : State :=
  s.forEach (h.sect.filter fun w => bits w 16 4 == 2) fun w t =>
    t.recordPut id (bits w 0 8 * 16384) ((h.init.drop (bits w 0 8 * 16384)).take (bits w 8 8 * 16384))

/-- A fallback that declares adapters on no layer leaves them as they were, except that a reset puts back the initial ones: its
LSCANs carry none and would not (R53, R156). -/
def State.resetAdapters (j : Job) (r : LaunchRow) (s : State) : State :=
  match s.stream? r.stream, (j.grp?.bind s.group?).bind fun g => s.slot? g.model with
  | some x, some m =>
    if j.fb && !r.marks.isEmpty && !m.hdr.layers.any layerAdpt then
      match s.slot? x.main with
      | some y => s.initAdapters x.id y.hdr
      | none => s
    else s
  | _, _ => s

/-- Streams of the rows are RUNNING; a reset mark clears the header's NONFINITE bit (R53, Table 2-3). -/
def State.runRows (j : Job) (s : State) : State :=
  s.forEach j.rows fun r t =>
    let t := (t.updStream r.stream fun x => { x with state := .running, nonfinite := x.nonfinite && r.marks.isEmpty }).resetAdapters j r
    t.when (!r.marks.isEmpty) (State.writeHeader r.stream)

/-- A launch starts on its cores: pages are staged, launch areas and scalar registers are written, its streams run, and a strobe
that waited for arming is counted (R74 to R76, R204, R366, R385, R386). -/
def State.startJob (j : Job) (s : State) : State :=
  let s := s.when j.lateArm (State.bump ctrLateArm)
  let s := (s.layRecords (j.rows.map (·.stream)) j.cores).stageRows j
  if s.keeper.fstop then s
  else
    let model := ((j.grp?.bind s.group?).map (·.model)).getD 0
    let s := s.forEach ((coreList j.cores).zipIdx) fun q t => t.launchCore j model q.2 q.1
    let s := s.forEach (coreList j.cores) fun c t => t.updCore c fun k => { k with pstate := .active, job := some j.id }
    let s := s.forEach j.exchangeCores fun c t => t.updCore c Core.exchangeWindow
    let now := s.tb.now
    let s := s.updJob j.id fun j =>
      { j with phase := .running, age := 0, start := now, predicted := now + (j.predicted - j.start) }
    s.runRows j

/-- A job that waits starts when every gate is open and every core is free and ready, and no other job comes first. -/
def State.mayStart (s : State) (j : Job) : Bool :=
  s.gatesOpen j && !s.capsJob j && (coreList j.cores).all (fun c => s.coreFree j c && (s.core c).strobeReady) && s.firstOf j

/-! ### Pre-emption (R368 to R371) -/

/-- The job that holds a core. -/
def State.holder (s : State) (c : Nat) : Option Job := (s.core c).job.bind s.job?

/-- The jobs that a due launch pre-empts: none unless every core is free or holds a job of strictly lower effective priority, and
no core on which such a job still holds its place has spilled data of another (R368). -/
def State.victims (s : State) (j : Job) : List Job :=
  let hs := ((coreList j.cores).filterMap s.holder).filter fun k => k.id != j.id
  let vs := (hs.map (·.id)).eraseDups.filterMap s.job?
  let clear (k : Job) : Bool := (coreList k.cores).all fun c => (s.core c).job != some k.id || (s.core c).saved.isNone
  if vs.all fun k => k.eff < j.eff && clear k then vs else []

/-- The rows that a core spills, in rising order: of its STAGE, WORK and LAUNCH regions, which the incoming job uses as well; never
a RESIDENT or a STATE row, and no INPUT row, since no two input areas meet (R95, R268, R369). -/
def Core.spillRows (k : Core) : List Nat :=
  (k.segments.filter fun g => 4 ≤ g.2.2 && g.2.2 ≤ 6).flatMap fun g => (List.range g.2.1).map (g.1 + ·)

/-- A core of a pre-empted job spills its engine contexts and rows to its spill area: a row at its own place in the slice, the
engine contexts in tiles whose layout the manual does not give (R292, R369, notes/assumptions/39.md). Partial windows are composed
first (R160); the queues and the instructions that have not ended are kept for the job (R261, R276). -/
def State.spillCore (id c : Nat) (s : State) : State :=
  let s := s.luSpill c
  let k := s.core c
  let rows := k.spillRows.map fun r => (r, s.row c r)
  let at' (b : Nat) : Nat := c % 16 * spillBytes + b
  let s := s.forEach rows fun r t => t.dieWrite (c / 16) (at' (r.1 * 512)) r.2
  let ctx := s.freeBytes 212992
  let s := ctx.2.dieWrite (c / 16) (at' (6144 * 1024)) ctx.1
  let s := s.chargeOverhead (((s.job? id).map (·.part)).getD 0) [(7, 512 * rows.length + k.engineBytes)]
  s.updCore c fun k =>
    { k with
      susp := some id, job := none, acc := [], lu := k.lu.map fun _ => none, flights := [], xq := [], ftq := []
      bufs := k.bufs.map fun b => (b.1, false)
      saved := some
        { sregs := k.sregs, acc := k.acc, accShape := k.accShape, lu := k.lu, flights := k.flights, xq := k.xq, ftq := k.ftq
          bufs := k.bufs, stamps := k.stamps, tables := k.tables, rows := rows } }

/-- A job is pre-empted on all of its cores: those that the incoming job needs spill, the others run nothing (R369); each core
copies its scalar registers (R546). A job that was suspended already keeps the start of its wait. -/
def State.suspend (j v : Job) (s : State) : State :=
  let s := s.bump (ctrSdl 3)
  let mine := (coreList v.cores).filter fun c => (s.core c).job == some v.id
  let s := s.forEach mine fun c t => t.updCore c fun k => { k with snap := k.sregs }
  let s := s.forEach (mine.filter fun c => j.cores.getLsbD c) fun c t => t.spillCore v.id c
  let now := s.tb.now
  s.updJob v.id fun k => { k with phase := .suspended, waitFrom := if k.phase == .suspended then k.waitFrom else now }

/-- A due job pre-empts where R368 lets it: its cores switch to it. -/
def State.preempt (j : Job) (s : State) : State :=
  let vs := s.victims j
  if vs.isEmpty then s
  else
    let s := s.forEach vs fun v t => t.suspend j v
    let s := s.forEach (coreList j.cores) fun c t => t.updCore c fun k => { k with job := some j.id }
    s.updJob j.id fun k => { k with phase := .switching }

/-- The buffers of a job that resumes: the live ones as they were; what a released one held is not preserved, and is free bytes
(R192). -/
def State.refillBufs : List (Mem × Bool) → State → List (Mem × Bool) × State
  | [], s => ([], s)
  | b :: rest, s =>
    if b.2 then
      let r := State.refillBufs rest s
      (b :: r.1, r.2)
    else
      let v := s.freeBytes 16384
      let r := State.refillBufs rest v.2
      ((Mem.writeZ [] 0 v.1, false) :: r.1, r.2)

/-- A core refills what it spilled for the job that resumes (R371), with the entries of the instructions that have not ended (R276). -/
def State.refillCore (c : Nat) (s : State) : State :=
  match (s.core c).saved with
  | none => s
  | some v =>
    let s := s.forEach v.rows fun r t => t.spmWrite c (r.1 * 512) r.2
    let b := s.refillBufs v.bufs
    let s := b.2
    let part := ((((s.core c).susp).bind s.job?).map (·.part)).getD 0
    let s := s.updCore c fun k =>
      { k with
        sregs := v.sregs, acc := v.acc, accShape := v.accShape, lu := v.lu, flights := v.flights, xq := v.xq, ftq := v.ftq
        bufs := b.1, stamps := v.stamps, tables := v.tables, saved := none, susp := none }
    s.chargeOverhead part [(7, 512 * v.rows.length + (s.core c).engineBytes)]

/-! ### The events -/

/-- TICK of a group's launch (R32, R74, R346, R353, R368): it starts, pre-empts, or waits and counts what it waits for. -/
def execTick (grp : Nat) (s : State) : Res :=
  .next (match s.jobIn grp fun j => j.phase == .decided with
    | none => s
    | some j =>
      if !s.alive then s
      else
        let s := s.advanceTo j.tick
        let late := !(coreList j.cores).all fun c => (s.core c).pstate == .armed && (s.core c).entering.isNone
        let j := { j with phase := .waiting, lateArm := late, waitFrom := s.tb.now }
        let s := s.updJob j.id fun _ => j
        if s.mayStart j then s.startJob j
        else
          let s := s.when (!s.resident j) (State.bump (ctrRes 5))
          let s := s.when (s.mirReads j) (State.bump (ctrRes 6))
          if s.capsJob j then (s.updJob j.id fun k => { k with deferred := true }).bump (ctrPwr 1)
          else s.preempt j)

/-- A waiting launch starts at a time, when nothing holds it. -/
def State.strobe (grp time : Nat) (s : State) : State :=
  match s.jobIn grp fun j => j.phase == .waiting with
  | none => s
  | some j => if s.alive && j.tick ≤ time && s.mayStart j then (s.advanceTo time).startJob j else s

/-- LATE_STROBE: every core of the group is ARMED, after the tick; counted in CIN_LATE_ARM (R76). -/
def execLateStrobe (grp time : Nat) (s : State) : Res := .next (s.strobe grp time)

/-- HELD_DISPATCH: a launch held at its tick dispatches once its rows are resident, read, and its cores free (R346, R353). -/
def execHeldDispatch (grp time : Nat) (s : State) : Res := .next (s.strobe grp time)

/-- SWITCH_COMPLETE: spill and refill are done, and the incoming job's first instruction issues (R370). -/
def execSwitchComplete (grp time : Nat) (s : State) : Res :=
  .next (match s.jobIn grp fun j => j.phase == .switching with
    | none => s
    | some j =>
      if s.alive && j.tick ≤ time && s.gatesOpen j && (coreList j.cores).all (fun c => (s.core c).switchReady) then
        (s.advanceTo time).startJob j
      else s)

/-- JOB_RESUME: a suspended job refills what it spilled and goes on, on the same cores (R367, R371). -/
def execJobResume (grp time : Nat) (s : State) : Res :=
  .next (match s.jobIn grp fun j => j.phase == .suspended with
    | none => s
    | some j =>
      let mine (c : Nat) : Bool := s.coreFree j c && ((s.core c).saved.isNone || (s.core c).susp == some j.id) && (s.core c).switchReady
      if s.alive && (coreList j.cores).all mine && s.firstOf j && !s.capsJob j then
        let s := s.advanceTo time
        let s := s.forEach (coreList j.cores) State.refillCore
        let s := s.forEach (coreList j.cores) fun c t => t.updCore c fun k => { k with job := some j.id, pstate := .active }
        let s := s.updJob j.id fun k => { k with phase := .running, age := 0 }
        (s.forEach (coreList j.cores) fun c t => t.updCore c Core.unpause).rouse
      else s)

/-! ### Aging (R366, R368, R522) -/

/-- A job that ages: launch jobs that wait or are suspended, any other job that has not started. -/
def Job.waits (j : Job) : Bool := j.phase == .waiting || j.phase == .suspended

/-- One more whole interval of a job: its age saturates at 255, and a rise of its effective priority is counted and may
pre-empt. -/
def State.ageJob (j : Job) (s : State) : State :=
  let t := j.waitFrom + s.reg 0x30018 * 1000
  let s := s.advanceTo t
  let k := { j with age := min 255 (j.age + 1), waitFrom := t }
  let s := s.updJob j.id fun _ => k
  if k.eff ≤ j.eff then
    s.when (s.capsJob k && !k.deferred) fun t => (t.updJob k.id fun y => { y with deferred := true }).bump (ctrPwr 1)
  else
    let s := s.bump (ctrSdl 4)
    if k.grp?.isSome && k.phase == .waiting && !s.capsJob k then s.preempt k else s

/-- One more whole interval of a queued record move. -/
def State.ageMove (m : Move) (s : State) : State :=
  let s := s.advanceTo (m.queuedAt + (m.age + 1) * s.reg 0x30018 * 1000)
  let k := { m with age := min 255 (m.age + 1) }
  let s := s.updMoves (updWhere (fun y => y.stream == m.stream) fun _ => k)
  s.when (m.eff < k.eff) (State.bump (ctrSdl 4))

/-- AGE_INTERVAL: an aging interval of a waiting job ends. Numbers from 2^32 name the record move of stream `job` − 2^32
(notes/assumptions/40.md). -/
def execAgeInterval (job : Nat) (s : State) : Res :=
  .next (if !s.alive then s
    else if job < 2 ^ 32 then
      match s.job? job with
      | some j => if j.waits then s.ageJob j else s
      | none => s
    else
      match s.move? (job - 2 ^ 32) with
      | some m => if m.started then s else s.ageMove m
      | none => s)

end Sys2Proof.Machine
end

