-- ==== Sys2Proof/Machine/ChunkEnd.lean ====
section
/-! DEFINITION. The end of a chunk, and pages at a token step: carried-out state, flags, outputs, completions, history, accounting,
hand-off and the record's rest (02_streams_and_beats.md, Tables 2-3 and 2-4; 08, R203, R207, R227, R228; 12, R345, R352, R356,
R357; 13, R377 to R379, R387, R388; 14, R419 to R424). -/

namespace Sys2Proof.Machine

open Sys2Proof

/-! ### Lateness and flags (R378, R420) -/

/-- µs from the deadline to the state write, rounded up; 0 when it is met. -/
def lateness (deadline time : Nat) : Nat := if time ≤ deadline then 0 else min all32 (ceilDiv (time - deadline) 1000)

/-- Flags of Table 14-13 that the chunk end adds to those of the row. -/
def endFlags (r : LaunchRow) (late fb : Bool) : Nat :=
  r.flags % 128 + 128 * b01 late + 256 * b01 fb + 512 * b01 r.nonfinite + 1024 * b01 (r.held != 0)

/-! ### The carried-out state (R26, R338, R342) -/

/-- The carried-out state is written: the tiles the program changed and the control tile are marked, SEQ counts, LASTTICK is the
launch's tick, and the control tile follows. -/
def State.carryOut (j : Job) (r : LaunchRow) (touched : List Nat) (s : State) : State :=
  let marks := touched.foldl (fun m i => m ||| tileBit i) 0
  let s := s.updStream r.stream fun x =>
    { x with
      seq := x.seq + 1, lastTick := j.tick, carriedSteps := x.carriedSteps + r.held, sealed := x.sealed + (r.len - r.held)
      record := { x.record with dirty := x.record.dirty ||| marks, chg := x.record.chg ||| marks } }
  (s.writeHeader r.stream).writePageList r.stream

/-- Time of the first step that a linked stream has not covered: taken from a source whose output it had covered (Table 14-14). -/
def State.sealTimes (src before time : Nat) (s : State) : State :=
  s.updStreams (updWhere (fun y => y.source == some src && y.covered == before) fun y => { y with sealTime := time })

/-- Pages that the chunk has filled are coded in HBM under CODE_HBM (Table 9-8). -/
def State.codeFull (full : List Nat) (s : State) : State :=
  s.forEach full fun n t =>
    match t.page? n with
    | none => t
    | some p =>
      if !t.codeHbm || p.tier != 1 || p.skv then t
      else
        match t.pageRaw p with
        | .ok raw => t.storePage p 1 p.frame raw
        | .error e => t.skiverMismatch none p.range.1 e.1 e.2

/-- Seals of the pages the chunk appended to (R203). -/
def State.sealRow (x : Stream) (s : State) : State :=
  let full := (s.caches.pages.filter fun p =>
    p.writer == x.id && !p.nowr && p.sealn < p.tokens && p.filln == p.tokens).map (·.num)
  (s.sealPages x.id).codeFull full

/-! ### Outputs and completions (R419, R422, R424) -/

/-- Older output that still waits at a further chunk end is discarded, and the chunk's output, where it has one, goes into the
buffers held (R424). -/
def State.sendOutput (id : Nat) (o : OutWait) (s : State) : State :=
  match s.stream? id with
  | none => s
  | some x =>
    let s := s.forEach x.outQ fun w t => t.outDrop id w (w.part != 0)
    (s.updStream id fun x => { x with outQ := if o.bytes.isEmpty then [] else [o] }).deliver id 16

/-- Completion of a host-fed chunk, or the STREAM_STATUS event of a linked chunk without output. DELTA is modulo 2^32
(notes/assumptions/122.md). -/
def State.reportChunk (r : LaunchRow) (flags late : Nat) (output : Bool) (s : State) : State :=
  match s.stream? r.stream with
  | none => s
  | some x =>
    let seqs := [BitVec.ofNat 32 x.seq, BitVec.ofNat 32 (x.seq / 2 ^ 32)]
    match r.chunk with
    | some c =>
      let flags := flags + 4096 * b01 (x.outQ.any fun o => o.seq == x.seq)
      let ws := compWords 0x40 stOK x.id c.tag c.didx flags
        [BitVec.ofNat 32 (unsigned 32 c.delta), BitVec.ofNat 32 (r.held % 2 ^ 13), BitVec.ofNat 32 late, seqs.headD 0]
      if c.quiet && flags == 0 then s else s.postComp x.id x.seq 1 ws 0 c.irq
    | none =>
      if output || flags / 128 % 16 == 0 then s
      else s.postEvent x.rg 4 (some x.id) ([BitVec.ofNat 32 flags, BitVec.ofNat 32 late] ++ seqs) false

/-! ### History and accounting (R377, R387, R388) -/

/-- h + (x − h) / 2^k in units of 1/256 cycle, rounded towards minus infinity, stopping at the maximum (R372, R377). -/
def nextHist (h x k : Nat) : Nat :=
  let d : Int := ((x : Int) - h) / (2 ^ k : Nat)
  min all32 ((h : Int) + d).toNat

/-- The history of the group that ran takes the measured cost. -/
def State.learn (j : Job) (cycles : Nat) (s : State) : State :=
  match j.grp?.bind s.group? with
  | none => s
  | some g =>
    let x := (cycles - (s.groupCosts g).1) * 256 / max 1 (j.rows.length * j.len)
    s.updGroup g.num fun g => { g with hist := nextHist g.hist x (s.reg 0x30020) }

/-- Row n's share of a whole that is shared in proportion to live steps, the remainder going to row 0 (R388). -/
def rowShare (lens : List Nat) (n v : Nat) : Nat :=
  let total := max 1 (sumBy id lens)
  let part (l : Nat) : Nat := v * l / total
  part (lens.getD n 0) + if n = 0 then v - sumBy part lens else 0

/-- The launch's use is charged to its rows' ring groups and their functions, with the chunks completed, late and run on a
fallback. -/
def State.chargeLaunch (j : Job) (time : Nat) (u : Usage) (s : State) : State :=
  let lens := j.rows.map (·.len)
  s.forEach j.rows.zipIdx fun q t =>
    match t.stream? q.1.stream with
    | none => t
    | some x =>
      let shares := (List.range 12).map fun i => (i, rowShare lens q.2 (u.counts.getD i 0))
      t.chargeStream x (shares ++ [(12, 1), (13, b01 (q.1.deadline < time)), (14, b01 j.fb)])

/-! ### Where the record goes (R345, R356, R357, Table 2-3) -/

/-- A fill waits for rows on the record's die. -/
def State.fillWaits (s : State) (x : Stream) : Bool :=
  s.work.moves.any fun m => m.kind == .fill && !m.started && m.die == x.record.die

/-- The stream leaves RUNNING: RESIDENT where placement keeps the record, else swapped out at once and PARKED; a home pinned to the
CXL tier is demoted after it. A record whose next chunk is decided stays. -/
def State.settleRecord (id : Nat) (s : State) : State :=
  match s.stream? id with
  | none => s
  | some x =>
    let keep := x.decided || (match x.pins.home with
      | some 0 => true
      | some _ => false
      | none => !s.fillWaits x)
    let s := s.updStream id fun x => { x with state := .resident, keep := keep }
    if keep then s
    else
      let s := (s.dropMove id).swapOutEnd id
      s.when (x.pins.home == some 2) fun t => t.queueMove id .demote 0 none

/-- The pending pause or close of the stream takes effect (Table 2-4). -/
def State.leaveRun (id : Nat) (s : State) : State :=
  match s.stream? id with
  | none => s
  | some x =>
    match x.cmd with
    | some (3, _, _) => s.enterPaused id
    | some (2, _, _) => s.enterClosing id
    | _ => s

/-! ### CHUNK_END -/

/-- The half that a row's chunk held is free, and the next waiting chunk may take it (R95). -/
def State.freeHalf (r : LaunchRow) (s : State) : State :=
  match r.chunk.bind (·.half) with
  | none => s
  | some h =>
    State.fillInputs r.stream 16 (s.updStream r.stream fun x => { x with halves := updAt h (fun _ => false) x.halves })

/-- The references that a decision let go while the chunk ran are released with it (R205). -/
def State.releaseLeaving (id : Nat) (s : State) : State :=
  match s.stream? id with
  | none => s
  | some x =>
    let ns := (x.leaving ++ if x.leaveAll then (s.selfPages x).map (·.num) else []).eraseDups
    (s.releasePages id ns).updStream id fun y => { y with leaving := [], leaveAll := false }

/-- One row at the chunk end: state, seals, record, output, completion, hand-off; then the stream's waiting command. -/
def State.endRow (j : Job) (time : Nat) (r : LaunchRow) (out : RowOutput) (touched : List Nat) (s : State) : State :=
  match s.stream? r.stream with
  | none => s
  | some x =>
    let lateUs := lateness r.deadline time
    let late := r.deadline < time
    let flags := endFlags r late j.fb
    let s := (s.sealRow x).releaseLeaving x.id
    let s := (s.carryOut j r touched).sealTimes x.id x.sealed r.time
    let s := s.when late (State.bump (ctrSdl 0))
    let again := s.work.jobs.any fun k => k.id != j.id && (k.row? x.id).isSome
    let s := (s.updStream x.id fun x => { x with decided := again }).settleRecord x.id
    let s := s.handOff x.id
    let s := s.sendOutput x.id
      { bytes := out.bytes, okind := out.okind, part := 0, lateness := lateUs, time := r.time, seq := x.seq + 1, flags := flags }
    let s := s.reportChunk r flags lateUs (!out.bytes.isEmpty)
    (s.freeHalf r).leaveRun x.id

/-- A core whose job has ended: its registers are copied and kept for the model's next run, the Saddler's exchange window closes, and
it goes to its rest (R79, R281, R385, R546). -/
def State.endCore (j : Job) (model c : Nat) (s : State) : State :=
  let s := s.updCore c fun k =>
    { k with
      job := none, snap := k.sregs, progs := putKey model k.sregs k.progs
      windows := if j.exchangeCores.contains c then updAt 8 (fun w => { w with isOpen := false }) k.windows else k.windows }
  s.restCore j.predicted c

/-- What the moves at a chunk end read: the records of its rows and the pages that it has filled. -/
def State.endReads (s : State) (j : Job) : List (Nat × Nat) :=
  let ids := j.rows.map (·.stream)
  (ids.filterMap s.stream?).map Stream.recordRange ++
    (s.caches.pages.filter fun p => ids.contains p.writer && !p.nowr && p.filln == p.tokens && p.sealn < p.tokens).map Page.range

/-- The launch has ended: every row, then history and accounting, its cores, and what waited for a moment without a launch there. -/
def State.endLaunch (j : Job) (rep : ChunkReport) (s : State) : State :=
  let model := ((j.grp?.bind s.group?).map (·.model)).getD 0
  let s := s.forEach j.rows.zipIdx fun q t =>
    t.endRow j rep.time q.1 (rep.outputs.getD q.2 ⟨0, []⟩) (rep.touched.getD q.2 [])
  if s.keeper.fstop then s
  else
    let s := (s.learn j rep.cycles).chargeLaunch j rep.time rep.usage
    let s := s.updJobs (·.filter fun k => k.id != j.id)
    let s := s.forEach (coreList j.cores) (State.endCore j model)
    let s := s.forEach (coreList j.cores) fun c t => (t.mapCore c).regionPins c
    s.prune.rouse

/-- CHUNK_END: the engines run out, the carried-out state of every row is written, and then the rest (R26). The chunk goes on while
an instruction of it still waits. -/
def execChunkEnd (grp : Nat) (rep : ChunkReport) (s : State) : Res :=
  .next (match s.jobIn grp fun j => j.phase == .running with
    | none => s
    | some j =>
      if !s.alive || rep.time < j.start then s
      else
        let s := (s.forEach (coreList j.cores) State.settle).rouse
        if s.keeper.fstop || !(coreList j.cores).all (fun c => (s.core c).quiet) then s
        else
          let s := (s.advanceTo rep.time).moveErrors 5 rep.errors (s.endReads j)
          match s.job? j.id with
          | some j => if s.keeper.fstop then s else s.endLaunch j rep
          | none => s)

/-! ### TOKEN_STEP_BOUNDARY (R203, R205, R207, R227, R228) -/

/-- The pages of a sequence: those the stream holds that are not its source's. -/
def Stream.sequencePages (x : Stream) : List Nat := x.pages.filter fun n => !x.ctx.contains n

/-- The step of a row is held: counted, and carried to the row's next chunk (R228, R379). -/
def State.holdRow (j : Job) (row : Nat) (s : State) : State :=
  let s := (s.bump (ctrKv 5)).bump (ctrSdl 5)
  s.updJob j.id fun k => { k with rows := updAt row (fun r => { r with held := r.held + 1 }) k.rows }

/-- A row's new pages, one by one; a page of no kind, format and shape of Table 8-1 is none that the pool can give (R199). -/
def State.giveAll (x : Stream) (named : List Nat) : List (Nat × Nat × Nat × Nat) → State → Except Lack State
  | [], s => .ok s
  | q :: rest, s =>
    if !pageOk q.1 q.2.1 q.2.2.1 then State.giveAll x named rest s
    else
      match s.needFrame x.part named with
      | .ok r => State.giveAll x named rest (r.2.givePage x.id x.part q.1 q.2.1 q.2.2.1 q.2.2.2 r.1)
      | .error l => .error l

/-- Appends to a row's pages, with the copies that R207 asks for first. -/
def State.appendAll (x : Stream) (named : List Nat) : List (Nat × Nat) → State → Except Lack State
  | [], s => .ok s
  | a :: rest, s =>
    match s.page? a.1 with
    | none => State.appendAll x named rest s
    | some pg =>
      if !x.pages.contains a.1 then State.appendAll x named rest s
      else if pg.appendsInPlace x.id then State.appendAll x named rest ((s.claimPage x.id a.1).appendTo x.id a.1 a.2)
      else
        match s.needFrame x.part named with
        | .ok r =>
          let n := r.2.newPageNum
          State.appendAll x named rest ((r.2.copyPage x.id a.1 r.1).appendTo x.id n a.2)
        | .error l => .error l

/-- Step 2 for one row: its pages, then its appends, all of them or none. A row that finds no page is held, and its state and pages
are those it had (R228); one that waits for an eviction has its boundary again when the page is free
(notes/assumptions/41.md). -/
def State.stepRow (j : Job) (named : List Nat) (q : TokenRow) (s : State) : State :=
  match (j.rows[q.row]?).bind fun r => s.stream? r.stream with
  | none => s
  | some x =>
    let done := match State.giveAll x named q.needs s with
      | .ok t => State.appendAll ((t.stream? x.id).getD x) named q.appends t
      | .error l => .error l
    match done with
    | .ok t => t
    | .error (.evict n) => s.startEvict n x
    | .error .hold => s.holdRow j q.row

/-- All first pages of a join from free pages and the reclaim list; none when one is lacking. -/
def State.reserveAll (x : Stream) (named : List Nat) : List (Nat × Nat × Nat × Nat) → State → Option State
  | [], s => some s
  | q :: rest, s =>
    if !pageOk q.1 q.2.1 q.2.2.1 then State.reserveAll x named rest s
    else
      match s.takeFrame x.part named with
      | some r => State.reserveAll x named rest (r.2.givePage x.id x.part q.1 q.2.1 q.2.2.1 q.2.2.2 r.1)
      | none => none

/-- Cached-prefix pages that a joining sequence of stream x references: those of the prefixes that its model declares, and those that
its program names (R229, Table 8-5). -/
def State.prefixRefs (s : State) (x : Stream) (shared : List Nat) : List Nat :=
  let declared := (s.caches.prefixes.filter fun y => y.declared && y.done && y.part == x.part && y.slot == x.main).flatMap (·.pages)
  (declared ++ shared).eraseDups.filter fun n => (s.page? n).any fun p => p.cached && p.part == x.part

/-- Step 3 for one row: the join takes its references, so that none of those pages is reclaimed for it, and all its first pages; or
none of them, and is deferred. A copy under R208 that finds no page is a need of step 2. -/
def State.joinRow (j : Job) (named : List Nat) (q : TokenRow) (s : State) : State :=
  match (j.rows[q.row]?).bind fun r => s.stream? r.stream with
  | none => s
  | some x =>
    if q.joins.isEmpty && q.shared.isEmpty then s
    else
      match State.addRefs x.id named (s.prefixRefs x q.shared) s with
      | .error l => (s.lacking l x).bump (ctrKv 4)
      | .ok t => (State.reserveAll x named q.joins t).getD (s.bump (ctrKv 4))

/-- Pages whose tokens a boundary may copy: those that a row appends to and does not own, and those that it joins with (R207, R208). -/
def State.stepReads (s : State) (rows : List TokenRow) : List (Nat × Nat) :=
  ((rows.flatMap fun q => q.appends.map (·.1) ++ q.shared).filterMap s.page?).map Page.range

/-- TOKEN_STEP_BOUNDARY of a running group: leaves, then the pages of running sequences, then joins, each in ascending launch row
(R227). `frames` are the frames placement prefers. -/
def execTokenStepBoundary (grp : Nat) (rows : List TokenRow) (frames : List Nat) (u : Upset) (s : State) : Res :=
  .next (match s.jobIn grp fun j => j.phase == .running with
    | none => s
    | some j =>
      if !s.alive then s
      else
        let s := s.moveErrors 5 u (s.stepReads rows)
        if s.keeper.fstop then s
        else
          let rows := sortBy (·.row) rows
          let s := s.forEach (rows.filter (·.leaves)) fun q t =>
            match (j.rows[q.row]?).bind fun r => t.stream? r.stream with
            | some x => t.releasePages x.id x.sequencePages
            | none => t
          let s := s.forEach rows fun q t => t.stepRow j frames q
          s.forEach rows fun q t => t.joinRow j frames q)

/-- KV_EVICTION_DONE: the page's copy in the CXL tier is complete, Skiver-coded, and its HBM frame is free (R227, R228, R241). It
lies after other pages of its partition in a packed frame that has room (R243), else in `frame`, which must be free and within the
partition's share. -/
def execKvEvictionDone (page : Nat) (frame : Nat) (u : Upset) (s : State) : Res :=
  .next (match s.page? page with
    | none => s
    | some p =>
      let a := frameAddr 2 frame
      let room := s.cxlSpotFree a 16384 && s.cxlUsed p.part + 16384 ≤ s.partCxlGib p.part * 2 ^ 30 &&
        (s.locate a 16384).any fun l => !s.poisoned l 16384
      if !s.alive || !p.evicting then s
      else
        let s := s.moveErrors 4 u [p.range]
        if s.keeper.fstop then s
        else
          match s.pageRaw p with
          | .error e => s.skiverMismatch none p.range.1 e.1 e.2
          | .ok raw =>
            let t := ((s.pageDropNames p).updPage page fun y => { y with evicting := false }).storePage p 2 frame raw
            if room || (t.page? page).any (fun q => q.frame != frame) then t else s)

end Sys2Proof.Machine
end

