-- ==== Sys2Proof/Machine/Beats.lean ====
section
/-! DEFINITION. Beat boundaries with promotion and hand-back, the watchdogs, and the CXL ports (02_streams_and_beats.md, R31, R50;
10, R294 to R296; 15, R442, R450 to R452; 16, R459, R465; 17, R495). -/

namespace Sys2Proof.Machine

open Sys2Proof

/-! ### Promotion (R450, R451) -/

/-- The tests of R450 on one mirror, its source apart. -/
def State.promotable (s : State) (m : Mirror) : Bool :=
  let d := m.desc
  (s.rg d.group).en && (s.rg d.group).part == d.part && s.partStarted d.part && (s.stream? m.stream).isNone &&
    (s.slot? d.main).any (fun y => y.state == .ready && y.part == d.part && y.hdr.layout == d.layout) &&
    (d.afeUnits == 0 || (s.afeUsed + d.afeUnits ≤ s.afeDeviceCap &&
      (s.partDies d.part).any fun k => s.afeUsedDie k + d.afeUnits ≤ afeDieCap))

/-- What a promoted stream asks of placement: the cadence and the beat offset of its descriptor; its home is lent (R450). -/
def State.promotedWant (s : State) (d : MirrorDesc) (h : ImageHdr) : Want where
  model := d.main
  part := d.part
  cad := d.cadence
  len := d.maxLen
  room := (d.budget - s.reg 0x3001C) * 1000
  tiles := 0
  units := d.afeUnits
  input := 2 * h.halfTiles d.inkind d.maxLen * 16384
  pins := { Pins.empty with offset := some d.offset }
  source := d.source
  avoid := 0
  gone := []

/-- A group under basic placement for a promoted stream: one that it joins, else a new one, else any of its model, cadence and
offset (R382, R383, R450). -/
def State.promotionGroup (s : State) (d : MirrorDesc) (h : ImageHdr) : Option Group :=
  let w := s.promotedWant d h
  let fresh := (s.newGroupNum 4096).bind fun n => (s.site w noHint).map fun p => s.wantGroup w n d.prio p.1 p.2.1 p.2.2
  let other := s.work.groups.find? fun g =>
    g.part == d.part && g.takes d.main d.cadence w.pins && (s.members g.num).length < 512
  ((s.joinable w d.prio 4096).or fresh).or other

/-- The promoted stream, PARKED, with its record at a home lent by the mirror pool. -/
def promotedStream (m : Mirror) (g : Group) (die home input : Nat) (pages ctx : List Nat) : Stream :=
  let d := m.desc
  let tile := (getKey 0 m.tiles).getD []
  let w := wordsOf (tile.take 128)
  let pair (i : Nat) : Nat := (w.getD i 0).toNat + (w.getD (i + 1) 0).toNat * 2 ^ 32
  let afe : AfeStream :=
    { params := d.params, rate := d.rate, sfmt := d.sfmt, units := d.afeUnits, die := input / 2 ^ 27, anchor := none, ek := 0
      hist := [], pre := 0, chunks := 0 }
  { id := m.stream, state := .parked, group := g.num, part := d.part, rg := d.group, main := d.main, fb := d.fb
    inkind := d.inkind, prio := d.prio, adapt := !d.freeze, freeze := d.freeze, source := d.source, cadence := d.cadence
    offset := g.offset, slot := g.slot, maxLen := d.maxLen, budget := d.budget, margin := none, fbDisabled := false
    fbForced := false, fbMode := d.fbMode, fbCount := d.fbCount, pins := Pins.empty
    afe := if d.inkind = 0 then some (afe.ofTile tile) else none
    input := input, halves := [false, false], chunkNo := 0, noInput := 0, noInputOvf := false, waiting := []
    resetMark := false, seq := m.seq, lastTick := pair 5, nonfinite := (w.getD 2 0).getLsbD 12, pages := pages, ctx := ctx
    carriedSteps := 0, covered := 0, sealed := 0, sealTime := 0
    record :=
      { state := .H, tiles := d.tiles, layout := d.layout, sect := (w.drop 16).take 16, home := some home, die := die
        spm := none, ext := none, newHome := none, dirty := 0, chg := tileMask d.tiles, mirRead := false, hdrHeld := false
        lent := true }
    outQ := [], cmd := none, decided := false, lastBeat := none, keep := false, mirrored := false, outHand := 0
    waitId := false, heldComp := [], handback := false, leaving := [], leaveAll := false }

/-- One mirrored page becomes a page of the survivor, in a frame lent by the mirror pool, with one reference for each promoted
record that names it, and coded there under CODE_HBM where it is full (R446, R450); the partner's number is mapped to the new one. -/
def State.promotePage (ms : List Mirror) (part : Nat) (q : Nat × MirrorPage) (s : State) : Option Nat × State :=
  (s.freeFrame part []).elim (none, s) fun fr =>
    let n := s.newPageNum
    let p := q.2
    let holders := ms.filter fun m => m.pages.contains q.1
    let own := p.writer.any fun i => holders.any fun m => m.stream == i
    let model := ((holders.head?).map (·.desc.main)).getD 0
    let pg := { Page.fresh n part p.kind p.fmt p.shape p.p0 (p.writer.getD 0) model fr with
      refc := holders.length, nowr := !own, filln := p.sealn, sealn := p.sealn, lent := true }
    (some n, (s.makePage pg).landPage pg fr (takePad 0 16384 p.bytes))

/-- The pages of the mirrors that are promoted. -/
def State.promotePages (ms : List Mirror) (s : State) : List (Nat × Nat) × State :=
  (s.pair.mirPages.filter fun q => ms.any fun m => m.pages.contains q.1).foldl (fun (acc : List (Nat × Nat) × State) q =>
    let part := ((ms.find? fun m => m.pages.contains q.1).map (·.desc.part)).getD 0
    let r := acc.2.promotePage ms part q
    (r.1.elim acc.1 fun n => acc.1 ++ [(q.1, n)], r.2)) ([], s)

/-- A mirror becomes a stream, and RNL_PROMOTED counts it, where the survivor has a place for it. -/
def State.promoteOne (names : List (Nat × Nat)) (m : Mirror) (s : State) : State :=
  match s.slot? m.desc.main, (s.slot? m.desc.main).bind fun y => s.promotionGroup m.desc y.hdr with
  | some y, some g =>
    let area := s.inputPlace g.cores m.desc.afeUnits (s.promotedWant m.desc y.hdr).input 0
    let home := (coreDies g.cores).findSome? fun d => (s.freeSpot d (m.desc.tiles * 16384)).map fun o => (d, o)
    (match area, home with
    | some a, some h =>
      let pages := m.pages.filterMap fun p => getKey p names
      let ctx := pages.filter fun p => (s.page? p).any fun q => m.desc.source.any fun i => !q.nowr && q.writer == i
      let x := promotedStream m g h.1 h.2 a pages ctx
      let s := (s.addStream x g).bump (ctrRnl 5)
      let s := s.forEach m.tiles fun t u => u.dieWrite h.1 (h.2 + t.1 * 16384) t.2
      (s.writeHeader x.id).writePageList x.id
    | _, _ => s)
  | _, _ => s

/-- Mirrors are promoted in rounds, each linked stream after its source: one whose source is not promoted is not promoted either
(R49). -/
def State.promoteRounds (names : List (Nat × Nat)) : Nat → List Mirror → State → State
  | 0, _, s => s
  | n + 1, ms, s =>
    let r := ms.partition fun m => m.desc.source.all fun y => (s.stream? y).isSome
    State.promoteRounds names n r.2 (s.forEach (sortBy (·.stream) r.1) (State.promoteOne names))

/-- The references of a mirror that was not promoted go. -/
def State.dropMirrorRefs (names : List (Nat × Nat)) (m : Mirror) (s : State) : State :=
  s.forEach (m.pages.filterMap fun p => getKey p names) (State.dropRef m.stream)

/-- The committed mirrors that `take` names are promoted, and RNL_PROMOTE_FAIL counts those that are not: those that R450 keeps back,
those for which the survivor has no place, and those whose source is not promoted (R49). None of them stays a mirror. -/
def State.promoteMirrors (take : Mirror → Bool) (s : State) : State :=
  let ms := s.pair.mirrors.filter take
  let good := ms.filter s.promotable
  let r := s.promotePages good
  let s := State.promoteRounds r.1 good.length good r.2
  let kept (m : Mirror) : Bool := good.any fun k => k.stream == m.stream
  let lost := ms.filter fun m => !kept m || (s.stream? m.stream).isNone
  let s := s.forEach (lost.filter kept) (State.dropMirrorRefs r.1)
  let s := s.count (ctrRnl 6) lost.length
  s.updPair fun p =>
    let rest := p.mirrors.filter fun m => !take m
    { p with
      mirrors := rest, mirPages := p.mirPages.filter fun q => rest.any fun m => m.pages.contains q.1
      partner := p.partner.map fun i => { i with openIds := i.openIds.filter fun k => !ms.any fun m => m.stream == k } }

/-- Streams of a state that were not open before. -/
def State.newlyOpen (s t : State) : Nat := t.work.streams.length - s.work.streams.length

/-- Promotion after a takeover: uncommitted hand-offs are dropped, every mirror is promoted, the pair is SOLO with one PAIR event,
and the TAKEOVER record is written (R450, R465, Tables 15-2 and 16-10). -/
def State.promoteAll (s : State) : State :=
  let s := s.count (ctrRnl 7) s.pair.inbound.length
  let s := s.updPair fun p => { p with inbound := [], reserved := [] }
  let t := s.promoteMirrors fun _ => true
  let n := s.newlyOpen t
  let t := t.addRecord 6 (leBytes 1 t.pair.path ++ List.replicate 3 0 ++ leBytes 8 ((t.pair.partner.map (·.deviceId)).getD 0) ++
    leBytes 4 (t.reg (ctrRnl 5).off) ++ leBytes 4 (t.reg (ctrRnl 6).off) ++ leBytes 4 (t.reg (ctrRnl 7).off))
  (t.updPair fun p => { p with handovers := [], mirPages := [] }).setPair .solo n

/-- Promotion of the ring groups whose HANDOVER has come (R452 step 3), with a PAIR event. -/
def State.promoteHandovers (s : State) : State :=
  let gs := s.pair.handovers
  if gs.isEmpty then s
  else
    let s := s.updPair fun p => { p with handovers := [] }
    let t := s.promoteMirrors fun m => gs.contains m.desc.group
    t.devEvent 7 [BitVec.ofNat 32 t.pair.state.code, BitVec.ofNat 32 (s.newlyOpen t)]

/-! ### Hand-back at the source (R452) -/

/-- A stream that the partner has taken over is released here, without a completion. -/
def State.releaseGiven (id : Nat) (s : State) : State :=
  match s.stream? id with
  | none => s
  | some x => (((s.releasePages id x.pages).freeExtent id).removeStream id).updPair fun p =>
      { p with partner := p.partner.map fun i => { i with openIds := id :: i.openIds.filter (· != id) } }

/-- Steps 1 and 4 of a hand-back, each at a beat boundary: launches of the group's streams stop and their unlaunched chunks complete
with NOT_OWNER; after HANDOVER has been sent, the boundary at which the partner promotes them releases them and sets DONE. -/
def State.handbackBeat (s : State) : State :=
  match s.pair.handback with
  | none => s
  | some h =>
    let ids := (s.work.streams.filter fun x => x.rg == h.rg).map (·.id)
    if h.sent then
      ((s.forEach ids State.releaseGiven).updPair fun p => { p with handback := none }).setReg 0x70018 (h.rg + 2 ^ 30)
    else if h.stopped then s
    else
      let s := s.forEach ids fun i t =>
        ((t.updStream i fun x => { x with handback := true }).unlaunch i).dropChunks i stNotOwner
      s.updPair fun p => { p with handback := some { h with stopped := true } }

/-! ### BEAT_BOUNDARY -/

/-- The partner's SERVICE trails the served beat by 2 or more: FENCE is sent and the pair passes to TAKEOVER (R442). -/
def State.fenceTest (s : State) : State :=
  if s.pair.state.mirroring && s.work.started && s.pair.partnerStarted && s.pair.partnerService + 2 ≤ s.work.served then
    (s.sendFlit "FENCE" []).takeover 4
  else s

/-- BEAT_BOUNDARY n: doorbell fetches are due on every enabled group, resumed streams rejoin, and promotions and hand-backs that are
due take place (R31, R50, R406, R450, R452). Boundaries come in order, from the epoch on. -/
def execBeatBoundary (beat : Nat) (s : State) : Res :=
  .next (if !s.alive || !s.work.started || (s.work.beat.elim false fun b => beat ≤ b) then s
    else
      let s := s.advanceTo (s.beatStart beat)
      let s := s.updWork fun w => { w with beat := some beat }
      let s := s.updHif fun h => { h with rgs := updWhere RingGroup.en (fun r => { r with beatDue := true }) h.rgs }
      let s := if s.hif.rgs.any RingGroup.en then s else s.updWork fun w => { w with served := beat }
      let s := s.forEach (s.work.streams.map (·.id)) State.rejoin
      let s := if s.pair.state == .takeover then s.promoteAll else s.promoteHandovers
      (s.handbackBeat).fenceTest)

/-! ### Watchdogs (R459) -/

/-- CORE_PROGRESS_WATCHDOG: a core that runs a launch job has retired nothing for CORE_MS. -/
def execCoreProgressWatchdog (core : Nat) (s : State) : Res :=
  .next (if s.alive && nbits (s.reg 0xA0008) 0 16 != 0 &&
      ((s.core core).job.bind s.job?).any (fun j => j.phase == .running && j.grp?.isSome) then
    s.fault (s.jobInfo core { cause := 4, subcause := 1 })
  else s)

/-- BEAT_SERVICE_WATCHDOG: the doorbell fetch of a beat's boundary is not served by the boundary two beats later. -/
def execBeatServiceWatchdog (beat : Nat) (s : State) : Res :=
  .next (if s.alive && s.work.started && nbits (s.reg 0xA0008) 16 1 == 1 && s.work.served < beat &&
      (s.work.beat.any fun b => beat ≤ b) then
    (s.advanceTo (s.beatStart (beat + 2))).fault { cause := 4, subcause := 2 }
  else s)

/-! ### CXL ports (R294 to R296, R495) -/

/-- CXL_PORT_TRAINED: at power-up, and in no later reset (R295), a port that is enabled trains with a Type-3 device of `capacity` bytes; under CXL_CTRL.IDE a port
without IDE stays down. CXL_CAP is the capacity less the tag area, in whole 16 KiB, and the expander's certificate chain is measured. -/
def execCxlPortTrained (port width speed : Nat) (capacity : Nat) (ide : Bool) (chain : List Byte) (s : State) : Res :=
  .next (if !s.power.booting || s.power.resetting != some .cold || 2 ≤ port || 3 ≤ width || 3 ≤ speed || 2 ^ 43 < capacity || (s.port port).up ||
      nbits (s.reg 0x60000) port 1 = 0 then s
    else
      let s := s.setMeas (9 + port) (if chain.isEmpty then List.replicate 64 0 else Config.shake256 chain 64)
      if nbits (s.reg 0x60000) 3 1 = 1 && !ide then s
      else
        s.updBoard fun b =>
          { b with ports := updAt port (fun _ =>
              { up := true, width := width, speed := speed, ide := ide
                cap := (capacity - capacity / 4096) / 16384 * 16384 }) b.ports })

/-- CXL_DOWN: the port's link goes down, is counted and reported (R295). -/
def execCxlDown (port : Nat) (s : State) : Res :=
  .next (if (s.port port).up && port < 2 then
    let s := s.updBoard fun b => { b with ports := updAt port (fun p => { p with up := false, width := 3, speed := 3, ide := false }) b.ports }
    (s.bump (ctrCxlDown port)).devEvent 2 [BitVec.ofNat 32 port]
  else s)

end Sys2Proof.Machine
end

