-- ==== Sys2Proof/Machine/Resets.lean ====
section
/-! DEFINITION. Resets, supplies, power failure, power and thermal limits (18_power_clocks_reset.md,
20_package_and_electrical.md). -/

namespace Sys2Proof.Machine

open Sys2Proof

/-! ### The shared reset operation (R511 to R516) -/

/-- Encoding of a reset kind in the RESET record (Table 16-10). -/
def ResetKind.code : ResetKind → Nat
  | .cold => 0
  | .warm => 1
  | .pf => 2
  | .vf => 3
  | .part => 4

/-- A request of kind `k` is absorbed by a stronger reset in progress (R515). -/
def State.absorbs (s : State) (k : ResetKind) : Bool :=
  match s.power.resetting with
  | some j => j.code < k.code
  | none => s.power.held

/-- A RESET record: kind, and function or partition (Table 16-10). -/
def State.resetRecord (k : ResetKind) (x : Nat) (s : State) : State := s.addRecord 3 [BitVec.ofNat 8 k.code, BitVec.ofNat 8 x]

/-- The timebase registers at their reset values; the counter, its holdover and TIME_COARSE and TIME_SET go on (R61). A
cold reset also forgets that an edge has been accepted (R66). A slew that tack holdover has paused stays, to resume when the
PLL drives the counter again (R64; notes/assumptions/120.md). -/
def Timebase.devReset (cold : Bool) (t : Timebase) : Timebase :=
  { t with
    slew := if t.tackHold then t.slew else 0, ppsStamp := 0, ppsErr := 0, ppsSeen := t.ppsSeen && !cold, ppsLost := t.ppsLost && !cold
    goodRun := 0, ppsLocked := false, load := none, pairFollow := false, pairLocked := false, linkLost := false }

/-- A core at its reset state; the random generator is kept (Table 18-5). -/
def Core.devReset (k : Core) : Core := { Core.reset k.num with rng := k.rng }

/-- Accounting clients that a function-level reset of function f clears: its ring groups and its totals (R387). -/
def State.clientsWithout (s : State) (f : Nat) : List Client :=
  s.work.clients.filter fun c =>
    !((c.kind == 0 && s.partFunc (s.rg c.idx).part == f) || (c.kind == 1 && c.idx == f))

/-- What the Saddler holds after a reset of the whole device. -/
def Work.cleared (clients : List Client) : Work :=
  { slots := [], streams := [], groups := [], jobs := [], nextJob := 0, moves := [], started := false
    beat := none, served := 0, partStarted := [], partErr := [], partReset := [], clients := clients }

/-- A cold, warm or PF function-level reset takes the effects of Table 18-5, with its RESET record and, outside fault
stop, a DOWN flit on every bundle that is up (R514). -/
def State.devReset (k : ResetKind) (s : State) : State :=
  let s := if s.keeper.fstop then s else s.sendFlit "DOWN" []
  let s := s.resetRecord k 0
  let clients := match k with
    | .cold => []
    | .warm => s.work.clients
    | _ => s.clientsWithout 0
  { s with
    regs := if k == .cold then keepCold s.regs else keepWarm s.regs
    tb := s.tb.devReset (k == .cold)
    hif := ⟨[], [], [], 0, if k == .pf then s.hif.link else 0⟩
    work := Work.cleared clients
    caches := ⟨[], [], [], [], [], [], []⟩
    cores := s.cores.map Core.devReset
    mem := { s.mem with spm := [], hbm := [], cxl := [] }
    pair := { Pair.reset with sbAlive := s.pair.sbAlive }
    keeper :=
      { s.keeper with
        fstop := false, cause := 0, secondary := 0, faultSeq := none
        prevFstop := s.keeper.prevFstop && k != .cold }
    bridle :=
      { s.bridle with
        result := 0
        meas :=
          let z (i : Nat) (m : List (List Byte)) : List (List Byte) := updAt i (fun _ => List.replicate 64 0) m
          if k == .cold then z 9 (z 8 (z 6 s.bridle.meas)) else z 6 s.bridle.meas }
    power :=
      { s.power with
        resetting := some k, ready := false, booting := false, capPower := false, twarn := false
        lastReset := k.code, gen := s.power.gen + 1 }
    board :=
      if k == .cold then { s.board with ports := [⟨false, 0, 0, false, 0⟩, ⟨false, 0, 0, false, 0⟩] } else s.board }

/-- The device reports ready: PWR_STATUS.READY, the BOOT record, and BRD_SVN_FW raised to the image's SVN (R486, R512). -/
def State.becomeReady (s : State) : State :=
  let s := s.updPower fun p => { p with ready := true, resetting := none, booting := false }
  let s := s.bump ctrBoots
  let s := s.addRecord 4
    (leBytes 4 s.bridle.outcome ++ leBytes 4 s.bridle.inForce.version ++ leBytes 4 s.power.trainUs ++
      leBytes 2 s.bridle.inForce.dieEn.toNat)
  s.setReg 0xB0010 (min (max (s.reg 0xB0010) s.bridle.fwSvn) all32)

/-- A warm reset: the boot chain runs at once, without reading the PUF. -/
def State.warmReset (s : State) : State := (s.devReset .warm).bootChain false

/-! ### Partition and VF function-level resets (R516, R517) -/

/-- A core of a partition under reset returns to its reset state, its power state and generator aside, which is ordered to DEEP
where the core ran, since no further run of it is due (R79); the registers of its window take their reset values and its slice reads zero (R269, R516 step 4, R548). -/
def State.resetCore (c : Nat) (s : State) : State :=
  let s := s.updCore c fun k =>
    { Core.reset c with
      rng := k.rng, pstate := k.pstate, deepCtx := k.deepCtx
      entering := if k.pstate == .active || k.pstate == .armed then some .deep else k.entering }
  let s := s.updRegs fun r => r.filter fun p =>
    !(p.1 == corBase c + 8 || p.1 == corBase c + 0xC || p.1 == corBase c + 0x228)
  s.updMem fun m => { m with spm := m.spm.erase (c * 2 ^ 23) (2 ^ 23) }

/-- Steps 1 to 4 of R516 and the mirrors of R517. Every job of p stops, its streams close without completions, its ring
groups are disabled, its pages, slots, prefixes and tables are freed. -/
def State.partResetBegin (p : Nat) (s : State) : State :=
  let s := s.updWork fun w =>
    { w with
      jobs := w.jobs.filter (·.part != p), groups := w.groups.filter (·.part != p), slots := w.slots.filter (·.part != p)
      moves := w.moves.filter fun m => !(w.streams.any fun x => x.id == m.stream && x.part == p)
      streams := w.streams.filter (·.part != p)
      partReset := if w.partReset.contains p then w.partReset else w.partReset ++ [p] }
  let s := s.updHif fun h =>
    { h with rgs := h.rgs.map fun r =>
        if r.part == p then
          { r with ctrl := r.ctrl &&& ~~~1, stopped := 0, kickDue := false, beatDue := false, cmds := [], chunks := []
                   outs := [], pool := [], pendC := 0, pendE := 0, firstC := none, firstE := none }
        else r }
  let s := s.updCaches fun c =>
    { pages := c.pages.filter (·.part != p)
      reclaim := c.reclaim.filter fun n => !(c.pages.any fun x => x.num == n && x.part == p)
      prefixes := c.prefixes.filter (·.part != p), skvGens := c.skvGens.filter (·.part != p)
      skvSlots := c.skvSlots.filter (·.part != p), skvPins := c.skvPins.filter (·.part != p)
      skcObjects := c.skcObjects.filter (·.part != p) }
  let s := s.forEach (coreList (s.partCores p)) State.resetCore
  let paired := s.pair.partner.isSome && s.pair.bundles != 0
  let s := s.when paired fun t => t.sendFlit "MIRROR_DROP" [p]
  s.when paired fun t => t.dropPartMirrors p

/-- The end of a partition reset: STARTED and ERR clear, and MEM_KV_TOTAL shrinks by p's pool (R361, R516 step 5). -/
def State.partResetEnd (p : Nat) (s : State) : State :=
  s.updWork fun w =>
    { w with partStarted := w.partStarted.filter (· != p), partErr := w.partErr.filter (· != p)
             partReset := w.partReset.filter (· != p) }

/-- PARTITION_RESET_DONE. -/
def execPartitionResetDone (p : Nat) (s : State) : Res :=
  .next (if s.work.partReset.contains p then s.partResetEnd p else s)

/-- FLR_VF: R516 and R517 on every partition of the VF, started or not, its accounting cleared, its own register copies at reset (R512,
R517). In fault stop the device stays in fault stop and no partition is reset (R463). -/
def execFlrVf (n : Nat) (s : State) : Res :=
  .next (if n == 0 || s.hif.vfs < n || s.absorbs .vf || !s.power.ready then s
    else
      let s := s.resetRecord .vf n
      let clients := s.clientsWithout n
      let s := s.updHif fun h => { h with funcs := h.funcs.filter (·.f != n), vectors := h.vectors.filter (·.f != n) }
      let s := s.updPower fun p => { p with lastReset := 3 }
      if s.keeper.fstop then s
      else
        let s := s.updWork fun w => { w with clients := clients }
        s.forEach ((List.range 16).filter fun p => s.partFunc p == n) State.partResetBegin)

/-! ### Meanings: reset triggers -/

/-- SYS_RST_N asserted: a cold reset that lasts until the release conditions hold (Table 18-4). -/
def execSysRstN (s : State) : Res :=
  .next (let s := s.updPower fun p => { p with sysRst := true }
    if s.power.dev == .off || s.power.dev == .tack || s.power.held then s else s.devReset .cold)

/-- SYS_RST_N deasserted: a port that has EXTEST or one of its kind loaded is reset first (R569). -/
def execSysRstNRelease (s : State) : Res :=
  .next (let gated := match s.board.tap.loaded with
      | .extest | .extestPulse | .extestTrain | .clamp | .highz => true
      | _ => false
    let s := if gated then s.updBoard fun b => { b with tap := ⟨.idcode, .idcode⟩ } else s
    s.updPower fun p => { p with sysRst := false })

/-- COLD_RESET_RELEASE: the device leaves cold reset when the tack oscillator is stable, SYS_RST_N is deasserted and every
main rail has been in range for 1 ms (R557). Rails that arrived out of order keep it in cold reset until they are removed
(R558). After absent rails or a power-fail event the cold reset itself comes first (R560). -/
def execColdResetRelease (inOrder : Bool) (s : State) : Res :=
  .next (
    let p := s.power
    let absent := p.dev == .tack || p.held
    if !p.vtack || !p.oscStable || p.sysRst || p.powerFail || p.outOfOrder || p.booting || p.ready ||
        !(absent || p.resetting == some .cold) then s
    else if !inOrder then s.updPower fun p => { p with outOfOrder := true, rails := true }
    else
      let s := s.when absent fun t =>
        (t.updPower fun p => { p with dev := .run, rails := true, held := false, holdupOver := false }).devReset .cold
      let s := if s.power.dev == .run && s.tb.tackHold then (s.updTb Timebase.leaveTack).timebaseEvent 2 false else s
      s.bootChain true)

/-- HBM_TRAINING_DONE: training has taken `us` µs; the device reports ready (R481, R512). -/
def execHbmTrainingDone (us : Nat) (s : State) : Res :=
  .next (if s.power.booting && !s.bridle.recovery then
    (s.updPower fun p => { p with trainUs := us }).becomeReady
  else s)

/-- FLR_PF: a PF function-level reset; neither the boot chain nor HBM training runs (Table 18-5). -/
def execFlrPf (s : State) : Res :=
  .next (if s.absorbs .pf || s.power.dev != .run || s.bridle.recovery || s.power.booting then s else s.devReset .pf)

/-- FLR_READY: the device reports ready after a PF function-level reset. -/
def execFlrReady (s : State) : Res :=
  .next (if s.power.resetting == some .pf && !s.bridle.recovery then s.becomeReady else s)

/-- A warm reset trigger, absorbed by a cold reset in progress. -/
def State.warmTrigger (s : State) : State :=
  if s.absorbs .warm || s.power.dev != .run then s else s.warmReset

/-- HOST_LINK_RESET: hot reset or link down of the host link is a warm reset (Table 18-4). -/
def execHostLinkReset (s : State) : Res := .next s.warmTrigger

/-- PERST_N asserted; the device enters SLEEP 10 ms later (R503). -/
def execPerstNAssert (s : State) : Res := .next (s.updPower fun p => { p with perst := true })

/-- SLEEP_ENTRY: every fast clock stops and the counter passes to tack holdover, its slew paused (R64, R503). -/
def execSleepEntry (s : State) : Res :=
  .next (if s.power.perst && s.power.dev == .run then
    (s.updTb fun t => { t with tackHold := true }).timebaseEvent 2 true |>.updPower fun p => { p with dev := .sleep }
  else s)

/-- PERST_N released: a warm reset follows; after SLEEP the timebase PLL drives the counter again with TIME_COARSE set and
the paused slew resumed (R64, R503, Table 3-1). -/
def execPerstNRelease (s : State) : Res :=
  .next (if !s.power.perst then s
    else
      let s := s.updPower fun p => { p with perst := false }
      if s.power.dev == .sleep then
        let slew := s.tb.slew
        let s := ((s.updPower fun p => { p with dev := .run, sbClocks := false }).updTb Timebase.leaveTack).timebaseEvent 2 false
        s.warmTrigger.updTb fun t => { t with slew := slew }
      else s.warmTrigger)

/-! ### Meanings: supplies and power failure -/

/-- VTACK applied: the counter is zero, TIME_COARSE set and TIME_SET clear; the device is in TACK (R61, R518). -/
def execVtackApplied (s : State) : Res :=
  .next (if s.power.vtack then s
    else ({ s with tb := { Timebase.reset with tackHold := true, refOk := s.tb.refOk } }).updPower fun p =>
      { p with vtack := true, dev := .tack, oscStable := false, rails := false, outOfOrder := false, tackCal := false
               held := false, powerFail := false, holdupOver := false })

/-- VTACK removed: the device is OFF; MRAM and the boot flash keep their contents, nothing else does (Table 18-1, R473). -/
def execVtackRemoved (s : State) : Res :=
  .next ({ s with
    regs := keepCold s.regs
    tb := { Timebase.reset with refOk := s.tb.refOk }
    hif := ⟨[], [], [], 0, 0⟩
    work := Work.cleared []
    caches := ⟨[], [], [], [], [], [], []⟩
    cores := s.cores.map fun k => Core.reset k.num
    mem := { s.mem with spm := [], hbm := [], cxl := [] }
    pair := Pair.reset
    keeper := { Keeper.reset with slots := s.keeper.slots, lastSeq := s.keeper.head, staged := [] }
    bridle :=
      { s.bridle with
        secret := false, pufOk := false, sessions := [], ideKeys := [], recovery := false, result := 0
        meas := List.replicate 10 (List.replicate 64 0) }
    power :=
      { Power.reset with
        dev := .off, resetting := none, vtack := false, oscStable := false, rails := false
        lastReset := s.power.lastReset, gen := s.power.gen + 1, perst := s.power.perst, sysRst := s.power.sysRst }
    board := ⟨⟨.idcode, .idcode⟩, [⟨false, 0, 0, false, 0⟩, ⟨false, 0, 0, false, 0⟩], none⟩ })

/-- TACK_OSC_STABLE: the tack cycle count starts (R501). -/
def execTackOscStable (s : State) : Res :=
  .next (if s.power.vtack then s.updPower fun p => { p with oscStable := true } else s)

/-- MAIN_RAILS_LOST: from RUN or SLEEP the device passes to TACK; THERM_TRIP_N is released, the rails must come back in
order, and the counter goes on from the tack oscillator (R502, R503, R523, R558). -/
def execMainRailsLost (s : State) : Res :=
  .next (if s.power.dev == .run || s.power.dev == .sleep then
    let s := s.loseAll
    (s.updTb fun t => { t with tackHold := true }).updPower fun p =>
      { p with dev := .tack, rails := false, outOfOrder := false, trip := false, ready := false, booting := false
               resetting := none, sbClocks := false }
  else s.updPower fun p => { p with rails := false, outOfOrder := false })

/-- A power-fail event (R559): on the first one, the record with its source, a DOWN flit on every bundle that is up outside
fault stop, and everything stopped. Records that wait for a buffer are dropped (R472). Later events change nothing (R560). -/
def State.powerFail (source : Nat) (s : State) : State :=
  if s.power.powerFail || s.power.dev == .off then s
  else
    let n := s.keeper.waiting.length
    let s := (s.updKeeper fun k => { k with waiting := [], lost := k.lost + n }).count ctrKprLost n
    let s := s.addRecord 2
      (leBytes 1 source ++ leBytes 1 s.pair.state.code ++ leBytes 1 (b01 s.keeper.fstop) ++ [0] ++
        leBytes 4 s.work.streams.length)
    let s := s.updKeeper fun k => { k with holdupOk := false }
    let s := if s.keeper.fstop then s else s.sendFlit "DOWN" []
    let s := s.loseAll
    let s := s.updPair fun p => { p with bundles := 0 }
    s.updPower fun p =>
      { p with powerFail := true, failSource := source, held := true, holdupOver := false, ready := false
               booting := false, resetting := none }

/-- PWR_FAIL_N asserted. -/
def execPowerFailEvent (s : State) : Res := .next (s.powerFail 0)

/-- A brownout of a rail, by its code of Table 20-3. -/
def execBrownout (rail : Nat) (s : State) : Res :=
  .next (if 1 ≤ rail ∧ rail ≤ 7 then s.powerFail rail else s)

/-- HOLDUP_END: records not begun are dropped; the device passes to TACK, or to OFF without VTACK (R472, Table 20-9). -/
def execHoldupEnd (s : State) : Res :=
  .next (if s.power.held && !s.power.holdupOver then
    let k := s.keeper
    let rest := (if k.busy then k.staged.drop 1 else k.staged) ++ k.waiting
    let s := (s.updKeeper fun k =>
      { k with staged := if k.busy then k.staged.take 1 else [], waiting := [], lost := k.lost + rest.length }).count
        ctrKprLost rest.length
    (s.updTb fun t => { t with tackHold := true }).updPower fun p => { p with holdupOver := true, dev := .tack, rails := false }
  else s)

/-- PWR_FAIL_N has been deasserted for 10 ms (R560). -/
def execPowerFailRelease (s : State) : Res := .next (s.updPower fun p => { p with powerFail := false })

/-- HOLDUP_CHARGE: the capacitors reach, or fall below, the charge of the 2 ms holdup (R559). -/
def execHoldupCharge (ok : Bool) (s : State) : Res :=
  .next (if s.power.powerFail && ok then s else s.updKeeper fun k => { k with holdupOk := ok })

/-! ### Meanings: Keeper commits -/

/-- KEEPER_COMMIT_START (R472). -/
def execKeeperCommitStart (s : State) : Res := .next s.commitStart

/-- KEEPER_COMMIT_DONE (R468, R472). -/
def execKeeperCommitDone (s : State) : Res := .next s.commitDone

/-! ### Meanings: power, temperature, clocks -/

/-- PWR_TMAX is at or above PWR_TWARN: the condition TWARN, counted on entry (Table 18-10). -/
def State.warnUpdate (s : State) : State :=
  let hot := s.reg 0xC0020 * 10 ≤ s.tmax
  let s := s.when (hot && !s.power.twarn) (State.bump (ctrPwr 2))
  s.updPower fun p => { p with twarn := hot }

/-- POWER_SAMPLE: energy, the 1 ms averages and the average over PWR_WINDOW; capping while the average exceeds PWR_LIMIT
(R520, R522). -/
def execPowerSample (r : PowerReading) (s : State) : Res :=
  .next (if !s.power.ready then s
    else
      let s := s.count ctrEnergy r.energy
      let s := (s.setReg 0xC0010 (r.now % 2 ^ 32)).setReg 0xC0014 (r.avg % 2 ^ 32)
      let s := s.forEach (List.range 10) fun d t => t.setReg (0xC0140 + 4 * d) (r.dies.getD d 0 % 2 ^ 32)
      let s := s.updPower fun p => { p with capPower := s.reg 0xC0018 < r.avg }
      s.when (r.capMs && s.capping) (State.bump (ctrPwr 0)))

/-- WARNING_TEMPERATURE: the temperatures of the 21 dies, in 0.1 °C (Table 18-9). -/
def execWarningTemperature (temps : List Nat) (s : State) : Res :=
  .next (if !s.power.ready then s
    else (s.forEach (List.range 21) fun i t => t.setReg (0xC00C0 + 4 * i) (temps.getD i 0 % 2 ^ 32)).warnUpdate)

/-- THERM_TRIP: with the main rails present a die at 105 °C asserts THERM_TRIP_N until they are removed (R523). -/
def execThermTrip (die : Nat) (s : State) : Res :=
  .next (if die < 21 ∧ (s.power.dev = .run ∨ s.power.dev = .sleep) then
    (s.updPower fun p => { p with trip := true }).emit (.pin "THERM_TRIP_N" false)
  else s)

/-- REFCLK_M absent: every fast PLL holds its control word (R565). -/
def execRefclkMLost (s : State) : Res := .next (s.updPower fun p => { p with refmHold := true })

/-- REFCLK_M present again and every fast PLL relocked (R565). -/
def execRefclkMReturn (s : State) : Res := .next (s.updPower fun p => { p with refmHold := false })

/-- TACK_CALIBRATION: the tack oscillator is measured against REFCLK_T while it is present and locked (R501). -/
def execTackCalibration (s : State) : Res :=
  .next (if s.tb.refOk then s.updPower fun p => { p with tackCal := true } else s)

/-! ### Meanings: the test access port (R568, R569) -/

/-- The port loads an instruction; EXTEST and its kind decode as BYPASS unless SYS_RST_N is asserted. -/
def State.tapLoad (i : TapInstr) (gated : Bool) (s : State) : State :=
  s.updBoard fun b => { b with tap := ⟨i, if gated && !s.power.sysRst then .bypass else i⟩ }

def execTapReset (s : State) : Res := .next (s.updBoard fun b => { b with tap := ⟨.idcode, .idcode⟩ })

def execBypass (s : State) : Res := .next (s.tapLoad .bypass false)

def execSamplePreload (s : State) : Res := .next (s.tapLoad .sample false)

/-- IDCODE reads the stepping, the part number by physical variant, the manufacturer 0x4D7 and 1. -/
def State.idcodeValue (s : State) : Nat :=
  (if leNat (s.idnRead 8 1) % 2 == 1 then 0x0920 else 0x0940) * 2 ^ 12 + 0x4D7 * 2 + 1

def execIdcode (s : State) : Res :=
  .next ((s.tapLoad .idcode false).emit (.readData (leBytes 4 s.idcodeValue)))

def execExtest (s : State) : Res := .next (s.tapLoad .extest true)

def execExtestPulse (s : State) : Res := .next (s.tapLoad .extestPulse true)

def execExtestTrain (s : State) : Res := .next (s.tapLoad .extestTrain true)

def execClamp (s : State) : Res := .next (s.tapLoad .clamp true)

def execHighz (s : State) : Res := .next (s.tapLoad .highz true)

end Sys2Proof.Machine
end

