-- ==== Sys2Proof/Machine/Regs.lean ====
section
/-! DEFINITION. Accesses to BAR0, BAR2 and BAR4 and from the Rein partner: who may reach what, access codes, latches, the
set-up lock, ranges, and what the writes of single registers do (19_register_map.md and the register tables). -/

namespace Sys2Proof.Machine

open Sys2Proof

/-! ### What is served (R397, R462, R483, R519) -/

/-- The function answers at all: it is the PF or a VF that is enabled (R395, R483), the device is in RUN, neither held in cold reset before its boot chain nor by a power-fail
event, PERST_N is deasserted, and under IDE_REQ an IDE stream is keyed (R397). -/
def State.busUp (s : State) (f : Nat) : Bool :=
  s.power.vtack && s.power.dev == .run && !s.power.powerFail && !s.power.perst &&
    !(s.power.resetting == some .cold && !s.power.booting && !s.bridle.recovery) &&
    !(s.bridle.recovery && f != 0) && f ≤ s.hif.vfs &&
    (nbits (s.reg 0x10000) 0 1 == 0 || !s.bridle.ideKeys.isEmpty)

/-- A block is served: in recovery IDN, BRD and KPR, before READY also PWR (R483, R519). -/
def State.serves (s : State) (b : Block) : Bool :=
  match b with
  | .idn => true
  | .kpr => true
  | .brd => true
  | .pwr => !s.bridle.recovery
  | _ => s.power.ready

/-! ### Views of a virtual function (R396, Table 19-2) -/

/-- Function f owns the partition of an instance. -/
def State.ownsCore (s : State) (f c : Nat) : Bool :=
  (List.range 16).any fun p => s.partFunc p == f && (s.partCores p).getLsbD c

/-- PART of HBM window w (Table 15-6). -/
def State.hwinPart (s : State) (w : Nat) : Nat := nbits (s.reg (0x70208 + 16 * w)) 24 4

/-- The register belongs to a ring group: it shows the group that HIF_RG_SEL selects. -/
def isRgReg (off : Nat) : Bool := 0x10014 ≤ off && off < 0x1005C

/-- HBM window of an offset in the RNL block. -/
def hwinOf (off : Nat) : Nat := (off - 0x70200) / 16

/-- A function sees the register. -/
def State.maySee (s : State) (f : Nat) (b : Block) (a : RegAt) : Bool :=
  if isRgReg a.base then (s.rgOf f).isSome
  else
    match b with
    | .cor c => s.coreOn c && (f == 0 || s.ownsCore f c)
    | _ =>
      f == 0 ||
        (match b with
        | .idn => a.base != 0x20 && a.base < 0x8000
        | .prt => 0x40400 ≤ a.base || s.partFunc ((a.base - 0x40000) / 0x40) == f
        | .mem => a.base < 0x50600
        | .rnl =>
          if 0x70100 ≤ a.base && a.base < 0x70140 then s.partFunc a.inst == f
          else a.base < 0x70200 || s.partFunc (s.hwinPart (hwinOf a.base)) == f
        | .skv =>
          if a.base < 0x80100 then true
          else if a.base < 0x80140 then s.partFunc a.inst == f
          else if a.base < 0x85000 then s.partFunc (a.inst / 256) == f
          else s.partFunc (a.inst / 16) == f
        | .kpr => false
        | .brd => false
        | .pwr => a.base == 0xC0000
        | _ => true)

/-- A function may write the register: the PF every one it sees; a VF its own selectors, its ring groups, its cores, and the
host windows of its partitions (R389, R432, R453, R527). -/
def State.mayPoke (s : State) (f : Nat) (b : Block) (a : RegAt) (v : Nat) : Bool :=
  s.maySee f b a &&
    (f == 0 ||
      (match b with
      | .hif => a.base == 0x10010 || isRgReg a.base
      | .sdl => a.base == 0x30100
      | .cor _ => true
      | .rnl =>
        0x70280 ≤ a.base && (a.base % 16 != 8 || s.partFunc (nbits v 24 4) == f)
      | _ => false))

/-! ### Reads (R10, R529, R531) -/

/-- A naturally aligned 4-byte read. The low word of a 64-bit register latches the whole value; the next read of its high
word returns the latched half. -/
def State.wordRead (f off : Nat) (s : State) : Nat × State :=
  match s.regAt off with
  | none => (0, s.ignore (s.countBlock off))
  | some (b, a) =>
    if !s.maySee f b a then (0, s.ignore b)
    else if a.row.wo then (0, s)
    else
      let v := s.regValue f a.base
      if a.row.width = 8 then
        if off = a.base then
          (v % 2 ^ 32, s.updFunc f fun c => { c with latches := putKey off (BitVec.ofNat 32 (v / 2 ^ 32)) c.latches })
        else
          match getKey a.base (s.func f).latches with
          | some h => (h.toNat, s.updFunc f fun c => { c with latches := c.latches.filter fun x => x.1 != a.base })
          | none => (v / 2 ^ 32, s)
      else (v % 2 ^ 32, s)

/-- The bytes of a narrow read: no latch is taken. -/
def State.narrowRead (f off size : Nat) (s : State) : Nat × State :=
  match s.regAt off with
  | none => (0, s.ignore (s.countBlock off))
  | some (b, a) =>
    if !s.maySee f b a then (0, s.ignore b)
    else if a.row.wo then (0, s)
    else (nbits (s.regValue f a.base) (8 * (off - a.base)) (8 * size), s)

/-- The offset is the start of a 64-bit register. -/
def State.wideAt (s : State) (off : Nat) : Bool :=
  match s.regAt off with
  | some (_, a) => a.row.width == 8 && a.base == off
  | none => false

/-- A read of BAR0: the value and the state after (R466, R529). -/
def State.busRead (f off size : Nat) (s : State) : Nat × State :=
  let b := s.countBlock off
  if !s.busUp f then (0, s)
  else if !s.serves b then (0, if s.bridle.recovery then s.ignore b else s)
  else if size = 4 ∧ off % 4 = 0 then s.wordRead f off
  else if size = 8 ∧ off % 8 = 0 then
    (if s.wideAt off then s.narrowRead f off 8
    else
      let lo := s.wordRead f off
      let hi := lo.2.wordRead f (off + 4)
      (lo.1 + hi.1 * 2 ^ 32, hi.2))
  else if (size = 1 ∨ size = 2) ∧ off % size = 0 then s.narrowRead f off size
  else (0, s.ignore b)

/-! ### The set-up lock and ranges (Table 19-4, R533, R534, R536) -/

/-- The owner of the register's RWS fields is started. -/
def State.lockedFor (s : State) (f : Nat) (b : Block) (a : RegAt) : Bool :=
  match b with
  | .hif => if isRgReg a.base then (s.rgOf f).elim false fun r => s.partStarted r.part else s.work.started
  | .prt => s.partStarted ((a.base - 0x40000) / 0x40)
  | .rnl => if 0x70100 ≤ a.base && a.base < 0x70140 then s.partStarted a.inst else s.work.started
  | .cor c => (s.corePart? c).elim false s.partStarted
  | _ => s.work.started

/-- The value lies in the range that the register's rule gives. -/
def State.inRange (s : State) (f off v : Nat) : Bool :=
  let within (lo hi : Nat) : Bool := lo ≤ v && v ≤ hi
  if off = 0x10018 then (List.range 4).all fun k => nbits v (4 * k) 4 ≤ 10
  else if off = 0x10014 then
    -- HIF_RG_CTRL.PART also needs the new partition not started (R432)
    (match s.rgOf f with
      | some r => nbits v 1 4 == r.part || f != 0 || !s.partStarted (nbits v 1 4)
      | none => true)
  else if off = 0x20024 then within 1 500
  else if off = 0x30010 then within 2 80
  else if off = 0x30014 then 100 ≤ v
  else if off = 0x30018 then within 1000 1000000
  else if off = 0x3001C then v ≤ 40000
  else if off = 0x30020 then within 1 8
  else if off = 0x9000C then v ≤ 10000
  else if off = 0xA0008 then nbits v 0 16 ≤ 10000
  else if off = 0xC0018 then within 400 (if s.iy920 then 1050 else 2000)
  else if off = 0xC001C then within 10 10000
  else if off = 0xC0020 then within 60 95
  else if 0xC0080 ≤ off ∧ off < 0xC00A8 then nbits v 0 4 ≤ 10
  else if 0x100000 ≤ off ∧ off % 0x1000 = 8 then nbits v 0 3 ≤ 3
  else true

/-! ### What single registers do -/

/-- Ring-group registers of a group (R398, R399, R409, R428): a group that is enabled starts with its indices and counts at
zero; a group that is disabled keeps no descriptor; a stopped ring stays stopped (R429). -/
def RingGroup.write (r : RingGroup) (off v : Nat) : RingGroup :=
  if off = 0x10014 then
    let en := nbits v 0 1 == 1
    let r' := { r with ctrl := BitVec.ofNat 32 (v % 64) }
    if en && !r.en then
      { r' with fetched := [0, 0, 0], producer := [0, 0, 0], posted := [0, 0, 0], evPosted := 0, evConsumer := 0, lost := 0
                pendC := 0, pendE := 0, firstC := none, firstE := none, kickDue := false, beatDue := false
                cmds := [], chunks := [], outs := [], pool := [] }
    else if !en && r.en then
      { r' with kickDue := false, beatDue := false, cmds := [], chunks := [], outs := [], pool := []
                pendC := 0, pendE := 0, firstC := none, firstE := none }
    else r'
  else if off = 0x10018 then { r with size := BitVec.ofNat 32 (v % 2 ^ 16) }
  else if off = 0x1001C then { r with vec := BitVec.ofNat 32 v &&& 0x1F1F }
  else if off = 0x10020 then { r with modr := BitVec.ofNat 32 (v % 2 ^ 24) }
  else if off = 0x10028 then { r with dbl := BitVec.ofNat 64 (v / 256 * 256) }
  else { r with bases := updAt ((off - 0x10030) / 8) (fun _ => BitVec.ofNat 64 (v / 4096 * 4096)) r.bases }

/-- A write of HIF_RG_CTRL by a VF leaves PART, which only the PF writes, and counts when it would have changed it. -/
def State.rgWrite (f off v : Nat) (s : State) : State :=
  match s.rgOf f with
  | none => s.ignore .hif
  | some r =>
    if off = 0x10014 ∧ f ≠ 0 ∧ nbits v 1 4 ≠ r.part then
      (s.updRg r.num fun r => r.write off (setField v 1 4 r.part)).ignore .hif
    else s.updRg r.num fun r => r.write off v

/-- CIN_SET: the counter is loaded, at once or at the next accepted edge; a follower ignores it (R62, R72). -/
def State.cinSet (v : Nat) (s : State) : State :=
  if s.tb.pairFollow then s.ignore .cin
  else if nbits (s.reg 0x20000) 3 1 = 1 then (s.setReg 0x20010 v).updTb fun t => { t with load := some v }
  else (s.setReg 0x20010 v).updTb (Timebase.loadTo v)

/-- CIN_RATE_ADJ, clamped to ±500 ppm; ignored by a follower and under MODE 1 (R63, R67, R72). -/
def State.cinRate (v : Nat) (s : State) : State :=
  if s.tb.pairFollow || s.ppsMode then s.ignore .cin
  else s.setReg 0x20018 (unsigned 32 (clampInt 2147484 (signed 32 (v % 2 ^ 32))))

/-- CIN_OFFSET_ADJ: added to the pending slew (R64, R67, R72). -/
def State.cinOffset (v : Nat) (s : State) : State :=
  if s.tb.pairFollow || s.ppsMode then s.ignore .cin
  else s.updTb (Timebase.addSlew (signed 32 (v % 2 ^ 32)))

/-- CIN_CTRL: a write of MODE 0 clears PPS_LOCKED; a run of good edges starts afresh (R67). -/
def State.cinCtrl (v : Nat) (s : State) : State :=
  (s.setReg 0x20000 (v % 16)).updTb fun t =>
    { t with goodRun := 0, ppsLocked := t.ppsLocked && nbits v 0 1 == 1 }

/-- Every RWS register of BAR0 in ascending offset, as the PF reads it, in its width; a reserved instance reads as zero (R2,
Table 17-7, measurement 7). -/
def State.rwsBytes (s : State) : List Byte :=
  let rowsOf (start : Nat) (rs : List RegRow) : List Byte :=
    (rs.filter fun r => r.rws != 0).flatMap fun r =>
      (List.range r.count).flatMap fun i =>
        let off := start + r.off + i * max r.stride r.width
        leBytes r.width (if s.reservedInst off then 0 else s.regValue 0 off)
  ([rowsHif, rowsCin, rowsSdl, rowsPrt, rowsCxl, rowsRnl, rowsSkv, rowsAfe, rowsKpr, rowsPwr].flatMap (rowsOf 0)) ++
    (List.range 160).flatMap fun c => rowsOf (corBase c) rowsCor

/-- SDL_CTRL: START starts the device when R539 holds and fixes measurement 7; else the whole write is ignored. -/
def State.sdlCtrl (v : Nat) (s : State) : State :=
  let fb (t : State) : State := t.setReg 0x30000 (nbits v 1 1 * 2)
  if nbits v 0 1 = 0 ∨ s.work.started then fb s
  else if !s.alive || s.tb.load.isSome then s.ignore .sdl
  else
    let m := Config.shake256 s.rwsBytes 64
    let now := s.tb.now
    let n := if s.epoch ≤ now ∧ 0 < s.period then some ((now - s.epoch) / s.period) else none
    ((fb s).setMeas 7 m).updWork fun w => { w with started := true, beat := n, served := n.getD 0 }

/-- The conditions of R361. -/
def State.canStart (s : State) (p : Nat) : Bool :=
  let cs := s.partCores p
  let all := s.work.partStarted ++ [p]
  s.work.started && cs != 0 && (coreList cs).all s.coreOn &&
    s.work.partStarted.all (fun q => s.partCores q &&& cs == 0) &&
    (List.range 10).all (fun d => sumBy (fun q => s.dieNeed q d) all ≤ poolMib) &&
    sumBy s.partCxlGib all * 2 ^ 30 ≤ s.cxlCapacity

/-- PRT_CTRL: START and RESET of partition p (R361, R516). A START of a started partition changes nothing. -/
def State.prtCtrl (p v : Nat) (s : State) : State :=
  let go := nbits v 0 1 == 1
  if nbits v 1 1 = 1 then
    let s := (s.when go (State.ignore .prt)).updPower fun w => { w with lastReset := ResetKind.part.code }
    (s.resetRecord .part p).partResetBegin p
  else if !go then s
  else if s.work.partReset.contains p then s.ignore .prt
  else if s.partStarted p then s
  else if s.canStart p then
    s.updWork fun w => { w with partStarted := w.partStarted ++ [p], partErr := w.partErr.filter (· != p) }
  else s.updWork fun w => { w with partErr := if w.partErr.contains p then w.partErr else w.partErr ++ [p] }

/-- RNL_CTRL: the bits that take effect, and the pair trains or leaves with EN (Table 15-5). -/
def State.rnlCtrl (v : Nat) (s : State) : State := (s.setReg 0x70000 (v &&& 0xFF1F)).pairCtrl (nbits v 0 1 == 1)

/-- RNL_TAKEOVER: 1 confirms a takeover in ISOLATED; any other write is ignored and counted (Table 15-2). -/
def State.rnlTake (v : Nat) (s : State) : State :=
  if v = 1 ∧ s.pair.state = .isolated then s.takeover 5 else s.ignore .rnl

/-- RNL_HANDBACK: GROUP is written; GO starts a hand-back, or sets ERR and moves nothing (R452). -/
def State.rnlHand (v : Nat) (s : State) : State :=
  let g := nbits v 0 10
  let keep := s.reg 0x70018 / 2 ^ 29 % 4 * 2 ^ 29
  if nbits v 31 1 = 0 then s.setReg 0x70018 (g + keep)
  else
    let mine := s.work.streams.filter fun x => x.rg == g
    let bad := s.pair.state != .paired || s.pair.handback.isSome || mine.any (fun x => !x.mirrored) ||
      mine.any fun x => x.inkind == 3 && (match x.source with
        | some y => !mine.any fun z => z.id == y
        | none => false)
    if bad then s.setReg 0x70018 (g + 2 ^ 29)
    else (s.setReg 0x70018 g).updPair fun p => { p with handback := some ⟨g, false, false⟩ }

/-- A window base and length lie in partition p's HBM share (R454). -/
def State.hwinInShare (s : State) (p base len : Nat) : Bool :=
  base % 16384 == 0 &&
    (match s.locate base (len * 16384) with
    | some (.die d o) => s.dieShare p d o (len * 16384)
    | some (.stack k b) => s.dieShare p (k / 2) (stackOffset k b) (len * 16384)
    | _ => false)

/-- A word of a host window is written; a window whose base lies outside PART's share stays closed (R454). -/
def State.hwinWrite (off v : Nat) (s : State) : State :=
  let s := s.setReg off (if off % 16 = 8 then v % 2 ^ 30 + nbits v 31 1 * 2 ^ 31 else if off % 16 = 12 then 0 else v)
  let o := off / 16 * 16
  let w2 := s.reg (o + 8)
  let base := s.reg o + s.reg (o + 4) * 2 ^ 32
  if nbits w2 31 1 = 1 ∧ !s.hwinInShare (nbits w2 24 4) base (nbits w2 0 24) then
    (s.setReg (o + 8) (w2 % 2 ^ 31)).ignore .rnl
  else s

/-- The client that an SDL_ACC_SEL value names, for a function that may select it (R389). -/
def State.accClient (s : State) (f v : Nat) : Option (List DWord) :=
  let i := nbits v 0 10
  let k := nbits v 16 2
  let ok := if k = 0 then f == 0 || s.partFunc (s.rg i).part == f
    else if k = 1 then i < 64 && (f == 0 || i == f)
    else if k = 2 then i < 16 && (f == 0 || s.partFunc i == f) else false
  if ok then
    some (((s.work.clients.find? fun c => c.kind == k && c.idx == i).map (·.counts)).getD (List.replicate 16 0))
  else none

/-- SDL_ACC_SEL: the 16 counters of a client are latched, or zeros under the violation rule. -/
def State.accSelect (f v : Nat) (s : State) : State :=
  let got := s.accClient f v
  let s := s.updFunc f fun c =>
    { c with accSel := BitVec.ofNat 32 v &&& 0x303FF, accData := got.getD (List.replicate 16 0) }
  s.when got.isNone (State.ignore .sdl)

/-- KPR_SEL: the record of a SEQ is latched, or zeros with VALID clear (R474). -/
def State.keeperSelect (f v : Nat) (s : State) : State :=
  let got := s.keeper.find v
  s.updFunc f fun c =>
    { c with kprSel := BitVec.ofNat 64 v, kprValid := got.isSome
             kprData := (got.map KRecord.bytes).getD (List.replicate 4096 0) }

/-- KPR_CTRL.SNAP: a SNAPSHOT record, unless one still waits for a buffer (R476). -/
def State.snapshot (s : State) : State :=
  if s.keeper.waiting.any fun r => r.kind == 7 then s.ignore .kpr else s.addRecord 7 s.counterList

/-- PWR_RESET: 0xC1 a cold reset, 0xA1 a warm reset; another value is ignored and counted (Table 18-4). -/
def State.pwrReset (v : Nat) (s : State) : State :=
  if v = 0xC1 then (if s.absorbs .cold then s else s.devReset .cold)
  else if v = 0xA1 then s.warmTrigger
  else s.ignore .pwr

/-- COR_SR_SEED: the generator takes the value, or for zero a value of the Bridle's random source (R122, R547). -/
def State.coreSeed (c v : Nat) (s : State) : State :=
  let s := s.setReg (corBase c + 0x228) v
  if v = 0 then
    let d := s.draw
    d.2.updCore c fun k => { k with rng := d.1 }
  else s.updCore c fun k => { k with rng := BitVec.ofNat 64 v }

/-- A write that the access code admits takes effect. `v` holds RW and RWS bits only. -/
def State.regEffect (f off v : Nat) (s : State) : State :=
  if off = 0x20 then s.updFunc f fun c => { c with idnSel := BitVec.ofNat 32 v }
  else if off = 0x10010 then s.updFunc f fun c => { c with rgSel := BitVec.ofNat 32 v }
  else if isRgReg off then s.rgWrite f off v
  else if off = 0x20000 then s.cinCtrl v
  else if off = 0x20010 then s.cinSet v
  else if off = 0x20018 then s.cinRate v
  else if off = 0x2001C then s.cinOffset v
  else if off = 0x30000 then s.sdlCtrl v
  else if off = 0x30100 then s.accSelect f v
  else if 0x40000 ≤ off ∧ off < 0x40400 ∧ off % 0x40 = 0 then s.prtCtrl ((off - 0x40000) / 0x40) v
  else if off = 0x70000 then s.rnlCtrl v
  else if off = 0x70014 then s.rnlTake v
  else if off = 0x70018 then s.rnlHand v
  else if 0x70280 ≤ off ∧ off < 0x70300 then s.hwinWrite off v
  else if off = 0xA0004 then s.when (nbits v 0 1 == 1) State.snapshot
  else if off = 0xA0020 then s.keeperSelect f v
  else if off = 0xB000C then s.when (nbits v 0 1 == 1) State.activate
  else if off = 0xB0044 then s.flashAddr v
  else if 0xB1000 ≤ off ∧ off < 0xB2000 then s.flashData ((off - 0xB1000) / 4) v
  else if off = 0xC0004 then s.pwrReset v
  else if 0x100000 ≤ off ∧ off % 0x1000 = 0x228 then s.coreSeed ((off - 0x100000) / 0x1000) v
  else if 0x100000 ≤ off ∧ 0x440 ≤ off % 0x1000 ∧ off % 0x1000 < 0x480 then
    s.updCore ((off - 0x100000) / 0x1000) fun k =>
      let e := (off % 0x1000 - 0x440) / 4
      { k with regions := updAt e (fun _ => BitVec.ofNat 32 v) k.regions, rgnPins := updAt e (fun _ => rgnKind (BitVec.ofNat 32 v) != 0) k.rgnPins }
  else s.setReg off v

/-! ### Writes (R11, R466, R529, R530, R533 to R538) -/

/-- A write of a whole register under its access code: W1C clears; a locked RWS register is ignored and counted, and beside
RW fields its RWS fields keep their bits (R534); a value outside its range is ignored in all fields (R533). -/
def State.regWrite (f : Nat) (b : Block) (a : RegAt) (v : Nat) (s : State) : State :=
  let r := a.row
  if r.w1c ≠ 0 then s.setReg a.base (s.reg a.base - (s.reg a.base &&& v &&& r.w1c))
  else if r.rw = 0 ∧ r.rws = 0 then s
  else
    let cur := s.regValue f a.base
    let locked := r.rws ≠ 0 ∧ s.lockedFor f b a
    if locked ∧ r.rw = 0 then s.ignore b
    else
      let v' := if locked then (v &&& r.rw) + (cur &&& r.rws) else v &&& (r.rw ||| r.rws)
      let s := if locked ∧ (v &&& r.rws) ≠ (cur &&& r.rws) then s.ignore b else s
      if s.inRange f a.base v' then s.regEffect f a.base v' else s.ignore b

/-- A 4-byte write. The low word of a 64-bit register is held; its high word applies both (R11). -/
def State.wordWrite (f off v : Nat) (s : State) : State :=
  match s.regAt off with
  | none => s.ignore (s.countBlock off)
  | some (b, a) =>
    if !s.mayPoke f b a v then s.ignore b
    else if a.row.width = 8 then
      if a.row.rw = 0 ∧ a.row.rws = 0 then s
      else if off = a.base then
        s.updFunc f fun c => { c with held := putKey off (BitVec.ofNat 32 v) c.held }
      else
        let lo := ((getKey a.base (s.func f).held).map (·.toNat)).getD (s.regValue f a.base % 2 ^ 32)
        (s.updFunc f fun c => { c with held := c.held.filter fun x => x.1 != a.base }).regWrite f b a (lo + v % 2 ^ 32 * 2 ^ 32)
    else s.regWrite f b a (v % 2 ^ 32)

/-- A write that resets the device: the one kind of write that fault stop leaves (R462). -/
def isResetWrite (f off size v : Nat) : Bool := f == 0 && off == 0xC0004 && size == 4 && (v == 0xC1 || v == 0xA1)

/-- A write of BAR0. -/
def State.busWrite (f off size v : Nat) (s : State) : State :=
  let b := s.countBlock off
  if !s.busUp f then s
  else if !s.serves b then s.ignore b
  else if s.keeper.fstop && !isResetWrite f off size v then s.ignore b
  else if size = 4 ∧ off % 4 = 0 then s.wordWrite f off v
  else if size = 8 ∧ off % 8 = 0 then
    match s.regAt off with
    | some (b, a) =>
      if a.row.width = 8 ∧ a.base = off then (if s.mayPoke f b a v then s.regWrite f b a v else s.ignore b)
      else (s.wordWrite f off (v % 2 ^ 32)).wordWrite f (off + 4) (v / 2 ^ 32)
    | none => (s.wordWrite f off (v % 2 ^ 32)).wordWrite f (off + 4) (v / 2 ^ 32)
  else s.ignore b

/-! ### Meanings: register reads and writes -/

/-- LOW_WORD_READ, and every read of BAR0 of `size` bytes: the value goes out; a 4-byte read of a low word latches, and an 8-byte
one of a 64-bit register is one access (R10, R529, R531). -/
def execLowWordRead (f off size : Nat) (s : State) : Res :=
  .next (let r := s.busRead f off size
    if s.busUp f then r.2.emit (.readData (leBytes size r.1)) else s)

/-- REGISTER_WRITE: a write of `size` bytes of BAR0. -/
def execRegisterWrite (f off size : Nat) (value : DWord) (s : State) : Res := .next (s.busWrite f off size value.toNat)

/-- CIN_SET (R62). -/
def execCinSet (f : Nat) (value : DWord) (s : State) : Res := .next (s.busWrite f 0x20010 8 value.toNat)

/-- CIN_OFFSET_ADJ (R64). -/
def execCinOffsetAdj (f : Nat) (value : Word) (s : State) : Res := .next (s.busWrite f 0x2001C 4 value.toNat)

/-- CIN_RATE_ADJ (R63). -/
def execCinRateAdj (f : Nat) (value : Word) (s : State) : Res := .next (s.busWrite f 0x20018 4 value.toNat)

/-- CIN_CTRL with MODE (R67). -/
def execCinMode (f : Nat) (value : Word) (s : State) : Res := .next (s.busWrite f 0x20000 4 value.toNat)

/-- SDL_CTRL with START (R539). -/
def execDeviceStart (f : Nat) (value : Word) (s : State) : Res := .next (s.busWrite f 0x30000 4 value.toNat)

/-- PRT_CTRL[p].START (R361). -/
def execPartitionStart (f p : Nat) (s : State) : Res := .next (s.busWrite f (prtBase (p % 16)) 4 1)

/-- PRT_CTRL[p].RESET (R516). -/
def execPartitionReset (f p : Nat) (s : State) : Res := .next (s.busWrite f (prtBase (p % 16)) 4 2)

/-- HIF_RG_CTRL of the selected group (R409, Table 14-21). -/
def execRingGroupEnable (f : Nat) (value : Word) (s : State) : Res := .next (s.busWrite f 0x10014 4 value.toNat)

/-- SDL_ACC_SEL (R389). -/
def execSdlAccSel (f : Nat) (value : Word) (s : State) : Res := .next (s.busWrite f 0x30100 4 value.toNat)

/-- KPR_SEL (R474). -/
def execKprSel (f : Nat) (seq : DWord) (s : State) : Res := .next (s.busWrite f 0xA0020 8 seq.toNat)

/-- KPR_CTRL.SNAP (R476). -/
def execSnap (f : Nat) (s : State) : Res := .next (s.busWrite f 0xA0004 4 1)

/-- COR_SR_SEED of a core (R122, R547). -/
def execCorSrSeed (f core : Nat) (value : DWord) (s : State) : Res :=
  .next (s.busWrite f (corBase (core % 160) + 0x228) 8 value.toNat)

/-- RNL_CTRL with EN set (R435). -/
def execPairEnable (f : Nat) (value : Word) (s : State) : Res := .next (s.busWrite f 0x70000 4 (value ||| 1).toNat)

/-- RNL_CTRL with EN clear (Table 15-2). -/
def execPairLeave (f : Nat) (value : Word) (s : State) : Res := .next (s.busWrite f 0x70000 4 (value &&& 0xFFFFFFFE).toNat)

/-- RNL_TAKEOVER (R442). -/
def execRnlTakeover (f : Nat) (value : Word) (s : State) : Res := .next (s.busWrite f 0x70014 4 value.toNat)

/-- RNL_HANDBACK (R452). -/
def execHandback (f : Nat) (value : Word) (s : State) : Res := .next (s.busWrite f 0x70018 4 value.toNat)

/-- BRD_FLASH_ADDR (R484). -/
def execBrdFlashAddr (f : Nat) (value : Word) (s : State) : Res := .next (s.busWrite f 0xB0044 4 value.toNat)

/-- BRD_FLASH_DATA[i] (R484). -/
def execBrdFlashData (f i : Nat) (value : Word) (s : State) : Res :=
  .next (s.busWrite f (0xB1000 + 4 * (i % 1024)) 4 value.toNat)

/-- BRD_FW_CTRL.ACTIVATE (R484). -/
def execActivate (f : Nat) (s : State) : Res := .next (s.busWrite f 0xB000C 4 1)

/-- PWR_RESET written with 0xC1 (R511). -/
def execPwrResetCold (f : Nat) (s : State) : Res := .next (s.busWrite f 0xC0004 4 0xC1)

/-- PWR_RESET written with 0xA1 (R511). -/
def execPwrResetWarm (f : Nat) (s : State) : Res := .next (s.busWrite f 0xC0004 4 0xA1)

/-! ### BAR4, BAR2 and the partner -/

/-- HIF_KICK of a group (R407): a group bound to the writing function, while the device serves, has its lines fetched. -/
def execHifKick (f g : Nat) (s : State) : Res :=
  .next (if !s.busUp f || 1024 ≤ g then s
    else if !s.alive || s.partFunc (s.rg g).part != f then s.ignore .hif
    else if (s.rg g).en then s.updRg g fun r => { r with kickDue := true }
    else s)

/-- Location of a BAR2 access (R549 to R551). -/
def State.bar2Loc (s : State) (off n : Nat) : Option Loc :=
  if off < 0x50000000 then
    let c := off / 2 ^ 23
    let b := off % 2 ^ 23
    if s.coreOn c && b + n ≤ 12288 * 512 then some (.spm c b) else none
  else if off < 0x100000000 ∨ 0x1000000000 ≤ off then none
  else
    let w := s.reg (0x50600 + 8 * (off / 2 ^ 32 - 1))
    let base := w / 2 ^ 32 * 2 ^ 32
    let space := base / 2 ^ 60
    if w % 2 = 1 ∧ (space = 1 ∨ space = 2) ∧ off % 2 ^ 32 + n ≤ 2 ^ 32 then s.locate (base + off % 2 ^ 32) n else none

/-- BAR2 is served (R551). -/
def State.bar2Served (s : State) : Bool := s.power.ready && !s.keeper.fstop && !s.bridle.recovery

/-- First device address of a location that BAR2 reaches. -/
def Loc.addr : Loc → Nat
  | .spm c b => spmAddr c b
  | .die d o => dieAddr d o
  | .stack k b => 2 ^ 61 + k * 2 ^ 40 + b
  | _ => 0

/-- BAR2_READ: verifies no tag; a corrected row stalls its slice's core (R297); an uncorrectable error in what it reads returns a
poisoned completion and is a job fault (R552). -/
def execBar2Read (off len : Nat) (u : Upset) (s : State) : Res :=
  .next (if !s.busUp 0 then s
    else
      match (if s.bar2Served then s.bar2Loc off len else none) with
      | none => (s.ignore .mem).emit (.readData (List.replicate len 0))
      | some l =>
        let t := s.moveErrors 9 { u with badTile := none } [(l.addr, len)]
        t.emit (if t.keeper.fstop then .poisoned else .readData (t.readLoc l len)))

/-- BAR2_WRITE: into a slice under R280 through a window of SRC 3, or into HBM through an open window (R551, R552); an
instruction that waited for those rows goes on (R283). -/
def execBar2Write (off : Nat) (bytes : List Byte) (s : State) : Res :=
  .next (if !s.busUp 0 then s
    else
      match (if s.bar2Served then s.bar2Loc off bytes.length else none) with
      | none => s.ignore .mem
      | some (.spm c b) => (s.remoteWrite c b .host bytes).rouse
      | some l => s.writeLoc l bytes)

/-- Rows of a slice that open windows of SRC 2 hold (R445). -/
def State.partnerRows (s : State) (c b n : Nat) : Bool :=
  (List.range ((b + n + 511) / 512 - b / 512)).all fun i =>
    (s.core c).windows.any fun w => w.holds (b / 512 + i) && w.src == 2

/-- An HBM window admits the partner's access (Table 15-6). -/
def State.hwinAdmits (s : State) (r : PartnerReq) (n : Nat) : Bool :=
  (List.range 16).any fun w =>
    let o := 0x70200 + 16 * w
    let w2 := s.reg (o + 8)
    let base := s.reg o + s.reg (o + 4) * 2 ^ 32
    nbits w2 31 1 == 1 && nbits w2 24 4 == r.part && (if r.write then nbits w2 29 1 == 1 else nbits w2 28 1 == 1) &&
      base ≤ r.addr && r.addr + n ≤ base + nbits w2 0 24 * 16384

/-- PARTNER_ACCESS: the partner's DM reads or writes this device's SPM or HBM (R445); a read meets the errors of what it reads
(R293, R297, R300), and a write lets an instruction go on that waited for its rows (R283). -/
def execPartnerAccess (r : PartnerReq) (u : Upset) (s : State) : Res :=
  .next (if !s.alive || !s.pair.state.mirroring then s
    else
      let n := if r.write then r.bytes.length else r.len
      let refuse (t : State) : State :=
        let t := t.bump (ctrRnl 3)
        if r.write then t else t.emit (.readData (List.replicate n 0))
      let answer (l : Loc) : State :=
        let t := s.moveErrors 5 u [(r.addr, n)]
        if t.keeper.fstop then t else t.emit (.readData (t.readLoc l n))
      match s.locate r.addr n with
      | some (.spm c b) =>
        if r.write then
          (let ok := s.partnerRows c b n
           ((s.remoteWrite c b .partner r.bytes).when (!ok) (State.bump (ctrRnl 3))).rouse)
        else if s.partnerRows c b n then answer (.spm c b) else refuse s
      | some (.die d o) =>
        if !s.hwinAdmits r n then refuse s
        else if r.write then s.dieWrite d o r.bytes else answer (.die d o)
      | some (.stack k b) =>
        if !s.hwinAdmits r n then refuse s
        else if r.write then s.hbmWrite k b r.bytes else answer (.stack k b)
      | _ => refuse s)

end Sys2Proof.Machine
end

