-- ==== Sys2Proof/Machine/TimeCmds.lean ====
section
/-! DEFINITION. Time sources: SYNC_PPS, REFCLK_T, holdover, slew (03_cinch_timebase.md, R66, R67, Table 3-1). -/

namespace Sys2Proof.Machine

open Sys2Proof

/-- Phase error of an edge: (stamp − CIN_PPS_OFFSET) mod 10^9, folded into −5 × 10^8 to +5 × 10^8 (R66). -/
def phaseError (stamp : Nat) (offset : Int) : Int :=
  let m := ((stamp : Int) - offset) % 1000000000
  if m ≤ 500000000 then m else m - 1000000000

/-- CIN_PPS_OFFSET. -/
def State.ppsOffset (s : State) : Int := signed 32 (s.reg 0x20038 % 2 ^ 32)

/-- An edge stamped `stamp` is accepted (R66): never within 500 ms of the last accepted edge; at any phase error when no
edge has been accepted yet or PPS is lost; else within the window. -/
def State.ppsAccepts (s : State) (stamp : Nat) : Bool :=
  let soon := s.tb.ppsSeen && (stamp : Int) - s.tb.edgeRef < 500000000
  !soon && (!s.tb.ppsSeen || s.tb.ppsLost || (phaseError stamp s.ppsOffset).natAbs ≤ s.ppsWindow)

/-- The device steers by its own SYNC_PPS: MODE 1, and no time master's time over the link (R67, R72, Table 3-1). -/
def State.ppsSteers (s : State) : Bool := s.ppsMode && !s.tb.follows

/-- Under MODE 1 every accepted edge counts in the run of errors within ±50 ns, and three in a row lock (R67). -/
def Timebase.ppsRun (err : Int) (t : Timebase) : Timebase :=
  let run := if err.natAbs ≤ 50 then t.goodRun + 1 else 0
  let locked := t.ppsLocked || 3 ≤ run
  { t with goodRun := run, ppsLocked := locked, timeCoarse := t.timeCoarse && !locked }

/-- An accepted edge (R62, R66, R67): recorded, and counted in the run of good edges under MODE 1; a waiting load takes
place; without one, under MODE 1, its error is removed by slew and the rate is trimmed. -/
def State.ppsAccept (stamp : Nat) (s : State) : State :=
  let err := phaseError stamp s.ppsOffset
  let wasLost := s.tb.ppsLost
  let s := s.updTb fun t =>
    { t with ppsStamp := stamp, ppsErr := err, ppsSeen := true, edgeRef := stamp, ppsLost := false }
  let s := s.when s.ppsSteers fun u => u.updTb (Timebase.ppsRun err)
  let s := match s.tb.load with
    | some v => s.updTb (Timebase.loadTo v)
    | none => s.when s.ppsSteers fun u =>
        (u.updTb fun t => { t with slew := -err * nsUnit }).setReg 0x20018
          (unsigned 32 (clampInt 2147484 (Config.ppsTrim u.rateAdj err)))
  s.when wasLost (State.timebaseEvent 0 false)

/-- SYNC_PPS_EDGE: an edge of the polarity of CIN_CTRL.PPS_FALL, stamped by the counter; one that is not accepted counts in
CIN_PPS_REJECT. -/
def execSyncPpsEdge (falling : Bool) (stamp : Nat) (s : State) : Res :=
  .next (if s.power.dev != .run || s.tb.tackHold || falling != decide (nbits (s.reg 0x20000) 2 1 = 1) then s
    else
      let s := s.advanceTo stamp
      if s.ppsAccepts stamp then s.ppsAccept stamp else s.bump ctrPpsReject)

/-- PPS_LOST: no accepted edge for LOSS_SEC seconds, after a first one (Table 3-1). -/
def execPpsLost (s : State) : Res :=
  .next (if s.power.dev != .run || !s.tb.ppsSeen || s.tb.ppsLost then s
    else
      let s := s.advanceTo (s.tb.edgeRef + s.ppsLossSec * 1000000000).toNat
      (s.updTb fun t => { t with ppsLost := true, ppsLocked := false, goodRun := 0 }).timebaseEvent 0 true)

/-- REFCLK_T lost: the PLL holds its last control word (Table 3-1). -/
def execRefclkTLost (s : State) : Res :=
  .next (if !s.tb.refOk then s
    else if s.power.dev != .run then s.updTb fun t => { t with refOk := false }
    else (s.updTb fun t => { t with refOk := false, holdover := true }).timebaseEvent 1 true)

/-- REFCLK_T back: the PLL relocks without a phase step, and CIN_HOLD_SEC returns to zero (Table 3-1, R86). -/
def execRefclkTRelock (s : State) : Res :=
  .next (if s.tb.refOk then s
    else
      let was := s.tb.holdover
      let s := s.updTb fun t => { t with refOk := true, holdover := false }
      let s := s.setReg ctrHoldSec.off 0
      s.when was (State.timebaseEvent 1 false))

/-- HOLDOVER_SECOND: a further second of the current holdover (Table 3-1). -/
def execHoldoverSecond (s : State) : Res := .next (if s.tb.holdover then s.bump ctrHoldSec else s)

/-- SLEW_COMPLETE: the clocks pass in which the pending slew reaches zero (R64); paused in tack holdover. -/
def execSlewComplete (s : State) : Res :=
  .next (if s.tb.slew == 0 || s.tb.tackHold || s.slewStep ≤ 0 then s
    else s.elapse (ceilDiv s.tb.slew.natAbs s.slewStep.toNat))

end Sys2Proof.Machine
end

