-- ==== Sys2Proof/Machine/Dispatch.lean ====
section
/-! DEFINITION. One arm per command: a direct call of its meaning. -/

namespace Sys2Proof.Machine

open Sys2Proof

def exec (i : Instr) (s : State) : Host.Outcome State Fault Refusal :=
  match i with
  | .cmdOpen g d pl => Sys2Proof.Machine.execCmdOpen g d pl s
  | .cmdClose g d => Sys2Proof.Machine.execCmdClose g d s
  | .cmdPause g d => Sys2Proof.Machine.execCmdPause g d s
  | .cmdResume g d => Sys2Proof.Machine.execCmdResume g d s
  | .cmdReset g d => Sys2Proof.Machine.execCmdReset g d s
  | .cmdStreamCtl g d => Sys2Proof.Machine.execCmdStreamCtl g d s
  | .cmdQuery g d => Sys2Proof.Machine.execCmdQuery g d s
  | .cmdStateRead g d u => Sys2Proof.Machine.execCmdStateRead g d u s
  | .cmdStateWrite g d => Sys2Proof.Machine.execCmdStateWrite g d s
  | .cmdModelLoad g d => Sys2Proof.Machine.execCmdModelLoad g d s
  | .cmdModelUnload g d => Sys2Proof.Machine.execCmdModelUnload g d s
  | .cmdGroupCtl g d => Sys2Proof.Machine.execCmdGroupCtl g d s
  | .cmdWeightPin g d => Sys2Proof.Machine.execCmdWeightPin g d s
  | .cmdPrefix g d => Sys2Proof.Machine.execCmdPrefix g d s
  | .cmdSkvCtl g d => Sys2Proof.Machine.execCmdSkvCtl g d s
  | .cmdRegionPin g d => Sys2Proof.Machine.execCmdRegionPin g d s
  | .cmdWindow g d => Sys2Proof.Machine.execCmdWindow g d s
  | .cmdTensorMove g d row u => Sys2Proof.Machine.execCmdTensorMove g d row u s
  | .cmdNop g d => Sys2Proof.Machine.execCmdNop g d s
  | .chunk g d => Sys2Proof.Machine.execChunk g d s
  | .outputBuffer g d => Sys2Proof.Machine.execOutputBuffer g d s
  | .hifKick f g => Sys2Proof.Machine.execHifKick f g s
  | .doorbellFetch g host => Sys2Proof.Machine.execDoorbellFetch g host s
  | .moderationTimer g event => Sys2Proof.Machine.execModerationTimer g event s
  | .mma core w u => Sys2Proof.Machine.execMma core w u s
  | .gpload core slot row u => Sys2Proof.Machine.execGpload core slot row u s
  | .lscanForward core w u => Sys2Proof.Machine.execLscanForward core w u s
  | .lscanReverse core w u => Sys2Proof.Machine.execLscanReverse core w u s
  | .attScore core w u => Sys2Proof.Machine.execAttScore core w u s
  | .attValue core w u => Sys2Proof.Machine.execAttValue core w u s
  | .attExpand core w u => Sys2Proof.Machine.execAttExpand core w u s
  | .vmap core w u => Sys2Proof.Machine.execVmap core w u s
  | .vred core w u => Sys2Proof.Machine.execVred core w u s
  | .vcpr core w u => Sys2Proof.Machine.execVcpr core w u s
  | .vxpn core w u => Sys2Proof.Machine.execVxpn core w u s
  | .vperm core w u => Sys2Proof.Machine.execVperm core w u s
  | .vqpop core w u => Sys2Proof.Machine.execVqpop core w u s
  | .vsload core w u => Sys2Proof.Machine.execVsload core w u s
  | .vtload core w u => Sys2Proof.Machine.execVtload core w u s
  | .vbrel core w u => Sys2Proof.Machine.execVbrel core w u s
  | .skx core w u => Sys2Proof.Machine.execSkx core w u s
  | .skc core w hostWritten u => Sys2Proof.Machine.execSkc core w hostWritten u s
  | .dmov core w u => Sys2Proof.Machine.execDmov core w u s
  | .dtens core w u => Sys2Proof.Machine.execDtens core w u s
  | .wopen core w u => Sys2Proof.Machine.execWopen core w u s
  | .wclose core w u => Sys2Proof.Machine.execWclose core w u s
  | .timeRead core sreg => Sys2Proof.Machine.execTimeRead core sreg s
  | .illegalOp core w => Sys2Proof.Machine.execIllegalOp core w s
  | .coreProgressWatchdog core => Sys2Proof.Machine.execCoreProgressWatchdog core s
  | .beatServiceWatchdog beat => Sys2Proof.Machine.execBeatServiceWatchdog beat s
  | .beatBoundary beat => Sys2Proof.Machine.execBeatBoundary beat s
  | .launchDecision grp beat => Sys2Proof.Machine.execLaunchDecision grp beat s
  | .wakeIssue grp => Sys2Proof.Machine.execWakeIssue grp s
  | .coreArmed core u => Sys2Proof.Machine.execCoreArmed core u s
  | .coreStateEntryDone core => Sys2Proof.Machine.execCoreStateEntryDone core s
  | .tick grp => Sys2Proof.Machine.execTick grp s
  | .lateStrobe grp time => Sys2Proof.Machine.execLateStrobe grp time s
  | .heldDispatch grp time => Sys2Proof.Machine.execHeldDispatch grp time s
  | .switchComplete grp time => Sys2Proof.Machine.execSwitchComplete grp time s
  | .jobResume grp time => Sys2Proof.Machine.execJobResume grp time s
  | .ageInterval job => Sys2Proof.Machine.execAgeInterval job s
  | .chunkEnd grp rep => Sys2Proof.Machine.execChunkEnd grp rep s
  | .tokenStepBoundary grp rows frames u => Sys2Proof.Machine.execTokenStepBoundary grp rows frames u s
  | .kvEvictionDone page frame u => Sys2Proof.Machine.execKvEvictionDone page frame u s
  | .openInitDone id => Sys2Proof.Machine.execOpenInitDone id s
  | .closeReleaseDone id => Sys2Proof.Machine.execCloseReleaseDone id s
  | .afeConversionStart id => Sys2Proof.Machine.execAfeConversionStart id s
  | .afeConversionDone id => Sys2Proof.Machine.execAfeConversionDone id s
  | .recordMoveStart id dst => Sys2Proof.Machine.execRecordMoveStart id dst s
  | .fillDone id u => Sys2Proof.Machine.execFillDone id u s
  | .swapOutDone id u => Sys2Proof.Machine.execSwapOutDone id u s
  | .demotionDone id u => Sys2Proof.Machine.execDemotionDone id u s
  | .promotionDone id u => Sys2Proof.Machine.execPromotionDone id u s
  | .rehomingDone id u => Sys2Proof.Machine.execRehomingDone id u s
  | .mirrorReadDone id u => Sys2Proof.Machine.execMirrorReadDone id u s
  | .modelLoadDone slot => Sys2Proof.Machine.execModelLoadDone slot s
  | .modelUnloadDone slot => Sys2Proof.Machine.execModelUnloadDone slot s
  | .prefixDone pfx pages => Sys2Proof.Machine.execPrefixDone pfx pages s
  | .bar2Read off len u => Sys2Proof.Machine.execBar2Read off len u s
  | .bar2Write off bytes => Sys2Proof.Machine.execBar2Write off bytes s
  | .partnerAccess r u => Sys2Proof.Machine.execPartnerAccess r u s
  | .lowWordRead f off size => Sys2Proof.Machine.execLowWordRead f off size s
  | .registerWrite f off size value => Sys2Proof.Machine.execRegisterWrite f off size value s
  | .cinSet f value => Sys2Proof.Machine.execCinSet f value s
  | .cinOffsetAdj f value => Sys2Proof.Machine.execCinOffsetAdj f value s
  | .cinRateAdj f value => Sys2Proof.Machine.execCinRateAdj f value s
  | .cinMode f value => Sys2Proof.Machine.execCinMode f value s
  | .deviceStart f value => Sys2Proof.Machine.execDeviceStart f value s
  | .partitionStart f p => Sys2Proof.Machine.execPartitionStart f p s
  | .partitionReset f p => Sys2Proof.Machine.execPartitionReset f p s
  | .partitionResetDone p => Sys2Proof.Machine.execPartitionResetDone p s
  | .ringGroupEnable f value => Sys2Proof.Machine.execRingGroupEnable f value s
  | .sdlAccSel f value => Sys2Proof.Machine.execSdlAccSel f value s
  | .kprSel f seq => Sys2Proof.Machine.execKprSel f seq s
  | .snap f => Sys2Proof.Machine.execSnap f s
  | .corSrSeed f core value => Sys2Proof.Machine.execCorSrSeed f core value s
  | .pairEnable f value => Sys2Proof.Machine.execPairEnable f value s
  | .pairLeave f value => Sys2Proof.Machine.execPairLeave f value s
  | .rnlTakeover f value => Sys2Proof.Machine.execRnlTakeover f value s
  | .handback f value => Sys2Proof.Machine.execHandback f value s
  | .handoverSend => Sys2Proof.Machine.execHandoverSend s
  | .handoverReceived g => Sys2Proof.Machine.execHandoverReceived g s
  | .brdFlashAddr f value => Sys2Proof.Machine.execBrdFlashAddr f value s
  | .brdFlashData f n value => Sys2Proof.Machine.execBrdFlashData f n value s
  | .activate f => Sys2Proof.Machine.execActivate f s
  | .pwrResetCold f => Sys2Proof.Machine.execPwrResetCold f s
  | .pwrResetWarm f => Sys2Proof.Machine.execPwrResetWarm f s
  | .syncPpsEdge falling stamp => Sys2Proof.Machine.execSyncPpsEdge falling stamp s
  | .ppsLost => Sys2Proof.Machine.execPpsLost s
  | .refclkTLost => Sys2Proof.Machine.execRefclkTLost s
  | .refclkTRelock => Sys2Proof.Machine.execRefclkTRelock s
  | .holdoverSecond => Sys2Proof.Machine.execHoldoverSecond s
  | .refclkMLost => Sys2Proof.Machine.execRefclkMLost s
  | .refclkMReturn => Sys2Proof.Machine.execRefclkMReturn s
  | .tackCalibration => Sys2Proof.Machine.execTackCalibration s
  | .bundleTrained b => Sys2Proof.Machine.execBundleTrained b s
  | .bundleRetrain b => Sys2Proof.Machine.execBundleRetrain b s
  | .flitReplay b => Sys2Proof.Machine.execFlitReplay b s
  | .pairExchange p => Sys2Proof.Machine.execPairExchange p s
  | .heartbeatSend => Sys2Proof.Machine.execHeartbeatSend s
  | .heartbeat pairState started time service delay => Sys2Proof.Machine.execHeartbeat pairState started time service delay s
  | .linkSilence => Sys2Proof.Machine.execLinkSilence s
  | .sidebandSilence => Sys2Proof.Machine.execSidebandSilence s
  | .faultFlit => Sys2Proof.Machine.execFaultFlit s
  | .downFlit => Sys2Proof.Machine.execDownFlit s
  | .fence => Sys2Proof.Machine.execFence s
  | .leave => Sys2Proof.Machine.execLeave s
  | .openIdConfirm id part tiles => Sys2Proof.Machine.execOpenIdConfirm id part tiles s
  | .handoff h => Sys2Proof.Machine.execHandoff h s
  | .handoffCommitted id seq => Sys2Proof.Machine.execHandoffCommitted id seq s
  | .mirrorDropNotice p => Sys2Proof.Machine.execMirrorDropNotice p s
  | .cxlPortTrained port width speed capacity ide chain => Sys2Proof.Machine.execCxlPortTrained port width speed capacity ide chain s
  | .cxlDown port => Sys2Proof.Machine.execCxlDown port s
  | .keeperCommitStart => Sys2Proof.Machine.execKeeperCommitStart s
  | .keeperCommitDone => Sys2Proof.Machine.execKeeperCommitDone s
  | .powerFailEvent => Sys2Proof.Machine.execPowerFailEvent s
  | .brownout rail => Sys2Proof.Machine.execBrownout rail s
  | .holdupEnd => Sys2Proof.Machine.execHoldupEnd s
  | .powerFailRelease => Sys2Proof.Machine.execPowerFailRelease s
  | .vtackApplied => Sys2Proof.Machine.execVtackApplied s
  | .vtackRemoved => Sys2Proof.Machine.execVtackRemoved s
  | .tackOscStable => Sys2Proof.Machine.execTackOscStable s
  | .mainRailsLost => Sys2Proof.Machine.execMainRailsLost s
  | .coldResetRelease inOrder => Sys2Proof.Machine.execColdResetRelease inOrder s
  | .sysRstN => Sys2Proof.Machine.execSysRstN s
  | .perstNAssert => Sys2Proof.Machine.execPerstNAssert s
  | .sleepEntry => Sys2Proof.Machine.execSleepEntry s
  | .perstNRelease => Sys2Proof.Machine.execPerstNRelease s
  | .hostLinkReset => Sys2Proof.Machine.execHostLinkReset s
  | .flrPf => Sys2Proof.Machine.execFlrPf s
  | .flrVf n => Sys2Proof.Machine.execFlrVf n s
  | .hbmTrainingDone us => Sys2Proof.Machine.execHbmTrainingDone us s
  | .sidebandClockStop => Sys2Proof.Machine.execSidebandClockStop s
  | .powerSample r => Sys2Proof.Machine.execPowerSample r s
  | .thermTrip die => Sys2Proof.Machine.execThermTrip die s
  | .drbgReseed => Sys2Proof.Machine.execDrbgReseed s
  | .getCertificate via slot off len => Sys2Proof.Machine.execGetCertificate via slot off len s
  | .challenge via slot nonce => Sys2Proof.Machine.execChallenge via slot nonce s
  | .getMeasurements via index signed nonce => Sys2Proof.Machine.execGetMeasurements via index signed nonce s
  | .keyExchange via slot encap => Sys2Proof.Machine.execKeyExchange via slot encap s
  | .keyUpdate session => Sys2Proof.Machine.execKeyUpdate session s
  | .spdmHeartbeat session => Sys2Proof.Machine.execSpdmHeartbeat session s
  | .setOwner session e => Sys2Proof.Machine.execSetOwner session e s
  | .setManifest session m => Sys2Proof.Machine.execSetManifest session m s
  | .ideKmKeyProg session strm key => Sys2Proof.Machine.execIdeKmKeyProg session strm key s
  | .getIdentity off len => Sys2Proof.Machine.execGetIdentity off len s
  | .getKeeperHead => Sys2Proof.Machine.execGetKeeperHead s
  | .getKeeper seq => Sys2Proof.Machine.execGetKeeper seq s
  | .getBoot => Sys2Proof.Machine.execGetBoot s
  | .tapReset => Sys2Proof.Machine.execTapReset s
  | .bypass => Sys2Proof.Machine.execBypass s
  | .samplePreload => Sys2Proof.Machine.execSamplePreload s
  | .idcode => Sys2Proof.Machine.execIdcode s
  | .extest => Sys2Proof.Machine.execExtest s
  | .extestPulse => Sys2Proof.Machine.execExtestPulse s
  | .extestTrain => Sys2Proof.Machine.execExtestTrain s
  | .clamp => Sys2Proof.Machine.execClamp s
  | .highz => Sys2Proof.Machine.execHighz s
  | .placementMove id kind die => Sys2Proof.Machine.execPlacementMove id kind die s
  | .flrReady => Sys2Proof.Machine.execFlrReady s
  | .holdupCharge ok => Sys2Proof.Machine.execHoldupCharge ok s
  | .warningTemperature temps => Sys2Proof.Machine.execWarningTemperature temps s
  | .slewComplete => Sys2Proof.Machine.execSlewComplete s
  | .idConfirmed id idFree reserved => Sys2Proof.Machine.execIdConfirmed id idFree reserved s
  | .reinHbInTransition => Sys2Proof.Machine.execReinHbInTransition s
  | .sysRstNRelease => Sys2Proof.Machine.execSysRstNRelease s
  | .negotiateAlgorithms via => Sys2Proof.Machine.execNegotiateAlgorithms via s
  | .sessionEnd session => Sys2Proof.Machine.execSessionEnd session s
  | .dynamicAddressAssignment addr => Sys2Proof.Machine.execDynamicAddressAssignment addr s

end Sys2Proof.Machine
end

