-- ==== Sys2Proof/Safety.lean ====
section
/-! DEFINITION. What counts as a safe step. -/

namespace Sys2Proof.Safety

open Sys2Proof.Machine

/-- A command has a meaning in a state: it answers a next state, and neither a fault nor a refusal. -/
def Completes (i : Instr) (s : State) : Prop := ∃ t, exec i s = .next t

/-- The device serves every register access of the PF: it answers on the bus (R397), it has reported READY (R519), and neither
recovery (R483) nor fault stop (R462) holds it. -/
abbrev PfServed (s : State) : Prop :=
  s.busUp 0 = true ∧ s.power.ready = true ∧ s.bridle.recovery = false ∧ s.keeper.fstop = false

/-- The same for virtual function `f`. -/
abbrev VfServed (f : Nat) (s : State) : Prop :=
  f ≠ 0 ∧ s.busUp f = true ∧ s.power.ready = true ∧ s.bridle.recovery = false ∧ s.keeper.fstop = false

/-- Every memory of the device and the host's is in canonical form. -/
def MemoriesWf (s : State) : Prop :=
  Memory.wf s.mem.spm ∧ Memory.wf s.mem.hbm ∧ Memory.wf s.mem.cxl ∧ Memory.wf s.mem.host

/-- The groups of the state, as `State` lists them, without the queue of commands. -/
inductive Area where
  | free | regs | tb | hif | work | caches | cores | mem | pair | keeper | bridle | power | board | out
  deriving DecidableEq, Repr

/-- A group of the state is the same in two states. -/
abbrev SameArea : Area → State → State → Prop
  | .free, s, t => t.free = s.free
  | .regs, s, t => t.regs = s.regs
  | .tb, s, t => t.tb = s.tb
  | .hif, s, t => t.hif = s.hif
  | .work, s, t => t.work = s.work
  | .caches, s, t => t.caches = s.caches
  | .cores, s, t => t.cores = s.cores
  | .mem, s, t => t.mem = s.mem
  | .pair, s, t => t.pair = s.pair
  | .keeper, s, t => t.keeper = s.keeper
  | .bridle, s, t => t.bridle = s.bridle
  | .power, s, t => t.power = s.power
  | .board, s, t => t.board = s.board
  | .out, s, t => t.out = s.out

/-- What a command that may change the groups `gs` keeps, whatever state it meets: the queue of commands that wait is the
step's own, the identity region is read only (R489), the device has the cores it has, every memory stays in canonical form,
and every group outside `gs` is unchanged. -/
structure Keeps (gs : List Area) (s t : State) : Prop where
  queue : t.pending = s.pending
  identity : t.bridle.identity = s.bridle.identity
  coreNums : t.cores.map (·.num) = s.cores.map (·.num)
  memories : MemoriesWf s → MemoriesWf t
  frame : ∀ a, a ∉ gs → SameArea a s t

/-- The invariant of the model: the device has its 160 cores in order, the identity region is as manufactured (R489), and
every memory is in canonical form. -/
structure Inv (s : State) : Prop where
  cores : s.cores.map (·.num) = List.range 160
  identity : s.bridle.identity = []
  memories : MemoriesWf s

/-- The effects of Table 18-5 that a cold, warm or PF function-level reset has before any boot chain, from `s` to `t`. -/
structure ResetEffects (k : ResetKind) (s t : State) : Prop where
  /-- The Cinch counter and its marks are kept (R61); the pending load is dropped, and the pending slew too, but one that tack
  holdover has paused stays (R64; notes/assumptions/120.md). -/
  counter : t.tb.now = s.tb.now ∧ t.tb.frac = s.tb.frac ∧ t.tb.timeSet = s.tb.timeSet ∧ t.tb.timeCoarse = s.tb.timeCoarse ∧
    t.tb.tackCycles = s.tb.tackCycles ∧
    t.tb.slew = (if s.tb.tackHold then s.tb.slew else 0) ∧ t.tb.load = none
  /-- The Keeper's slots are kept, fault stop ends, and one RESET record of the kind is raised (R511). -/
  keeper : t.keeper.slots = s.keeper.slots ∧ t.keeper.fstop = false ∧ t.keeper.lastSeq = s.keeper.lastSeq + 1 ∧
    ∃ r ∈ t.keeper.staged ++ t.keeper.waiting, r.seq = s.keeper.lastSeq + 1 ∧ r.kind = 3 ∧
      r.body = [BitVec.ofNat 8 k.code, 0]
  /-- MRAM values are kept, counters except by a cold reset; every other register has its reset value. -/
  registers : ∀ off, t.reg off =
    if persistentOffs.contains off || (k != .cold && isCounterOff off) then s.reg off else regDefault s.iy920 off
  /-- Streams, groups, jobs, moves, model slots and partitions are cleared, and the device is not started. -/
  work : t.work = { Work.cleared [] with clients := t.work.clients }
  /-- Accounting: cleared by a cold reset, kept by a warm one, the PF's cleared by a PF function-level reset. -/
  accounting : t.work.clients = match k with
    | .cold => []
    | .warm => s.work.clients
    | _ => s.clientsWithout 0
  caches : t.caches = ⟨[], [], [], [], [], [], []⟩
  /-- Every core is at its reset state; its random generator is kept. -/
  cores : ∀ c, t.core? c = (s.core? c).map fun x => { Core.reset x.num with rng := x.rng }
  /-- SPM slices read zero, host memory is left; what HBM and the CXL tier hold is undefined from now on (R513). -/
  memory : (∀ a, t.mem.spm.byte (fun _ => 0) a = 0) ∧ t.mem.host = s.mem.host ∧ t.mem.hbm = [] ∧ t.mem.cxl = [] ∧
    t.power.gen = s.power.gen + 1
  /-- No function copy, ring group or vector is left and VFs are disabled; a PF function-level reset keeps the host link. -/
  host : t.hif = ⟨[], [], [], 0, if k == .pf then s.hif.link else 0⟩
  pair : t.pair.state = .off ∧ t.pair.mirrors = [] ∧ t.pair.mirPages = []
  /-- Identity, manifest, owner key and flash are kept. -/
  bridle : t.bridle = { s.bridle with result := 0, meas := t.bridle.meas }
  power : t.power.ready = false ∧ t.power.resetting = some k ∧ t.power.lastReset = k.code
  /-- Outside fault stop every Rein bundle that is up carries a DOWN flit; in fault stop nothing is sent (R514). -/
  down : if s.keeper.fstop then t.out = s.out
    else ∀ b < 4, s.pair.bundles.getLsbD b = true → .flit "DOWN" [b] ∈ t.out

/-- Command `x` of opcode `opc`, with ring index `d`, is fetched on the command ring of group `g` and may start now: the device
serves, the group is enabled, and nothing earlier in the ring holds the command (R409, R412). -/
structure CmdReady (opc g d : Nat) (x : Desc) (s : State) : Prop where
  alive : s.alive = true
  enabled : (s.rg g).en = true
  found : (s.rg g).cmds.find? (fun y => y.didx == d) = some x
  opcode : x.opc = opc
  fresh : x.started = false
  next : (s.rg g).ready x = true

/-- The command has left the ring and its completion is posted with a status and words 3 to 6 (R402, R410); nothing else of the
state has changed. -/
def cmdDone (g : Nat) (x : Desc) (status : Nat) (rest : List Word) (s : State) : State :=
  (s.updRg g fun r => { r with cmds := r.cmds.filter fun y => y.didx != x.didx }).postRaw g 0
    (compWords x.opc status x.stream x.tag x.didx 0 rest) 0 x.irq

/-- The command has started and waits: nothing else of the state has changed. -/
def cmdStarted (g d : Nat) (s : State) : State :=
  s.updRg g fun r => { r with cmds := updWhere (fun y => y.didx == d) (fun y => { y with started := true }) r.cmds }

/-- A job fault of a cause and subcause has taken the device from `s` into fault stop (R461, R462): one FAULT_STOP record is raised,
every job, stream, group and move is lost, and the memories of the device, the page tables, the timebase, the Bridle and the
power state are left as they are. -/
structure Faulted (cause sub : Nat) (s t : State) : Prop where
  stop : t.keeper.fstop = true ∧ t.keeper.cause = cause
  record : t.keeper.lastSeq = s.keeper.lastSeq + 1 ∧ ∃ r ∈ t.keeper.staged ++ t.keeper.waiting,
    r.kind = 1 ∧ r.seq = s.keeper.lastSeq + 1 ∧ r.body.take 2 = [BitVec.ofNat 8 cause, BitVec.ofNat 8 sub]
  lost : t.work.jobs = [] ∧ t.work.streams = [] ∧ t.work.groups = [] ∧ t.work.moves = []
  memory : t.mem.spm = s.mem.spm ∧ t.mem.hbm = s.mem.hbm ∧ t.mem.cxl = s.mem.cxl
  kept : t.caches = s.caches ∧ t.tb = s.tb ∧ t.bridle = s.bridle ∧ t.power = s.power ∧ t.board = s.board

/-- An instruction of core `c` has trapped with a code (Table 16-3, R458): COR_TRAP holds it, and it is a job fault of cause 3. -/
structure Trapped (c code : Nat) (s t : State) : Prop where
  fault : Faulted 3 code s t
  reg : t.reg (corBase c + 0xC) = code + 16

/-- Nothing is in flight on any core, and core `c` has no reverse scan open. -/
structure Quiet (c : Nat) (s : State) : Prop where
  still : ∀ k ∈ s.cores, k.flights = []
  scans : ∀ k ∈ s.cores, k.num = c → ∀ x ∈ k.lu, ∀ y, x = some y → y.rev = none

/-- Nothing goes on: what is in flight on core `c` are operations of the matrix engine that wait for rows of an empty expansion
queue (R257), nothing is on any other core, and core `c` has no reverse scan open. -/
structure Waiting (c : Nat) (s : State) : Prop where
  mine : ∀ k ∈ s.cores, k.num = c → ∀ f ∈ k.flights, k.xq = [] ∧ f.issued = true ∧ f.paused = false ∧
    ∃ w, f.op = .mma w ∧ (mmaOp w).queue = true ∧ f.prog.done < (mmaOp w).runRows
  others : ∀ k ∈ s.cores, k.num ≠ c → k.flights = []
  scans : ∀ k ∈ s.cores, k.num = c → ∀ x ∈ k.lu, ∀ y, x = some y → y.rev = none

/-- Core `c` takes up instruction `op` and issues it at once: it may issue, nothing is in flight, and neither a window, nor a
range that an open scan context declares, nor an open context of its number holds it (R22, R140, R275, R283). -/
structure Issues (c : Nat) (op : CoreOp) (s : State) : Prop where
  may : s.canIssue c = true
  quiet : Quiet c s
  free : (s.core c).holds (s.opPlan c op) = false

/-- An instruction meets no uncorrectable byte and no damaged tile, and the next command does not find it in flight. -/
structure Smooth (u : Upset) : Prop where
  uncorr : u.uncorr = none
  badTile : u.badTile = none
  cut : u.cut = none

/-- The groups of the state a command may change: what the rules give it to act on, and what those acts bring about (a job
fault, an event, a completion). A register write may be a reset, so its commands are listed with every group; the statements
about each of them say what it changes. -/
def touches : Instr → List Area
  | .cmdOpen .. => [.free, .regs, .hif, .work, .caches, .cores, .mem, .out]
  | .cmdClose .. | .cmdPause .. | .cmdResume .. | .cmdStreamCtl .. | .cmdModelLoad .. | .cmdModelUnload ..
  | .cmdGroupCtl .. | .chunk .. => [.hif, .work, .mem, .out]
  | .cmdReset .. | .cmdPrefix .. => [.hif, .work, .caches, .mem, .out]
  | .cmdQuery .. | .cmdNop .. => [.hif, .mem, .out]
  | .cmdStateRead .. | .coreProgressWatchdog .. | .coreArmed .. | .swapOutDone .. | .rehomingDone ..
  | .bar2Read .. | .fence => [.regs, .hif, .work, .cores, .mem, .pair, .keeper, .out]
  | .cmdStateWrite .. | .mirrorDropNotice .. => [.hif, .work, .mem, .pair, .out]
  | .cmdWeightPin .. | .prefixDone .. => [.free, .regs, .hif, .work, .caches, .mem, .out]
  | .cmdSkvCtl .. | .tokenStepBoundary .. | .promotionDone ..
    => [.regs, .hif, .work, .caches, .cores, .mem, .pair, .keeper, .out]
  | .cmdRegionPin .. => [.regs, .hif, .work, .cores, .mem, .out]
  | .cmdWindow .. | .cmdTensorMove .. | .mma .. | .gpload .. | .lscanForward .. | .lscanReverse ..
  | .attScore .. | .attValue .. | .attExpand .. | .vmap .. | .vred .. | .vcpr .. | .vxpn .. | .vperm ..
  | .vqpop .. | .vsload .. | .vtload .. | .vbrel .. | .skx .. | .skc .. | .dmov .. | .dtens .. | .wopen ..
  | .wclose .. | .timeRead .. | .illegalOp .. | .kvEvictionDone .. | .fillDone .. | .demotionDone ..
  | .mirrorReadDone .. | .bar2Write .. | .partnerAccess ..
    => [.free, .regs, .hif, .work, .caches, .cores, .mem, .pair, .keeper, .out]
  | .outputBuffer .. | .doorbellFetch .. | .afeConversionStart .. => [.regs, .hif, .work, .mem, .out]
  | .hifKick .. => [.regs, .hif]
  | .moderationTimer .. => [.free, .tb, .hif, .out]
  | .beatServiceWatchdog .. | .tick .. | .lateStrobe .. | .heldDispatch .. | .switchComplete ..
    => [.free, .regs, .tb, .hif, .work, .cores, .mem, .pair, .keeper, .out]
  | .beatBoundary .. | .launchDecision .. | .jobResume .. | .chunkEnd ..
    => [.free, .regs, .tb, .hif, .work, .caches, .cores, .mem, .pair, .keeper, .out]
  | .wakeIssue .. => [.free, .tb, .work, .cores]
  | .coreStateEntryDone .. => [.free, .cores, .mem]
  | .ageInterval .. => [.free, .regs, .tb, .work, .cores, .mem]
  | .openInitDone .. => [.hif, .work, .caches, .mem, .pair, .out]
  | .closeReleaseDone .. => [.regs, .hif, .work, .caches, .cores, .mem, .out]
  | .afeConversionDone .. | .partitionResetDone .. | .placementMove .. => [.work]
  | .recordMoveStart .. => [.regs, .work, .mem]
  | .modelLoadDone .. => [.free, .regs, .hif, .work, .caches, .mem, .bridle, .out]
  | .modelUnloadDone .. => [.hif, .work, .caches, .cores, .mem, .out]
  | .lowWordRead .. => [.regs, .hif, .out]
  | .registerWrite .. | .cinSet .. | .cinOffsetAdj .. | .cinRateAdj .. | .cinMode .. | .deviceStart ..
  | .partitionStart .. | .partitionReset .. | .ringGroupEnable .. | .sdlAccSel .. | .kprSel .. | .snap ..
  | .corSrSeed .. | .pairEnable .. | .pairLeave .. | .rnlTakeover .. | .handback .. | .brdFlashAddr ..
  | .brdFlashData .. | .activate .. | .pwrResetCold .. | .pwrResetWarm ..
    => [.free, .regs, .tb, .hif, .work, .caches, .cores, .mem, .pair, .keeper, .bridle, .power, .board, .out]
  | .handoverSend | .openIdConfirm .. => [.pair, .out]
  | .handoverReceived .. | .bundleTrained .. | .reinHbInTransition => [.pair]
  | .syncPpsEdge .. | .ppsLost => [.free, .regs, .tb, .hif, .mem, .out]
  | .refclkTLost | .refclkTRelock => [.regs, .tb, .hif, .mem, .out]
  | .holdoverSecond | .flitReplay .. => [.regs]
  | .refclkMLost | .refclkMReturn | .tackCalibration | .powerFailRelease | .tackOscStable | .perstNAssert
  | .sidebandClockStop => [.power]
  | .bundleRetrain .. => [.regs, .pair]
  | .pairExchange .. | .heartbeat .. => [.regs, .tb, .hif, .work, .caches, .cores, .mem, .pair, .out]
  | .heartbeatSend | .keyUpdate .. | .spdmHeartbeat .. | .getIdentity .. | .getKeeperHead | .getKeeper ..
  | .getBoot => [.out]
  | .linkSilence | .sidebandSilence | .faultFlit | .downFlit | .leave | .handoff .. | .handoffCommitted ..
    => [.regs, .tb, .hif, .work, .cores, .mem, .pair, .out]
  | .cxlPortTrained .. => [.bridle, .board]
  | .cxlDown .. => [.regs, .hif, .mem, .board, .out]
  | .keeperCommitStart | .keeperCommitDone | .holdupCharge .. => [.keeper]
  | .powerFailEvent | .brownout .. => [.regs, .work, .cores, .pair, .keeper, .power, .out]
  | .holdupEnd => [.regs, .tb, .keeper, .power]
  | .vtackApplied => [.tb, .power]
  | .vtackRemoved => [.regs, .tb, .hif, .work, .caches, .cores, .mem, .pair, .keeper, .bridle, .power, .board]
  | .mainRailsLost => [.tb, .work, .cores, .pair, .power]
  | .coldResetRelease .. | .sysRstN | .perstNRelease | .hostLinkReset | .flrPf
    => [.regs, .tb, .hif, .work, .caches, .cores, .mem, .pair, .keeper, .bridle, .power, .board, .out]
  | .sleepEntry => [.regs, .tb, .hif, .mem, .power, .out]
  | .flrVf .. => [.regs, .hif, .work, .caches, .cores, .mem, .pair, .keeper, .power, .out]
  | .hbmTrainingDone .. | .flrReady => [.regs, .keeper, .power]
  | .powerSample .. | .warningTemperature .. => [.regs, .power]
  | .thermTrip .. | .getCertificate .. | .negotiateAlgorithms .. => [.power, .out]
  | .drbgReseed => [.bridle]
  | .challenge .. | .getMeasurements .. | .keyExchange .. => [.regs, .bridle, .power, .out]
  | .setOwner .. | .setManifest .. => [.regs, .bridle, .out]
  | .ideKmKeyProg .. | .sessionEnd .. => [.bridle, .out]
  | .tapReset | .bypass | .samplePreload | .extest | .extestPulse | .extestTrain | .clamp | .highz
  | .dynamicAddressAssignment .. => [.board]
  | .idcode => [.board, .out]
  | .slewComplete => [.free, .tb]
  | .idConfirmed .. => [.hif, .work, .cores, .mem, .out]
  | .sysRstNRelease => [.power, .board]

end Sys2Proof.Safety
end

