-- ==== Sys2Proof/WellFormed.lean ====
section
/-! DEFINITION. Commands whose operands lie in the ranges the specification gives them (R3, Table 0-1, R395, R413, R526). A command
with an operand outside its range is no command of the device; `exec` gives it a next state all the same. -/

namespace Sys2Proof

/-- A ring group of 1,024 and a ring index of 16 bits (R398, R400). -/
def okDesc (g d : Nat) : Bool := g < 1024 && d < 2 ^ 16

/-- A core of 160 (Table 0-1). -/
def okCore (c : Nat) : Bool := c < 160

/-- A function: the PF or VF 1 to 63 (R395). -/
def okFunc (f : Nat) : Bool := f < 64

/-- A partition of 16 (R360). -/
def okPart (p : Nat) : Bool := p < 16

/-- A stream ID of 14 bits (R3). -/
def okStream (id : Nat) : Bool := id < 2 ^ 14

/-- A batch group, which COR_STATUS gives 12 bits (Table 19-9). -/
def okGroup (g : Nat) : Bool := g < 2 ^ 12

/-- A model slot of 256 (R363). -/
def okSlot (m : Nat) : Bool := m < 256

/-- A die of 10 (Table 0-1). -/
def okDie (d : Nat) : Bool := d < 10

/-- A placement: a group, an offset and a phase slot of 64, and a die (R32, R38, R55). -/
def okPlacement (pl : Placement) : Bool := okGroup pl.group && pl.offset < 64 && pl.slot < 64 && okDie pl.die

/-- What the environment did to an instruction: stacks of 20, and errors of the kinds of Table 16-2. -/
def okUpset (u : Upset) : Bool :=
  u.hbmCe.all (· < 20) && (match u.uncorr with
    | some (k, _) => 1 ≤ k && k ≤ 3
    | none => true)

/-- A register access of 1, 2, 4 or 8 bytes, naturally aligned, in BAR0 (R526, R529). -/
def okAccess (off size : Nat) : Bool :=
  (size == 1 || size == 2 || size == 4 || size == 8) && off % size == 0 && off + size ≤ 2 ^ 24

/-- The operands of a command lie in their ranges. -/
def Instr.wf : Instr → Bool
  | .cmdOpen g d pl => okDesc g d && okPlacement pl
  | .cmdStateRead g d u => okDesc g d && okUpset u
  | .cmdTensorMove g d row u => okDesc g d && row < 12288 && okUpset u
  | .cmdClose g d | .cmdPause g d | .cmdResume g d | .cmdReset g d | .cmdStreamCtl g d | .cmdQuery g d
  | .cmdStateWrite g d | .cmdModelLoad g d | .cmdModelUnload g d | .cmdGroupCtl g d
  | .cmdWeightPin g d | .cmdPrefix g d | .cmdSkvCtl g d | .cmdRegionPin g d | .cmdWindow g d | .cmdNop g d
  | .chunk g d | .outputBuffer g d => okDesc g d
  | .hifKick f g => okFunc f && okDesc g 0
  | .doorbellFetch g _ | .moderationTimer g _ | .handoverReceived g => okDesc g 0
  | .mma c _ u | .vmap c _ u | .vred c _ u | .vcpr c _ u | .vxpn c _ u | .vperm c _ u => okCore c && okUpset u
  | .gpload c slot row u => okCore c && slot < 32 && row < 12288 && okUpset u
  | .lscanForward c _ u | .lscanReverse c _ u | .attScore c _ u | .attValue c _ u | .attExpand c _ u | .vqpop c _ u
  | .vsload c _ u | .vtload c _ u | .vbrel c _ u | .skx c _ u | .dmov c _ u | .dtens c _ u | .wopen c _ u
  | .wclose c _ u => okCore c && okUpset u
  | .skc c _ _ u => okCore c && okUpset u
  | .timeRead c r => okCore c && r < 63
  | .illegalOp c _ | .coreProgressWatchdog c | .coreStateEntryDone c => okCore c
  | .coreArmed c u => okCore c && okUpset u
  | .launchDecision g _ | .wakeIssue g | .tick g | .lateStrobe g _ | .heldDispatch g _ | .switchComplete g _
  | .jobResume g _ => okGroup g
  | .chunkEnd g rep => okGroup g && okUpset rep.errors
  | .tokenStepBoundary g _ _ u => okGroup g && okUpset u
  | .openInitDone i | .closeReleaseDone i | .afeConversionStart i | .afeConversionDone i | .recordMoveStart i _
  | .handoffCommitted i _ | .idConfirmed i _ _ => okStream i
  | .fillDone i u | .swapOutDone i u | .demotionDone i u | .promotionDone i u | .rehomingDone i u | .mirrorReadDone i u =>
    okStream i && okUpset u
  | .placementMove i _ die => okStream i && okDie die
  | .openIdConfirm i p _ => okStream i && okPart p
  | .handoff h => okStream h.stream
  | .modelLoadDone m | .modelUnloadDone m => okSlot m
  | .kvEvictionDone _ _ u => okUpset u
  | .bar2Read _ len u => 0 < len && okUpset u
  | .bar2Write _ bs => !bs.isEmpty
  | .partnerAccess r u => okPart r.part && okUpset u
  | .lowWordRead f off size => okFunc f && okAccess off size
  | .registerWrite f off size _ => okFunc f && okAccess off size
  | .partitionStart f p | .partitionReset f p => okFunc f && okPart p
  | .partitionResetDone p | .mirrorDropNotice p => okPart p
  | .corSrSeed f c _ => okFunc f && okCore c
  | .brdFlashData f i _ => okFunc f && i < 1024
  | .cinSet f _ | .cinOffsetAdj f _ | .cinRateAdj f _ | .cinMode f _ | .deviceStart f _ | .ringGroupEnable f _
  | .sdlAccSel f _ | .kprSel f _ | .snap f | .pairEnable f _ | .pairLeave f _ | .rnlTakeover f _ | .handback f _
  | .brdFlashAddr f _ | .activate f | .pwrResetCold f | .pwrResetWarm f => okFunc f
  | .bundleTrained b | .bundleRetrain b | .flitReplay b => b < 4
  | .cxlPortTrained port width speed _ _ _ => port < 2 && width < 4 && speed < 4
  | .cxlDown port => port < 2
  | .brownout rail => 1 ≤ rail && rail ≤ 7
  | .flrVf n => 0 < n && okFunc n
  | .thermTrip die => die < 21
  | .warningTemperature ts => ts.length ≤ 21
  | .powerSample r => r.dies.length ≤ 10
  | .challenge _ slot nonce => slot < 8 && nonce.length == 32
  | .getMeasurements _ _ _ nonce => nonce.length == 32
  | .keyExchange _ slot encap => slot < 8 && encap.length == 1568
  | .getCertificate _ slot _ _ => slot < 8
  | .ideKmKeyProg _ strm _ => strm < 5
  | .dynamicAddressAssignment a => a < 128
  | .beatServiceWatchdog _ | .beatBoundary _ | .ageInterval _ | .prefixDone _ _ | .handoverSend
  | .syncPpsEdge _ _ | .ppsLost | .refclkTLost | .refclkTRelock | .holdoverSecond | .refclkMLost | .refclkMReturn
  | .tackCalibration | .pairExchange _ | .heartbeatSend | .heartbeat _ _ _ _ _ | .linkSilence | .sidebandSilence
  | .faultFlit | .downFlit | .fence | .leave | .keeperCommitStart | .keeperCommitDone | .powerFailEvent
  | .holdupEnd | .powerFailRelease | .vtackApplied | .vtackRemoved | .tackOscStable | .mainRailsLost
  | .coldResetRelease _ | .sysRstN | .perstNAssert | .sleepEntry | .perstNRelease | .hostLinkReset | .flrPf
  | .hbmTrainingDone _ | .sidebandClockStop | .drbgReseed | .keyUpdate _ | .spdmHeartbeat _ | .setOwner _ _
  | .setManifest _ _ | .getIdentity _ _ | .getKeeperHead | .getKeeper _ | .getBoot | .tapReset | .bypass
  | .samplePreload | .idcode | .extest | .extestPulse | .extestTrain | .clamp | .highz | .flrReady | .holdupCharge _
  | .slewComplete | .reinHbInTransition | .sysRstNRelease | .negotiateAlgorithms _ | .sessionEnd _ => true

end Sys2Proof
end

