-- ==== Sys2Proof/Certificates/Slice0/Obligations.lean ====
section
/-! DEFINITION. The statements for the provers. Each is about `exec` of the commands it names, in every state and for every
operand that meet its hypotheses; "derived" ones that rest on a choice of the model name the log entry. -/

open Sys2Proof Sys2Proof.Machine Sys2Proof.Safety

/-! ### The machine as a whole -/

/-- A step takes the command at the front of the queue and is that command on the state with the rest of the queue. -/
def Obligations.StepRunsFront : Prop :=
  ∀ (c : Instr) (rest : List Instr) (s : State),
    step { s with pending := c :: rest } = exec c { s with pending := rest }

/-- Every command completes, in every state, and changes only the groups of the state that `touches` gives it; it keeps the
queue of the commands that wait, the identity region (R489), the set of cores, and the canonical form of every memory. This is
the frame of all commands at the level of the state's groups. -/
def Obligations.EveryCommandKeeps : Prop :=
  ∀ (c : Instr) (s : State), ∃ t, exec c s = .next t ∧ Keeps (touches c) s t

/-- The invariant of the model: the device has its 160 cores in order, the identity region is as manufactured (R489), and every
memory is in canonical form (notes/assumptions/4.md). -/
def Obligations.StepKeepsInvariant : Prop :=
  ∀ (s t : State), Inv s → step s = .next t → Inv t

/-- The invariant holds right after reset. -/
def Obligations.ResetHasInvariant : Prop := Inv State.reset

/-- On an empty queue a step is one clock of the timebase (the model's own choice, notes/assumptions/5.md): the counter
and its accumulator advance by 1 ns plus the rate adjustment plus the slew of one clock (R60, R64), which is the pending slew or
CIN_SLEW_LIMIT ppm, whichever is less, rounded as notes/assumptions/6.md says; in tack holdover the slew pauses (R64). -/
def Obligations.IdleClock : Prop :=
  (∀ s : State, s.pending = [] → s.power.vtack = true → s.tb.tackHold = false → s.tb.holdover = false →
    s.reg 0x20024 ≤ 500 → 1 ≤ s.tb.now →
      ∃ t, step s = .next t ∧ t = { s with tb := t.tb } ∧
        t.tb.slew = s.tb.slew - clampInt s.slewStep s.tb.slew ∧ t.tb.frac < 2 ^ 32 ∧
        (t.tb.now * 2 ^ 32 + t.tb.frac : Int) =
          s.tb.now * 2 ^ 32 + s.tb.frac + 2 ^ 32 + s.rateAdj + (s.tb.slew - t.tb.slew)) ∧
  (∀ s : State, s.pending = [] → s.power.vtack = true → s.tb.tackHold = true →
      ∃ t, step s = .next t ∧ t = { s with tb := t.tb, free := s.free + 1 } ∧ t.tb.slew = s.tb.slew ∧ t.tb.frac < 2 ^ 32)

/-! ### The timebase (03_cinch_timebase.md) -/

/-- R62, whole: a write of CIN_SET loads the counter, at once or at the next accepted SYNC_PPS edge, after which the counter
equals the value plus what the clocks add; once the device is started it is ignored and counted. Everything else is unchanged.
`edgeRef` is the model's own bookkeeping of the time since the last edge and moves with the load. -/
def Obligations.CinSetLoads : Prop :=
  ∀ (s : State) (v : DWord), PfServed s → s.tb.pairFollow = false →
    (s.work.started = false → nbits (s.reg 0x20000) 3 1 = 0 →
      exec (.cinSet 0 v) s = .next { s with
        regs := putKey 0x20010 v s.regs
        tb := { s.tb with
          now := v.toNat, frac := 0, load := none, timeSet := true, timeCoarse := false
          edgeRef := s.tb.edgeRef + v.toNat - s.tb.now } }) ∧
    (s.work.started = false → nbits (s.reg 0x20000) 3 1 = 1 →
      exec (.cinSet 0 v) s = .next { s with regs := putKey 0x20010 v s.regs, tb := { s.tb with load := some v.toNat } }) ∧
    (s.work.started = true → exec (.cinSet 0 v) s = .next (s.ignore .cin)) ∧
    (s.tb.load = some v.toNat → s.tb.tackHold = false → s.ppsAccepts s.tb.now = true →
      ∃ t, exec (.syncPpsEdge (decide (nbits (s.reg 0x20000) 2 1 = 1)) s.tb.now) s = .next t ∧
        t.tb.now = v.toNat ∧ t.tb.frac = 0 ∧ t.tb.load = none) ∧
    (∀ n : Nat, s.power.vtack = true → s.tb.tackHold = false → s.tb.holdover = false → s.tb.slew = 0 → s.rateAdj = 0 →
      s.tb.now = v.toNat → s.tb.frac = 0 → (s.elapse n).tb.now = v.toNat + n)

/-- R63, whole: a write of CIN_RATE_ADJ stores the signed value clamped to ±2,147,484 and changes nothing else, and the next
clock of the timebase advances the counter by it. MODE is 0 and the device follows no master (R67, R72). -/
def Obligations.CinRateClamped : Prop :=
  ∀ (s : State) (v : Word), PfServed s → s.tb.pairFollow = false → s.ppsMode = false →
    ∃ t, exec (.cinRateAdj 0 v) s = .next t ∧
      t = { s with regs := putKey 0x20018 (BitVec.ofNat 64 (unsigned 32 (clampInt 2147484 v.toInt))) s.regs } ∧
      t.rateAdj = clampInt 2147484 v.toInt ∧
      (s.pending = [] → s.power.vtack = true → s.tb.tackHold = false → s.tb.holdover = false → s.tb.slew = 0 →
        ∃ u, step t = .next u ∧
          (u.tb.now * 2 ^ 32 + u.tb.frac : Int) = s.tb.now * 2 ^ 32 + s.tb.frac + 2 ^ 32 + clampInt 2147484 v.toInt)

/-- From R64: a write of CIN_OFFSET_ADJ adds the signed ns to the pending slew, saturated at ±(2^31 − 1) ns, and changes nothing
else; SLEW_COMPLETE is the passage of the clocks in which the slew reaches zero, and in tack holdover it stays. The number of
those clocks rests on the rounding of notes/assumptions/6.md. -/
def Obligations.CinOffsetSlews : Prop :=
  ∀ (s : State) (v : Word),
    (PfServed s → s.tb.pairFollow = false → s.ppsMode = false →
      exec (.cinOffsetAdj 0 v) s = .next { s with tb := { s.tb with
        slew := max (-((2 ^ 31 - 1) * 2 ^ 32)) (min ((2 ^ 31 - 1) * 2 ^ 32) (s.tb.slew + v.toInt * 2 ^ 32)) } }) ∧
    (s.power.vtack = true → s.tb.tackHold = false → 0 < s.slewStep →
      ∃ t, exec .slewComplete s = .next t ∧ t.tb.slew = 0 ∧ t = { s with tb := t.tb, free := t.free } ∧
        (s.tb.slew = 0 → t = s)) ∧
    (s.tb.tackHold = true → exec .slewComplete s = .next s)

/-- From R67, R72: a write of CIN_CTRL sets MODE and, while the device is not started, the three RWS fields; MODE 0 clears
PPS_LOCKED at once and leaves rate and slew. Under MODE 1, and on a follower, writes of the rate and of the offset are ignored
and counted; on a follower a write of CIN_SET is. `goodRun`, the run of good edges, starts afresh. -/
def Obligations.CinModeAndSteering : Prop :=
  ∀ (s : State) (v : Word) (w : DWord), PfServed s →
    (s.work.started = false →
      exec (.cinMode 0 v) s = .next { s with
        regs := putKey 0x20000 (BitVec.ofNat 64 (v.toNat % 16)) s.regs
        tb := { s.tb with goodRun := 0, ppsLocked := s.tb.ppsLocked && v.getLsbD 0 } }) ∧
    (s.work.started = true → v.toNat / 2 % 8 = s.reg 0x20000 / 2 % 8 →
      exec (.cinMode 0 v) s = .next { s with
        regs := putKey 0x20000 (BitVec.ofNat 64 (v.toNat % 16)) s.regs
        tb := { s.tb with goodRun := 0, ppsLocked := s.tb.ppsLocked && v.getLsbD 0 } }) ∧
    ((s.tb.pairFollow || s.ppsMode) = true →
      exec (.cinRateAdj 0 v) s = .next (s.ignore .cin) ∧ exec (.cinOffsetAdj 0 v) s = .next (s.ignore .cin)) ∧
    (s.tb.pairFollow = true → exec (.cinSet 0 w) s = .next (s.ignore .cin))

/-- From R66, R67: an edge of the polarity of PPS_FALL, in RUN and outside tack holdover, stamped n: the counter first runs to the
stamp (`State.advanceTo`). The edge is accepted when 500 ms have passed since the last accepted edge and its phase error lies in
the window, or none has been accepted yet, or PPS is lost; an accepted edge is recorded. Under MODE 1, where no master is
followed, each accepted edge counts in the run of errors within 50 ns and the third in a row locks, and its error becomes the
slew, the other way round; an edge at which a waiting load takes place leaves slew and rate (notes/assumptions/120.md). A
rejected edge only counts in CIN_PPS_REJECT; an edge of the other polarity does nothing. -/
def Obligations.PpsEdge : Prop :=
  ∀ (s : State) (pol : Bool) (n : Nat), s.power.dev = .run → s.tb.tackHold = false →
    (pol = decide (nbits (s.reg 0x20000) 2 1 = 1) →
      let u := s.advanceTo n
      let err := phaseError n u.ppsOffset
      let soon := u.tb.ppsSeen = true ∧ (n : Int) - u.tb.edgeRef < 500000000
      (¬ soon → (u.tb.ppsSeen = false ∨ u.tb.ppsLost = true ∨ err.natAbs ≤ u.ppsWindow) →
        ∃ t, exec (.syncPpsEdge pol n) s = .next t ∧ t.tb.ppsStamp = n ∧ t.tb.ppsErr = err ∧
          t.tb.ppsSeen = true ∧ t.tb.ppsLost = false ∧
          t = { u with tb := t.tb, regs := t.regs, hif := t.hif, mem := t.mem, out := t.out } ∧
          (u.ppsMode = true → u.tb.follows = false →
            (t.tb.ppsLocked = true ↔ u.tb.ppsLocked = true ∨ 3 ≤ t.tb.goodRun) ∧
            t.tb.goodRun = (if err.natAbs ≤ 50 then u.tb.goodRun + 1 else 0)) ∧
          (u.tb.load = none → u.ppsMode = true → u.tb.follows = false → t.tb.slew = -err * 2 ^ 32) ∧
          (∀ v, u.tb.load = some v → t.tb.now = v ∧ t.tb.load = none) ∧
          (u.tb.load ≠ none ∨ u.ppsMode = false ∨ u.tb.follows = true →
            t.tb.slew = u.tb.slew ∧ (u.tb.ppsLost = false → t.regs = u.regs))) ∧
      (soon ∨ ¬ (u.tb.ppsSeen = false ∨ u.tb.ppsLost = true ∨ err.natAbs ≤ u.ppsWindow) →
        exec (.syncPpsEdge pol n) s = .next (u.bump ctrPpsReject))) ∧
    (pol ≠ decide (nbits (s.reg 0x20000) 2 1 = 1) → exec (.syncPpsEdge pol n) s = .next s)

/-- From Table 3-1: loss of PPS after a first accepted edge, once the counter has run to the end of LOSS_SEC, clears PPS_LOCKED and
raises the TIMEBASE event of condition 0; loss of REFCLK_T clears REF_OK, sets HOLDOVER and raises that of condition 1; its
return clears both and CIN_HOLD_SEC; each further second of holdover counts. The rate and the slew stay. -/
def Obligations.TimeSourcesLost : Prop :=
  ∀ s : State, s.power.dev = .run →
    (s.tb.ppsSeen = true → s.tb.ppsLost = false →
      let u := s.advanceTo (s.tb.edgeRef + s.ppsLossSec * 1000000000).toNat
      exec .ppsLost s =
        .next (State.timebaseEvent 0 true { u with tb := { u.tb with ppsLost := true, ppsLocked := false, goodRun := 0 } })) ∧
    (s.tb.ppsSeen = false → exec .ppsLost s = .next s) ∧
    (s.tb.refOk = true →
      exec .refclkTLost s = .next (State.timebaseEvent 1 true { s with tb := { s.tb with refOk := false, holdover := true } })) ∧
    (s.tb.refOk = false → s.tb.holdover = true →
      exec .refclkTRelock s = .next (State.timebaseEvent 1 false { s with
        tb := { s.tb with refOk := true, holdover := false }
        regs := putKey 0x20044 0 s.regs })) ∧
    (s.tb.holdover = true → exec .holdoverSecond s = .next (s.bump ctrHoldSec)) ∧
    (s.tb.holdover = false → exec .holdoverSecond s = .next s)

/-! ### Registers and apertures (19_register_map.md and the register tables) -/

/-- From R396, R466: the writes of Table 19-2's PF-only registers by a virtual function are ignored, change nothing else, and
count once in the ignored-access counter of their block. From R462: during fault stop a write of BAR0 other than one that resets
the device is ignored and counted in its block, a write of BAR4 is ignored and counted, a read of BAR2 returns zeros and a write
of BAR2 is ignored; the two resets still act. -/
def Obligations.AccessesThatAreRefused : Prop :=
  (∀ (s : State) (f i p : Nat) (v : Word) (w : DWord), VfServed f s → p < 16 →
    exec (.cinSet f w) s = .next (s.ignore .cin) ∧ exec (.cinOffsetAdj f v) s = .next (s.ignore .cin) ∧
    exec (.cinRateAdj f v) s = .next (s.ignore .cin) ∧ exec (.cinMode f v) s = .next (s.ignore .cin) ∧
    exec (.deviceStart f v) s = .next (s.ignore .sdl) ∧ exec (.partitionStart f p) s = .next (s.ignore .prt) ∧
    exec (.partitionReset f p) s = .next (s.ignore .prt) ∧ exec (.kprSel f w) s = .next (s.ignore .kpr) ∧
    exec (.snap f) s = .next (s.ignore .kpr) ∧ exec (.pairEnable f v) s = .next (s.ignore .rnl) ∧
    exec (.pairLeave f v) s = .next (s.ignore .rnl) ∧ exec (.rnlTakeover f v) s = .next (s.ignore .rnl) ∧
    exec (.handback f v) s = .next (s.ignore .rnl) ∧ exec (.brdFlashAddr f v) s = .next (s.ignore .brd) ∧
    exec (.brdFlashData f i v) s = .next (s.ignore .brd) ∧ exec (.activate f) s = .next (s.ignore .brd) ∧
    exec (.pwrResetCold f) s = .next (s.ignore .pwr) ∧ exec (.pwrResetWarm f) s = .next (s.ignore .pwr)) ∧
  (∀ (s : State) (f off size g n : Nat) (v : DWord) (bs : List Byte) (u : Upset),
    s.busUp f = true → s.serves (s.countBlock off) = true → s.keeper.fstop = true → s.power.ready = true →
    s.bridle.recovery = false → g < 1024 →
      (¬ (f = 0 ∧ off = 0xC0004 ∧ size = 4 ∧ (v = 0xC1 ∨ v = 0xA1)) →
        exec (.registerWrite f off size v) s = .next (s.ignore (s.countBlock off))) ∧
      exec (.hifKick f g) s = .next (s.ignore .hif) ∧
      (s.busUp 0 = true →
        exec (.bar2Read off n u) s = .next { s.ignore .mem with out := .readData (List.replicate n 0) :: s.out } ∧
        exec (.bar2Write off bs) s = .next (s.ignore .mem)) ∧
      (f = 0 → s.power.resetting = none → s.power.held = false →
        exec (.pwrResetCold 0) s = .next (s.devReset .cold) ∧ exec (.pwrResetWarm 0) s = .next s.warmReset))

/-- From R10: a 4-byte read of the low word of a 64-bit register the function sees answers that word and latches the value: in
any later state in which the function's latches are as the read left them, whatever the register then holds, the read of the
high word answers the latched half. An 8-byte read answers the whole register and latches nothing. -/
def Obligations.LowWordReadLatches : Prop :=
  ∀ (s : State) (f off : Nat) (b : Block) (a : RegAt),
    s.busUp f = true → s.serves (s.countBlock off) = true → s.regAt off = some (b, a) → a.base = off → off % 8 = 0 →
    a.row.width = 8 → a.row.wo = false → s.maySee f b a = true →
      (∃ t, exec (.lowWordRead f off 4) s = .next t ∧
        t.out = .readData (leBytes 4 (s.regValue f off % 2 ^ 32)) :: s.out ∧
        t = { s with hif := t.hif, out := t.out } ∧
        ∀ (u : State) (c : Block) (a' : RegAt), (u.func f).latches = (t.func f).latches → u.busUp f = true →
          u.serves (u.countBlock (off + 4)) = true → u.regAt (off + 4) = some (c, a') → a'.base = off → a'.row.width = 8 →
          a'.row.wo = false → u.maySee f c a' = true →
            ∃ x, exec (.lowWordRead f (off + 4) 4) u = .next x ∧
              x.out = .readData (leBytes 4 (s.regValue f off / 2 ^ 32 % 2 ^ 32)) :: u.out) ∧
      exec (.lowWordRead f off 8) s = .next { s with out := .readData (leBytes 8 (s.regValue f off)) :: s.out }

/-- From R11: a write of the low word of a 64-bit RW register is held and changes nothing else; the write of the high word then
does what one 8-byte write of both words does, and the held word is gone. -/
def Obligations.HighWordWriteAppliesBoth : Prop :=
  ∀ (s : State) (f off : Nat) (b : Block) (a : RegAt) (lo hi : Word),
    s.busUp f = true → s.serves (s.countBlock off) = true → s.serves (s.countBlock (off + 4)) = true →
    s.keeper.fstop = false → s.regAt off = some (b, a) → s.regAt (off + 4) = some (b, a) → a.base = off → off % 8 = 0 →
    a.row.width = 8 → ¬ (a.row.rw = 0 ∧ a.row.rws = 0) → s.mayPoke f b a lo.toNat = true → s.mayPoke f b a hi.toNat = true →
      ∃ t, exec (.registerWrite f off 4 (lo.setWidth 64)) s = .next t ∧ t = { s with hif := t.hif } ∧
        (t.func f).held = putKey off lo (s.func f).held ∧
        exec (.registerWrite f (off + 4) 4 (hi.setWidth 64)) t =
          .next ((t.updFunc f fun c => { c with held := c.held.filter fun x => x.1 != off }).regWrite f b a
            (lo.toNat + hi.toNat * 2 ^ 32))

/-- From R539: a write of START by the PF starts the device when it is not started and no CIN_SET load is pending (READY, no fault
stop, no recovery, no power failure stand in the hypotheses): FALLBACK_EN is written, measurement 7 is fixed from the RWS
values, and beats already begun are not made up. With a load pending the write is ignored in all fields and counted. -/
def Obligations.DeviceStarts : Prop :=
  ∀ (s : State) (v : Word), PfServed s → s.work.started = false → v.getLsbD 0 = true →
    (s.tb.load = none →
      ∃ t, exec (.deviceStart 0 v) s = .next t ∧ t.work.started = true ∧
        t = { s with regs := t.regs, work := t.work, bridle := t.bridle } ∧
        t.regs = putKey 0x30000 (if v.getLsbD 1 then 2 else 0) s.regs ∧
        t.bridle = { s.bridle with meas := updAt 6 (fun _ => Config.shake256 s.rwsBytes 64) s.bridle.meas } ∧
        t.work = { s.work with started := true, beat := t.work.beat, served := t.work.served } ∧
        (0 < s.period → s.epoch ≤ s.tb.now → t.work.beat = some ((s.tb.now - s.epoch) / s.period)) ∧
        (s.tb.now < s.epoch → t.work.beat = none)) ∧
    (s.tb.load ≠ none → exec (.deviceStart 0 v) s = .next (s.ignore .sdl))

/-- R361, whole: START of partition p starts it exactly when the five conditions hold, clears ERR, and MEM_KV_TOTAL grows by
its pool; else ERR is set and it stays not started. START with RESET resets and counts once; START while RESET reads 1 counts.
The end of a partition reset takes the pool from MEM_KV_TOTAL again. -/
def Obligations.PartitionStarts : Prop :=
  ∀ (s : State) (p : Nat), PfServed s → p < 16 →
    let all := s.work.partStarted ++ [p]
    let fits := s.work.started = true ∧ s.partCores p ≠ 0 ∧
      (∀ c, (s.partCores p).getLsbD c = true → s.coreOn c = true) ∧
      (∀ q ∈ s.work.partStarted, ∀ c, ¬ ((s.partCores p).getLsbD c = true ∧ (s.partCores q).getLsbD c = true)) ∧
      (∀ d < 10, sumBy (fun q => s.dieNeed q d) all ≤ poolMib) ∧
      sumBy s.partCxlGib all * 2 ^ 30 ≤ s.cxlCapacity
    (s.partStarted p = false → s.work.partReset.contains p = false → fits →
      exec (.partitionStart 0 p) s = .next { s with work := { s.work with
        partStarted := all, partErr := s.work.partErr.filter (· != p) } } ∧
      sumBy s.partKvPages all = s.kvTotal + s.partKvPages p) ∧
    (s.partStarted p = false → s.work.partReset.contains p = false → ¬ fits →
      exec (.partitionStart 0 p) s = .next { s with work := { s.work with
        partErr := if s.work.partErr.contains p then s.work.partErr else s.work.partErr ++ [p] } }) ∧
    (s.work.partReset.contains p = true → exec (.partitionStart 0 p) s = .next (s.ignore .prt)) ∧
    (∃ t, exec (.registerWrite 0 (prtBase p) 4 3) s = .next t ∧ exec (.partitionReset 0 p) (s.ignore .prt) = .next t) ∧
    (s.work.partReset.contains p = true →
      ∃ t, exec (.partitionResetDone p) s = .next t ∧
        t.kvTotal = sumBy s.partKvPages (s.work.partStarted.filter (· != p)))

/-- From R516, R511: a partition reset of p, by the PF; LASTRST names it. Step by step: no job, group, model slot, stream, page, prefix or Skiver table of p
is left and RESET reads 1; every ring group of p has EN and its status bits clear and holds no descriptor; every core of p is at
its reset state, generator and power state aside, is ordered to DEEP where it ran, and its slice reads zero; other partitions keep all of that. Its end clears
STARTED and ERR and RESET, and touches nothing else. -/
def Obligations.PartitionResets : Prop :=
  ∀ (s : State) (p : Nat), PfServed s → p < 16 →
    (∃ t, exec (.partitionReset 0 p) s = .next t ∧
      t.work.jobs = s.work.jobs.filter (·.part != p) ∧ t.work.groups = s.work.groups.filter (·.part != p) ∧
      t.work.slots = s.work.slots.filter (·.part != p) ∧ t.work.streams = s.work.streams.filter (·.part != p) ∧
      t.work.partReset.contains p = true ∧ t.work.partStarted = s.work.partStarted ∧ t.work.clients = s.work.clients ∧
      t.caches.pages = s.caches.pages.filter (·.part != p) ∧ t.caches.prefixes = s.caches.prefixes.filter (·.part != p) ∧
      t.caches.skvGens = s.caches.skvGens.filter (·.part != p) ∧ t.caches.skvSlots = s.caches.skvSlots.filter (·.part != p) ∧
      (∀ r ∈ t.hif.rgs, r.part = p → r.en = false ∧ r.stopped = 0 ∧ r.cmds = [] ∧ r.chunks = [] ∧ r.outs = []) ∧
      (∀ r ∈ s.hif.rgs, r.part ≠ p → r ∈ t.hif.rgs) ∧
      (∀ c < 160, (s.partCores p).getLsbD c = true → s.core? c ≠ none →
        t.core c = { Core.reset c with
          rng := (s.core c).rng, pstate := (s.core c).pstate, deepCtx := (s.core c).deepCtx
          entering := if (s.core c).pstate = .active ∨ (s.core c).pstate = .armed then some .deep else (s.core c).entering } ∧
        ∀ b < 2 ^ 23, t.mem.spm.byte (fun _ => 0) (c * 2 ^ 23 + b) = 0) ∧
      (∀ c < 160, (s.partCores p).getLsbD c = false → t.core? c = s.core? c ∧
        ∀ b < 2 ^ 23, t.mem.spm.byte (fun _ => 0) (c * 2 ^ 23 + b) = s.mem.spm.byte (fun _ => 0) (c * 2 ^ 23 + b)) ∧
      t.mem.hbm = s.mem.hbm ∧ t.mem.cxl = s.mem.cxl ∧ t.mem.host = s.mem.host ∧ t.tb = s.tb ∧ t.bridle = s.bridle ∧
      t.power = { s.power with lastReset := 4 } ∧ t.board = s.board) ∧
    (s.work.partReset.contains p = true →
      exec (.partitionResetDone p) s = .next { s with work := { s.work with
        partStarted := s.work.partStarted.filter (· != p), partErr := s.work.partErr.filter (· != p)
        partReset := s.work.partReset.filter (· != p) } }) ∧
    (s.work.partReset.contains p = false → exec (.partitionResetDone p) s = .next s)

/-- From R400, R409, R432: the PF, with ring group g selected and neither its old nor its new partition started, enables a
group: the group starts with its indices at zero and no descriptor; clearing EN leaves it no descriptor; other groups stay. With
the group's partition started the write is ignored and counted. From R389, R474, R476, R122: the four selectors and latches.
SDL_ACC_SEL latches the 16 counters of a client the PF names, or zeros with a count; KPR_SEL latches the record of a SEQ, or
zeros with VALID clear; SNAP raises a SNAPSHOT record, unless one waits for a buffer, which counts; COR_SR_SEED loads the core's
generator, for zero from the random source. -/
def Obligations.RingGroupsAndSelectors : Prop :=
  (∀ (s : State) (v : Word) (r : RingGroup), PfServed s → s.rgOf 0 = some r →
    (s.partStarted r.part = false → (bits v 1 4 = r.part ∨ s.partStarted (bits v 1 4) = false) →
      ∃ t, exec (.ringGroupEnable 0 v) s = .next t ∧ t = { s with hif := t.hif } ∧ t.hif = { s.hif with rgs := t.hif.rgs } ∧
        (t.rg r.num).ctrl.toNat = v.toNat % 64 ∧
        (v.getLsbD 0 = true → r.en = false →
          (t.rg r.num).fetched = [0, 0, 0] ∧ (t.rg r.num).posted = [0, 0, 0] ∧ (t.rg r.num).evPosted = 0 ∧
          (t.rg r.num).lost = 0 ∧ (t.rg r.num).pendC = 0 ∧ (t.rg r.num).pendE = 0) ∧
        (v.getLsbD 0 ≠ r.en →
          (t.rg r.num).cmds = [] ∧ (t.rg r.num).chunks = [] ∧ (t.rg r.num).outs = [] ∧ (t.rg r.num).pool = []) ∧
        (v.getLsbD 0 = r.en → (t.rg r.num).cmds = r.cmds ∧ (t.rg r.num).posted = r.posted) ∧
        (∀ g, g ≠ r.num → t.rg g = s.rg g)) ∧
    (s.partStarted r.part = true → exec (.ringGroupEnable 0 v) s = .next (s.ignore .hif))) ∧
  (∀ (s : State) (v : Word) (w : DWord) (c : Nat), PfServed s → c < 160 → s.coreOn c = true → (s.iy920 = true → c < 80) →
    s.core? c ≠ none →
    (∃ t, exec (.sdlAccSel 0 v) s = .next t ∧ t = { s with hif := t.hif, regs := t.regs } ∧
      (t.func 0).accData = (s.accClient 0 (v.toNat &&& 0x303FF)).getD (List.replicate 16 0) ∧
      t.regs = (if (s.accClient 0 (v.toNat &&& 0x303FF)).isSome then s.regs else (s.ignore .sdl).regs) ∧
      (bits v 16 2 = 3 ∨ (bits v 16 2 = 1 ∧ 64 ≤ bits v 0 10) ∨ (bits v 16 2 = 2 ∧ 16 ≤ bits v 0 10) →
        (t.func 0).accData = List.replicate 16 0)) ∧
    (∃ t, exec (.kprSel 0 w) s = .next t ∧ t = { s with hif := t.hif } ∧ (t.func 0).kprSel = w ∧
      ((t.func 0).kprValid = true ↔ ∃ r ∈ s.keeper.slots, r.seq = w.toNat) ∧
      (∀ k, s.keeper.find w.toNat = some k → (t.func 0).kprData = k.bytes) ∧
      ((t.func 0).kprValid = false → (t.func 0).kprData = List.replicate 4096 0)) ∧
    (s.keeper.waiting.any (fun r => r.kind == 7) = true → exec (.snap 0) s = .next (s.ignore .kpr)) ∧
    (s.keeper.waiting.any (fun r => r.kind == 7) = false →
      ∃ t, exec (.snap 0) s = .next t ∧ t = { s with keeper := t.keeper } ∧ t.keeper.lastSeq = s.keeper.lastSeq + 1 ∧
        ∃ r ∈ t.keeper.staged ++ t.keeper.waiting, r.seq = s.keeper.lastSeq + 1 ∧ r.kind = 7 ∧ r.body = s.counterList) ∧
    (w ≠ 0 → ∃ t, exec (.corSrSeed 0 c w) s = .next t ∧ (t.core c).rng = w ∧
      t = { s with regs := putKey (corBase c + 0x228) w s.regs, cores := t.cores } ∧
      ∀ k, k ≠ c → t.core k = s.core k) ∧
    (∃ t, exec (.corSrSeed 0 c 0) s = .next t ∧ (t.core c).rng = Config.drbg s.bridle.drbgDraws ∧
      t.bridle.drbgDraws = s.bridle.drbgDraws + 1 ∧ ∀ k, k ≠ c → t.core k = s.core k))

/-- From R484 (in recovery R483): a 4 KiB-aligned BRD_FLASH_ADDR in the place that is open to writes erases that sector to ones;
an erased word takes the value BRD_FLASH_DATA gives it (what an unerased one takes is a free value, notes/assumptions/9.md);
every other byte of the flash is left, the active slot among them. An address outside the open place is ignored and counted.
ACTIVATE prefers the inactive image and raises a FW_REPLACED record when it verifies, and else changes nothing but RESULT and
BRD_VERIFY_FAIL. -/
def Obligations.FirmwareReplaced : Prop :=
  ∀ (s : State) (v : Word) (i : Nat), s.busUp 0 = true → s.keeper.fstop = false → i < 1024 →
    let a := s.reg 0xB0044 + 4 * i
    (s.bridle.recovery = false → ∀ x, s.flashPlace x = if x < 0x800000 then some (!s.bridle.runningB, x) else none) ∧
    (s.bridle.recovery = true → ∀ x, s.flashPlace x = if x < 0x1000000 then some (decide (0x800000 ≤ x), x % 0x800000) else none) ∧
    (∀ b x, s.flashPlace v.toNat = some (b, x) → v.toNat % 4096 = 0 →
      exec (.brdFlashAddr 0 v) s = .next { s with
        regs := putKey 0xB0044 (v.setWidth 64) s.regs
        bridle := if b then { s.bridle with flashB := s.bridle.flashB.write x (List.replicate 4096 0xFF) }
          else { s.bridle with flashA := s.bridle.flashA.write x (List.replicate 4096 0xFF) } }) ∧
    (s.flashPlace v.toNat = none ∨ v.toNat % 4096 ≠ 0 → exec (.brdFlashAddr 0 v) s = .next (s.ignore .brd)) ∧
    (∀ b x, s.flashPlace a = some (b, x) → s.flashRead b x 4 = List.replicate 4 0xFF →
      exec (.brdFlashData 0 i v) s = .next { s with
        bridle := if b then { s.bridle with flashB := s.bridle.flashB.write x (leBytes 4 v.toNat) }
          else { s.bridle with flashA := s.bridle.flashA.write x (leBytes 4 v.toNat) } }) ∧
    (∀ b x, s.flashPlace a = some (b, x) → s.flashRead b x 4 ≠ List.replicate 4 0xFF →
      ∃ bs : List Byte, bs.length = 4 ∧ exec (.brdFlashData 0 i v) s = .next { s with
        free := s.free + 1
        bridle := if b then { s.bridle with flashB := s.bridle.flashB.write x bs }
          else { s.bridle with flashA := s.bridle.flashA.write x bs } }) ∧
    (s.flashPlace a = none → exec (.brdFlashData 0 i v) s = .next (s.ignore .brd)) ∧
    (s.imageOk s.inactive = true →
      ∃ t, exec (.activate 0) s = .next t ∧ t = { s with bridle := t.bridle, keeper := t.keeper } ∧
        t.bridle = { s.bridle with preferredB := s.inactive, result := 1 } ∧
        ∃ r ∈ t.keeper.staged ++ t.keeper.waiting, r.seq = s.keeper.lastSeq + 1 ∧ r.kind = 5) ∧
    (s.imageOk s.inactive = false →
      exec (.activate 0) s = .next { s.bump (ctrBrd 2) with bridle := { s.bridle with result := 2 } })

/-! ### Resets, supplies, power and test access (18_power_clocks_reset.md, 20_package_and_electrical.md) -/

/-- From R511, R512, R515: what the three resets of the whole device do, from every trigger. A cold reset by PWR_RESET 0xC1 or
SYS_RST_N and a PF function-level reset have the effects of Table 18-5; a warm reset by PWR_RESET 0xA1, a host-link reset or the
release of PERST_N has them and then runs the boot chain without the PUF; a trigger weaker than a reset in progress is absorbed. -/
def Obligations.DeviceResets : Prop :=
  ∀ s : State, s.power.held = false → s.power.dev = .run →
    (PfServed s → s.power.resetting = none → ∃ t, exec (.pwrResetCold 0) s = .next t ∧ ResetEffects .cold s t) ∧
    (∃ t, exec .sysRstN s = .next t ∧ t.power.sysRst = true ∧
      ResetEffects .cold { s with power := { s.power with sysRst := true } } t) ∧
    (s.power.resetting = none → s.bridle.recovery = false → s.power.booting = false →
      ∃ t, exec .flrPf s = .next t ∧ ResetEffects .pf s t) ∧
    (PfServed s → s.power.resetting = none →
      ∃ u, ResetEffects .warm s u ∧ exec (.pwrResetWarm 0) s = .next (u.bootChain false)) ∧
    (s.power.resetting = none → ∃ u, ResetEffects .warm s u ∧ exec .hostLinkReset s = .next (u.bootChain false)) ∧
    (s.power.resetting = none → s.power.perst = true →
      ∃ u, ResetEffects .warm { s with power := { s.power with perst := false } } u ∧
        exec .perstNRelease s = .next (u.bootChain false)) ∧
    (s.power.resetting = some .cold →
      exec .hostLinkReset s = .next s ∧ exec .flrPf s = .next s ∧ ∀ n, exec (.flrVf n) s = .next s)

/-- From R481, R482, R483, R490, R519, R557, R558, R486: the release of a cold reset runs the boot chain, which ends in recovery
with the code of the first check that fails, or runs the preferred image, else the other, while HBM trains; from tack holdover
the counter goes on with TIME_COARSE set and the slew it had (R64), from TACK after a cold reset; the end of training
reports READY with a BOOT record, one more boot and BRD_SVN_FW raised to the image's; a PF reset reports READY likewise. A rail
out of order only keeps the device in cold reset. -/
def Obligations.BootAndReady : Prop :=
  (∀ s : State, s.power.vtack = true → s.power.oscStable = true → s.power.sysRst = false → s.power.powerFail = false →
    s.power.outOfOrder = false → s.power.booting = false → s.power.ready = false → s.power.dev = .run →
    s.power.held = false → s.power.resetting = some .cold →
      exec (.coldResetRelease false) s = .next { s with power := { s.power with outOfOrder := true, rails := true } } ∧
      ∃ t, exec (.coldResetRelease true) s = .next t ∧ t.power.ready = false ∧ t.tb.now = s.tb.now ∧
        t.tb.tackHold = false ∧ t.tb.timeCoarse = (s.tb.timeCoarse || s.tb.tackHold) ∧ t.tb.slew = s.tb.slew ∧
        t.bridle.sessions = [] ∧ t.bridle.ideKeys = [] ∧ t.bridle.inForce = s.bridle.manifest ∧
        t.bridle.secret = Config.pufReconstructs (s.bridle.coldResets + 1) ∧
        (¬ (s.bridle.idnLocked = true ∧ s.bridle.idnCrcOk = true) → t.bridle.recovery = true ∧ t.bridle.outcome = 0x21) ∧
        (s.bridle.idnLocked = true → s.bridle.idnCrcOk = true → s.bridle.manifest.valid = false →
          t.bridle.recovery = true ∧ t.bridle.outcome = 0x20) ∧
        (s.bridle.idnLocked = true → s.bridle.idnCrcOk = true → s.bridle.manifest.valid = true →
          (s.imageOk false = false → s.imageOk true = false → t.bridle.recovery = true ∧ t.bridle.outcome = 0x30) ∧
          (s.imageOk s.bridle.preferredB = true → t.bridle.recovery = false ∧ t.power.booting = true ∧
            t.bridle.runningB = s.bridle.preferredB ∧ t.bridle.outcome = (if t.bridle.secret then 0 else 2)) ∧
          (s.imageOk s.bridle.preferredB = false → s.imageOk (!s.bridle.preferredB) = true →
            t.bridle.recovery = false ∧ t.power.booting = true ∧ t.bridle.runningB = (!s.bridle.preferredB) ∧
            t.bridle.outcome = (if t.bridle.secret then 1 else 2)))) ∧
  (∀ s : State, s.power.vtack = true → s.power.oscStable = true → s.power.sysRst = false → s.power.powerFail = false →
    s.power.outOfOrder = false → s.power.booting = false → s.power.ready = false → s.power.dev = .tack →
    s.tb.tackHold = true →
      ∃ t, exec (.coldResetRelease true) s = .next t ∧ t.power.dev = .run ∧ t.power.ready = false ∧ t.tb.now = s.tb.now ∧
        t.tb.tackHold = false ∧ t.tb.timeCoarse = true ∧ t.tb.slew = s.tb.slew ∧ t.work.started = false) ∧
  ∀ (s : State) (us : Nat) (i : Instr), s.bridle.recovery = false →
    (i = .hbmTrainingDone us ∧ s.power.booting = true ∨ i = .flrReady ∧ s.power.resetting = some .pf) →
      ∃ t, exec i s = .next t ∧ t.power.ready = true ∧ t.power.resetting = none ∧ t.power.booting = false ∧
        t.reg 0xB0010 = min (max (s.reg 0xB0010) s.bridle.fwSvn) 0xFFFFFFFF ∧
        t.reg 0xA0034 = min (s.reg 0xA0034 + 1) 0xFFFFFFFF ∧ t = { s with regs := t.regs, power := t.power, keeper := t.keeper } ∧
        ∃ r ∈ t.keeper.staged ++ t.keeper.waiting, r.seq = s.keeper.lastSeq + 1 ∧ r.kind = 4

/-- From R503, R64: PERST_N asserted changes nothing but the pin; SLEEP follows with the counter in tack holdover and its TIMEBASE
event; the clocks that a sideband request started stop again; after SLEEP a released PERST_N ends the holdover with TIME_COARSE
set and its event, then the warm reset, and the slew that holdover paused resumes (notes/assumptions/120.md). -/
def Obligations.SleepAndPerst : Prop :=
  ∀ s : State,
    exec .perstNAssert s = .next { s with power := { s.power with perst := true } } ∧
    (s.power.perst = true → s.power.dev = .run →
      ∃ t, exec .sleepEntry s = .next t ∧ t.power = { s.power with dev := .sleep } ∧ t.tb = { s.tb with tackHold := true } ∧
        t = { (State.timebaseEvent 2 true { s with tb := { s.tb with tackHold := true } }) with power := t.power }) ∧
    (s.power.perst = false ∨ s.power.dev ≠ .run → exec .sleepEntry s = .next s) ∧
    exec .sidebandClockStop s = .next { s with power := { s.power with sbClocks := false } } ∧
    (s.power.perst = false → exec .perstNRelease s = .next s) ∧
    (s.power.perst = true → s.power.dev = .sleep → s.power.held = false → s.power.resetting = none → s.tb.tackHold = true →
      ∃ u, ResetEffects .warm (State.timebaseEvent 2 false { s with
          power := { s.power with perst := false, dev := .run, sbClocks := false }
          tb := { s.tb with tackHold := false, timeCoarse := true } }) u ∧
        exec .perstNRelease s = .next { (u.bootChain false) with tb := { (u.bootChain false).tb with slew := s.tb.slew } })

/-- From R61, R501, R502, R518, R523, Table 18-1: VTACK first applied sets the counter to zero, with TIME_SET clear, and leaves the
device in TACK; removed, it leaves MRAM, the boot flash and host memory as they are and nothing else; the stable oscillator is
what the release of cold reset waits for; main rails lost in RUN pass the device to TACK with the counter in tack holdover and
THERM_TRIP_N released. -/
def Obligations.Supplies : Prop :=
  ∀ s : State,
    (s.power.vtack = false →
      ∃ t, exec .vtackApplied s = .next t ∧ t.tb.now = 0 ∧ t.tb.frac = 0 ∧ t.tb.timeSet = false ∧ t.tb.timeCoarse = true ∧
        t.tb.tackHold = true ∧ t.power.vtack = true ∧ t.power.dev = .tack ∧ t = { s with tb := t.tb, power := t.power }) ∧
    (s.power.vtack = true → exec .vtackApplied s = .next s) ∧
    (∃ t, exec .vtackRemoved s = .next t ∧ t.power.dev = .off ∧ t.power.vtack = false ∧ t.keeper.slots = s.keeper.slots ∧
      (∀ off, t.reg off = if persistentOffs.contains off then s.reg off else regDefault s.iy920 off) ∧
      t.bridle = { s.bridle with
        secret := false, pufOk := false, sessions := [], ideKeys := [], recovery := false, result := 0
        meas := List.replicate 10 (List.replicate 64 0) } ∧
      t.mem.host = s.mem.host ∧ t.mem.spm = [] ∧ t.work = Work.cleared [] ∧ t.hif = ⟨[], [], [], 0, 0⟩ ∧ t.pair = Pair.reset) ∧
    (s.power.vtack = true → exec .tackOscStable s = .next { s with power := { s.power with oscStable := true } }) ∧
    (s.power.dev = .run ∨ s.power.dev = .sleep →
      ∃ t, exec .mainRailsLost s = .next t ∧ t.power.dev = .tack ∧ t.power.rails = false ∧ t.power.trip = false ∧
        t.power.ready = false ∧ t.tb = { s.tb with tackHold := true } ∧ t.work.streams = [] ∧ t.work.jobs = [] ∧
        t = { s with tb := t.tb, work := t.work, cores := t.cores, pair := t.pair, power := t.power }) ∧
    (s.power.dev ≠ .run → s.power.dev ≠ .sleep →
      exec .mainRailsLost s = .next { s with power := { s.power with rails := false, outOfOrder := false } }) ∧
    (s.power.vtack = false → exec .tackOscStable s = .next s)

/-- From R559, R560, R472: the first power-fail event (PWR_FAIL_N, or a brownout of rails 1 to 7) raises the POWER_FAIL record
with its source, drops and counts the records that wait for a buffer, sends DOWN outside fault stop, and stops everything; a
later one changes nothing; the end of the holdup drops what was not begun; release and charge only mark what R559 and R560 say.
From R468, R472: a commit begins on the oldest staged record when none is being committed; its end writes that record into slot
(SEQ − 1) mod 16,000 in place of the one the slot held, with the count of the records dropped before it, and the oldest waiting
record takes the buffer. Every other valid record stays. -/
def Obligations.PowerFailureAndCommits : Prop :=
  (∀ (s : State) (rail : Nat), s.power.dev ≠ .off → 1 ≤ rail → rail ≤ 7 →
    (s.power.powerFail = false → ∀ i src, (i = Instr.powerFailEvent ∧ src = 0) ∨ (i = Instr.brownout rail ∧ src = rail) →
      ∃ t, exec i s = .next t ∧ t.power.powerFail = true ∧ t.power.failSource = src ∧ t.power.held = true ∧
        t.power.ready = false ∧ t.keeper.holdupOk = false ∧ t.keeper.slots = s.keeper.slots ∧
        t.keeper.lost = s.keeper.lost + s.keeper.waiting.length ∧
        (∃ r ∈ t.keeper.staged ++ t.keeper.waiting, r.seq = s.keeper.lastSeq + 1 ∧ r.kind = 2 ∧
          r.body.head? = some (BitVec.ofNat 8 src)) ∧
        (s.keeper.fstop = false → ∀ b < 4, s.pair.bundles.getLsbD b = true → .flit "DOWN" [b] ∈ t.out) ∧
        t.work.streams = [] ∧ t.work.jobs = [] ∧ t.pair.bundles = 0 ∧ t.tb = s.tb ∧ t.mem = s.mem ∧ t.bridle = s.bridle) ∧
    (s.power.powerFail = true → exec .powerFailEvent s = .next s ∧ exec (.brownout rail) s = .next s) ∧
    (s.power.held = true → s.power.holdupOver = false →
      ∃ t, exec .holdupEnd s = .next t ∧ t.power.dev = .tack ∧ t.power.holdupOver = true ∧
        t.keeper.staged = (if s.keeper.busy then s.keeper.staged.take 1 else []) ∧ t.keeper.waiting = [] ∧
        t.keeper.slots = s.keeper.slots ∧ t.tb = { s.tb with tackHold := true } ∧
        t = { s with regs := t.regs, tb := t.tb, keeper := t.keeper, power := t.power }) ∧
    (s.power.held = false ∨ s.power.holdupOver = true → exec .holdupEnd s = .next s) ∧
    exec .powerFailRelease s = .next { s with power := { s.power with powerFail := false } } ∧
    (s.power.powerFail = false → ∀ ok, exec (.holdupCharge ok) s = .next { s with keeper := { s.keeper with holdupOk := ok } }) ∧
    (s.power.powerFail = true → exec (.holdupCharge true) s = .next s ∧
      exec (.holdupCharge false) s = .next { s with keeper := { s.keeper with holdupOk := false } })) ∧
  ((∀ s : State, s.keeper.staged = [] → exec .keeperCommitStart s = .next s ∧ exec .keeperCommitDone s = .next s) ∧
  ∀ (s : State) (r : KRecord) (rest : List KRecord), s.keeper.staged = r :: rest →
    (s.keeper.busy = false → exec .keeperCommitStart s = .next { s with keeper := { s.keeper with busy := true } }) ∧
    (s.keeper.busy = true → exec .keeperCommitStart s = .next s) ∧
    (s.keeper.busy = false → exec .keeperCommitDone s = .next s) ∧
    (s.keeper.busy = true →
      ∃ t, exec .keeperCommitDone s = .next t ∧ t = { s with keeper := t.keeper } ∧
        (∃ r' ∈ t.keeper.slots, r' = { r with lost := s.keeper.lost, holdup := s.power.powerFail }) ∧
        (∀ x ∈ s.keeper.slots, (x.seq - 1) % 16000 ≠ (r.seq - 1) % 16000 → x ∈ t.keeper.slots) ∧
        (∀ x ∈ t.keeper.slots, (x.seq - 1) % 16000 = (r.seq - 1) % 16000 → x.seq = r.seq) ∧
        t.keeper.busy = false ∧ t.keeper.lost = 0 ∧ t.keeper.lastSeq = s.keeper.lastSeq ∧
        t.keeper.staged = rest ++ s.keeper.waiting.take 1 ∧ t.keeper.waiting = s.keeper.waiting.drop 1))

/-- From R520, R522, R523, R501, R565: a monitor sample adds its energy and stores the averages, and capping follows PWR_LIMIT; the
die temperatures set PWR_TMAX, and TWARN follows PWR_TWARN and counts on entry; 105 °C asserts THERM_TRIP_N; loss and return of
REFCLK_M and the calibration of the tack oscillator set their status bits. -/
def Obligations.PowerAndTemperature : Prop :=
  ∀ (s : State) (r : PowerReading) (ts : List Nat) (die : Nat),
    (s.power.ready = true →
      (∃ t, exec (.powerSample r) s = .next t ∧ t = { s with regs := t.regs, power := t.power } ∧
        t.reg 0xC0008 = min (s.reg 0xC0008 + r.energy) (2 ^ 64 - 1) ∧ t.reg 0xC0010 = r.now % 2 ^ 32 ∧
        t.reg 0xC0014 = r.avg % 2 ^ 32 ∧ (∀ d < 10, t.reg (0xC0140 + 4 * d) = r.dies.getD d 0 % 2 ^ 32) ∧
        t.power = { s.power with capPower := decide (s.reg 0xC0018 < r.avg) } ∧
        t.reg 0xC0028 = (if r.capMs = true ∧ (s.reg 0xC0018 < r.avg ∨ s.power.twarn = true)
          then min (s.reg 0xC0028 + 1) (2 ^ 32 - 1) else s.reg 0xC0028)) ∧
      (∃ t, exec (.warningTemperature ts) s = .next t ∧ t = { s with regs := t.regs, power := t.power } ∧
        (∀ i < 21, t.reg (0xC00C0 + 4 * i) = ts.getD i 0 % 2 ^ 32) ∧
        (t.power.twarn = true ↔ ∃ i < 21, s.reg 0xC0020 * 10 ≤ ts.getD i 0 % 2 ^ 32) ∧
        t.power = { s.power with twarn := t.power.twarn } ∧
        t.reg 0xC0030 = (if t.power.twarn = true ∧ s.power.twarn = false
          then min (s.reg 0xC0030 + 1) (2 ^ 32 - 1) else s.reg 0xC0030))) ∧
    (s.power.ready = false → exec (.powerSample r) s = .next s ∧ exec (.warningTemperature ts) s = .next s) ∧
    (die < 21 → s.power.dev = .run ∨ s.power.dev = .sleep →
      exec (.thermTrip die) s = .next { s with power := { s.power with trip := true }, out := .pin "THERM_TRIP_N" false :: s.out }) ∧
    (s.power.dev ≠ .run → s.power.dev ≠ .sleep → exec (.thermTrip die) s = .next s) ∧
    exec .refclkMLost s = .next { s with power := { s.power with refmHold := true } } ∧
    exec .refclkMReturn s = .next { s with power := { s.power with refmHold := false } } ∧
    (s.tb.refOk = true → exec .tackCalibration s = .next { s with power := { s.power with tackCal := true } }) ∧
    (s.tb.refOk = false → exec .tackCalibration s = .next s)

/-- From R517, R463: a function-level reset of VF n outside fault stop writes its RESET record, clears its function copies and vectors
and its accounting, and resets every partition that it owns, started or not; in fault stop no partition is reset. -/
def Obligations.VfFunctionLevelReset : Prop :=
  ∀ (s : State) (n : Nat), 1 ≤ n → n ≤ s.hif.vfs → n ≤ 63 → s.power.ready = true → s.absorbs .vf = false →
    ∃ t, exec (.flrVf n) s = .next t ∧ t.keeper.lastSeq = s.keeper.lastSeq + 1 ∧ t.keeper.fstop = s.keeper.fstop ∧
      (∃ r ∈ t.keeper.staged ++ t.keeper.waiting, r.kind = 3 ∧ r.body = [3, BitVec.ofNat 8 n]) ∧
      (∀ c ∈ t.hif.funcs, c.f ≠ n) ∧ (∀ v ∈ t.hif.vectors, v.f ≠ n) ∧
      (s.keeper.fstop = true → t.work = s.work ∧ t.caches = s.caches ∧ t.cores = s.cores ∧ t.mem = s.mem) ∧
      (s.keeper.fstop = false → t.work.clients = s.clientsWithout n ∧
        (∀ p < 16, s.partFunc p = n →
          t.work.partReset.contains p = true ∧ (∀ x ∈ t.work.streams, x.part ≠ p) ∧ (∀ g ∈ t.caches.pages, g.part ≠ p)) ∧
        (∀ x ∈ s.work.streams, s.partFunc x.part ≠ n → x ∈ t.work.streams) ∧
        ∀ g ∈ s.caches.pages, s.partFunc g.part ≠ n → g ∈ t.caches.pages)

/-! ### The Bridle (17_bridle_security.md) -/

/-- From R493, R494: CHALLENGE and KEY_EXCHANGE on slot 0, the latter with fewer than 8 sessions open, and signed GET_MEASUREMENTS use one
signing index each: the reply carries the signature under the index that stood, BRD_SIGS counts, an index equal to the
reserved bound first raises the bound by 1,024, and the index advances, or sticks at 2^40 − 1 and sets ATT_EXHAUSTED. With
the indices exhausted or no device secret the request is refused with KEY_EXHAUSTED and an event, and BRD_SIG_REFUSED counts. -/
def Obligations.SignaturesUseOneIndex : Prop :=
  ∀ (s : State) (via : Transport) (idx : Nat) (nonce key : List Byte) (c : Instr), s.spdmServed via = true →
    (c = .challenge via 0 nonce ∨ c = .getMeasurements via idx true nonce ∨
      c = .keyExchange via 0 key ∧ s.bridle.sessions.length < 8) →
    (s.bridle.attExhausted = false → s.bridle.secret = true → s.reg 0xB0020 < 2 ^ 40 →
      ∃ t name msg, exec c s = .next t ∧
        t.out = .spdm name via (msg ++ Config.attSign (s.reg 0xB0020) msg) :: s.out ∧
        (c = .challenge via 0 nonce → msg = nonce ++ s.bridle.meas.flatten) ∧
        (c = .getMeasurements via idx true nonce → msg = nonce ++ s.measOf idx) ∧
        t.reg 0xB0020 = (if s.reg 0xB0020 = 2 ^ 40 - 1 then 2 ^ 40 - 1 else s.reg 0xB0020 + 1) ∧
        t.bridle.attExhausted = decide (s.reg 0xB0020 = 2 ^ 40 - 1) ∧
        t.reg 0xB0028 = (if s.reg 0xB0020 = s.reg 0xB0028 then s.reg 0xB0028 + 1024 else s.reg 0xB0028) ∧
        t.reg 0xB0030 = min (s.reg 0xB0030 + 1) (2 ^ 32 - 1) ∧
        t.bridle.sessions.length = s.bridle.sessions.length + (if c = .keyExchange via 0 key then 1 else 0) ∧
        t = { s with regs := t.regs, bridle := t.bridle, out := t.out } ∧
        (c ≠ .keyExchange via 0 key → t.bridle = { s.bridle with attExhausted := t.bridle.attExhausted })) ∧
    (s.bridle.attExhausted = true ∨ s.bridle.secret = false →
      exec c s = .next { s.bump (ctrBrd 1) with
        out := .spdm "EVENT" via [] :: .spdm "ERROR_FF_KEY_EXHAUSTED" via [] :: s.out })

/-- From R492, R494, R495, R497, R491: the requests that sign nothing. Slot 0 serves the certificate chain and the other slots
are empty; unsigned measurements answer the values as they stand; a ninth session is answered Busy; a session is kept up, ended,
or gives the IDE streams 0 to 4 their keys; over the sideband with the fast clocks off the answer is Busy, and in SLEEP the
clocks start. From R497, Table 17-8, R566: with VTACK present, in any device state, in fault stop and in recovery, the sideband
answers the identity region, the Keeper's head, a Keeper record with its valid byte, and the boot registers, and changes
nothing; the I3C target takes the dynamic address the controller assigns. From R568, R569: the nine commands of the test access
port. EXTEST, EXTEST_PULSE, EXTEST_TRAIN, CLAMP and HIGHZ decode as BYPASS unless SYS_RST_N is asserted; IDCODE answers its four
fields; the release of SYS_RST_N with one of the five loaded resets the port. Nothing outside the port changes, but the pin and
the data that go out. -/
def Obligations.RequestsAndTestPort : Prop :=
  (∀ (s : State) (via : Transport) (slot off len idx ses strm : Nat) (nonce key : List Byte),
    (s.spdmServed via = true →
      exec (.negotiateAlgorithms via) s = .next { s with out := .spdm "ALGORITHMS" via [] :: s.out } ∧
      exec (.getCertificate via 0 off len) s =
        .next { s with out := .spdm "CERTIFICATE" via ((s.certChain.drop off).take len) :: s.out } ∧
      exec (.getMeasurements via idx false nonce) s = .next { s with out := .spdm "MEASUREMENTS" via (s.measOf idx) :: s.out } ∧
      (slot ≠ 0 → ∀ c, c = .getCertificate via slot off len ∨ c = .challenge via slot nonce ∨ c = .keyExchange via slot key →
        exec c s = .next { s with out := .spdm "ERROR_INVALID_REQUEST" via [] :: s.out }) ∧
      (8 ≤ s.bridle.sessions.length →
        exec (.keyExchange via 0 key) s = .next { s with out := .spdm "ERROR_BUSY" via [] :: s.out })) ∧
    (s.power.dev = .sleep → s.power.sbClocks = false → s.power.vtack = true → s.bridle.recovery = false →
      ∀ c, c = .negotiateAlgorithms .sideband ∨ c = .getCertificate .sideband slot off len ∨ c = .challenge .sideband slot nonce ∨
          c = .getMeasurements .sideband idx true nonce ∨ c = .keyExchange .sideband slot key →
        exec c s = .next { s with power := { s.power with sbClocks := true }, out := .spdm "ERROR_BUSY" .sideband [] :: s.out }) ∧
    (s.sessionServed ses = true →
      exec (.keyUpdate ses) s = .next { s with out := .spdm "KEY_UPDATE_ACK" .doe (leBytes 4 ses) :: s.out } ∧
      exec (.spdmHeartbeat ses) s = .next { s with out := .spdm "HEARTBEAT_ACK" .doe (leBytes 4 ses) :: s.out } ∧
      exec (.sessionEnd ses) s = .next { s with
        bridle := { s.bridle with sessions := s.bridle.sessions.filter (· != ses) }
        out := .spdm "END_SESSION_ACK" .doe (leBytes 4 ses) :: s.out } ∧
      (strm ≤ 4 → ∃ t, exec (.ideKmKeyProg ses strm key) s = .next t ∧ getKey strm t.bridle.ideKeys = some key ∧
        (∀ k, k ≠ strm → getKey k t.bridle.ideKeys = getKey k s.bridle.ideKeys) ∧
        t = { s with
          bridle := { s.bridle with ideKeys := t.bridle.ideKeys }
          out := .spdm "KP_ACK" .doe (leBytes 1 strm) :: s.out })) ∧
    (s.sessionServed ses = false →
      ∀ c, c = .keyUpdate ses ∨ c = .spdmHeartbeat ses ∨ c = .sessionEnd ses ∨ c = .ideKmKeyProg ses strm key → exec c s = .next s) ∧
    exec .drbgReseed s = .next { s with
      bridle := { s.bridle with drbgRequests := 0, drbgSeeds := s.bridle.drbgSeeds + 1 } }) ∧
  (∀ (s : State) (off len seq addr : Nat), s.power.vtack = true →
    exec (.getIdentity off len) s =
      .next { s with out := .sideband "IDENTITY" (s.idnRead off (min len (65536 - off))) :: s.out } ∧
    exec .getKeeperHead s = .next { s with
      out := .sideband "KEEPER_HEAD" (leBytes 8 s.keeper.head ++ leBytes 8 s.keeper.oldest ++ leBytes 4 (s.reg 0xA0030)) :: s.out } ∧
    (∀ r, s.keeper.find seq = some r →
      exec (.getKeeper seq) s = .next { s with out := .sideband "KEEPER" (1 :: r.bytes) :: s.out }) ∧
    ((∀ r ∈ s.keeper.slots, r.seq ≠ seq) →
      exec (.getKeeper seq) s = .next { s with out := .sideband "KEEPER" (0 :: List.replicate 4096 0) :: s.out }) ∧
    exec .getBoot s = .next { s with out := .sideband "BOOT" (leBytes 4 s.brdBoot ++ leBytes 4 s.brdStatus) :: s.out } ∧
    (addr < 128 → exec (.dynamicAddressAssignment addr) s = .next { s with board := { s.board with i3cAddr := some addr } })) ∧
  (∀ s : State,
    let port (i j : TapInstr) : State := { s with board := { s.board with tap := ⟨i, j⟩ } }
    let gated (i : TapInstr) : TapInstr := if s.power.sysRst then i else .bypass
    exec .tapReset s = .next (port .idcode .idcode) ∧ exec .bypass s = .next (port .bypass .bypass) ∧
    exec .samplePreload s = .next (port .sample .sample) ∧ exec .extest s = .next (port .extest (gated .extest)) ∧
    exec .extestPulse s = .next (port .extestPulse (gated .extestPulse)) ∧
    exec .extestTrain s = .next (port .extestTrain (gated .extestTrain)) ∧
    exec .clamp s = .next (port .clamp (gated .clamp)) ∧ exec .highz s = .next (port .highz (gated .highz)) ∧
    (∃ v : Nat, v % 2 = 1 ∧ v / 2 % 2 ^ 11 = 0x4D7 ∧
      v / 2 ^ 12 % 2 ^ 16 = (if leNat (s.idnRead 8 1) % 2 = 1 then 0x0920 else 0x0940) ∧ v < 2 ^ 28 ∧
      exec .idcode s = .next { port .idcode .idcode with out := .readData (leBytes 4 v) :: s.out }) ∧
    (∃ t, exec .sysRstNRelease s = .next t ∧ t = { s with power := { s.power with sysRst := false }, board := t.board } ∧
      t.board = { s.board with tap := t.board.tap } ∧
      t.board.tap = (if s.board.tap.loaded = .idcode ∨ s.board.tap.loaded = .bypass ∨ s.board.tap.loaded = .sample
        then s.board.tap else ⟨.idcode, .idcode⟩)))

/-- From R487, R488: in a secured session SET_OWNER stores the key, or removes it when all zero, and raises the epoch, exactly when the
endorsement verifies under a role-3 certificate, names this device, has a greater epoch and, with an owner present, carries its
signature; SET_MANIFEST replaces the manifest under the tests of R487 and raises BRD_SVN_MAN, and the manifest in force
stays. A message that fails only counts in BRD_VERIFY_FAIL. -/
def Obligations.OwnerAndManifest : Prop :=
  ∀ (s : State) (ses : Nat) (e : Endorsement) (m : ManifestMsg), s.sessionServed ses = true →
    let good := certOk 3 e.vcert = true ∧ Config.xmssVerify (issuedPk e.vcert) (endorsementMsg e) e.vsig = true ∧
      e.deviceId = s.deviceId ∧ s.reg 0xB0018 < e.epoch ∧
      ∀ pk, s.bridle.owner = some pk → Config.xmssVerify pk (endorsementMsg e) e.ownerSig = true
    (good → e.epoch < 2 ^ 32 →
      exec (.setOwner ses e) s = .next { s with
        regs := putKey 0xB0018 (BitVec.ofNat 64 e.epoch) s.regs
        bridle := { s.bridle with
          owner := if (takePad 0 68 e.ownerPk).all (· == 0) then none else some (takePad 0 68 e.ownerPk) }
        out := .spdm "SET_OWNER_RSP" .doe [0] :: s.out }) ∧
    (¬ good → exec (.setOwner ses e) s =
      .next { s.bump (ctrBrd 2) with out := .spdm "SET_OWNER_RSP" .doe [1] :: s.out }) ∧
    (s.manifestOk m = true → ∃ t, exec (.setManifest ses m) s = .next t ∧
      t.bridle = { s.bridle with manifest := ⟨m.version, m.svn, m.variant, m.dieEn, m.stackEn, true⟩ } ∧
      t.reg 0xB0014 = min (max (s.reg 0xB0014) m.svn) 0xFFFFFFFF ∧ (∀ o, o ≠ 0xB0014 → t.reg o = s.reg o) ∧
      t = { s with regs := t.regs, bridle := t.bridle, out := .spdm "SET_MANIFEST_RSP" .doe [0] :: s.out }) ∧
    (s.manifestOk m = true → s.reg 0xB0014 ≤ m.svn ∧ m.deviceId = s.deviceId ∧
      ∀ d < 10, m.stackEn.getLsbD (2 * d) = m.dieEn.getLsbD d ∧ m.stackEn.getLsbD (2 * d + 1) = m.dieEn.getLsbD d) ∧
    (s.manifestOk m = false → exec (.setManifest ses m) s =
      .next { s.bump (ctrBrd 2) with out := .spdm "SET_MANIFEST_RSP" .doe [1] :: s.out })

/-! ### The Rein link and the pair (15_rein_link_pair.md) -/

/-- From R435: a bundle that trains is up, a bundle that retrains is down meanwhile and counts once in RNL_RETRAIN, and a
replayed flit counts once in RNL_REPLAY; the other bundles and every other register stay (the sticky overflow bits aside). From
R437, R439, R72: a heartbeat goes out on every bundle that is up, with a transition of REIN_HB_OUT under SB_EN, which goes on alone
in SLEEP, before READY and in a power-fail event; neither goes out in fault stop. A heartbeat received in PAIRED with the partner serving its beats is recorded; a follower that is not started loads the
master's time once, a started one slews towards it and is locked within 3 ns; one that is no follower keeps its timebase. Where
the partner's SERVICE trails by 2 beats and both are started, FENCE goes out and the pair takes over. -/
def Obligations.BundlesAndHeartbeats : Prop :=
  (∀ (s : State) (b : Nat), s.alive = true → b < 4 →
    (s.pairEn = true → s.pair.state ≠ .off →
      ∃ t, exec (.bundleTrained b) s = .next t ∧ t = { s with pair := { s.pair with bundles := t.pair.bundles } } ∧
        (∀ k < 4, t.pair.bundles.getLsbD k = (k == b || s.pair.bundles.getLsbD k)) ∧ t.linkUp = true) ∧
    (s.pair.bundles.getLsbD b = true →
      (∃ t, exec (.bundleRetrain b) s = .next t ∧
        t = { s with regs := t.regs, pair := { s.pair with bundles := t.pair.bundles } } ∧
        (∀ k < 4, t.pair.bundles.getLsbD k = (k != b && s.pair.bundles.getLsbD k)) ∧
        t.reg 0x70048 = min (s.reg 0x70048 + 1) 0xFFFFFFFF ∧ ∀ o, o ≠ 0x70048 → o ≠ 0x70060 → t.reg o = s.reg o) ∧
      (∃ t, exec (.flitReplay b) s = .next t ∧ t = { s with regs := t.regs } ∧
        t.reg 0x70044 = min (s.reg 0x70044 + 1) 0xFFFFFFFF ∧ ∀ o, o ≠ 0x70044 → o ≠ 0x70060 → t.reg o = s.reg o))) ∧
  ((∀ s : State, s.power.dev = .run → s.power.ready = true → s.keeper.fstop = false → s.power.powerFail = false →
    ∃ t, exec .heartbeatSend s = .next t ∧ t = { s with out := t.out } ∧ s.out <:+ t.out ∧
      (∀ b < 4, s.pair.bundles.getLsbD b = true →
        .flit "HEARTBEAT" [b, s.pair.state.code, b01 s.work.started, s.tb.now, s.work.served] ∈ t.out) ∧
      (s.sbEn = true → .pin "REIN_HB_OUT" true ∈ t.out) ∧
      t.out.length = s.out.length + ((List.range 4).filter fun b => s.pair.bundles.getLsbD b).length + b01 s.sbEn) ∧
  (∀ s : State, s.keeper.fstop = false → s.power.dev = .sleep ∨ s.power.dev = .run ∧ (s.power.ready = false ∨ s.power.powerFail = true) →
    exec .heartbeatSend s = .next (if s.sbEn then { s with out := .pin "REIN_HB_OUT" true :: s.out } else s)) ∧
  (∀ s : State, s.keeper.fstop = true → exec .heartbeatSend s = .next s) ∧
  ∀ (s : State) (st time service delay : Nat) (started : Bool), s.alive = true → s.linkUp = true → s.pair.state = .paired →
    (s.tb.linkLost = false → ¬ (s.work.started = true ∧ started = true ∧ service + 2 ≤ s.work.served) →
      ∃ t, exec (.heartbeat st started time service delay) s = .next t ∧
        t = { s with
          regs := t.regs, tb := t.tb
          pair := { s.pair with
            partnerState := st, partnerStarted := started, partnerService := service, linkSilent := false
            timeLoaded := t.pair.timeLoaded } } ∧
        t.reg 0x20054 = delay % 2 ^ 32 ∧
        (s.tb.pairFollow = false → t.tb = s.tb ∧ t.pair.timeLoaded = s.pair.timeLoaded) ∧
        (s.tb.pairFollow = true →
          let master : Int := (time : Int) + delay + signed 32 (s.reg 0x70010 % 2 ^ 32) / 2
          (s.work.started = false → s.pair.timeLoaded = false →
            t.tb.now = master.toNat ∧ t.tb.frac = 0 ∧ t.pair.timeLoaded = true ∧ t.tb.pairLocked = true) ∧
          (s.work.started = true ∨ s.pair.timeLoaded = true →
            t.tb = { s.tb with
              slew := clampInt ((2 ^ 31 - 1) * 2 ^ 32) ((master - s.tb.now) * 2 ^ 32)
              pairLocked := decide (((s.tb.now : Int) - master).natAbs ≤ 3)
              timeCoarse := s.tb.timeCoarse && !decide (((s.tb.now : Int) - master).natAbs ≤ 3) }))) ∧
    (s.work.started = true → started = true → service + 2 ≤ s.work.served →
      ∃ t, exec (.heartbeat st started time service delay) s = .next t ∧ t.pair.state = .takeover ∧ t.pair.path = 4 ∧
        t.tb.pairFollow = false ∧ t.pair.handback = none ∧ t.pair.mirrors = s.pair.mirrors ∧ t.work.jobs = s.work.jobs ∧
        t.caches = s.caches ∧ t.cores = s.cores ∧ t.keeper = s.keeper ∧
        ∀ b < 4, s.pair.bundles.getLsbD b = true → .flit "FENCE" [b] ∈ t.out))

/-- From Table 15-2, R443, R465: silence of the link counts in RNL_HB_LOSS and leads to DEGRADED while the sideband is watched and
alive, else to TAKEOVER under AUTO (path 3) or to ISOLATED; silence of the sideband on a silent link does the latter. FAULT and
DOWN flits lead to TAKEOVER by paths 1 and 2, LEAVE drops the mirrors held and trains again, and FENCE is a job fault of the
watchdog cause. An event that the table does not list for a state leaves the pair's state. -/
def Obligations.SilenceAndTakeover : Prop :=
  ∀ s : State, s.alive = true →
    let serving : Prop := s.pair.state = .syncing ∨ s.pair.state = .paired ∨ s.pair.state = .degraded
    let gone : PairState := if s.pairAuto then .takeover else .isolated
    (s.pair.state ≠ .off → s.pair.linkSilent = false →
      ∃ t, exec .linkSilence s = .next t ∧ t.pair.linkSilent = true ∧ t.reg 0x70040 = min (s.reg 0x70040 + 1) 0xFFFFFFFF ∧
        t.caches = s.caches ∧ t.keeper = s.keeper ∧ t.work.jobs = s.work.jobs ∧
        ((∀ x ∈ s.work.streams, x.waitId = false) → t.cores = s.cores) ∧
        (serving → s.sbEn = true → s.pair.sbAlive = true → t.pair.state = .degraded) ∧
        (serving → ¬ (s.sbEn = true ∧ s.pair.sbAlive = true) → t.pair.state = gone ∧ t.tb.pairFollow = false ∧
          (s.pairAuto = true → t.pair.path = 3)) ∧
        (¬ serving → t = { s with regs := t.regs, pair := { s.pair with linkSilent := true } })) ∧
    (s.sbEn = true →
      (∃ t, exec .sidebandSilence s = .next t ∧ t.pair.sbAlive = false ∧ t.caches = s.caches ∧ t.work.jobs = s.work.jobs ∧
        (serving → s.pair.linkSilent = true → t.pair.state = gone) ∧
        (¬ serving ∨ s.pair.linkSilent = false → t = { s with pair := { s.pair with sbAlive := false } })) ∧
      exec .reinHbInTransition s = .next { s with pair := { s.pair with sbAlive := true } }) ∧
    (∀ c n, (c = .faultFlit ∧ n = 1) ∨ (c = .downFlit ∧ n = 2) →
      (serving ∨ s.pair.state = .isolated →
        ∃ t, exec c s = .next t ∧ t.pair.state = .takeover ∧ t.pair.path = n ∧ t.pair.handback = none ∧
          t.tb.pairFollow = false ∧ t.pair.mirrors = s.pair.mirrors ∧ t.work.jobs = s.work.jobs ∧ t.caches = s.caches) ∧
      (¬ (serving ∨ s.pair.state = .isolated) → exec c s = .next s)) ∧
    (serving → ∃ t, exec .leave s = .next t ∧ t.pair.state = .training ∧ t.pair.mirrors = [] ∧ t.pair.mirPages = [] ∧
      t.tb.pairFollow = false ∧ t.work.jobs = s.work.jobs ∧ t.caches = s.caches) ∧
    (¬ serving → exec .leave s = .next s) ∧
    (s.linkUp = true →
      ∃ t, exec .fence s = .next t ∧ t.keeper.fstop = true ∧ t.keeper.cause = 4 ∧ t.keeper.lastSeq = s.keeper.lastSeq + 1 ∧
        (∃ r ∈ t.keeper.staged ++ t.keeper.waiting, r.kind = 1 ∧ r.seq = s.keeper.lastSeq + 1 ∧ r.body.take 2 = [4, 3]) ∧
        t.work.jobs = [] ∧ t.work.streams = [] ∧ t.work.moves = [] ∧ t.pair.mirrors = [] ∧
        (∀ b < 4, s.pair.bundles.getLsbD b = true → .flit "FAULT" [b] ∈ t.out) ∧
        t.caches = s.caches ∧ t.tb = s.tb ∧ t.power = s.power)

/-- From Tables 15-2, 15-4 and 15-5, R452: the PF sets EN in OFF and the pair trains; it clears EN and, outside OFF, the mirrors are
dropped and the pair is OFF; it writes 1 to RNL_TAKEOVER in ISOLATED and the pair takes over by path 5, any other such
write being ignored and counted. GO of RNL_HANDBACK starts a hand-back in PAIRED when every stream of the group is covered and
none names a source outside it, and else sets ERR and moves nothing; a HANDOVER goes out when the group's chunks have ended and
their hand-offs have committed, and one received puts the group in line for promotion. -/
def Obligations.PairRegisters : Prop :=
  ∀ (s : State) (v : Word) (g : Nat), PfServed s →
    (s.pair.state = .off →
      ∃ t, exec (.pairEnable 0 v) s = .next t ∧ t.pair = { s.pair with state := .training } ∧ nbits (t.reg 0x70000) 0 1 = 1 ∧
        nbits (t.reg 0x70000) 2 1 = bits v 2 1 ∧ nbits (t.reg 0x70000) 4 1 = bits v 4 1 ∧
        (s.work.started = true → nbits (t.reg 0x70000) 8 8 = nbits (s.reg 0x70000) 8 8) ∧
        (s.work.started = false → nbits (t.reg 0x70000) 8 8 = bits v 8 8) ∧
        t = { s with regs := t.regs, tb := t.tb, hif := t.hif, mem := t.mem, work := t.work, pair := t.pair, out := t.out }) ∧
    (s.pair.state ≠ .off →
      ∃ t, exec (.pairLeave 0 v) s = .next t ∧ t.pair.state = .off ∧ t.pair.mirrors = [] ∧ t.pair.mirPages = [] ∧
        t.pair.bundles = 0 ∧ t.pair.refuse = 0 ∧ t.tb.pairFollow = false ∧ nbits (t.reg 0x70000) 0 1 = 0 ∧
        t.work.jobs = s.work.jobs ∧ t.caches = s.caches ∧ t.cores = s.cores ∧ t.keeper = s.keeper ∧
        (s.pair.state ≠ .refused → ∀ b < 4, s.pair.bundles.getLsbD b = true → .flit "LEAVE" [b] ∈ t.out)) ∧
    (s.pair.state = .isolated →
      ∃ t, exec (.rnlTakeover 0 1) s = .next t ∧ t.pair.state = .takeover ∧ t.pair.path = 5 ∧ t.pair.handback = none ∧
        t.tb.pairFollow = false ∧ t.pair.mirrors = s.pair.mirrors ∧ t.work.jobs = s.work.jobs ∧ t.caches = s.caches) ∧
    (v ≠ 1 ∨ s.pair.state ≠ .isolated → exec (.rnlTakeover 0 v) s = .next (s.ignore .rnl)) ∧
    (v.getLsbD 31 = true →
      let mine := s.work.streams.filter fun x => x.rg == bits v 0 10
      let may := s.pair.state = .paired ∧ s.pair.handback = none ∧ (∀ x ∈ mine, x.mirrored = true) ∧
        ∀ x ∈ mine, x.inkind = 3 → ∀ y, x.source = some y → ∃ z ∈ mine, z.id = y
      (may → exec (.handback 0 v) s = .next { s with
        regs := putKey 0x70018 (BitVec.ofNat 64 (bits v 0 10)) s.regs
        pair := { s.pair with handback := some ⟨bits v 0 10, false, false⟩ } }) ∧
      (¬ may → exec (.handback 0 v) s = .next { s with
        regs := putKey 0x70018 (BitVec.ofNat 64 (bits v 0 10 + 2 ^ 29)) s.regs })) ∧
    (s.alive = true → s.pair.state = .paired →
      exec (.handoverReceived g) s = .next { s with
        pair := { s.pair with handovers := s.pair.handovers.filter (· != g) ++ [g] } } ∧
      ∀ h, s.pair.handback = some h → h.stopped = true → h.sent = false →
        ((∀ x ∈ s.work.streams, x.rg = h.rg → x.decided = false ∧ x.outHand = 0) →
          ∃ t, exec .handoverSend s = .next t ∧
            t = { s with pair := { s.pair with handback := some { h with sent := true } }, out := t.out } ∧
            ∀ b < 4, s.pair.bundles.getLsbD b = true → .flit "HANDOVER" [b, h.rg] ∈ t.out) ∧
        ((∃ x ∈ s.work.streams, x.rg = h.rg ∧ (x.decided = true ∨ x.outHand ≠ 0)) → exec .handoverSend s = .next s))

/-- From R438, R439, R449: the exchange over a link that is up. In TRAINING a refusal sets REFUSE and the pair is REFUSED; without one
the pair synchronises: the survivor of a takeover, else the started device, is the time master, with both or neither started the
one with MASTER, the other follows, and every open stream with a pool at the partner has its hand-off issued with all its tiles marked. SOLO, DEGRADED and ISOLATED
synchronise the same way. -/
def Obligations.PairForms : Prop :=
  ∀ (s : State) (p : PartnerInfo), s.alive = true → s.linkUp = true →
    (s.pair.state = .training → s.refusal p ≠ 0 →
      ∃ t, exec (.pairExchange p) s = .next t ∧ t.pair.state = .refused ∧ t.pair.refuse = s.refusal p ∧
        t.work.jobs = s.work.jobs ∧ t.caches = s.caches) ∧
    (p.variant ≠ s.bridle.inForce.variant → s.refusal p = 1) ∧
    (p.variant = s.bridle.inForce.variant → p.period ≠ s.reg 0x30010 % 2 ^ 32 ∨ p.epoch ≠ s.epoch → s.refusal p = 2) ∧
    (s.refusal p = 0 → (∀ i ∈ p.openIds, s.stream? i = none) ∧ p.proto = s.bridle.pairProto) ∧
    (s.pair.state = .training ∨ s.pair.state = .solo ∨ s.pair.state = .degraded ∨ s.pair.state = .isolated → s.refusal p = 0 →
      ∃ t, exec (.pairExchange p) s = .next t ∧ (t.pair.state = .syncing ∨ t.pair.state = .paired) ∧
        t.pair.refuse = 0 ∧ t.pair.partner = some p ∧
        t.pair.timeMaster =
          (s.pair.state == .solo || (if s.work.started = p.started then s.pairMaster else s.work.started)) ∧
        t.tb.pairFollow = !t.pair.timeMaster ∧ t.pair.mirrors = s.pair.mirrors ∧ t.work.jobs = s.work.jobs ∧
        (s.pair.state = .training → ∀ i x, s.stream? i = some x → x.state ≠ .opening → x.state ≠ .closing →
          (∃ y ∈ p.pools, y.1 = x.part) →
            (i, x.seq) ∈ t.pair.outbound ∧ ∃ y, t.stream? i = some y ∧ y.record.chg = tileMask x.record.tiles ∧
              y.record.mirRead = true))

/-- From R441, R446, R449: the answer to an announced OPEN; what the partner's answer does to a waiting OPEN; a hand-off that the pool
holds is committed at once, replaces the tiles it carries and no others, and is answered, one that it does not waits;
the commit of the oldest hand-off outstanding covers its stream; a drop notice takes the mirrors of one partition and uncovers
its streams. -/
def Obligations.PairCarriesStreams : Prop :=
  ∀ (s : State) (id part tiles : Nat) (h : HandoffMsg), s.alive = true → s.pair.state = .paired →
    (∃ t, exec (.openIdConfirm id part tiles) s = .next t ∧ t = { s with pair := t.pair, out := t.out } ∧
      let idFree := s.stream? id = none ∧ id < s.liveLimit
      let room := s.partStarted part = true ∧ s.mirUsed part + tiles * 16384 ≤ s.mirMib part * 2 ^ 20
      (idFree → room → (id, part, tiles) ∈ t.pair.reserved ∧
        ∀ b < 4, s.pair.bundles.getLsbD b = true → .flit "ID_ANSWER" [b, id, 1, 1] ∈ t.out) ∧
      (idFree → ¬ room → t.pair = s.pair ∧ ∀ b < 4, s.pair.bundles.getLsbD b = true → .flit "ID_ANSWER" [b, id, 1, 0] ∈ t.out) ∧
      (¬ idFree → t.pair = s.pair ∧ ∀ b < 4, s.pair.bundles.getLsbD b = true → .flit "ID_ANSWER" [b, id, 0, 0] ∈ t.out)) ∧
    (∀ x, s.stream? id = some x → x.waitId = true →
      exec (.idConfirmed id false true) s = .next (s.refuseOpen id stBusy) ∧
      (s.partnerPool x.part = true → exec (.idConfirmed id true false) s = .next (s.refuseOpen id stNoResource)) ∧
      ∃ t, exec (.idConfirmed id true true) s = .next t ∧ t = { s with work := { s.work with streams := t.work.streams } } ∧
        t.stream? id = some { x with waitId := false } ∧ ∀ k, k ≠ id → t.stream? k = s.stream? k) ∧
    (s.pair.inbound = [] → s.handoffFits h = true →
      ∃ t, exec (.handoff h) s = .next t ∧ t = { s with pair := t.pair, out := t.out } ∧ t.pair.inbound = [] ∧
        (∃ m ∈ t.pair.mirrors, m.stream = h.stream ∧ m.seq = h.seq ∧ m.desc = h.desc ∧
          (∀ i b, (i, b) ∈ h.tiles → (h.tiles.map (·.1)).Nodup → getKey i m.tiles = some b) ∧
          ∀ i, (∀ b, (i, b) ∉ h.tiles) →
            getKey i m.tiles = (s.pair.mirrors.find? fun y => y.stream == h.stream).bind fun y => getKey i y.tiles) ∧
        (∀ m, m.stream ≠ h.stream → (m ∈ t.pair.mirrors ↔ m ∈ s.pair.mirrors)) ∧
        ∀ b < 4, s.pair.bundles.getLsbD b = true → .flit "COMMITTED" [b, h.stream, h.seq] ∈ t.out) ∧
    (s.pair.inbound = [] → s.handoffFits h = false →
      exec (.handoff h) s = .next { s with pair := { s.pair with inbound := [h] } }) ∧
    (∀ q rest x, s.pair.outbound = (id, q) :: rest → s.stream? id = some x → x.heldComp = [] →
      ∃ t, exec (.handoffCommitted id q) s = .next t ∧ t = { s with pair := { s.pair with outbound := rest }, work := t.work } ∧
        t.stream? id = some { x with mirrored := true, outHand := x.outHand - 1 } ∧ ∀ k, k ≠ id → t.stream? k = s.stream? k) ∧
    (∃ t, exec (.mirrorDropNotice part) s = .next t ∧
      t.pair.mirrors = s.pair.mirrors.filter (fun m => m.desc.part != part) ∧ t.pair.state = .paired ∧
      (∀ x ∈ t.work.streams, x.part = part → x.mirrored = false ∧ x.outHand = 0) ∧
      (∀ k x, s.stream? k = some x → (∀ y ∈ s.work.streams, y.part = part → y.id ≠ k) → t.stream? k = some x) ∧
      t.work.jobs = s.work.jobs ∧ t.caches = s.caches)

/-- From R445: a partner access of a paired device. A read of SPM rows that open windows of SRC 2 hold answers them, an access to HBM is
served within an open window of Table 15-6, a write to SPM lands row by row under R280; every other read answers zeros, every
other write changes no memory, and each counts in RNL_WIN_IGN. Corrected errors of a read count (R293, R297). Without a pair nothing
happens. Where a write lands, no instruction of any core waits for its rows. -/
def Obligations.PartnerAccess : Prop :=
  ∀ (s : State) (r : PartnerReq) (u : Upset), u.uncorr = none → u.badTile = none →
    (s.pair.state ≠ .syncing → s.pair.state ≠ .paired → exec (.partnerAccess r u) s = .next s) ∧
    (s.alive = true → s.pair.state = .paired →
      let n := if r.write then r.bytes.length else r.len
      let rows (c b : Nat) : Prop := ∀ i, b / 512 ≤ i → i * 512 < b + n → ∃ w ∈ (s.core c).windows, w.holds i = true ∧ w.src = 2
      let still : Prop := ∀ k ∈ s.cores, k.flights = []
      (∀ c b, s.locate r.addr n = some (.spm c b) → r.write = false → rows c b →
        exec (.partnerAccess r u) s = .next { s.corrected u with out := .readData (s.spmRead c b n) :: s.out }) ∧
      (∀ c b, s.locate r.addr n = some (.spm c b) → r.write = true → 0 < n → b % 512 + n ≤ 512 → rows c b → still →
        ∃ t, exec (.partnerAccess r u) s = .next t ∧ t = { s with mem := t.mem, cores := t.cores } ∧
          t.mem = { s.mem with spm := t.mem.spm } ∧ t.spmRead c b n = r.bytes ∧
          ∀ a, a < c * 2 ^ 23 + b ∨ c * 2 ^ 23 + b + n ≤ a →
            t.mem.spm.byte (fun _ => 0) a = s.mem.spm.byte (fun _ => 0) a) ∧
      (∀ c b, s.locate r.addr n = some (.spm c b) → r.write = true → 0 < n → still →
        (∀ w ∈ (s.core c).windows, w.isOpen = true → w.src ≠ 2) →
        ∃ t, exec (.partnerAccess r u) s = .next t ∧ t = { s with regs := t.regs } ∧
          t.reg 0x7004C = min (s.reg 0x7004C + 1) 0xFFFFFFFF) ∧
      (∀ d o, s.locate r.addr n = some (.die d o) → s.hwinAdmits r n = true →
        (r.write = false →
          exec (.partnerAccess r u) s = .next { s.corrected u with out := .readData (s.dieRead d o n) :: s.out }) ∧
        (r.write = true → exec (.partnerAccess r u) s = .next (s.dieWrite d o r.bytes))) ∧
      ((∀ c b, s.locate r.addr n = some (.spm c b) → r.write = false ∧ ¬ rows c b) →
        (∀ d o, s.locate r.addr n = some (.die d o) → s.hwinAdmits r n = false) →
        (∀ k b, s.locate r.addr n = some (.stack k b) → s.hwinAdmits r n = false) →
        ∃ t, exec (.partnerAccess r u) s = .next t ∧ t = { s with regs := t.regs, out := t.out } ∧
          t.out = (if r.write then s.out else .readData (List.replicate n 0) :: s.out) ∧
          t.reg 0x7004C = min (s.reg 0x7004C + 1) 0xFFFFFFFF))

/-- From R280, R281, R297, R549 to R552: BAR2. A read of a slice, or of HBM through a window that is open, completes with the bytes there, and
the corrected errors it meets count; one that meets an uncorrectable error in the rows it reads returns a poisoned completion and is a job
fault of cause 2. A write of HBM stores its bytes; a write within a row of a slice lands where an open window of SRC 3 holds the row, no
other byte changing, and is ignored and counted in COR_SPM_WIN_IGN where none does. An access outside every slice and window reads
zeros, stores nothing and counts. Where a write lands, no instruction of any core waits for its rows. -/
def Obligations.HostApertures : Prop :=
  ∀ (s : State) (off n : Nat) (bs : List Byte) (u : Upset), PfServed s →
    let c := off / 2 ^ 23
    let b := off % 2 ^ 23
    let w := s.reg (0x50600 + 8 * (off / 2 ^ 32 - 1))
    let space := w / 2 ^ 60
    let a := w / 2 ^ 32 * 2 ^ 32 + off % 2 ^ 32
    let far : Prop := 2 ^ 32 ≤ off ∧ off < 2 ^ 36 ∧ w % 2 = 1 ∧ (space = 1 ∨ space = 2)
    let still : Prop := ∀ k ∈ s.cores, k.flights = []
    (off < 0x50000000 → s.coreOn c = true → b + n ≤ 12288 * 512 →
      (u.uncorr = none →
        exec (.bar2Read off n u) s = .next { s.corrected u with out := .readData (s.spmRead c b n) :: s.out }) ∧
      (∀ x, u.uncorr = some (1, x) → c * 2 ^ 23 + b ≤ x → x < c * 2 ^ 23 + b + n →
        ∃ t, exec (.bar2Read off n u) s = .next t ∧ Faulted 2 1 s t ∧ t.out.head? = some .poisoned)) ∧
    (off < 0x50000000 → s.coreOn c = true → 0 < bs.length → b % 512 + bs.length ≤ 512 → b + bs.length ≤ 12288 * 512 → still →
      ((∃ y ∈ (s.core c).windows, y.holds (b / 512) = true ∧ y.src = 3) →
        ∃ t, exec (.bar2Write off bs) s = .next t ∧ t = { s with mem := t.mem, cores := t.cores } ∧
          t.mem = { s.mem with spm := t.mem.spm } ∧ t.spmRead c b bs.length = bs ∧
          (∀ x, x < c * 2 ^ 23 + b ∨ c * 2 ^ 23 + b + bs.length ≤ x →
            t.mem.spm.byte (fun _ => 0) x = s.mem.spm.byte (fun _ => 0) x) ∧
          (t.core c).windows = (s.core c).windows.map fun y =>
            if y.holds (b / 512) = true ∧ y.src = 3 then { y with landed := min 16383 (y.landed + 1) } else y) ∧
      ((∀ y ∈ (s.core c).windows, y.holds (b / 512) = true → y.src ≠ 3) →
        exec (.bar2Write off bs) s = .next (s.bump (ctrSpm c 2)))) ∧
    (far → off % 2 ^ 32 + n ≤ 2 ^ 32 → u.uncorr = none → ∀ l, s.locate a n = some l →
      exec (.bar2Read off n u) s = .next { s.corrected u with out := .readData (s.readLoc l n) :: s.out }) ∧
    (far → off % 2 ^ 32 + bs.length ≤ 2 ^ 32 → ∀ l, s.locate a bs.length = some l → exec (.bar2Write off bs) s = .next (s.writeLoc l bs)) ∧
    ((off < 0x50000000 ∧ s.coreOn c = false) ∨ (0x50000000 ≤ off ∧ ¬ far) →
      exec (.bar2Read off n u) s = .next { s.ignore .mem with out := .readData (List.replicate n 0) :: s.out } ∧
      exec (.bar2Write off bs) s = .next (s.ignore .mem))

/-! ### The host interface (14_host_rings.md) -/

/-- From R403, R405 to R408, R428, R429: a kick by the function the group is bound to makes a fetch due, one by another function is
ignored and counted. A doorbell fetch makes the host's writes visible; with a kick due it reads the lines, and a descriptor that
ring 0's line covers is fetched from its ring entry; with nothing due and nothing left to fetch it changes nothing else, but that
what the host has configured takes effect (VFs, masks, link: R395, R427, notes/assumptions/10.md). USEC
after the first pending entry of a vector the vector fires: its counts restart, and it sends a message or, masked, sets its
pending bit. -/
def Obligations.RingsAreFetched : Prop :=
  ∀ (s : State) (g f : Nat) (h : HostDelta) (e : Bool), s.alive = true → (s.rg g).en = true →
    let r := s.rg g
    let m : State := { s with mem := { s.mem with
      host := h.writes.foldl (fun a w => a.write w.1 w.2) s.mem.host, hostFail := h.failing } }
    let line (k : Nat) : Nat := leNat (m.hostRead (r.dbl.toNat + 64 * k) 2)
    (s.busUp f = true → g < 1024 →
      (s.partFunc r.part = f → ∃ t, exec (.hifKick f g) s = .next t ∧ t = { s with hif := { s.hif with rgs := t.hif.rgs } } ∧
        t.rg g = { r with kickDue := true } ∧ ∀ k, k ≠ g → t.rg k = s.rg k) ∧
      (s.partFunc r.part ≠ f → exec (.hifKick f g) s = .next (s.ignore .hif))) ∧
    (r.kickDue = false → r.beatDue = false → (∀ k < 3, r.producer.getD k 0 = r.fetched.getD k 0) →
      (h.config = none → exec (.doorbellFetch g h) s = .next { m with work := { s.work with
        served := if s.hif.rgs.any (fun q => q.en && q.beatDue) then s.work.served else s.work.beat.getD s.work.served } }) ∧
      ∀ c, h.config = some c → ∃ t, exec (.doorbellFetch g h) s = .next t ∧ t.hif.vfs = min c.vfs 63 ∧ t.hif.link = c.link % 64 ∧
        (∀ p ∈ c.masks, ∃ v ∈ t.hif.vectors, v.f = p.1 ∧ v.vec = p.2 ∧ v.masked = true) ∧
        (∀ v ∈ t.hif.vectors, (v.f, v.vec) ∉ c.masks → v.masked = false) ∧ t.hif.rgs = s.hif.rgs ∧ t.mem = m.mem) ∧
    (∀ f0 f1 f2 p0 p1 p2 : Nat, h.config = none → r.kickDue = true → r.stopped = 0 → h.failing = [] → s.ideHeld = false → r.cmds.length < 256 → f0 < 2 ^ 16 →
      r.fetched = [f0, f1, f2] → r.producer = [p0, p1, p2] → line 0 = (f0 + 1) % 2 ^ 16 → line 1 = f1 → line 2 = f2 →
        let d : Desc := ⟨f0, wordsOf (m.hostRead (r.base 0 + 64 * (f0 % r.entries 0)) 64), false⟩
        ringAccepts 0 d.opc = true →
          ∃ t, exec (.doorbellFetch g h) s = .next t ∧ t.mem = m.mem ∧ t = { s with mem := t.mem, hif := t.hif, work := t.work } ∧
            (t.rg g).cmds = r.cmds ++ [d] ∧ (t.rg g).fetched = [(f0 + 1) % 2 ^ 16, f1, f2] ∧ (t.rg g).chunks = r.chunks ∧
            (t.rg g).outs = r.outs ∧ (t.rg g).posted = r.posted ∧ (t.rg g).kickDue = false ∧ (t.rg g).evConsumer = line 3 ∧
            (∀ k, k ≠ g → t.rg k = s.rg k) ∧ t.work = { s.work with served := t.work.served }) ∧
    (let v := if e then bits r.vec 8 5 else bits r.vec 0 5
     let k := s.partFunc r.part
     let find (u : State) := u.hif.vectors.find? fun x => x.f == k && x.vec == v
     let w := (find s).getD ⟨k, v, false, false, 0⟩
     (∀ t0, (if e then r.firstE else r.firstC) = some t0 → 0 < bits r.modr 8 16 →
       ∃ t, exec (.moderationTimer g e) s = .next t ∧ t = { s with free := t.free, tb := t.tb, hif := t.hif, out := t.out } ∧
         t.rg g = (if e then { r with pendE := 0, firstE := none } else { r with pendC := 0, firstC := none }) ∧
         find t = some (if w.masked then { w with pendingBit := true } else { w with fired := w.fired + 1 }) ∧
         t.out = (if w.masked then s.out else .message k v :: s.out) ∧ ∀ j, j ≠ g → t.rg j = s.rg j) ∧
     ((if e then r.firstE else r.firstC) = none ∨ bits r.modr 8 16 = 0 → exec (.moderationTimer g e) s = .next s))

/-- From R47, R95, R106, R403, R417, R418, R421 to R424: what becomes of a chunk descriptor (the order of the tests is the spec's): it is
refused with the status the stream's state gives it, stays while the stream opens, or joins the chunks that wait; a feature
or token chunk with a free half is written there at once. A buffer descriptor of a wrong length is refused; a good one joins the
pool, or takes the output that waits, whose bytes it then holds and whose completion is posted. -/
def Obligations.ChunksAndBuffers : Prop :=
  ∀ (s : State) (g d : Nat) (x : Desc), s.alive = true → (s.rg g).en = true →
    ((s.rg g).chunks.find? (fun y => y.didx == d) = some x →
      (∀ y ∈ (s.rg g).chunks.takeWhile (fun y => y.didx != d), y.stream ≠ x.stream) →
        (s.stream? x.stream = none → exec (.chunk g d) s = .next (s.refuseChunk g x stNotOpen)) ∧
        ∀ st, s.stream? x.stream = some st → x.stream < s.liveLimit →
          let c := x.chunk st
          (st.state = .closing → exec (.chunk g d) s = .next (s.refuseChunk g x stNotOpen)) ∧
          (st.state ≠ .closing → st.rg ≠ g → exec (.chunk g d) s = .next (s.refuseChunk g x stNotOwner)) ∧
          (st.rg = g → st.state = .opening → exec (.chunk g d) s = .next s) ∧
          (st.rg = g → st.state = .paused → exec (.chunk g d) s = .next (s.refuseChunk g x stPausedDrop)) ∧
          (st.rg = g → st.state ≠ .closing → st.state ≠ .opening → st.state ≠ .paused → st.handback = false →
            let left : RingGroup := { s.rg g with chunks := (s.rg g).chunks.filter fun y => y.didx != d }
            (s.chunkBad st c = true → exec (.chunk g d) s = .next (s.refuseChunk g x stBadField)) ∧
            (s.chunkBad st c = false → 16 ≤ s.heldChunks st →
              exec (.chunk g d) s = .next (s.refuseChunk g x stNoResource)) ∧
            (s.chunkBad st c = false → s.heldChunks st < 16 → st.inkind = 0 → st.id = x.stream →
              ∃ t, exec (.chunk g d) s = .next t ∧ t = { s with hif := t.hif, work := t.work } ∧ t.rg g = left ∧
                t.stream? st.id = some { st with waiting := st.waiting ++ [c] } ∧ ∀ k, k ≠ st.id → t.stream? k = s.stream? k) ∧
            (s.chunkBad st c = false → s.heldChunks st < 16 → st.inkind = 1 ∨ st.inkind = 2 → st.id = x.stream →
              (∀ y ∈ st.waiting, y.ready = true ∧ y.didx ≠ x.didx) → st.halves.getD (st.chunkNo % 2) false = false →
              s.hostFails c.buf c.bytes = false →
                let a := s.halfAddr st (st.chunkNo % 2)
                ∃ t, exec (.chunk g d) s = .next t ∧ t = { s with hif := t.hif, work := t.work, mem := t.mem } ∧ t.rg g = left ∧
                  t.mem = (s.spmWrite (a / 2 ^ 23) (a % 2 ^ 23) (s.inputBytes st c)).mem ∧
                  t.stream? st.id = some { st with
                    waiting := st.waiting ++ [{ c with ready := true, half := some (st.chunkNo % 2) }]
                    chunkNo := st.chunkNo + 1, halves := updAt (st.chunkNo % 2) (fun _ => true) st.halves } ∧
                  ∀ k, k ≠ st.id → t.stream? k = s.stream? k))) ∧
    (∀ rest, (s.rg g).outs = x :: rest → x.didx = d →
      let len := bits (x.w 4) 0 24
      (len % 64 ≠ 0 ∨ len < 64 ∨ 16777152 < len →
        exec (.outputBuffer g d) s = .next ((s.updRg g fun r => { r with outs := rest }).complete g 2 x stBadField 0 [])) ∧
      (len % 64 = 0 → 64 ≤ len → len ≤ 16777152 →
        ((∀ y ∈ s.work.streams, y.rg = g → y.outQ = []) →
          ∃ t, exec (.outputBuffer g d) s = .next t ∧ t = { s with hif := { s.hif with rgs := t.hif.rgs } } ∧
            t.rg g = { s.rg g with outs := rest, pool := (s.rg g).pool ++ [⟨d, x.tag, x.irq, x.d64 2, len⟩] } ∧
            ∀ k, k ≠ g → t.rg k = s.rg k) ∧
        (∀ y o, s.work.streams.filter (fun y => y.rg == g && !y.outQ.isEmpty) = [y] → s.stream? y.id = some y → y.outQ = [o] →
          (s.rg g).pool = [] → o.bytes.length ≤ len → s.hostFails (x.d64 2) o.bytes.length = false → s.holdsComp y o.seq = false →
            exec (.outputBuffer g d) s = .next
              (((((s.updRg g fun r => { r with outs := rest, pool := [] }).hostWrite (x.d64 2) o.bytes).updStream y.id
                fun z => { z with outQ := z.outQ.drop 1 }).postRaw g 2
                  (compWords 0x50 stOK y.id x.tag d (o.flags % 2 ^ 16)
                    [BitVec.ofNat 32 (o.bytes.length % 2 ^ 24 + (o.okind % 16) * 2 ^ 24 + o.part * 2 ^ 28),
                     BitVec.ofNat 32 o.lateness, BitVec.ofNat 32 o.time, BitVec.ofNat 32 (o.time / 2 ^ 32)])
                  (o.seq % 2 ^ 31) x.irq)))))

/-! ### Commands of the command ring (14_host_rings.md, Tables 14-6 and 14-7) -/

/-- From R402, R409, R410, R412: NOP completes with OK. Its completion entry goes to the next completion index of ring 0: words 0 to 6
and word 7 with PHASE, and no other byte of host memory changes. Every command that needs its partition started (TENSOR_MOVE:
not started) and finds it otherwise completes with WRONG_STATE and no effect; one that has started, or that an earlier command
of the ring holds, changes nothing. -/
def Obligations.CommandsComplete : Prop :=
  ∀ (s : State) (g d row : Nat) (pl : Placement) (u : Upset) (x : Desc),
    let all : List (Nat × Instr) :=
      [(0x01, .cmdOpen g d pl), (0x02, .cmdClose g d), (0x03, .cmdPause g d), (0x04, .cmdResume g d), (0x05, .cmdReset g d),
       (0x06, .cmdStreamCtl g d), (0x07, .cmdQuery g d), (0x08, .cmdStateRead g d u), (0x09, .cmdStateWrite g d),
       (0x10, .cmdModelLoad g d), (0x11, .cmdModelUnload g d), (0x12, .cmdGroupCtl g d), (0x13, .cmdWeightPin g d),
       (0x18, .cmdPrefix g d), (0x19, .cmdSkvCtl g d), (0x1A, .cmdRegionPin g d), (0x1B, .cmdWindow g d),
       (0x1C, .cmdTensorMove g d row u), (0x1F, .cmdNop g d)]
    (∀ p ∈ all, CmdReady p.1 g d x s → p.1 ≠ 0x1A → p.1 ≠ 0x1F → (p.1 = 0x1C ↔ s.partStarted (s.rg g).part = true) →
      exec p.2 s = .next (cmdDone g x stWrongState [] s)) ∧
    (∀ p ∈ all, (s.rg g).cmds.find? (fun y => y.didx == d) = some x → x.started = true ∨ (s.rg g).ready x = false →
      exec p.2 s = .next s) ∧
    (CmdReady 0x1F g d x s →
      exec (.cmdNop g d) s = .next (cmdDone g x stOK [] s) ∧
      let r := s.rg g
      let n := r.posted.getD 0 0
      let a := r.base 0 + 64 * r.entries 0 + 32 * (n % r.entries 0)
      let t := cmdDone g x stOK [] s
      (s.hostFails a 32 = false →
        t.hostRead a 32 = bytesOfWords
          [BitVec.ofNat 32 (x.opc % 256 + (x.stream % 2 ^ 14) * 2 ^ 16), x.tag, BitVec.ofNat 32 (x.didx % 2 ^ 16), 0, 0, 0, 0,
           BitVec.ofNat 32 (if n / r.entries 0 % 2 = 0 then 2 ^ 31 else 0)] ∧
        ∀ b, b < a ∨ a + 32 ≤ b → t.hostRead b 1 = s.hostRead b 1) ∧
      (s.hostFails a 32 = true → t.mem = s.mem) ∧
      (t.rg g).posted = updAt 0 (· + 1) r.posted ∧ (t.rg g).cmds = r.cmds.filter (fun y => y.didx != d) ∧
      t = { s with hif := t.hif, mem := t.mem, out := t.out } ∧ t.mem = { s.mem with host := t.mem.host })

/-- From R3, R45 to R51, R415, Tables 2-3, 2-4, 14-10: the commands that name a stream. A CLOSED or CLOSING stream answers NOT_OPEN and one of
another ring group NOT_OWNER, with no effect (QUERY of a CLOSED one answers OK). RESET marks the next launch, which may be decided
already. PAUSE and CLOSE
wait for a running chunk; else the stream is PAUSED, or CLOSING, with no chunk waiting, and PAUSE has completed where none
waited; CLOSE of a source that a stream still names is refused. RESUME waits for the beat boundary. STREAM_CTL changes what
its item says. -/
def Obligations.StreamCommands : Prop :=
  ∀ (s : State) (g d : Nat) (x : Desc) (u : Upset), s.partStarted (s.rg g).part = true →
    let put (f : Stream → Stream) : State := s.updStream x.stream f
    (∀ p ∈ [(2, Instr.cmdClose g d), (3, .cmdPause g d), (4, .cmdResume g d), (5, .cmdReset g d), (6, .cmdStreamCtl g d),
        (8, .cmdStateRead g d u), (9, .cmdStateWrite g d)], CmdReady p.1 g d x s →
      (s.liveLimit ≤ x.stream ∨ s.stream? x.stream = none → exec p.2 s = .next (cmdDone g x stNotOpen [] s)) ∧
      ∀ st, s.stream? x.stream = some st → x.stream < s.liveLimit →
        (st.state = .closing → exec p.2 s = .next (cmdDone g x stNotOpen [] s)) ∧
        (st.state ≠ .closing → st.rg ≠ g → exec p.2 s = .next (cmdDone g x stNotOwner [] s))) ∧
    (CmdReady 7 g d x s → x.stream < s.liveLimit →
      (s.stream? x.stream = none → exec (.cmdQuery g d) s = .next (cmdDone g x stOK [] s)) ∧
      ∀ st, s.stream? x.stream = some st →
        exec (.cmdQuery g d) s = .next (if st.rg = g then cmdDone g x stOK st.queryWords s else cmdDone g x stNotOwner [] s)) ∧
    ∀ st, s.stream? x.stream = some st → x.stream < s.liveLimit → st.state ≠ .closing → st.rg = g →
      (CmdReady 5 g d x s →
        (s.nextLaunch x.stream = none →
          exec (.cmdReset g d) s = .next (cmdDone g x stOK [] (put fun y => { y with resetMark := true }))) ∧
        ∀ j, s.nextLaunch x.stream = some j → ∃ t k y, exec (.cmdReset g d) s = .next t ∧ t.job? j.id = some k ∧
          (∀ r ∈ k.rows, r.stream = x.stream → r.cmdMark = true ∧ 0 ∈ r.marks) ∧
          t.stream? x.stream = some y ∧ y.resetMark = st.resetMark ∧ y.record = st.record ∧ y.seq = st.seq ∧
          ∀ c ∈ (t.rg g).cmds, c.didx ≠ d) ∧
      (CmdReady 4 g d x s →
        exec (.cmdResume g d) s = .next (if st.state = .paused then
          (cmdStarted g d s).updStream x.stream fun y => { y with cmd := some (4, g, d) } else cmdDone g x stOK [] s)) ∧
      (CmdReady 3 g d x s →
        (st.state = .paused → exec (.cmdPause g d) s = .next (cmdDone g x stOK [] s)) ∧
        (st.state = .armed ∨ st.state = .running → exec (.cmdPause g d) s =
          .next ((cmdStarted g d s).updStream x.stream fun y => { y with cmd := some (3, g, d) })) ∧
        (st.busy = false → st.state ≠ .paused →
          (∃ t y, exec (.cmdPause g d) s = .next t ∧ t.stream? x.stream = some y ∧ y.state = .paused ∧ y.waiting = [] ∧
            y.cmd = none ∧ y.record = st.record ∧ y.seq = st.seq ∧ t.caches = s.caches ∧ t.cores = s.cores) ∧
          (st.waiting = [] → (∀ j ∈ s.work.jobs, ∀ r ∈ j.rows, r.stream ≠ x.stream) →
            exec (.cmdPause g d) s = .next (cmdDone g x stOK [] (put fun y => { y with state := .paused, cmd := none }))))) ∧
      (CmdReady 2 g d x s →
        ((∃ y ∈ s.work.streams, y.source = some x.stream ∧ y.state ≠ .closing) →
          exec (.cmdClose g d) s = .next (cmdDone g x stWrongState [] s)) ∧
        ((∀ y ∈ s.work.streams, y.source = some x.stream → y.state = .closing) →
          (st.busy = true → exec (.cmdClose g d) s =
            .next ((cmdStarted g d s).updStream x.stream fun y => { y with cmd := some (2, g, d) })) ∧
          (st.busy = false → ∃ t y, exec (.cmdClose g d) s = .next t ∧ t.stream? x.stream = some y ∧ y.state = .closing ∧
            y.waiting = [] ∧ y.cmd = some (2, g, d) ∧ y.seq = st.seq ∧ t.move? x.stream = none ∧ t.caches = s.caches))) ∧
      (CmdReady 6 g d x s →
        let item := bits (x.w 2) 0 4
        let v := (x.w 3).toNat
        let done (f : Stream → Stream) : Prop := exec (.cmdStreamCtl g d) s = .next (cmdDone g x stOK [] (put f))
        let refused (e : Nat) : Prop := exec (.cmdStreamCtl g d) s = .next (cmdDone g x e [] s)
        (item = 0 → done fun y => { y with prio := v % 4 }) ∧
        (item = 1 → v ≤ st.budget → done fun y => { y with margin := some v }) ∧
        (item = 1 → st.budget < v → refused stBadField) ∧
        (item = 2 → done fun y => { y with fbDisabled := true }) ∧ (item = 3 → done fun y => { y with fbDisabled := false }) ∧
        (item = 4 → done fun y => { y with fbForced := true, fbMode := y.fb.isSome, fbCount := 0 }) ∧
        (item = 5 → done fun y => { y with fbForced := false }) ∧
        (item = 6 ∨ item = 7 → ∃ t y, exec (.cmdStreamCtl g d) s = .next t ∧ t.stream? x.stream = some y ∧
          y.freeze = (item == 6 || !st.adapt) ∧ t.caches = s.caches ∧ t.cores = s.cores) ∧
        (item = 8 →
          let all := x.pins.1.over st.pins
          let kept := x.pins.1.group = none ∧ ∃ n, st.pins.group = some n ∧ s.group? n = none
          let alone := ∀ y ∈ s.work.streams, y.group = st.group → y.id = x.stream
          ∀ new : Bool, (new = true ↔ x.pins.2 = true ∨ kept) → ∀ gone : List Nat, (alone → gone = [st.group]) → (¬ alone → gone = []) →
            let e := s.pinStatus st.part st.main st.cadence (if new then { all with group := none } else all) new gone
            (e ≠ 0 → refused e) ∧
            (e = 0 → s.pinLacks st x.pins.1 = true → refused stNoResource) ∧
            (e = 0 → s.pinLacks st x.pins.1 = false → x.pins.2 = false → done fun y => { y with pins := all }) ∧
            (e = 0 → s.pinLacks st x.pins.1 = false → x.pins.2 = true →
              (s.newGroupNum 4096 = none → refused stNoResource) ∧
              ∀ n, s.newGroupNum 4096 = some n → done fun y => { y with pins := { all with group := some n } })) ∧
        (item = 9 → v = 31 → done fun y => { y with pins := Pins.empty }) ∧
        (10 ≤ item → refused stBadField))

/-- From R355, R574, R293, R300: STATE_READ. A stream that is not PAUSED answers WRONG_STATE, a range beyond the record or a buffer off its
boundary BAD_FIELD, a buffer that cannot be reached BAD_ADDR; while a started move or a hand-off uses the record the command waits.
Otherwise, where the read meets no uncorrectable error, it completes: the tiles of the authoritative copy go to host memory and the
completion answers SEQ. -/
def Obligations.StateReads : Prop :=
  ∀ (s : State) (g d : Nat) (x : Desc) (st : Stream) (u : Upset), s.partStarted (s.rg g).part = true →
    s.stream? x.stream = some st → x.stream < s.liveLimit → st.state ≠ .closing → st.rg = g → CmdReady 8 g d x s →
      let lo := bits (x.w 2) 0 8
      let n := bits (x.w 2) 8 8 + 1
      let fin (e : Nat) : Prop := exec (.cmdStateRead g d u) s = .next (cmdDone g x e [] s)
      (st.state ≠ .paused → fin stWrongState) ∧
      (st.state = .paused → st.record.tiles < lo + n ∨ x.d64 4 % 4096 ≠ 0 → fin stBadField) ∧
      (st.state = .paused → lo + n ≤ st.record.tiles → x.d64 4 % 4096 = 0 →
        (s.hostFails (x.d64 4) (n * 16384) = true → fin stBadAddr) ∧
        (s.hostFails (x.d64 4) (n * 16384) = false →
          (st.record.mirRead = true ∨ (∃ m, s.move? x.stream = some m ∧ m.started = true) →
            exec (.cmdStateRead g d u) s = .next (s.updStream x.stream fun y => { y with cmd := some (8, g, d) })) ∧
          (st.record.mirRead = false → (∀ m, s.move? x.stream = some m → m.started = false) → u.uncorr = none → u.badTile = none →
            s.extPoisoned st = false → ∀ raw, s.recordBytes st = .ok raw →
              exec (.cmdStateRead g d u) s = .next (cmdDone g x stOK [0, 0, BitVec.ofNat 32 st.seq, BitVec.ofNat 32 (st.seq / 2 ^ 32)]
                (((s.corrected u).hostWrite (x.d64 4) ((raw.drop (lo * 16384)).take (n * 16384))).updStream x.stream
                  fun y => { y with cmd := none })))))

/-- From R355, R574, R352: STATE_WRITE, with the tests of STATE_READ and, for tile 0, the header's layout and tile count in order. A write into
the home completes: SEQ counts, the tiles lie in the home, the stream stays PAUSED, and where the stream is mirrored the tiles are marked
changed and a hand-off is issued. A write of a record in C first queues its promotion at urgent. -/
def Obligations.StateWrites : Prop :=
  ∀ (s : State) (g d : Nat) (x : Desc) (st : Stream), s.partStarted (s.rg g).part = true → s.stream? x.stream = some st →
    x.stream < s.liveLimit → st.state ≠ .closing → st.rg = g → CmdReady 9 g d x s →
      let lo := bits (x.w 2) 0 8
      let n := bits (x.w 2) 8 8 + 1
      let bs := s.hostRead (x.d64 4) (n * 16384)
      let header := lo = 0 → field bs 4 4 = st.record.layout ∧ field bs 8 1 + 1 = st.record.tiles
      let free := st.record.mirRead = false ∧ ∀ m, s.move? x.stream = some m → m.started = false
      let fin (e : Nat) : Prop := exec (.cmdStateWrite g d) s = .next (cmdDone g x e [] s)
      (st.state ≠ .paused → fin stWrongState) ∧
      (st.state = .paused → st.record.tiles < lo + n ∨ x.d64 4 % 4096 ≠ 0 → fin stBadField) ∧
      (st.state = .paused → lo + n ≤ st.record.tiles → x.d64 4 % 4096 = 0 →
        (s.hostFails (x.d64 4) (n * 16384) = true → fin stBadAddr) ∧
        (s.hostFails (x.d64 4) (n * 16384) = false →
          (¬ header → fin stBadField) ∧
          (header → ¬ free → exec (.cmdStateWrite g d) s = .next (s.updStream x.stream fun y => { y with cmd := some (9, g, d) })) ∧
          (header → free → st.record.state = .C →
            ∃ t m, exec (.cmdStateWrite g d) s = .next t ∧ t.move? x.stream = some m ∧ m.kind = .promote ∧ m.prio = 3 ∧
              m.forWrite = true ∧ m.started = false ∧ t.stream? x.stream = some { st with cmd := some (9, g, d) } ∧
              t = { s with hif := t.hif, work := t.work }) ∧
          (header → free → st.record.state = .H →
            ∃ t y, exec (.cmdStateWrite g d) s = .next t ∧ t.stream? x.stream = some y ∧ y.seq = st.seq + 1 ∧ y.cmd = none ∧
              y.state = .paused ∧ y.record.home = st.record.home ∧ y.waiting = st.waiting ∧ t.caches = s.caches ∧ t.cores = s.cores ∧
              (∀ c ∈ (t.rg g).cmds, c.didx ≠ d) ∧
              (s.mirrors st.part = true → y.record.mirRead = true ∧ (x.stream, st.seq + 1) ∈ t.pair.outbound ∧
                ∀ i < 256, lo ≤ i → i < lo + n → y.record.chg.getLsbD i = true))))

/-- From R413, R573, Tables 2-3 and 2-4: OPEN. A refused one completes with the status of R573, whose first tests stand here in their order,
and opens nothing. One that no rule refuses completes as a command in progress: the stream stands in OPENING, with its home and its
input area where placement finds room, in the group that placement gives, and holds its command; every other stream and every job is as it was. -/
def Obligations.OpenAdmits : Prop :=
  ∀ (s : State) (g d : Nat) (pl : Placement) (x : Desc), CmdReady 1 g d x s → s.partStarted (s.rg g).part = true →
    let q := s.openReq g x
    (s.openStatus q pl ≠ 0 → exec (.cmdOpen g d pl) s = .next (cmdDone g x (s.openStatus q pl) [] s)) ∧
    (s.liveLimit ≤ x.stream → s.openStatus q pl = stBadField) ∧
    (x.stream < s.liveLimit → s.stream? x.stream ≠ none ∨ s.partnerHolds x.stream = true → s.openStatus q pl = stBusy) ∧
    (x.stream < s.liveLimit → s.stream? x.stream = none → s.partnerHolds x.stream = false →
      (∀ m, s.slot? (bits (x.w 2) 0 8) = some m → m.part ≠ (s.rg g).part → s.openStatus q pl = stNotOwner) ∧
      (q.fb = none → s.slot? (bits (x.w 2) 0 8) = none → s.openStatus q pl = stWrongState)) ∧
    (s.openStatus q pl = 0 →
      ∃ t m grp home input, s.slot? q.main = some m ∧ s.openPlace q m.hdr pl = some (grp, home, input) ∧
        exec (.cmdOpen g d pl) s = .next t ∧ t.stream? x.stream = some (s.newStream q m.hdr grp d input home) ∧
        (∀ k, k ≠ x.stream → t.stream? k = s.stream? k) ∧ (t.group? grp.num).isSome = true ∧
        (∀ k, k ≠ grp.num → t.group? k = s.group? k) ∧ t.work.jobs = s.work.jobs ∧ t.work.moves = s.work.moves ∧
        t.tb = s.tb ∧ t.pair = s.pair ∧ t.keeper = s.keeper ∧ t.power = s.power ∧ t.board = s.board ∧
        (∀ c ∈ (t.rg g).cmds, c.didx = d → c.started = true) ∧
        (s.pair.state ≠ .syncing → s.pair.state ≠ .paired → t.out = s.out))

/-- From Table 2-4, R48, R341, R96: OPEN_INIT_DONE. A stream in OPENING that waits for no answer of the partner becomes PARKED with its record in its
home, no tile of which is marked changed, and its OPEN completes and leaves the ring; nothing else of the Saddler's work changes. One
that still waits for the partner stays as it is (R441). -/
def Obligations.OpenInitEnds : Prop :=
  ∀ (s : State) (id : Nat) (st : Stream), s.alive = true → s.stream? id = some st → st.state = .opening →
    (st.waitId = false → s.mirrors st.part = false →
      ∃ t y, exec (.openInitDone id) s = .next t ∧ t.stream? id = some y ∧ y.state = .parked ∧ y.cmd = none ∧
        y.record.chg = 0 ∧ y.record.home = st.record.home ∧ y.record.die = st.record.die ∧ y.group = st.group ∧
        t.work.jobs = s.work.jobs ∧ t.work.groups = s.work.groups ∧ t.cores = s.cores ∧ t.tb = s.tb ∧ t.caches = s.caches ∧
        (∀ k, k ≠ id → t.stream? k = s.stream? k) ∧
        ∀ k r, st.cmd = some (1, k, r) → ∀ c ∈ (t.rg k).cmds, c.didx ≠ r) ∧
    (st.waitId = true → exec (.openInitDone id) s = .next s)

/-- From Table 2-4, R48, R206: CLOSE_RELEASE_DONE. A stream in CLOSING whose hand-offs are over is gone, with its record moves, and its CLOSE
completes and leaves the ring; other streams and every job stay. While a hand-off reads its record, or a completion is held for one,
nothing happens. -/
def Obligations.CloseReleaseEnds : Prop :=
  ∀ (s : State) (id : Nat) (st : Stream), s.alive = true → s.stream? id = some st → st.state = .closing →
    (st.heldComp = [] → st.record.mirRead = false →
      ∃ t, exec (.closeReleaseDone id) s = .next t ∧ t.stream? id = none ∧ t.move? id = none ∧
        (∀ k, k ≠ id → t.stream? k = s.stream? k) ∧ t.work.jobs = s.work.jobs ∧ t.tb = s.tb ∧ t.keeper = s.keeper ∧
        ∀ k r, st.cmd = some (2, k, r) → ∀ c ∈ (t.rg k).cmds, c.didx ≠ r) ∧
    (st.heldComp ≠ [] ∨ st.record.mirRead = true → exec (.closeReleaseDone id) s = .next s)

/-- From R363, R364, R372, R381, R384, R415, R416, Table 13-1: model slots, groups and weight pins. MODEL_LOAD takes an EMPTY slot for a
good image that fits the model area, and a load job waits; its end makes the slot READY with a copy of the weights on a die of the
partition that has room for it, and measurement 8 takes the image. MODEL_UNLOAD wants a READY slot of its own partition that no open stream has as main model, and
takes the fallback from streams that name it; its end leaves the slot EMPTY. GROUP_CTL takes a core-set pin, which holds from the
group's next launch decision (R384), unpins, and sets or clears the costs; WEIGHT_PIN pins to READY slots only. Each refused form has its status and no effect. -/
def Obligations.ModelSlotsAndGroups : Prop :=
  ∀ (s : State) (g d : Nat) (x : Desc), s.partStarted (s.rg g).part = true →
    let p := (s.rg g).part
    let k := bits (x.w 2) 0 8
    let len := (x.w 6).toNat
    let img := s.hostRead (x.d64 4) len
    (CmdReady 0x10 g d x s →
      let recs := if s.expertPart p then pieces 256 (imageRegion img 5).2.2 (regionBytes img 5) else []
      let bad := imageBad img len (s.expertPart p) || recs.any (shardBad (s.partCores p))
      let fin (e : Nat) : Prop := exec (.cmdModelLoad g d) s = .next (cmdDone g x e [] s)
      (∀ m, s.slot? k = some m → fin (if m.part = p then stWrongState else stNotOwner)) ∧
      (s.slot? k = none → s.hostFails (x.d64 4) len = true → fin stBadAddr) ∧
      (s.slot? k = none → s.hostFails (x.d64 4) len = false →
        (bad = true → fin stBadField) ∧ (bad = false → s.modelRoom p (imageOf img).bytes = false → fin stNoResource) ∧
        (bad = false → s.modelRoom p (imageOf img).bytes = true →
          ∃ t m, exec (.cmdModelLoad g d) s = .next t ∧ t = { s with hif := (cmdStarted g d s).hif, work := t.work } ∧
            t.slot? k = some m ∧ m.state = .loading ∧ m.part = p ∧ m.hdr = imageOf img ∧ m.copies = [] ∧ m.cmd = some (g, d) ∧
            (∀ n, n ≠ k → t.slot? n = s.slot? n) ∧ t.work.streams = s.work.streams ∧ t.work.groups = s.work.groups ∧
            ∃ j, t.work.jobs = s.work.jobs ++ [j] ∧ j.kind = .modelLoad k ∧ j.part = p ∧ j.base = bits (x.w 2) 8 2 ∧
              j.phase = .waiting))) ∧
    (∀ n m, s.alive = true → s.slot? n = some m →
      let set (a : Nat) : CoreSet := coreSetOf ((coreList (s.partCores m.part)).filter fun c => c / 16 == a)
      (m.state = .loading → (∀ a ∈ s.partDies m.part, s.addCopy m (set a) = none) → exec (.modelLoadDone n) s = .next s) ∧
      (m.state = .loading → (∃ a ∈ s.partDies m.part, s.addCopy m (set a) ≠ none) →
        ∃ t y c, exec (.modelLoadDone n) s = .next t ∧ t.slot? n = some y ∧ y.state = .ready ∧ y.hdr = m.hdr ∧
        y.copies = m.copies ++ [c] ∧ c.split = none ∧ (∃ a ∈ s.partDies m.part, c.wholeOn a = true) ∧ y.cmd = none ∧ (∀ j ∈ t.work.jobs, j.kind ≠ .modelLoad n) ∧
        t.work.streams = s.work.streams ∧ t.cores = s.cores ∧ t.tb = s.tb ∧
        t.bridle = { s.bridle with
          meas := updAt 7 (fun _ => Config.shake256 (s.bridle.meas.getD 7 [] ++ leBytes 1 n ++ m.hdr.digest) 64) s.bridle.meas } ∧
        ∀ a b, m.cmd = some (a, b) → ∀ c ∈ (t.rg a).cmds, c.didx ≠ b) ∧
      (m.state = .unloading → ∃ t, exec (.modelUnloadDone n) s = .next t ∧ t.slot? n = none ∧
        (∀ j ∈ t.work.jobs, j.kind ≠ .modelUnload n) ∧ t.work.streams = s.work.streams ∧ t.work.groups = s.work.groups ∧
        (∀ y ∈ t.caches.prefixes, y.slot = n → y.done = false) ∧ (∀ c ∈ t.cores, ∀ r ∈ c.progs, r.1 ≠ n) ∧
        (∀ i, i ≠ n → t.slot? i = s.slot? i) ∧ ∀ a b, m.cmd = some (a, b) → ∀ c ∈ (t.rg a).cmds, c.didx ≠ b) ∧
      (m.state = .ready → exec (.modelLoadDone n) s = .next s ∧ exec (.modelUnloadDone n) s = .next s)) ∧
    (CmdReady 0x11 g d x s →
      let fin (e : Nat) : Prop := exec (.cmdModelUnload g d) s = .next (cmdDone g x e [] s)
      (s.slot? k = none → fin stWrongState) ∧
      ∀ m, s.slot? k = some m →
        (m.part ≠ p → fin stNotOwner) ∧
        (m.part = p → m.state ≠ .ready ∨ (∃ y ∈ s.work.streams, y.main = k) → fin stWrongState) ∧
        (m.part = p → m.state = .ready → (∀ y ∈ s.work.streams, y.main ≠ k) →
          ∃ t j, exec (.cmdModelUnload g d) s = .next t ∧ t.slot? k = some { m with state := .unloading, cmd := some (g, d) } ∧
            (∀ y ∈ t.work.streams, y.fb ≠ some k) ∧ t.work.jobs = s.work.jobs ++ [j] ∧ j.kind = .modelUnload k ∧ j.base = 0 ∧
            t.work.groups = s.work.groups ∧ t.caches = s.caches ∧ t.cores = s.cores)) ∧
    (CmdReady 0x12 g d x s →
      let n := bits (x.w 2) 0 12
      let op := bits (x.w 2) 12 4
      let cs := x.cores 3
      let fin (e : Nat) (u : State) : Prop := exec (.cmdGroupCtl g d) s = .next (cmdDone g x e [] u)
      (s.group? n = none → fin stBadField s) ∧
      ∀ y, s.group? n = some y →
        (y.part ≠ p → fin stNotOwner s) ∧
        (y.part = p →
          (op = 1 → fin stOK (s.updGroup n fun z => { z with corePin := false })) ∧
          (op = 2 → fin stOK ((s.updGroup n fun z => { z with costs := some ((x.w 3).toNat, (x.w 4).toNat) }).seedHist n)) ∧
          (op = 3 → fin stOK ((s.updGroup n fun z => { z with costs := none }).seedHist n)) ∧ (4 ≤ op → fin stBadField s) ∧
          (op = 0 →
            (cs = 0 ∨ cs &&& ~~~s.partCores p ≠ 0 ∨ cs &&& s.tickCores [n] y.cadence y.offset y.slot ≠ 0 → fin stBadField s) ∧
            (cs ≠ 0 → cs &&& ~~~s.partCores p = 0 → cs &&& s.tickCores [n] y.cadence y.offset y.slot = 0 →
              (s.groupUnitsFit n cs = false ∨ s.copiesFit y.model cs = false → fin stNoResource s) ∧
              (s.groupUnitsFit n cs = true → s.copiesFit y.model cs = true →
                (y.nextCores ≠ none → exec (.cmdGroupCtl g d) s = .next s) ∧
                (y.nextCores = none → exec (.cmdGroupCtl g d) s =
                  .next ((cmdStarted g d s).updGroup n fun z => { z with nextCores := some (cs, g, d) }))))))) ∧
    (CmdReady 0x13 g d x s →
      let cs := x.cores 3
      let fin (e : Nat) (u : State) : Prop := exec (.cmdWeightPin g d) s = .next (cmdDone g x e [] u)
      (s.slot? k = none → fin stWrongState s) ∧
      ∀ m, s.slot? k = some m →
        (m.part ≠ p → fin stNotOwner s) ∧
        (m.part = p → (x.w 2).getLsbD 8 = true → fin stOK (s.updSlot k fun z => { z with pin := none })) ∧
        (m.part = p → (x.w 2).getLsbD 8 = false →
          (m.state ≠ .ready → fin stWrongState s) ∧
          (m.state = .ready → cs = 0 ∨ cs &&& ~~~s.partCores p ≠ 0 → fin stBadField s) ∧
          (m.state = .ready → cs ≠ 0 → cs &&& ~~~s.partCores p = 0 →
            (sumBy (fun c => (s.core c).residentBytes) (coreList cs) < m.hdr.bytes ∨ s.copiesFit k cs = false → fin stNoResource s) ∧
            (m.hdr.bytes ≤ sumBy (fun c => (s.core c).residentBytes) (coreList cs) → s.copiesFit k cs = true →
              ∃ t z, exec (.cmdWeightPin g d) s = .next t ∧ t.slot? k = some z ∧ z.pin = some cs ∧ z.hdr = m.hdr ∧
                z.state = .ready ∧ (∀ i, i ≠ k → t.slot? i = s.slot? i) ∧ t.work.streams = s.work.streams ∧
                t.work.groups = s.work.groups ∧ t.cores = s.cores))))

/-- From R229, R230, R245, R251, R252, R264, R271, R281, R284, R334, R415, R430: PREFIX creates (a job computes it, and its end makes it done),
pins, unpins and drops a cached prefix; SKV_CTL pins a class, loads a table into the generation that is not current unless
that one is still valid (BUSY) or R245 refuses an entry (zero, or two equal), or refuses its reserved operation; REGION_PIN writes and
pins, or unpins, an entry of a core, pinned entries staying as they are, and waits while a launch holds the core or a hand-off reads a
record that must leave; WINDOW opens or closes window 14 or 15 of a core of the partition; TENSOR_MOVE puts its
descriptor into a row of the core and completes once the transfer has run. -/
def Obligations.CachesAndExpertCommands : Prop :=
  ∀ (s : State) (g d : Nat) (x : Desc),
    let p := (s.rg g).part
    let op := bits (x.w 2) 0 2
    (CmdReady 0x18 g d x s → s.partStarted p = true →
      let fin (e : Nat) (ws : List Word) (u : State) : Prop := exec (.cmdPrefix g d) s = .next (cmdDone g x e ws u)
      (op = 0 →
        let n := (x.w 6).toNat
        let k := bits (x.w 2) 8 8
        (s.slot? k = none → fin stWrongState [] s) ∧
        ∀ m, s.slot? k = some m →
          (m.part ≠ p → fin stNotOwner [] s) ∧ (m.part = p → m.state ≠ .ready → fin stWrongState [] s) ∧
          (m.part = p → m.state = .ready →
            (n = 0 → fin stBadField [] s) ∧ (0 < n → s.hostFails (x.d64 4) (4 * n) = true → fin stBadAddr [] s) ∧
            (∀ i, 0 < n → s.hostFails (x.d64 4) (4 * n) = false →
              (List.range 65536).find? (fun i => (s.prefix? i).isNone) = some i →
                ∃ t y j, exec (.cmdPrefix g d) s = .next t ∧ t = { s with
                    hif := (cmdStarted g d s).hif, work := t.work, caches := { s.caches with prefixes := t.caches.prefixes } } ∧
                  t.prefix? i = some y ∧ y.tokens = wordsOf (s.hostRead (x.d64 4) (4 * n)) ∧ y.part = p ∧ y.slot = k ∧
                  y.done = false ∧ y.cmd = some (g, d) ∧ (∀ o, o ≠ i → t.prefix? o = s.prefix? o) ∧
                  t.work.jobs = s.work.jobs ++ [j] ∧ j.kind = .prefixComp i ∧ j.base = 1))) ∧
      (op ≠ 0 →
        let i := bits (x.w 3) 0 16
        (s.prefix? i = none → fin stBadField [] s) ∧
        ∀ y, s.prefix? i = some y →
          let ws : List Word := [BitVec.ofNat 32 i, BitVec.ofNat 32 y.pages.length]
          (y.part ≠ p → fin stNotOwner [] s) ∧ (y.part = p → y.done = false → fin stWrongState [] s) ∧
          (y.part = p → y.done = true →
            (op = 1 → fin stOK ws (s.pinPrefix i true)) ∧ (op = 2 → fin stOK ws (s.pinPrefix i false)) ∧
            (op = 3 → fin stOK ws (s.dropPrefix i) ∧ (s.dropPrefix i).prefix? i = none)))) ∧
    (∀ i y m ns, s.alive = true → s.prefix? i = some y → y.done = false → s.slot? y.slot = some m →
      ∃ t z, exec (.prefixDone i ns) s = .next t ∧ t.prefix? i = some z ∧ z.done = true ∧ z.tokens = y.tokens ∧ z.cmd = none ∧
        (∀ j ∈ t.work.jobs, j.kind ≠ .prefixComp i) ∧ t.work.streams = s.work.streams ∧ t.cores = s.cores ∧
        ∀ a b, y.cmd = some (a, b) → ∀ c ∈ (t.rg a).cmds, c.didx ≠ b) ∧
    (CmdReady 0x19 g d x s → s.partStarted p = true →
      let m := bits (x.w 2) 2 8
      let cls := bits (x.w 2) 10 3
      let mode := bits (x.w 2) 13 2
      let ts := bits (x.w 2) 15 3
      let gen := (s.skvSlot p ts).target
      let bs := s.hostRead (x.d64 4) 64
      let fin (e : Nat) (ws : List Word) (u : State) : Prop := exec (.cmdSkvCtl g d) s = .next (cmdDone g x e ws u)
      (op = 3 → fin stBadField [] s) ∧
      (op = 0 → s.slot? m = none → fin stWrongState [] s) ∧
      (op = 0 → ∀ y, s.slot? m = some y → y.part ≠ p → fin stNotOwner [] s) ∧
      (op = 0 → ∀ y, s.slot? m = some y → y.part = p →
        (4 < cls ∨ (mode = 2 ∧ 3 < ts) → fin stBadField [] s) ∧
        (cls ≤ 4 → ¬ (mode = 2 ∧ 3 < ts) →
          let rest := s.caches.skvPins.filter fun k => !(k.part == p && k.model == m && k.cls == cls)
          fin stOK [0] { s with caches := { s.caches with
            skvPins := if mode = 0 then rest else ⟨p, m, cls, mode - 1, ts⟩ :: rest } })) ∧
      (op = 1 → s.hostFails (x.d64 4) 64 = false →
        let es := (elemsOf (field bs 0 1) (bs.drop 4)).take (field bs 1 1)
        (2 < field bs 0 1 ∨ 15 < field bs 1 1 ∨ 0 ∈ es ∨ ¬ es.Nodup → fin stBadField [] s) ∧
        (field bs 0 1 ≤ 2 → field bs 1 1 ≤ 15 → 0 ∉ es → es.Nodup →
          (s.skvValid p ts gen = true → fin stBusy [] s) ∧
          (s.skvValid p ts gen = false →
            let u := s.putTable p ts (field bs 0 1) es
            fin stOK [BitVec.ofNat 32 gen] u ∧ (u.skvSlot p ts).cur = some gen ∧ u = { s with caches := u.caches } ∧
              (∀ o, o ≠ ts → u.skvSlot p o = s.skvSlot p o) ∧
              (u.skvGen p ts gen).entries = es))) ∧
      (op = 1 → s.hostFails (x.d64 4) 64 = true → fin stBadAddr [] s) ∧
      (op = 2 →
        let n := (x.w 6).toNat
        let set := s.buildSet p ((wordsOf (s.hostRead (x.d64 4) (4 * n))).map (·.toNat))
        (n = 0 → fin stBadField [] s) ∧ (0 < n → s.hostFails (x.d64 4) (4 * n) = true → fin stBadAddr [] s) ∧
        (0 < n → s.hostFails (x.d64 4) (4 * n) = false →
          (set = none → fin stBadField [] s) ∧
          ∀ ew pgs raws, set = some (ew, pgs) → s.rawPages pgs = .ok raws →
            (s.skvValid p ts gen = true → fin stBusy [] (s.bump (ctrSkv 6))) ∧
            (s.skvValid p ts gen = false →
              fin stOK [BitVec.ofNat 32 gen] ((s.putTable p ts ew (buildTable ew (raws.map (·.2)))).bump (ctrSkv 5)))))) ∧
    (CmdReady 0x1A g d x s →
      let c := bits (x.w 2) 0 8
      let e := bits (x.w 2) 8 4
      let cl := (x.w 2).getLsbD 12
      let r := x.w 3 &&& 0x7FFFFFFF
      (160 ≤ c ∨ (s.partCores p).getLsbD c = false ∨ (cl = false ∧ (12288 < bits r 0 14 + bits r 14 14 ∨ bits r 28 3 = 7)) →
        exec (.cmdRegionPin g d) s = .next (cmdDone g x stBadField [] s)) ∧
      (c < 160 → (s.partCores p).getLsbD c = true → cl = true ∨ (bits r 0 14 + bits r 14 14 ≤ 12288 ∧ bits r 28 3 ≠ 7) →
        (∃ y, s.core? c = some y) → (s.core c).rgnWait = none →
          let read := s.recordsIn (c * 2 ^ 23 + bits r 0 14 * 512) (bits r 14 14 * 512)
          ((∃ j ∈ s.work.jobs, j.cores.getLsbD c = true) ∨ (cl = false ∧ ∃ y ∈ read, y.record.mirRead = true) → ∃ t, exec (.cmdRegionPin g d) s = .next t ∧
            t.core c = { s.core c with rgnWait := some (g, d, e, r, cl) } ∧
            t = { s with hif := (cmdStarted g d s).hif, cores := t.cores }) ∧
          ((∀ j ∈ s.work.jobs, j.cores.getLsbD c = false) → (cl = false → ∀ y ∈ read, y.record.mirRead = false) →
            ∃ t, exec (.cmdRegionPin g d) s = .next t ∧ (t.core c).rgnWait = none ∧
            (t.core c).rgnPins = updAt e (fun _ => !cl) (s.core c).rgnPins ∧
            (cl = false → (s.core c).regions.length = 16 → (s.core c).rgnPins.length = 16 → (t.core c).regions[e]? = some r) ∧
            (∀ i w, i ≠ e → (s.core c).regions[i]? = some w → (s.core c).rgnPins[i]? = some true → (t.core c).regions[i]? = some w) ∧
            (∀ k, k ≠ c → t.core k = s.core k) ∧ (∀ k ∈ (t.rg g).cmds, k.didx ≠ d) ∧ t.caches = s.caches ∧
            t.work.jobs = s.work.jobs))) ∧
    (CmdReady 0x1B g d x s → s.partStarted p = true → (∀ k ∈ s.cores, k.flights = []) →
      let c := bits (x.w 2) 0 8
      let w := 14 + bits (x.w 2) 8 1
      let fin (e : Nat) (u : State) : Prop := exec (.cmdWindow g d) s = .next (cmdDone g x e [] u)
      (160 ≤ c ∨ (s.partCores p).getLsbD c = false → fin stBadField s) ∧
      (c < 160 → (s.partCores p).getLsbD c = true →
        ((x.w 2).getLsbD 12 = true →
          fin stOK (s.updCore c fun k => { k with windows := updAt w (fun y => { y with isOpen := false }) k.windows })) ∧
        ((x.w 2).getLsbD 12 = false →
          (bits (x.w 3) 28 2 < 2 ∨ windowLegal (x.w 3) (x.w 4) = false → fin stBadField s) ∧
          (2 ≤ bits (x.w 3) 28 2 → windowLegal (x.w 3) (x.w 4) = true →
            fin stOK (s.updCore c fun k => { k with windows := updAt w (fun _ => openWindow (x.w 3) (x.w 4)) k.windows }))))) ∧
    ∀ (row : Nat) (u : Upset), CmdReady 0x1C g d x s → s.partStarted p = false →
      let c := bits (x.w 2) 0 8
      (160 ≤ c ∨ s.coreOn c = false ∨ (s.partCores p).getLsbD c = false →
        exec (.cmdTensorMove g d row u) s = .next (cmdDone g x stBadField [] s)) ∧
      (c < 160 → s.coreOn c = true → (s.partCores p).getLsbD c = true →
        (s.hostFails (x.d64 4) 192 = true → exec (.cmdTensorMove g d row u) s = .next (cmdDone g x stBadAddr [] s)) ∧
        (s.hostFails (x.d64 4) 192 = false →
          let t := (cmdStarted g d s).hostTensor c ((s.core c).workRow row) (s.hostRead (x.d64 4) 192) u
          t.keeper.fstop = false → exec (.cmdTensorMove g d row u) s = .next (t.finishCmd g d stOK [])))

/-! ### Instructions of the control core (05 to 11) -/

/-- Of an instruction whose core may not issue nothing happens. One that a window, a declared range, bank separation or an open
context holds, while what is in flight waits too, stays the core's next instruction and changes nothing but the count of its hold
(R22, R140, R273, R275, R283). One
that is issued traps with the code its opcode's plan names (Table 16-3, R458), meets an uncorrectable byte or a damaged tile that
it reads as a job fault of cause 2 or 1 (R293, R300), and else counts the stalls and corrected errors it met (R125, R130 to R133,
R293, R297). -/
def Obligations.InstructionsIssue : Prop :=
  ∀ (s : State) (c slot row : Nat) (v : BitVec 128) (w : BitVec 64) (hw : Bool) (u : Upset),
    let k := s.core c
    let ops : List (CoreOp × Instr) :=
      [(coreOp v, .mma c v u), (coreOp v, .vmap c v u), (coreOp v, .vred c v u), (coreOp v, .vcpr c v u), (coreOp v, .vxpn c v u),
       (coreOp v, .vperm c v u), (.gpload slot row, .gpload c slot row u), (narrowOp w, .lscanForward c w u),
       (narrowOp w, .lscanReverse c w u), (narrowOp w, .attScore c w u), (narrowOp w, .attValue c w u),
       (narrowOp w, .attExpand c w u), (narrowOp w, .vqpop c w u), (narrowOp w, .vsload c w u), (narrowOp w, .vtload c w u),
       (narrowOp w, .vbrel c w u), (narrowOp w, .skx c w u), (narrowOp w hw, .skc c w hw u), (narrowOp w, .dmov c w u),
       (narrowOp w, .dtens c w u), (narrowOp w, .wopen c w u), (narrowOp w, .wclose c w u)]
    (s.canIssue c = false → exec (.timeRead c slot) s = .next s ∧ exec (.illegalOp c w) s = .next s) ∧
    (∀ x ∈ ops,
      let p := s.opPlan c x.1
      (s.canIssue c = false → exec x.2 s = .next s) ∧
      (s.canIssue c = true → Waiting c s → k.holds p = true →
        ∃ t, exec x.2 s = .next t ∧ t = { s with regs := t.regs, cores := t.cores } ∧ (∀ j, j ≠ c → t.core j = s.core j) ∧
          t.core c = { k with flights := k.flights ++ [{ newFlight x.1 u with held := true }] } ∧
          (k.rangesHold p = true →
            t.reg (corBase c + 0x300) = min (s.reg (corBase c + 0x300) + max 1 u.sbHold) 0xFFFFFFFF) ∧
          (k.rangesHold p = false → k.banksHold p = true →
            t.reg (corBase c + 0x304) = min (s.reg (corBase c + 0x304) + max 1 u.bankHold) 0xFFFFFFFF)) ∧
      (Issues c x.1 s →
        (∀ code, p.trap = some code → ∃ t, exec x.2 s = .next t ∧ Trapped c code s t) ∧
        (∀ n a, p.trap = none → u.uncorr = some (n, a) → s.opReads c x.1 p a = true →
          (n = 1 ∧ a / 2 ^ 60 = 0) ∨ (n = 2 ∧ (a / 2 ^ 60 = 1 ∨ a / 2 ^ 60 = 2)) ∨ (n = 3 ∧ a / 2 ^ 60 = 3) →
            ∃ t, exec x.2 s = .next t ∧ Faulted 2 n s t) ∧
        (∀ a g, p.trap = none → u.uncorr = none → u.badTile = some (a, g) → a % 16384 = 0 →
          (∀ i < 16384, s.opReads c x.1 p (a + i) = true) →
            ∃ t, exec x.2 s = .next t ∧ Faulted 1 p.unit.code s t) ∧
        (∀ o, p.trap = none → Smooth u → (∀ n ∈ u.hbmCe, n < 20) → (∀ r, s.reg r ≤ 0xFFFFFFFF) → x.1 = .mma o →
          ∃ t, exec x.2 s = .next t ∧
            t.reg (corBase c + 0x200) = min (s.reg (corBase c + 0x200) + if (mmaOp o).queue then u.xqStall else 0) 0xFFFFFFFF ∧
            t.reg (corBase c + 0x204) = min (s.reg (corBase c + 0x204) + if (mmaOp o).toFtq then u.ftqStall else 0) 0xFFFFFFFF ∧
            t.reg (corBase c + 0x208) = min (s.reg (corBase c + 0x208) + if (mmaOp o).dest = 3 then u.luqStall else 0) 0xFFFFFFFF ∧
            t.reg (corBase c + 0x20C) = min (s.reg (corBase c + 0x20C) + u.gpWait) 0xFFFFFFFF))) ∧
    ((∀ n ∈ u.hbmCe, n < 20) → (∀ r, s.reg r ≤ 0xFFFFFFFF) →
      s.corrected u = { s with regs := (s.corrected u).regs } ∧
      (s.corrected u).reg 0x50008 = min (s.reg 0x50008 + u.spmCe.length) 0xFFFFFFFF ∧
      (∀ d < 160, (s.corrected u).reg (corBase d + 0x210) = min (s.reg (corBase d + 0x210) + u.spmCe.count d) 0xFFFFFFFF) ∧
      ∀ n < 20, (s.corrected u).reg (0x50100 + 4 * n) = min (s.reg (0x50100 + 4 * n) + u.hbmCe.count n) 0xFFFFFFFF)

/-- From R111 to R120, R123, R126, R127, R129 to R132: an MMA of a form that R117 refuses, with ACC and another shape than the
accumulator's, or whose gate program names a row beyond the slice, traps; one whose weight rows have not all come out of the
Skiver, or whose tile finds the finished-tile queue full, waits in flight, with what it has taken. Else the sums of the activation
tile with the weight run, from zero or from the accumulator, become the accumulator (DEST 0), or pass the gate program with the
scalars of the issue and are narrowed into a tile that goes to SPM (1 and 4) and to the finished-tile queue (2 and 4), or enter
the Lacing Unit row by row (3). -/
def Obligations.MatrixMultiply : Prop :=
  ∀ (s : State) (c : Nat) (w : BitVec 128) (u : Upset), bits w 0 8 = 0x20 → Issues c (.mma w) s →
    let m := mmaOp w
    let k := s.core c
    let prog := if m.dest = 0 then [] else k.gate m.prog
    let stages := gateStages prog
    let sregs := s.gateScalars c stages
    let trap := m.badForm = true ∨ (m.accum = true ∧ k.accShape ≠ some m.shape) ∨ ∃ r ∈ gateRows stages sregs, 12287 < r
    let waits := (m.queue = true ∧ k.xq.length < m.runRows) ∨ (m.toFtq = true ∧ 16 ≤ k.ftq.length)
    let taken := if m.queue then (k.xq.take m.runRows).flatten else []
    let xq := if m.queue then k.xq.drop m.runRows else k.xq
    (trap → ∃ t, exec (.mma c w u) s = .next t ∧ Trapped c 1 s t) ∧
    (¬ trap → Smooth u → waits →
      ∃ t f, exec (.mma c w u) s = .next t ∧ t = { s with regs := t.regs, cores := t.cores } ∧
        (∀ j, j ≠ c → t.core j = s.core j) ∧ t.core c = { k with accShape := some m.shape, xq := xq, flights := [f] } ∧
        f.op = .mma w ∧ f.issued = true ∧ f.prog.bytes = taken) ∧
    (¬ trap → Smooth u → ¬ waits →
      let run := if m.queue then taken else s.spmRead c (m.waddr * 512) (m.ncol * m.w)
      let sums := mmaSums m (s.spmRead c (m.atile * 512) 16384) run (s.mmaStart c m)
      let regs := mmaRegs m (s.gateEnv c stages sregs) sums
      let tile := (mmaTile m (prog.getD 0 0) regs k.rng).1
      let kept (t : State) : Prop := t = { s with regs := t.regs, cores := t.cores, mem := t.mem, free := t.free } ∧
        t.mem = { s.mem with spm := t.mem.spm } ∧ (∀ j, j ≠ c → t.core j = s.core j)
      (m.dest = 0 → ∃ t, exec (.mma c w u) s = .next t ∧ kept t ∧ t.mem = s.mem ∧
        t.core c = { k with acc := sums, accShape := some m.shape, xq := xq }) ∧
      (m.dest = 1 ∨ m.dest = 2 ∨ m.dest = 4 → ∃ t, exec (.mma c w u) s = .next t ∧ kept t ∧
        t.core c = { k with acc := [], accShape := some m.shape, xq := xq, rng := (t.core c).rng,
                            ftq := if m.dest = 1 then k.ftq else k.ftq ++ [tileCells tile] } ∧
        (m.dest ≠ 2 → t.spmRead c (m.daddr * 512) 16384 = tile) ∧
        (∀ a, m.dest = 2 ∨ a < c * 2 ^ 23 + m.daddr * 512 ∨ c * 2 ^ 23 + m.daddr * 512 + 16384 ≤ a →
          t.mem.spm.byte (fun _ => 0) a = s.mem.spm.byte (fun _ => 0) a)) ∧
      (m.dest = 3 → (∀ x ∈ s.cores, x.num = c → x.luq = []) →
        let s1 := (s.opStalls c (.mma w) u).corrected u
        let s2 := ({ s1 with free := if m.accum && k.acc.isEmpty then s.free + m.live * m.ncol else s.free } : State).updCore c
          fun x => { x with acc := [], accShape := some m.shape, xq := xq }
        exec (.mma c w u) s = .next (s2.forEach ((List.range regs.length).zip regs) fun r t =>
          if t.keeper.fstop then t else t.luEntry c (r.1, m.daddr % 2 ^ 10, mmaEntry (prog.getD 0 0) r.2))))

/-- From R126, R128: GPLOAD takes the gate program of a row into its slot, and changes nothing else; slot 0, a slot above 31 and a
program that R128 refuses trap. (A row beyond the slice traps too: notes/assumptions/63.md.) -/
def Obligations.Gpload : Prop :=
  ∀ (s : State) (c slot row : Nat) (u : Upset), Issues c (.gpload slot row) s →
    let ws := s.rowWords c row 9
    (slot = 0 ∨ 31 < slot ∨ 12287 < row ∨ gateBad ws = true →
      ∃ t, exec (.gpload c slot row u) s = .next t ∧ Trapped c 2 s t) ∧
    (1 ≤ slot → slot ≤ 31 → row ≤ 12287 → gateBad ws = false → Smooth u →
      exec (.gpload c slot row u) s = .next ((s.corrected u).updCore c fun k =>
        { k with gates := putKey slot (ws.take (1 + bits (ws.getD 0 0) 0 4)) k.gates }))

/-- From R140 to R142, R153 to R155, R159, R161: an LSCAN with a bad descriptor, or one that opens a forward context whose channel
blocks another open one has, traps. Else a forward scan opens its context, which declares its areas; a reverse scan runs to its
end, counts the cycles it yields, and changes no byte of SPM outside its gradients and, under ADPT, its adapters. From R209, R210,
R212 to R214, R219 to R221, R224: an attention pass traps on a bad form, and else writes nothing but its scores and statistics, its
values, or its transient pages. A score pass writes N, the number of keys it admits, beside M; with no key both are zero. A final
value pass writes zeros to a row that admits nothing, and counts it; expansion writes zeros where a page holds no token. -/
def Obligations.ScansAndAttention : Prop :=
  ∀ (s : State) (c : Nat) (w : BitVec 64) (u : Upset),
    let k := s.core c
    let byteOf (t : State) (a : Nat) : Byte := t.mem.spm.byte (fun _ => 0) a
    let out (a first lo n : Nat) : Prop := a < c * 2 ^ 23 + first * 512 + lo ∨ c * 2 ^ 23 + first * 512 + lo + n ≤ a
    let kept (t : State) : Prop := t = { s with regs := t.regs, cores := t.cores, mem := t.mem } ∧
      t.mem = { s.mem with spm := t.mem.spm } ∧ ∀ j, j ≠ c → t.core j = s.core j
    (∀ cmd, cmd = .lscanForward c w u ∨ cmd = .lscanReverse c w u → bits w 0 8 = 0x28 → Issues c (.lscan w) s →
      let i := bits w 8 2
      let rev := w.getLsbD 10
      let row := s.sreg c (bits w 11 6)
      let ws := s.rowWords c row 16
      let d := luDesc ws
      let bad := 12287 < row ∨ d.bad rev = true ∨ (rev = false ∧ ∃ p ∈ k.luForward, p.2.d.blocksMeet d = true)
      (bad → ∃ t, exec cmd s = .next t ∧ Trapped c 3 s t) ∧
      (¬ bad → rev = false → Smooth u → exec cmd s = .next ((s.corrected u).updCore c (Core.luSet i
        (some ⟨ws, List.replicate d.ncblk ⟨0, [], []⟩, none, declare (.lu i) ((row, 1) :: d.reads false) (d.writes false)⟩)))) ∧
      (¬ bad → rev = true → Smooth u → ∃ t, exec cmd s = .next t ∧ kept t ∧ t.core c = k ∧
        ((∀ n ∈ u.hbmCe, n < 20) → (∀ r, s.reg r ≤ 0xFFFFFFFF) →
          t.reg (corBase c + 0x258) = min (s.reg (corBase c + 0x258) + u.revWait) 0xFFFFFFFF) ∧
        ∀ a, out a d.dbase 0 (d.ncblk * d.nrow * d.len * 512) →
          (d.adpt = false ∨ out a d.abase 0 (((d.nrow - 1) * d.astride + d.ncblk * d.rank) * 512)) →
            byteOf t a = byteOf s a)) ∧
    (∀ cmd, cmd = .attScore c w u ∨ cmd = .attValue c w u ∨ cmd = .attExpand c w u → bits w 0 8 = 0x24 → Issues c (.att w) s →
      let pass := bits w 8 2
      let row := s.sreg c (bits w 10 6)
      let ds := s.rowWords c row 16
      let x := attDesc ds
      let ps := x.listed pass (ds ++ wordsOf (s.spmRead c (x.plist * 512) (8 * x.npg)))
      let bad := pass = 3 ∨ 12287 < row ∨ (pass = 0 ∧ x.badScore ps = true) ∨ (pass = 1 ∧ x.badValue ps = true) ∨
        (pass = 2 ∧ x.badExpand ps = true)
      (bad → ∃ t, exec cmd s = .next t ∧ Trapped c 6 s t) ∧
      (¬ bad → Smooth u → ∃ t, exec cmd s = .next t ∧ kept t ∧ t.core c = { k with rng := (t.core c).rng } ∧
        (pass = 0 →
          (∀ a, (∀ i < x.liveq, out a (x.drow + i * x.sqs) (x.col0 * x.eo) (attCols ps * x.eo) ∧ out a x.stats (32 * i) 8) →
            byteOf t a = byteOf s a) ∧
          (x.accum = false → attCols ps = 0 → ∀ i < x.liveq, t.spmRead c (x.stats * 512 + 32 * i) 8 = List.replicate 8 0) ∧
          (x.accum = false → x.liveq = 1 → attCols ps ≤ x.scoreKeys →
            t.spmRead c (x.stats * 512 + 4) 4 = leBytes 4 ((attTokens (runBytes x.kfmt x.d) ps).filter fun y =>
              x.admits (s.attWord c x.posq 0).toNat y.2).length)) ∧
        (pass = 1 →
          (∀ a, (∀ i < x.liveq, out a x.drow (i * x.d * x.eo) (x.d * x.eo)) → byteOf t a = byteOf s a) ∧
          (x.fin = true → x.liveq = 1 → s.attWord c x.stats 16 = 0 → (∀ n ∈ u.hbmCe, n < 20) →
            t.spmRead c (x.drow * 512) (x.d * x.eo) = List.replicate (x.d * x.eo) 0 ∧
            t.reg (corBase c + 0x2C0) = min (s.reg (corBase c + 0x2C0) + 1) 0xFFFFFFFF)) ∧
        (pass = 2 →
          (∀ a, out a x.drow 0 (x.xrows * 512) → byteOf t a = byteOf s a) ∧
          ((∀ p ∈ ps, p.cnt = 0) →
            t.spmRead c (x.drow * 512) (x.xrows * 512) = List.replicate (x.xrows * 512) 0))))

/-- From R168 to R177, R181 to R194: the five streaming instructions trap on what R194 lists, and else change nothing but
SPM, the core's buffers, its generator, its scalar registers and the counters. One repetition of at most 128 elements in a
32-bit format: VMAP and VPERM write each element's emitted value; VCPR packs the active
results to the front of Z, VXPN puts consecutive X elements at the active positions, and both write the number of active
elements to Y; VRED writes the reduction of the group. VQPOP moves the oldest finished tile into a buffer, or waits in flight; VBREL
ends the liveness of buffers; VSLOAD and VTLOAD take a stamp or a table, or trap. -/
def Obligations.VectorInstructions : Prop :=
  ∀ (s : State) (c : Nat) (v : BitVec 128) (w : BitVec 64) (u : Upset),
    let k := s.core c
    let all : List (VeKind × Nat × Instr) := [(.map, 0x30, .vmap c v u), (.red, 0x31, .vred c v u), (.cpr, 0x32, .vcpr c v u),
      (.xpn, 0x33, .vxpn c v u), (.perm, 0x34, .vperm c v u)]
    (∀ q ∈ all, bits v 0 8 = q.2.1 → Issues c (.stream q.1 v) s →
      let p := vePlan q.1 (veOp v) (k.stamp (veOp v).stamp) k.sregs
      (p.bad = true → ∃ t, exec q.2.2 s = .next t ∧ Trapped c 4 s t) ∧
      (p.bad = false → Smooth u →
        ∃ t, exec q.2.2 s = .next t ∧ t = { s with regs := t.regs, cores := t.cores, mem := t.mem } ∧
          t.mem = { s.mem with spm := t.mem.spm } ∧ (∀ j, j ≠ c → t.core j = s.core j) ∧
          t.core c = { k with rng := (t.core c).rng, bufs := (t.core c).bufs, sregs := (t.core c).sregs } ∧
          let zb := c * 2 ^ 23 + (p.z 0).byte
          let es := s.veGroup c p 0 0
          (p.op.reps = 1 → p.op.n ≤ 128 → p.op.zfmt = 0xD ∨ p.op.zfmt = 0xE → (p.z 0).buf = none →
            (q.1 = .map ∨ q.1 = .perm →
              (∀ a, a < zb ∨ zb + 4 * p.op.n ≤ a → t.mem.spm.byte (fun _ => 0) a = s.mem.spm.byte (fun _ => 0) a) ∧
              (t.core c).sregs = k.sregs ∧
              ∀ e ∈ es, t.spmRead c ((p.z 0).byte + 4 * e.1) 4 =
                (if e.2.1 then leBytes 4 e.2.2.1.toNat
                 else if p.op.mzero then List.replicate 4 0 else s.spmRead c ((p.z 0).byte + 4 * e.1) 4)) ∧
            (q.1 = .red →
              let r := redResult p.op.rop (redCombine p.op.rop (redIdentity p.op.rop)
                (tree256 (redCombine p.op.rop) (redIdentity p.op.rop)
                  (takePad (redIdentity p.op.rop) p.group (es.map (redLeaf p.op.rop)))))
              t.spmRead c (p.z 0).byte 4 = leBytes 4 r.1.toNat ∧
              (∀ a, a < zb ∨ zb + 4 ≤ a → t.mem.spm.byte (fun _ => 0) a = s.mem.spm.byte (fun _ => 0) a) ∧
              (t.core c).sregs = (if p.op.sden then updAt p.op.sdst (fun _ => r.1) k.sregs else k.sregs)) ∧
            (q.1 = .cpr → (p.y 0).buf = none →
              let live := es.filter fun e => e.2.1
              t.spmRead c (p.y 0).byte 4 = leBytes 4 live.length ∧
              ((p.y 0).meets 4 (p.z 0) (4 * p.op.n) = false →
                ∀ j e, live[j]? = some e → t.spmRead c ((p.z 0).byte + 4 * j) 4 = leBytes 4 e.2.2.1.toNat)) ∧
            (q.1 = .xpn → (p.y 0).buf = none →
              let before (i : Nat) : Nat := ((List.range i).filter fun j => s.veMask c p 0 j).length
              t.spmRead c (p.y 0).byte 4 = leBytes 4 (before p.op.n) ∧
              ((p.y 0).meets 4 (p.z 0) (4 * p.op.n) = false →
                ∀ i < p.op.n, s.veMask c p 0 i = true → t.spmRead c ((p.z 0).byte + 4 * i) 4 =
                  leBytes 4 (s.veEval c p 0 i (s.veElem c (p.x 0) p.op.xfmt (before i))).2.1.toNat))))) ∧
    (let b := bits w 8 2
     bits w 0 8 = 0x38 → Issues c (.vqpop b) s → Smooth u →
      (k.ftq = [] → ∃ t f, exec (.vqpop c w u) s = .next t ∧ t = { s with regs := t.regs, cores := t.cores } ∧
        (∀ j, j ≠ c → t.core j = s.core j) ∧ t.core c = { k with flights := [f] } ∧ f.op = .vqpop b ∧ f.issued = true) ∧
      (∀ tile rest, k.ftq = tile :: rest → exec (.vqpop c w u) s =
        .next (((s.tally (ctrVe c 0) u.ftqStall).corrected u).updCore c fun x =>
          { x with ftq := rest, bufs := updAt b (fun _ => (tile, true)) x.bufs }))) ∧
    (bits w 0 8 = 0x3B → Issues c (.vbrel (bits w 8 4)) s → Smooth u → k.bufs.length = 4 →
      ∃ t, exec (.vbrel c w u) s = .next t ∧ t = { s with regs := t.regs, cores := t.cores } ∧
        (∀ j, j ≠ c → t.core j = s.core j) ∧ t.core c = { k with bufs := (t.core c).bufs } ∧
        ∀ b < 4, (t.core c).bufs.getD b ([], false) =
          ((k.bufs.getD b ([], false)).1, (k.bufs.getD b ([], false)).2 && !(w.getLsbD (8 + b)))) ∧
    (let slot := bits w 8 4
     let row := s.sreg c (bits w 12 6)
     let ws := s.rowWords c row 33
     bits w 0 8 = 0x39 → Issues c (.vsload slot (bits w 12 6)) s →
      (slot = 0 ∨ 12287 < row → ∃ t, exec (.vsload c w u) s = .next t ∧ Trapped c 4 s t) ∧
      (slot ≠ 0 → row ≤ 12287 → stampBad ws = true → ∃ t, exec (.vsload c w u) s = .next t ∧ Trapped c 5 s t) ∧
      (slot ≠ 0 → row ≤ 12287 → stampBad ws = false → Smooth u → exec (.vsload c w u) s =
        .next ((s.corrected u).updCore c fun x =>
          { x with stamps := putKey slot (ws.take (1 + bits (ws.getD 0 0) 0 6)) x.stamps }))) ∧
    (let row := s.sreg c (bits w 10 6)
     let t := userTable (s.rowWords c row 5) (s.rowWords c (row + 1) 512)
     let good := row ≤ 12283 ∧ finite32 t.lo = true ∧ finite32 t.invstep = true ∧ (f32 0).lt (f32 t.invstep) = true
     bits w 0 8 = 0x3A → Issues c (.vtload (bits w 8 2) (bits w 10 6)) s →
      (¬ good → ∃ x, exec (.vtload c w u) s = .next x ∧ Trapped c 4 s x) ∧
      (good → Smooth u → exec (.vtload c w u) s =
        .next ((s.corrected u).updCore c fun x => { x with tables := putKey (bits w 8 2) t x.tables })))

/-- From R70, R71, R235, R241, R242, R257, R259, R260, R282, R284, R312 to R325, R458: SKX expands a stored tile into the expansion
queue or to a tile of the slice, or faults on a mismatch; SKC codes raw tiles without a table into SPM and gives their length;
DMOV copies a row and DTENS a 4-byte element within the slice, and a DMOV that the next command finds in flight has copied the
rows it is told; WOPEN opens and WCLOSE closes a window; a time read gives a value within 1 ns of CIN_NOW; an opcode without
meaning traps with its code. The forms of SKX, SKC and WOPEN that R260 and R284 refuse trap, and so does a descriptor row beyond the
slice. -/
def Obligations.DataMovement : Prop :=
  ∀ (s : State) (c : Nat) (w : BitVec 64) (hw : Bool) (sreg : Nat) (u : Upset), s.corePart? c ≠ none →
    let k := s.core c
    let r := bits w 8 6
    let row := s.sreg c r
    let ws := s.rowWords c row 8
    let sk := skDesc ws
    let md := moveDesc ws
    let p := (s.corePart? c).getD 0
    let onlySpm (t : State) (lo n : Nat) : Prop := t = { s with regs := t.regs, mem := t.mem } ∧
      t.mem = { s.mem with spm := t.mem.spm } ∧
      ∀ a, a < c * 2 ^ 23 + lo ∨ c * 2 ^ 23 + lo + n ≤ a → t.mem.spm.byte (fun _ => 0) a = s.mem.spm.byte (fun _ => 0) a
    (bits w 0 8 = 0x2C → Issues c (.skx w) s →
      (12287 < row ∨ (sk.queue = false ∧ rawSpmBad sk.dst sk.n = true) →
        ∃ t, exec (.skx c w u) s = .next t ∧ Trapped c 7 s t) ∧
      (∀ i, row ≤ 12287 → Smooth u → sk.n = 1 → sk.src = spmAddr c i →
        let len := max 8 (tileLen (s.spmRead c i 8))
        i + len ≤ 12288 * 512 →
          (∀ e, s.expandTile p (s.spmRead c i len) = .error e →
            sk.queue = true → k.xq.length < 64 → ∃ t, exec (.skx c w u) s = .next t ∧ Faulted 1 4 s t) ∧
          (∀ raw, s.expandTile p (s.spmRead c i len) = .ok raw →
            (sk.queue = true → k.xq.length ≤ 32 → exec (.skx c w u) s = .next ((s.corrected u).updCore c fun x =>
              { x with xq := x.xq ++ (List.range 32).map fun j => (raw.drop (512 * j)).take 512 })) ∧
            (∀ j, sk.queue = false → sk.dst = spmAddr c (16384 * j) → j < 384 →
              ∃ t, exec (.skx c w u) s = .next t ∧ onlySpm t (16384 * j) 16384 ∧ t.spmRead c (16384 * j) 16384 = raw)))) ∧
    (bits w 0 8 = 0x2D → Issues c (.skc w hw) s →
      (12287 < row ∨ sk.ew = 3 ∨ (sk.tmode = 3 ∧ (3 < sk.slot ∨ fixedEw sk.slot ≠ sk.ew)) ∨ rawSpmBad sk.src sk.n = true ∨
          (hw = true ∧ (sk.tmode = 1 ∨ sk.tmode = 2)) →
        ∃ t, exec (.skc c w hw u) s = .next t ∧ Trapped c 7 s t) ∧
      (∀ i j, row ≤ 12287 → Smooth u → sk.tmode = 0 → sk.ew ≤ 2 → sk.n = 1 → sk.src = spmAddr c (16384 * i) →
        sk.dst = spmAddr c j → i < 384 → j + 16392 ≤ 12288 * 512 →
        let tile := codeTile sk.ew none (s.spmRead c (16384 * i) 16384)
        ∃ t, exec (.skc c w hw u) s = .next t ∧ t = { s with regs := t.regs, mem := t.mem, cores := t.cores } ∧
          t.spmRead c j tile.bytes.length = tile.bytes ∧ t.mem = { s.mem with spm := t.mem.spm } ∧
          (∀ d, d ≠ c → t.core d = s.core d) ∧
          t.core c = { k with sregs := updAt (bits w 14 6) (fun _ => BitVec.ofNat 32 tile.bytes.length) k.sregs } ∧
          ∀ a, a < c * 2 ^ 23 + j ∨ c * 2 ^ 23 + j + tile.bytes.length ≤ a →
            t.mem.spm.byte (fun _ => 0) a = s.mem.spm.byte (fun _ => 0) a)) ∧
    (bits w 0 8 = 0x40 → Issues c (.dmov r) s →
      (12287 < row → ∃ t, exec (.dmov c w u) s = .next t ∧ Trapped c 8 s t) ∧
      (∀ i j, row ≤ 12287 → Smooth u → md.nr = 1 → md.nrep = 1 → i < 12288 → j < 12288 → md.src = spmAddr c (512 * i) →
        md.dst = spmAddr c (512 * j) →
          ∃ t, exec (.dmov c w u) s = .next t ∧ onlySpm t (512 * j) 512 ∧ t.row c j = s.row c i) ∧
      (∀ n, row ≤ 12287 → u.uncorr = none → u.badTile = none → u.cut = some n → n < md.total →
        ((s.corrected u).moveRows c md 0 n).keeper.fstop = false →
          ∃ t f, exec (.dmov c w u) s = .next t ∧ t.mem = ((s.corrected u).moveRows c md 0 n).mem ∧
            (t.core c).flights = [f] ∧ f.op = .dmov r ∧ f.prog.done = n ∧ f.issued = true)) ∧
    (bits w 0 8 = 0x41 → Issues c (.dtens r) s →
      (12287 < row → ∃ t, exec (.dtens c w u) s = .next t ∧ Trapped c 8 s t) ∧
      (∀ i j, let m := tensMove (s.rowWords c row 48)
        row ≤ 12287 → Smooth u → m.gmode = 0 → m.src.fmt = 0xD → m.dst.fmt = 0xD → m.src.blocked = false →
        m.dst.blocked = false → m.dst.sizes.foldl (· * ·) 1 = 1 → i < 12288 → j < 12288 → m.src.base = spmAddr c (512 * i) →
        m.dst.base = spmAddr c (512 * j) →
          ∃ t, exec (.dtens c w u) s = .next t ∧ onlySpm t (512 * j) 4 ∧
            t.spmRead c (512 * j) 4 = s.spmRead c (512 * i) 4)) ∧
    (let n := bits w 8 4
     (let q := bits w 12 6
      let w0 := (s.rowWords c (s.sreg c q) 2).getD 0 0
      let w1 := (s.rowWords c (s.sreg c q) 2).getD 1 0
      bits w 0 8 = 0x44 → Issues c (.wopen n q) s →
        (8 ≤ n ∨ 12287 < s.sreg c q ∨ windowLegal w0 w1 = false →
          ∃ t, exec (.wopen c w u) s = .next t ∧ Trapped c 9 s t) ∧
        (n < 8 → s.sreg c q ≤ 12287 → windowLegal w0 w1 = true → Smooth u →
          exec (.wopen c w u) s = .next ((s.corrected u).updCore c fun x =>
            { x with windows := updAt n (fun _ => ⟨w0 &&& 0x3FFFFFFF, w1 &&& 0x3FFFFF, 0, true⟩) x.windows }))) ∧
     (bits w 0 8 = 0x45 → Issues c (.wclose n) s →
       (8 ≤ n → ∃ t, exec (.wclose c w u) s = .next t ∧ Trapped c 9 s t) ∧
       (n < 8 → Smooth u → exec (.wclose c w u) s = .next ((s.corrected u).updCore c fun x =>
         { x with windows := updAt n (fun y => { y with isOpen := false }) x.windows })))) ∧
    (1 ≤ s.tb.now → Issues c (.timeRead sreg) s →
      ∃ t T, exec (.timeRead c sreg) s = .next t ∧ t = { s with cores := t.cores } ∧ (∀ j, j ≠ c → t.core j = s.core j) ∧
        s.tb.now ≤ T + 1 ∧ T ≤ s.tb.now + 1 ∧
        (let low := updAt sreg (fun _ => BitVec.ofNat 32 (T % 2 ^ 32)) k.sregs
         t.core c = { k with sregs := updAt (sreg + 1) (fun _ => BitVec.ofNat 32 (T / 2 ^ 32)) low })) ∧
    (Issues c (.illegal (opTrap (bits w 0 8))) s → ∃ t, exec (.illegalOp c w) s = .next t ∧ Trapped c (opTrap (bits w 0 8)) s t)

/-- From R235, R238 to R242: the coding loses nothing. Whatever the element width and the table, expanding a coded block gives back its
512 bytes and uses exactly its length, whatever follows it; expanding a coded tile gives back its 16,384 bytes. -/
def Obligations.CodingIsLossless : Prop :=
  ∀ (ew : Nat) (tab : Option TableUse) (look : Bool → Nat → Nat → Nat → Option (List Nat)), ew ≤ 2 →
    (∀ t, tab = some t → look t.fixed t.slot (if t.fixed then 0 else t.gen) ew = some t.entries ∧ t.slot < 8 ∧
      (t.fixed = true → t.slot ≤ 3) ∧ (t.fixed = false → t.gen ≤ 1)) →
    (∀ row tail : List Byte, row.length = 512 →
      expandBlock look ((codeBlock ew tab row).bytes ++ tail) = some (row, (codeBlock ew tab row).bytes.length)) ∧
    ∀ raw : List Byte, raw.length = 16384 → expandRaw look (codeTile ew tab raw).bytes = some raw

/-! ### The Saddler's launches, pages and records (02, 03, 08, 12, 13, 16, 18) -/

/-- From R35 to R37, R46, R51, R374: a launch decision falls the decision lead before its tick. Where the group's members meet its pins and
it merges into no other, every member that may launch and has a chunk, or reads a source, is a row of one launch job of that
tick and beat, with the length, chunk, marks and deadline of `rowOf`, and is decided for the beat; only the first step of a linked row may
be held there (R379, notes/assumptions/114.md); a host-fed member without a
chunk counts one no-input; a single row's chunk has left the stream's queue. (A source's damaged page may end the decision in
a job fault, R300.) A wake is issued the effective wake lead of the
deepest state before the tick (R77): sleeping cores begin to wake, resident rows are ARMED. A core that has entered the state
ordered is in it, with its context in its spill area on entry to DEEP; a core that has woken is ARMED (R507 to R509), unless the
context it reads back from DEEP meets an uncorrectable byte (R293). -/
def Obligations.DecisionsAndWakes : Prop :=
  ∀ s : State, s.alive = true →
    (∀ grp beat g, s.group? grp = some g → s.work.started = true → g.companionOf = none → beat % g.cadence = g.offset →
      s.partStarted g.part = true → s.work.partReset.contains g.part = false → s.tb.now ≤ s.tickTime beat g.slot →
      g.nextCores = none →
      let tick := s.tickTime beat g.slot
      let u := s.advanceTo (tick - min (s.reg 0x30014 * 1000) s.period)
      let v := u.placeCopies g.model g.cores
      (∀ x ∈ s.members grp, s.stream? x.id = some x ∧ g.meets x.pins = true) → u.mergeInto g beat = none →
      ∃ t, exec (.launchDecision grp beat) s = .next t ∧ t.tb = u.tb ∧
        ((∀ x ∈ s.members grp, x.source = none) ∨ t.keeper.fstop = false →
        s.work.jobs.length ≤ t.work.jobs.length ∧ t.work.jobs.take s.work.jobs.length = s.work.jobs ∧
        (∀ j ∈ t.work.jobs.drop s.work.jobs.length, j.phase = .decided ∧ j.tick = tick ∧ j.due = tick ∧ j.beat = beat ∧ j.age = 0 ∧
          j.grp?.isSome = true ∧ (j.fb = false → j.kind = .launch grp ∧ j.cores = g.cores)) ∧
        (∀ x ∈ s.members grp, x.mayLaunch beat = true →
          (∀ r, v.rowOf x tick = some r →
            (∃ j ∈ t.work.jobs.drop s.work.jobs.length, ∃ q ∈ j.rows, q.flags = r.flags + (if j.fb then 256 else 0) ∧
              q = { r with flags := q.flags, held := q.held, views := q.views, spans := q.spans } ∧
              q.held ≤ 1 ∧ (x.source = none → q.held = 0) ∧ 1 ≤ q.spans ∧
              (j.fb = false → q.spans ≤ max 1 (coreList j.cores).length)) ∧
            (∃ y, t.stream? x.id = some y ∧ y.decided = true ∧ y.lastBeat = some beat ∧ y.resetMark = false ∧ y.carriedSteps = 0) ∧
            ((s.members grp).length = 1 → r.chunk.isSome = true →
              ∃ y, t.stream? x.id = some y ∧ y.waiting = x.waiting.drop 1)) ∧
          (v.rowOf x tick = none → ∃ y, t.stream? x.id = some y ∧ y.noInput = min (x.noInput + 1) 0xFFFFFFFF)))) ∧
    (∀ grp j, (s.jobIn grp fun j => !j.woken && (j.phase == .decided || j.phase == .waiting)) = some j →
      let u := s.advanceTo (j.tick - s.wakeLead (s.deepest (coreList j.cores)))
      ∃ t, exec (.wakeIssue grp) s = .next t ∧ t = { u with work := t.work, cores := t.cores } ∧
        (t.job? j.id).map (·.woken) = some true ∧
        (∀ c, t.core? c = if j.cores.getLsbD c then (s.core? c).map fun k =>
            if k.entering.isSome then { k with wakePending := true }
            else if k.pstate = .doze ∨ k.pstate = .nap ∨ k.pstate = .deep then { k with waking := true } else k
          else s.core? c) ∧
        (∀ r ∈ j.rows, ∀ x, s.stream? r.stream = some x → x.state = .resident → x.record.state = .S →
          ∃ y, t.stream? r.stream = some y ∧ y.state = .armed) ∧
        ∀ i, (∀ r ∈ j.rows, r.stream ≠ i) → t.stream? i = s.stream? i) ∧
    (s.wakeLead .doze = max (s.reg 0x20048) 250 ∧ s.wakeLead .nap = max (s.reg 0x2004C) 4100 ∧
      s.wakeLead .deep = max (s.reg 0x20050) 60100) ∧
    (∀ c k p, s.core? c = some k → k.entering = some p →
      (p ≠ .deep → exec (.coreStateEntryDone c) s = .next (s.updCore c fun k =>
        { k with pstate := p, entering := none, waking := k.wakePending, wakePending := false })) ∧
      (p = .deep → ∃ t, exec (.coreStateEntryDone c) s = .next t ∧
        t = { s with free := t.free, cores := t.cores, mem := { s.mem with hbm := t.mem.hbm } } ∧
        t.core? c = some { k with pstate := .deep, entering := none, deepCtx := true, snap := k.sregs, waking := k.wakePending
                                  wakePending := false } ∧
        (∀ i, i ≠ c → t.core? i = s.core? i) ∧
        ∀ d < 10, ∀ o < dieBytes, c < 160 → d ≠ c / 16 ∨ o < c % 16 * spillBytes + 6384 * 1024 ∨
          c % 16 * spillBytes + 6400 * 1024 ≤ o → t.dieRead d o 1 = s.dieRead d o 1)) ∧
    (∀ c k u, s.core? c = some k → k.waking = true → k.entering = none →
      (k.pstate ≠ .deep ∨ (u.uncorr = none ∧ u.badTile = none) → exec (.coreArmed c u) s =
        .next ((s.corrected u).updCore c fun k => { k with pstate := .armed, waking := false, deepCtx := false })) ∧
      (∀ a, k.pstate = .deep → c < 160 → u.uncorr = some (2, a) →
        dieAddr (c / 16) (c % 16 * spillBytes + 6384 * 1024) ≤ a →
        a < dieAddr (c / 16) (c % 16 * spillBytes + 6384 * 1024) + 16384 →
          ∃ t, exec (.coreArmed c u) s = .next t ∧ Faulted 2 2 s t))

/-- From R74 to R76, R340, R346, R353, R366 to R371, R385, R386, R522: at its tick, or when what held it is open, a launch whose rows are
resident and read, whose cores are free and ARMED, and that nothing comes before, starts: its cores are ACTIVE with the scalar
registers of R385, its rows RUNNING, and CIN_LATE_ARM counts where a core was not ARMED at the tick. Else it waits and counts what
it waits for, and pre-empts jobs of lower effective priority, which are suspended and spilled; a suspended job resumes with
what it spilled, its released buffers excepted (R192). Each whole interval of waiting adds one to a job's or a queued move's age. -/
def Obligations.DispatchAndPreemption : Prop :=
  ∀ (s : State) (grp time : Nat), s.alive = true →
    let counted (t u : State) (off : Nat) (on : Bool) : Prop := t.reg off = if on then min (u.reg off + 1) 0xFFFFFFFF else u.reg off
    let staged (j : Job) (u : State) : Prop :=
      (((u.when j.lateArm (State.bump ctrLateArm)).layRecords (j.rows.map (·.stream)) j.cores).stageRows j).keeper.fstop = false
    let starts (j : Job) (u t : State) : Prop :=
      t = { u with free := t.free, regs := t.regs, work := t.work, cores := t.cores, mem := t.mem } ∧
      (∃ q, t.job? j.id = some q ∧ q.phase = .running ∧ q.age = 0 ∧ q.start = u.tb.now) ∧
      (∀ i c, (coreList j.cores)[i]? = some c → u.core? c ≠ none → ∃ k, t.core? c = some k ∧ k.pstate = .active ∧
        k.job = some j.id ∧ k.sregs.getD 1 0 = BitVec.ofNat 32 i ∧
        k.sregs.getD 2 0 = BitVec.ofNat 32 (coreList j.cores).length ∧ k.sregs.getD 3 0 = BitVec.ofNat 32 (j.grp?.getD 0)) ∧
      (∀ c, j.cores.getLsbD c = false → t.core? c = u.core? c) ∧
      (∀ r ∈ j.rows, ∀ x, u.stream? r.stream = some x → ∃ y, t.stream? r.stream = some y ∧ y.state = .running) ∧
      counted t u 0x20040 j.lateArm
    (∀ j, (s.jobIn grp fun j => j.phase == .decided) = some j →
      let u := s.advanceTo j.tick
      let late := !(coreList j.cores).all fun c => (s.core c).pstate == .armed && (s.core c).entering.isNone
      let j1 : Job := { j with phase := .waiting, lateArm := late, waitFrom := u.tb.now }
      let v := u.updJob j.id fun _ => j1
      ∃ t, exec (.tick grp) s = .next t ∧
        (v.mayStart j1 = true → staged j1 v → starts j1 v t) ∧
        (v.mayStart j1 = false →
          t = { v with free := t.free, regs := t.regs, work := t.work, cores := t.cores, mem := t.mem } ∧
          counted t v 0x5053C (!v.resident j1) ∧ counted t v 0x50540 (v.mirReads j1) ∧
          counted t v 0xC002C (v.capsJob j1) ∧
          (v.capsJob j1 = true → t.mem = v.mem ∧ t.cores = v.cores ∧
            t.work = (v.updJob j.id fun q => { q with deferred := true }).work) ∧
          (v.capsJob j1 = false → v.victims j1 = [] → t = { v with regs := t.regs }) ∧
          (v.capsJob j1 = false → v.victims j1 ≠ [] →
            (t.job? j.id).map (·.phase) = some .switching ∧
            (∀ w ∈ v.victims j1, w.eff < j1.eff ∧ (t.job? w.id).map (·.phase) = some .suspended) ∧
            (∀ c, j.cores.getLsbD c = true → v.core? c ≠ none → ∃ k, t.core? c = some k ∧ k.job = some j.id ∧
              ((∃ w ∈ v.victims j1, w.cores.getLsbD c = true ∧ (v.core c).job = some w.id) → k.saved.isSome = true)) ∧
            t.reg 0x3004C = min (v.reg 0x3004C + (v.victims j1).length) 0xFFFFFFFF))) ∧
    (∀ j, (s.jobIn grp fun j => j.phase == .waiting) = some j → j.tick ≤ time → s.mayStart j = true →
      staged j (s.advanceTo time) → ∀ i, i = .lateStrobe grp time ∨ i = .heldDispatch grp time → ∃ t, exec i s = .next t ∧ starts j (s.advanceTo time) t) ∧
    (∀ j, (s.jobIn grp fun j => j.phase == .switching) = some j → j.tick ≤ time → s.gatesOpen j = true →
      (coreList j.cores).all (fun c => (s.core c).switchReady) = true → staged j (s.advanceTo time) →
      ∃ t, exec (.switchComplete grp time) s = .next t ∧ starts j (s.advanceTo time) t) ∧
    (∀ j, (s.jobIn grp fun j => j.phase == .suspended) = some j →
      (∀ c, j.cores.getLsbD c = true → s.coreFree j c = true ∧ (s.core c).switchReady = true ∧
        ((s.core c).saved = none ∨ (s.core c).susp = some j.id)) →
      s.firstOf j = true → s.capsJob j = false →
      (∀ k ∈ s.cores, k.flights = [] ∧ ∀ v, k.saved = some v → v.flights = []) →
      let u := s.advanceTo time
      ∃ t, exec (.jobResume grp time) s = .next t ∧
        t = { u with free := t.free, work := t.work, cores := t.cores, mem := t.mem } ∧
        (∃ q, t.job? j.id = some q ∧ q.phase = .running ∧ q.age = 0) ∧
        (∀ c, j.cores.getLsbD c = false → t.core? c = s.core? c) ∧
        (∀ c k, j.cores.getLsbD c = true → s.core? c = some k → ∃ y, t.core? c = some y ∧ y.job = some j.id ∧
          y.pstate = .active ∧ y.saved = none ∧
          ∀ v, k.saved = some v → y.sregs = v.sregs ∧ y.acc = v.acc ∧ y.accShape = v.accShape ∧
            y.lu = (Core.unpause { k with lu := v.lu }).lu ∧ y.stamps = v.stamps ∧ y.tables = v.tables ∧ y.xq = v.xq ∧
            y.ftq = v.ftq ∧ y.bufs.length = v.bufs.length ∧
            ∀ (i : Nat) b, v.bufs[i]? = some b → ∃ d, y.bufs[i]? = some d ∧ d.2 = b.2 ∧ (b.2 = true → d = b)) ∧
        ∀ c k v, coreList j.cores = [c] → s.core? c = some k → k.saved = some v → (v.rows.map (·.1)).Nodup →
          (∀ r ∈ v.rows, r.2.length = 512) → ∀ r ∈ v.rows, t.row c r.1 = r.2) ∧
    (∀ n j, n < 2 ^ 32 → s.job? n = some j → j.waits = true →
      ∃ t q, exec (.ageInterval n) s = .next t ∧ t.job? n = some q ∧ q.age = min 255 (j.age + 1) ∧
        q.waitFrom = j.waitFrom + s.reg 0x30018 * 1000 ∧ counted t s 0x30050 (decide (j.eff < min 3 (j.base + min 255 (j.age + 1))))) ∧
    (∀ i m, s.move? i = some m → m.started = false →
      ∃ t q, exec (.ageInterval (2 ^ 32 + i)) s = .next t ∧ t.move? i = some q ∧ q = { m with age := min 255 (m.age + 1) } ∧
        counted t s 0x30050 (decide (m.eff < q.eff)))

/-- From R26, R203, R205, R207, R227, R228, R338, R342, R345, R356, R377 to R379, R385: at a chunk end every core of the job is free,
its registers copied and kept for the model's next run, the group's history moves towards the measured cost, and the row's
carried-out state is written: SEQ counts, LASTTICK is the launch's tick, held steps carry over; the stream rests RESIDENT, or
PARKED where placement does not keep its record; a late end counts. (Instructions that have not ended are run out first; the
statement is about a chunk whose instructions have ended.) At a token-step boundary a leaving sequence releases its
pages, a need takes a page or begins an eviction or holds the row, and a join takes its references and its pages or is deferred;
an eviction ends with the page in the CXL tier, in the frame named or in a packed one. -/
def Obligations.ChunkEndsAndPages : Prop :=
  ∀ (s : State) (grp : Nat) (j : Job), s.alive = true → (s.jobIn grp fun j => j.phase == .running) = some j →
    let counted (t : State) (off : Nat) (on : Bool) : Prop := t.reg off = if on then min (s.reg off + 1) 0xFFFFFFFF else s.reg off
    (∀ rep : ChunkReport, j.start ≤ rep.time → (∀ c, Quiet c s) → s.job? j.id = some j → rep.errors.uncorr = none →
      rep.errors.badTile = none → (∀ n ∈ rep.errors.hbmCe, n < 20) →
      let model := (s.group? grp).elim 0 (·.model)
      ∃ t, exec (.chunkEnd grp rep) s = .next t ∧ t.job? j.id = none ∧
        (∀ c k, s.core? c = some k → ∃ y, t.core? c = some y ∧
          if j.cores.getLsbD c then y.job = none ∧ y.snap = k.sregs ∧ y.sregs = k.sregs ∧ getKey model y.progs = some k.sregs
          else y.job = k.job ∧ y.sregs = k.sregs ∧ y.progs = k.progs) ∧
        (∀ g h, s.group? grp = some g → (∀ y ∈ s.work.groups, y.num = grp → y = g) → t.group? grp = some h → h.hist = nextHist g.hist
          ((rep.cycles - (s.groupCosts g).1) * 256 / max 1 (j.rows.length * j.len)) (s.reg 0x30020)) ∧
        ∀ r x, j.rows = [r] → s.stream? r.stream = some x → x.cmd = none →
          counted t 0x30040 (decide (r.deadline < rep.time)) ∧
          ∃ y, t.stream? r.stream = some y ∧ y.seq = x.seq + 1 ∧ y.lastTick = j.tick ∧
            y.carriedSteps = x.carriedSteps + r.held ∧ y.sealed = x.sealed + (r.len - r.held) ∧
            (y.state = .resident ∨ (y.state = .parked ∧ y.record.state = .H ∧ y.record.spm = none)) ∧
            (x.pins.home = some 0 → y.state = .resident)) ∧
    (∀ (q : TokenRow) (frames : List Nat) (u : Upset) (r : LaunchRow) (x : Stream), j.rows[q.row]? = some r →
      s.stream? r.stream = some x → u.uncorr = none → u.badTile = none → (∀ n ∈ u.hbmCe, n < 20) →
      let cmd : Instr := .tokenStepBoundary grp [q] frames u
      let s' := s.corrected u
      (q.leaves = true → q.needs = [] → q.appends = [] → q.joins = [] → q.shared = [] →
        exec cmd s = .next (s'.releasePages x.id (x.pages.filter fun n => !x.ctx.contains n))) ∧
      (∀ kind fmt shape p0, q.leaves = false → q.needs = [(kind, fmt, shape, p0)] → q.appends = [] → q.joins = [] → q.shared = [] →
        (pageOk kind fmt shape = false → exec cmd s = .next s') ∧
        (∀ fr v, pageOk kind fmt shape = true → s'.takeFrame x.part frames = some (fr, v) → ∃ t pg, exec cmd s = .next t ∧
          t.stream? x.id = (v.stream? x.id).map (fun y => { y with pages := y.pages ++ [pg.num] }) ∧ t.page? pg.num = some pg ∧
          v.page? pg.num = none ∧ pg = Page.fresh pg.num x.part kind fmt shape p0 x.id x.main fr) ∧
        (pageOk kind fmt shape = true → s'.takeFrame x.part frames = none →
          (∀ p, s.partCxlGib x.part ≠ 0 → s.evictable x.part = some p → ∃ t, exec cmd s = .next t ∧
            (t.page? p.num).map (·.evicting) = some true ∧ counted t 0x50418 true) ∧
          (s.partCxlGib x.part = 0 ∨ s.evictable x.part = none → ∃ t, exec cmd s = .next t ∧
            t = { s with regs := t.regs, work := t.work } ∧ t.work.streams = s.work.streams ∧ counted t 0x50420 true ∧
            counted t 0x30054 true ∧ ∀ o, s.job? j.id = some o →
              t.job? j.id = some { o with rows := updAt q.row (fun r => { r with held := r.held + 1 }) o.rows }))) ∧
      (∀ v, q.leaves = false → q.needs = [] → q.appends = [] → q.joins ≠ [] →
        State.addRefs x.id frames (s'.prefixRefs x q.shared) s' = .ok v →
          (∀ t, State.reserveAll x frames q.joins v = some t → exec cmd s = .next t) ∧
          (State.reserveAll x frames q.joins v = none →
            ∃ t, exec cmd s = .next t ∧ t = { s with regs := t.regs } ∧ counted t 0x5041C true))) ∧
    (∀ n frame p u, s.page? n = some p → p.evicting = true → u.uncorr = none → u.badTile = none →
      s.cxlSpotFree (frameAddr 2 frame) 16384 = true → s.cxlUsed p.part + 16384 ≤ s.partCxlGib p.part * 2 ^ 30 →
      ((s.locate (frameAddr 2 frame) 16384).any fun l => !s.poisoned l 16384) = true →
      (∀ raw, s.pageRaw p = .ok raw → ∃ t y, exec (.kvEvictionDone n frame u) s = .next t ∧ t.page? n = some y ∧
        y = { p with evicting := false, tier := 2, frame := y.frame, skv := y.skv } ∧
        (y.frame = frame ∨ s.framePacked 2 y.frame = true)) ∧
      (∀ e, s.pageRaw p = .error e → ∃ t, exec (.kvEvictionDone n frame u) s = .next t ∧ Faulted 1 4 s t))

/-- From R31, R95, R98, R99, R103, R294, R295, R406, R442, R450, R459, R495: a beat boundary makes doorbell fetches due on every enabled
ring group, ends a takeover in SOLO with no mirror left, and fences a partner whose service trails by 2 beats; either watchdog
is a job fault of cause 4. A CXL port that trains takes its capacity less the tag area, and one that goes down is counted. A
conversion takes the stream's next chunk into the free half, moves the window on and counts what Table 4-4 finds; done, the
chunk counts as fetched. -/
def Obligations.BeatsPortsAndConversions : Prop :=
  ∀ s : State,
    (∀ beat, s.alive = true → s.work.started = true → (∀ b, s.work.beat = some b → b < beat) →
      ∃ t, exec (.beatBoundary beat) s = .next t ∧ t.work.beat = some beat ∧
        (∀ g, (s.hif.rgs.find? fun r => r.num == g).any (·.en) = true → (t.rg g).beatDue = true) ∧
        t.work.served = (if s.hif.rgs.any (·.en) then s.work.served else beat) ∧
        (s.pair.state = .takeover → t.pair.state = .solo ∧ t.pair.mirrors = [] ∧ t.pair.inbound = [] ∧ t.pair.reserved = []) ∧
        (s.pair.state = .paired → s.pair.partnerStarted = true → s.pair.partnerService + 2 ≤ t.work.served →
          t.pair.state = .takeover ∧ t.pair.path = 4)) ∧
    (∀ c, s.alive = true → nbits (s.reg 0xA0008) 0 16 ≠ 0 →
      (((s.core c).job.bind s.job?).any fun j => j.phase == .running && j.grp?.isSome) = true →
      ∃ t, exec (.coreProgressWatchdog c) s = .next t ∧ Faulted 4 1 s t) ∧
    (∀ beat b, s.alive = true → s.work.started = true → nbits (s.reg 0xA0008) 16 1 = 1 → s.work.served < beat →
      s.work.beat = some b → beat ≤ b →
      ∃ t, exec (.beatServiceWatchdog beat) s = .next t ∧ Faulted 4 2 (s.advanceTo (s.beatStart (beat + 2))) t) ∧
    (∀ port width speed cap ide chain, s.power.booting = true → s.power.resetting = some .cold → port < 2 → width < 3 → speed < 3 → cap ≤ 2 ^ 43 →
      (s.port port).up = false → nbits (s.reg 0x60000) port 1 = 1 →
      let meas := updAt (8 + port) (fun _ => if chain.isEmpty then List.replicate 64 0 else Config.shake256 chain 64) s.bridle.meas
      let trained : CxlPort := { up := true, width := width, speed := speed, ide := ide
                                 cap := (cap - cap / 4096) / 16384 * 16384 }
      exec (.cxlPortTrained port width speed cap ide chain) s = .next { s with
        bridle := { s.bridle with meas := meas }
        board := if nbits (s.reg 0x60000) 3 1 = 1 ∧ ide = false then s.board
          else { s.board with ports := updAt port (fun _ => trained) s.board.ports } }) ∧
    (∀ port, port < 2 → (s.port port).up = true → ∃ t, exec (.cxlDown port) s = .next t ∧ (t.port port).up = false ∧
      (t.port port).cap = (s.port port).cap ∧ t.reg (0x60114 + 0x100 * port) = min (s.reg (0x60114 + 0x100 * port) + 1) 0xFFFFFFFF ∧
      t.mem.cxl = s.mem.cxl ∧ ∀ p, p ≠ port → t.port p = s.port p) ∧
    (∀ id x a c m, s.alive = true → s.stream? id = some x → x.afe = some a → x.toConvert = some c → s.slot? x.main = some m →
      x.state ≠ .opening → s.convertsNext x = true →
      (s.hostFails c.buf c.bytes = true → exec (.afeConversionStart id) s = .next (s.dropChunk id c stBadAddr)) ∧
      (s.hostFails c.buf c.bytes = false →
        let hz := rateHz a.rate
        let dur := c.len * m.hdr.step * 1000
        let p := afePlace a.anchor a.ek dur c.time (s.reg 0x9000C * 1000) hz
        let w := windowOf p (windowSamples p.anchor p.ek dur hz) a.sfmt c.nch c.chidx (s.hostRead c.buf c.bytes)
        ∃ t y b, exec (.afeConversionStart id) s = .next t ∧ t = { s with regs := t.regs, work := t.work, mem := t.mem } ∧
          (∀ i, i ≠ id → t.stream? i = s.stream? i) ∧ t.stream? id = some y ∧ y.chunkNo = x.chunkNo + 1 ∧
          y.halves = updAt (x.chunkNo % 2) (fun _ => true) x.halves ∧ y.afe = some b ∧
          b.anchor = some p.anchor ∧ b.ek = p.ek + dur ∧ b.chunks = a.chunks + 1 ∧
          (∀ z ∈ y.waiting, z.didx = c.didx → z.converting = true ∧ z.half = some (x.chunkNo % 2) ∧ z.delta = deltaUs p.delta ∧
            z.flags = afeFlags p w.2.2.1 w.2.2.2 (w.2.1 != 0)) ∧
          t.reg 0x90010 = (if p.gap then min (s.reg 0x90010 + 1) 0xFFFFFFFF else s.reg 0x90010) ∧
          t.reg 0x90014 = (if p.overlap then min (s.reg 0x90014 + 1) 0xFFFFFFFF else s.reg 0x90014) ∧
          t.reg 0x90018 = (if w.2.2.1 then min (s.reg 0x90018 + 1) 0xFFFFFFFF else s.reg 0x90018) ∧
          t.reg 0x9001C = (if w.2.2.2 then min (s.reg 0x9001C + 1) 0xFFFFFFFF else s.reg 0x9001C) ∧
          t.reg 0x90020 = (if p.reanchor then min (s.reg 0x90020 + 1) 0xFFFFFFFF else s.reg 0x90020))) ∧
    (∀ id, s.alive = true → exec (.afeConversionDone id) s = .next (s.updStream id fun x =>
      { x with waiting := updWhere (fun c => c.converting) (fun c => { c with converting := false, ready := true }) x.waiting }))

/-- From R341 to R350, R356, Table 12-5: placement queues a move of a record that no launch needs, and nothing else changes; a move that
may start, with nothing ahead of it on its die and a free destination, takes the record into the state of Table 12-5. -/
def Obligations.RecordMovesStart : Prop :=
  ∀ (s : State) (id : Nat) (x : Stream), s.alive = true → s.stream? id = some x →
    let r := x.record
    (∀ k die, x.decided = false → s.move? id = none → x.state ≠ .opening → x.state ≠ .closing →
      (k = .swapOut ∧ r.state = .S ∧ x.pins.home ≠ some 0) ∨
        (k = .demote ∧ r.state = .H ∧ x.pins.home ≠ some 1 ∧ (x.pins.home = some 2 ∨ x.lastTick + 1000000000 ≤ s.tb.now)) ∨
        (k = .promote ∧ r.state = .C) ∨ (k = .rehome ∧ r.state = .H ∧ die ≠ r.die ∧ s.dieOn die = true) →
      ∃ m, exec (.placementMove id k die) s = .next { s with work := { s.work with moves := s.work.moves ++ [m] } } ∧
        m.stream = id ∧ m.started = false ∧ m.die = r.die ∧ m.queuedAt = s.tb.now ∧ m.age = 0 ∧
        m.kind = (match k with
          | .swapOut => .swapOut
          | .demote => .demote
          | .promote => .promote
          | .rehome => .rehome)) ∧
    (∀ m dst, s.move? id = some m → s.moveReady m = true → s.dstOk x m.kind dst = true →
      (∀ y ∈ s.work.moves, y.die = m.die → y.stream ≠ id → s.moveReady y = true → y.before m = false) →
      ∃ t y, exec (.recordMoveStart id dst) s = .next t ∧ t.stream? id = some y ∧
        (m.kind = .fill → y.record.spm = some dst ∧ y.record.state = (if r.state = .C then .fillC else .fillH)) ∧
        (m.kind = .swapOut → y.record.state = if r.dirty = 0 ∧ r.mirRead = false then .H else .spill) ∧
        (m.kind = .demote → y.record.state = .dem ∧ y.record.home = r.home) ∧
        (m.kind = .promote → y.record.state = .pro ∧ y.record.newHome = some (dst % 2 ^ 38, r.die)) ∧
        (m.kind = .rehome → y.record.state = .move ∧ y.record.newHome = some (dst % 2 ^ 38, nbits dst 40 4)) ∧
        (m.kind ≠ .swapOut → t.mem = s.mem ∧ ∃ q, t.move? id = some q ∧ q.started = true ∧ q.dst = dst))

/-- From R341 to R344, R346, R351 to R354, R574, Table 12-5, R254, R446: a fill ends with the record in the SPM and its residency bit
set, its row ARMED where its cores have been woken; a swap-out with its DIRTY tiles in the home, a demotion with one extent in the
CXL tier, a promotion or a re-homing with a home; a mirror read ends with the marked tiles sent to the partner and CHG clear, or
in a job fault where a coded copy does not expand (R242). -/
def Obligations.RecordMovesEnd : Prop :=
  ∀ (s : State) (id : Nat) (x : Stream) (u : Upset), s.alive = true → s.stream? id = some x → u.uncorr = none →
    u.badTile = none → (∀ n ∈ u.hbmCe, n < 20) →
    let r := x.record
    let s' := s.corrected u
    (∀ raw v, r.state = .fillH ∨ r.state = .fillC → s.extPoisoned x = false → s.recordBytes x = .ok raw →
      State.returnPages (s.awayPages x) s' = some v → v.keeper.fstop = false →
      let woken := s.work.jobs.any fun j => j.woken && (j.phase == .decided || j.phase == .waiting || j.phase == .switching) &&
        j.rows.any fun q => q.stream == id
      ∃ t y, exec (.fillDone id u) s = .next t ∧ t.move? id = none ∧ t.stream? id = some y ∧ y.record.state = .S ∧
        y.state = (if x.state = .parked ∨ x.state = .cold ∨ x.state = .resident then (if woken then .armed else .resident)
          else x.state) ∧
        (r.state = .fillC → y.record.ext = none) ∧
        (r.hdrHeld = false →
          y.record.chg = (if r.mirRead then r.chg else 0) ∧ y.record.dirty = (if r.state = .fillC then tileMask r.tiles else 0) ∧
          t.spmRead (nbits (r.spm.getD 0) 23 8) (nbits (r.spm.getD 0) 0 23) raw.length = raw)) ∧
    (∀ raw, r.state = .spill → r.mirRead = false → s.devRead (r.spm.getD 0) (r.tiles * 16384) = some raw →
      ∃ t y, exec (.swapOutDone id u) s = .next t ∧ t.stream? id = some y ∧ y.record.state = .H ∧ y.record.spm = none ∧
        y.record.dirty = 0 ∧ y.state = (if x.state = .resident then .parked else x.state) ∧
        t.reg 0x5052C = min (s.reg 0x5052C + 1) 0xFFFFFFFF ∧
        (x.decided = false → t.move? id = none) ∧
        (r.die < 10 → r.home.getD 0 + r.tiles * 16384 ≤ dieBytes → ∀ i < r.tiles, i < 256 →
          t.dieRead r.die (r.home.getD 0 + i * 16384) 16384 = if r.dirty.getLsbD i then (raw.drop (i * 16384)).take 16384
            else s.dieRead r.die (r.home.getD 0 + i * 16384) 16384)) ∧
    (∀ m, r.state = .dem → r.mirRead = false → s.move? id = some m →
      ∃ t y n, exec (.demotionDone id u) s = .next t ∧ t.move? id = none ∧ t.stream? id = some y ∧
        y.state = (if x.state = .parked then .cold else x.state) ∧
        y.record = { r with state := .C, home := none, lent := false, ext := some (m.dst, n) }) ∧
    (∀ raw h, r.state = .pro → s.extPoisoned x = false → s.recordBytes x = .ok raw → r.newHome = some h → x.cmd = none →
      ∃ t y, exec (.promotionDone id u) s = .next t ∧ t.stream? id = some y ∧ y.record.state = .H ∧ y.record.home = some h.1 ∧
        y.record.die = h.2 ∧ y.record.newHome = none ∧ y.record.ext = none ∧
        y.state = (if x.state = .cold then .parked else x.state)) ∧
    (∀ raw h, r.state = .move → r.mirRead = false → s.recordBytes x = .ok raw → r.newHome = some h →
      ∃ t y, exec (.rehomingDone id u) s = .next t ∧ t.stream? id = some y ∧ t.move? id = none ∧
        y.record = { r with state := .H, home := some h.1, die := h.2, newHome := none, lent := false } ∧
        t.mem = (s.dieWrite h.2 h.1 raw).mem) ∧
    (r.mirRead = true → (∀ k ∈ s.cores, k.rgnWait = none) →
      (∀ h, s.handoffMsg x = .ok h → ∃ t y, exec (.mirrorReadDone id u) s = .next t ∧ t.stream? id = some y ∧
        y.record.mirRead = false ∧ (r.hdrHeld = false → y.record.chg = 0) ∧ t.out = .handoffSent h :: s.out) ∧
      (∀ e, s.handoffMsg x = .error e → ∃ t, exec (.mirrorReadDone id u) s = .next t ∧ Faulted 1 4 s t))
end

