-- ==== Sys2Proof/Laws/Exec.lean ====
section
/-! SUPPORT. What `exec` is on each command: the meaning of that command. -/

namespace Sys2Proof.Machine

open Sys2Proof

variable (s : State)

@[simp] theorem exec_cmdOpen (g d : Nat) (pl : Placement) : exec (.cmdOpen g d pl) s = execCmdOpen g d pl s := rfl
@[simp] theorem exec_cmdClose (g d : Nat) : exec (.cmdClose g d) s = execCmdClose g d s := rfl
@[simp] theorem exec_cmdPause (g d : Nat) : exec (.cmdPause g d) s = execCmdPause g d s := rfl
@[simp] theorem exec_cmdResume (g d : Nat) : exec (.cmdResume g d) s = execCmdResume g d s := rfl
@[simp] theorem exec_cmdReset (g d : Nat) : exec (.cmdReset g d) s = execCmdReset g d s := rfl
@[simp] theorem exec_cmdStreamCtl (g d : Nat) : exec (.cmdStreamCtl g d) s = execCmdStreamCtl g d s := rfl
@[simp] theorem exec_cmdQuery (g d : Nat) : exec (.cmdQuery g d) s = execCmdQuery g d s := rfl
@[simp] theorem exec_cmdStateRead (g d : Nat) (u : Upset) :
    exec (.cmdStateRead g d u) s = execCmdStateRead g d u s := rfl
@[simp] theorem exec_cmdStateWrite (g d : Nat) : exec (.cmdStateWrite g d) s = execCmdStateWrite g d s := rfl
@[simp] theorem exec_cmdModelLoad (g d : Nat) : exec (.cmdModelLoad g d) s = execCmdModelLoad g d s := rfl
@[simp] theorem exec_cmdModelUnload (g d : Nat) : exec (.cmdModelUnload g d) s = execCmdModelUnload g d s := rfl
@[simp] theorem exec_cmdGroupCtl (g d : Nat) : exec (.cmdGroupCtl g d) s = execCmdGroupCtl g d s := rfl
@[simp] theorem exec_cmdWeightPin (g d : Nat) : exec (.cmdWeightPin g d) s = execCmdWeightPin g d s := rfl
@[simp] theorem exec_cmdPrefix (g d : Nat) : exec (.cmdPrefix g d) s = execCmdPrefix g d s := rfl
@[simp] theorem exec_cmdSkvCtl (g d : Nat) : exec (.cmdSkvCtl g d) s = execCmdSkvCtl g d s := rfl
@[simp] theorem exec_cmdRegionPin (g d : Nat) : exec (.cmdRegionPin g d) s = execCmdRegionPin g d s := rfl
@[simp] theorem exec_cmdWindow (g d : Nat) : exec (.cmdWindow g d) s = execCmdWindow g d s := rfl
@[simp] theorem exec_cmdTensorMove (g d row : Nat) (u : Upset) :
    exec (.cmdTensorMove g d row u) s = execCmdTensorMove g d row u s := rfl
@[simp] theorem exec_cmdNop (g d : Nat) : exec (.cmdNop g d) s = execCmdNop g d s := rfl
@[simp] theorem exec_chunk (g d : Nat) : exec (.chunk g d) s = execChunk g d s := rfl
@[simp] theorem exec_outputBuffer (g d : Nat) : exec (.outputBuffer g d) s = execOutputBuffer g d s := rfl
@[simp] theorem exec_hifKick (f g : Nat) : exec (.hifKick f g) s = execHifKick f g s := rfl
@[simp] theorem exec_doorbellFetch (g : Nat) (host : HostDelta) :
    exec (.doorbellFetch g host) s = execDoorbellFetch g host s := rfl
@[simp] theorem exec_moderationTimer (g : Nat) (event : Bool) :
    exec (.moderationTimer g event) s = execModerationTimer g event s := rfl
@[simp] theorem exec_mma (core : Nat) (w : BitVec 128) (u : Upset) : exec (.mma core w u) s = execMma core w u s := rfl
@[simp] theorem exec_gpload (core slot row : Nat) (u : Upset) :
    exec (.gpload core slot row u) s = execGpload core slot row u s := rfl
@[simp] theorem exec_lscanForward (core : Nat) (w : BitVec 64) (u : Upset) :
    exec (.lscanForward core w u) s = execLscanForward core w u s := rfl
@[simp] theorem exec_lscanReverse (core : Nat) (w : BitVec 64) (u : Upset) :
    exec (.lscanReverse core w u) s = execLscanReverse core w u s := rfl
@[simp] theorem exec_attScore (core : Nat) (w : BitVec 64) (u : Upset) :
    exec (.attScore core w u) s = execAttScore core w u s := rfl
@[simp] theorem exec_attValue (core : Nat) (w : BitVec 64) (u : Upset) :
    exec (.attValue core w u) s = execAttValue core w u s := rfl
@[simp] theorem exec_attExpand (core : Nat) (w : BitVec 64) (u : Upset) :
    exec (.attExpand core w u) s = execAttExpand core w u s := rfl
@[simp] theorem exec_vmap (core : Nat) (w : BitVec 128) (u : Upset) :
    exec (.vmap core w u) s = execVmap core w u s := rfl
@[simp] theorem exec_vred (core : Nat) (w : BitVec 128) (u : Upset) :
    exec (.vred core w u) s = execVred core w u s := rfl
@[simp] theorem exec_vcpr (core : Nat) (w : BitVec 128) (u : Upset) :
    exec (.vcpr core w u) s = execVcpr core w u s := rfl
@[simp] theorem exec_vxpn (core : Nat) (w : BitVec 128) (u : Upset) :
    exec (.vxpn core w u) s = execVxpn core w u s := rfl
@[simp] theorem exec_vperm (core : Nat) (w : BitVec 128) (u : Upset) :
    exec (.vperm core w u) s = execVperm core w u s := rfl
@[simp] theorem exec_vqpop (core : Nat) (w : BitVec 64) (u : Upset) :
    exec (.vqpop core w u) s = execVqpop core w u s := rfl
@[simp] theorem exec_vsload (core : Nat) (w : BitVec 64) (u : Upset) :
    exec (.vsload core w u) s = execVsload core w u s := rfl
@[simp] theorem exec_vtload (core : Nat) (w : BitVec 64) (u : Upset) :
    exec (.vtload core w u) s = execVtload core w u s := rfl
@[simp] theorem exec_vbrel (core : Nat) (w : BitVec 64) (u : Upset) :
    exec (.vbrel core w u) s = execVbrel core w u s := rfl
@[simp] theorem exec_skx (core : Nat) (w : BitVec 64) (u : Upset) : exec (.skx core w u) s = execSkx core w u s := rfl
@[simp] theorem exec_skc (core : Nat) (w : BitVec 64) (hostWritten : Bool) (u : Upset) :
    exec (.skc core w hostWritten u) s = execSkc core w hostWritten u s := rfl
@[simp] theorem exec_dmov (core : Nat) (w : BitVec 64) (u : Upset) :
    exec (.dmov core w u) s = execDmov core w u s := rfl
@[simp] theorem exec_dtens (core : Nat) (w : BitVec 64) (u : Upset) :
    exec (.dtens core w u) s = execDtens core w u s := rfl
@[simp] theorem exec_wopen (core : Nat) (w : BitVec 64) (u : Upset) :
    exec (.wopen core w u) s = execWopen core w u s := rfl
@[simp] theorem exec_wclose (core : Nat) (w : BitVec 64) (u : Upset) :
    exec (.wclose core w u) s = execWclose core w u s := rfl
@[simp] theorem exec_timeRead (core sreg : Nat) : exec (.timeRead core sreg) s = execTimeRead core sreg s := rfl
@[simp] theorem exec_illegalOp (core : Nat) (w : BitVec 64) : exec (.illegalOp core w) s = execIllegalOp core w s := rfl
@[simp] theorem exec_coreProgressWatchdog (core : Nat) :
    exec (.coreProgressWatchdog core) s = execCoreProgressWatchdog core s := rfl
@[simp] theorem exec_beatServiceWatchdog (beat : Nat) :
    exec (.beatServiceWatchdog beat) s = execBeatServiceWatchdog beat s := rfl
@[simp] theorem exec_beatBoundary (beat : Nat) : exec (.beatBoundary beat) s = execBeatBoundary beat s := rfl
@[simp] theorem exec_launchDecision (grp beat : Nat) :
    exec (.launchDecision grp beat) s = execLaunchDecision grp beat s := rfl
@[simp] theorem exec_wakeIssue (grp : Nat) : exec (.wakeIssue grp) s = execWakeIssue grp s := rfl
@[simp] theorem exec_coreArmed (core : Nat) (u : Upset) : exec (.coreArmed core u) s = execCoreArmed core u s := rfl
@[simp] theorem exec_coreStateEntryDone (core : Nat) :
    exec (.coreStateEntryDone core) s = execCoreStateEntryDone core s := rfl
@[simp] theorem exec_tick (grp : Nat) : exec (.tick grp) s = execTick grp s := rfl
@[simp] theorem exec_lateStrobe (grp time : Nat) : exec (.lateStrobe grp time) s = execLateStrobe grp time s := rfl
@[simp] theorem exec_heldDispatch (grp time : Nat) :
    exec (.heldDispatch grp time) s = execHeldDispatch grp time s := rfl
@[simp] theorem exec_switchComplete (grp time : Nat) :
    exec (.switchComplete grp time) s = execSwitchComplete grp time s := rfl
@[simp] theorem exec_jobResume (grp time : Nat) : exec (.jobResume grp time) s = execJobResume grp time s := rfl
@[simp] theorem exec_ageInterval (job : Nat) : exec (.ageInterval job) s = execAgeInterval job s := rfl
@[simp] theorem exec_chunkEnd (grp : Nat) (rep : ChunkReport) :
    exec (.chunkEnd grp rep) s = execChunkEnd grp rep s := rfl
@[simp] theorem exec_tokenStepBoundary (grp : Nat) (rows : List TokenRow) (frames : List Nat) (u : Upset) :
    exec (.tokenStepBoundary grp rows frames u) s = execTokenStepBoundary grp rows frames u s := rfl
@[simp] theorem exec_kvEvictionDone (page frame : Nat) (u : Upset) :
    exec (.kvEvictionDone page frame u) s = execKvEvictionDone page frame u s := rfl
@[simp] theorem exec_openInitDone (id : Nat) : exec (.openInitDone id) s = execOpenInitDone id s := rfl
@[simp] theorem exec_closeReleaseDone (id : Nat) : exec (.closeReleaseDone id) s = execCloseReleaseDone id s := rfl
@[simp] theorem exec_afeConversionStart (id : Nat) :
    exec (.afeConversionStart id) s = execAfeConversionStart id s := rfl
@[simp] theorem exec_afeConversionDone (id : Nat) : exec (.afeConversionDone id) s = execAfeConversionDone id s := rfl
@[simp] theorem exec_recordMoveStart (id dst : Nat) :
    exec (.recordMoveStart id dst) s = execRecordMoveStart id dst s := rfl
@[simp] theorem exec_fillDone (id : Nat) (u : Upset) : exec (.fillDone id u) s = execFillDone id u s := rfl
@[simp] theorem exec_swapOutDone (id : Nat) (u : Upset) : exec (.swapOutDone id u) s = execSwapOutDone id u s := rfl
@[simp] theorem exec_demotionDone (id : Nat) (u : Upset) : exec (.demotionDone id u) s = execDemotionDone id u s := rfl
@[simp] theorem exec_promotionDone (id : Nat) (u : Upset) :
    exec (.promotionDone id u) s = execPromotionDone id u s := rfl
@[simp] theorem exec_rehomingDone (id : Nat) (u : Upset) : exec (.rehomingDone id u) s = execRehomingDone id u s := rfl
@[simp] theorem exec_mirrorReadDone (id : Nat) (u : Upset) :
    exec (.mirrorReadDone id u) s = execMirrorReadDone id u s := rfl
@[simp] theorem exec_modelLoadDone (slot : Nat) : exec (.modelLoadDone slot) s = execModelLoadDone slot s := rfl
@[simp] theorem exec_modelUnloadDone (slot : Nat) : exec (.modelUnloadDone slot) s = execModelUnloadDone slot s := rfl
@[simp] theorem exec_prefixDone (pfx : Nat) (pages : List Nat) :
    exec (.prefixDone pfx pages) s = execPrefixDone pfx pages s := rfl
@[simp] theorem exec_bar2Read (off len : Nat) (u : Upset) :
    exec (.bar2Read off len u) s = execBar2Read off len u s := rfl
@[simp] theorem exec_bar2Write (off : Nat) (bytes : List Byte) :
    exec (.bar2Write off bytes) s = execBar2Write off bytes s := rfl
@[simp] theorem exec_partnerAccess (r : PartnerReq) (u : Upset) :
    exec (.partnerAccess r u) s = execPartnerAccess r u s := rfl
@[simp] theorem exec_lowWordRead (f off size : Nat) :
    exec (.lowWordRead f off size) s = execLowWordRead f off size s := rfl
@[simp] theorem exec_registerWrite (f off size : Nat) (value : DWord) :
    exec (.registerWrite f off size value) s = execRegisterWrite f off size value s := rfl
@[simp] theorem exec_cinSet (f : Nat) (value : DWord) : exec (.cinSet f value) s = execCinSet f value s := rfl
@[simp] theorem exec_cinOffsetAdj (f : Nat) (value : Word) :
    exec (.cinOffsetAdj f value) s = execCinOffsetAdj f value s := rfl
@[simp] theorem exec_cinRateAdj (f : Nat) (value : Word) :
    exec (.cinRateAdj f value) s = execCinRateAdj f value s := rfl
@[simp] theorem exec_cinMode (f : Nat) (value : Word) : exec (.cinMode f value) s = execCinMode f value s := rfl
@[simp] theorem exec_deviceStart (f : Nat) (value : Word) :
    exec (.deviceStart f value) s = execDeviceStart f value s := rfl
@[simp] theorem exec_partitionStart (f p : Nat) : exec (.partitionStart f p) s = execPartitionStart f p s := rfl
@[simp] theorem exec_partitionReset (f p : Nat) : exec (.partitionReset f p) s = execPartitionReset f p s := rfl
@[simp] theorem exec_partitionResetDone (p : Nat) : exec (.partitionResetDone p) s = execPartitionResetDone p s := rfl
@[simp] theorem exec_ringGroupEnable (f : Nat) (value : Word) :
    exec (.ringGroupEnable f value) s = execRingGroupEnable f value s := rfl
@[simp] theorem exec_sdlAccSel (f : Nat) (value : Word) : exec (.sdlAccSel f value) s = execSdlAccSel f value s := rfl
@[simp] theorem exec_kprSel (f : Nat) (seq : DWord) : exec (.kprSel f seq) s = execKprSel f seq s := rfl
@[simp] theorem exec_snap (f : Nat) : exec (.snap f) s = execSnap f s := rfl
@[simp] theorem exec_corSrSeed (f core : Nat) (value : DWord) :
    exec (.corSrSeed f core value) s = execCorSrSeed f core value s := rfl
@[simp] theorem exec_pairEnable (f : Nat) (value : Word) :
    exec (.pairEnable f value) s = execPairEnable f value s := rfl
@[simp] theorem exec_pairLeave (f : Nat) (value : Word) : exec (.pairLeave f value) s = execPairLeave f value s := rfl
@[simp] theorem exec_rnlTakeover (f : Nat) (value : Word) :
    exec (.rnlTakeover f value) s = execRnlTakeover f value s := rfl
@[simp] theorem exec_handback (f : Nat) (value : Word) : exec (.handback f value) s = execHandback f value s := rfl
@[simp] theorem exec_handoverSend : exec .handoverSend s = execHandoverSend s := rfl
@[simp] theorem exec_handoverReceived (g : Nat) : exec (.handoverReceived g) s = execHandoverReceived g s := rfl
@[simp] theorem exec_brdFlashAddr (f : Nat) (value : Word) :
    exec (.brdFlashAddr f value) s = execBrdFlashAddr f value s := rfl
@[simp] theorem exec_brdFlashData (f n : Nat) (value : Word) :
    exec (.brdFlashData f n value) s = execBrdFlashData f n value s := rfl
@[simp] theorem exec_activate (f : Nat) : exec (.activate f) s = execActivate f s := rfl
@[simp] theorem exec_pwrResetCold (f : Nat) : exec (.pwrResetCold f) s = execPwrResetCold f s := rfl
@[simp] theorem exec_pwrResetWarm (f : Nat) : exec (.pwrResetWarm f) s = execPwrResetWarm f s := rfl
@[simp] theorem exec_syncPpsEdge (falling : Bool) (stamp : Nat) :
    exec (.syncPpsEdge falling stamp) s = execSyncPpsEdge falling stamp s := rfl
@[simp] theorem exec_ppsLost : exec .ppsLost s = execPpsLost s := rfl
@[simp] theorem exec_refclkTLost : exec .refclkTLost s = execRefclkTLost s := rfl
@[simp] theorem exec_refclkTRelock : exec .refclkTRelock s = execRefclkTRelock s := rfl
@[simp] theorem exec_holdoverSecond : exec .holdoverSecond s = execHoldoverSecond s := rfl
@[simp] theorem exec_refclkMLost : exec .refclkMLost s = execRefclkMLost s := rfl
@[simp] theorem exec_refclkMReturn : exec .refclkMReturn s = execRefclkMReturn s := rfl
@[simp] theorem exec_tackCalibration : exec .tackCalibration s = execTackCalibration s := rfl
@[simp] theorem exec_bundleTrained (b : Nat) : exec (.bundleTrained b) s = execBundleTrained b s := rfl
@[simp] theorem exec_bundleRetrain (b : Nat) : exec (.bundleRetrain b) s = execBundleRetrain b s := rfl
@[simp] theorem exec_flitReplay (b : Nat) : exec (.flitReplay b) s = execFlitReplay b s := rfl
@[simp] theorem exec_pairExchange (p : PartnerInfo) : exec (.pairExchange p) s = execPairExchange p s := rfl
@[simp] theorem exec_heartbeatSend : exec .heartbeatSend s = execHeartbeatSend s := rfl
@[simp] theorem exec_heartbeat (pairState : Nat) (started : Bool) (time service delay : Nat) :
    exec (.heartbeat pairState started time service delay) s = execHeartbeat pairState started time service delay s := rfl
@[simp] theorem exec_linkSilence : exec .linkSilence s = execLinkSilence s := rfl
@[simp] theorem exec_sidebandSilence : exec .sidebandSilence s = execSidebandSilence s := rfl
@[simp] theorem exec_faultFlit : exec .faultFlit s = execFaultFlit s := rfl
@[simp] theorem exec_downFlit : exec .downFlit s = execDownFlit s := rfl
@[simp] theorem exec_fence : exec .fence s = execFence s := rfl
@[simp] theorem exec_leave : exec .leave s = execLeave s := rfl
@[simp] theorem exec_openIdConfirm (id part tiles : Nat) :
    exec (.openIdConfirm id part tiles) s = execOpenIdConfirm id part tiles s := rfl
@[simp] theorem exec_handoff (h : HandoffMsg) : exec (.handoff h) s = execHandoff h s := rfl
@[simp] theorem exec_handoffCommitted (id seq : Nat) :
    exec (.handoffCommitted id seq) s = execHandoffCommitted id seq s := rfl
@[simp] theorem exec_mirrorDropNotice (p : Nat) : exec (.mirrorDropNotice p) s = execMirrorDropNotice p s := rfl
@[simp] theorem exec_cxlPortTrained (port width speed capacity : Nat) (ide : Bool) (chain : List Byte) :
    exec (.cxlPortTrained port width speed capacity ide chain) s = execCxlPortTrained port width speed capacity ide chain s := rfl
@[simp] theorem exec_cxlDown (port : Nat) : exec (.cxlDown port) s = execCxlDown port s := rfl
@[simp] theorem exec_keeperCommitStart : exec .keeperCommitStart s = execKeeperCommitStart s := rfl
@[simp] theorem exec_keeperCommitDone : exec .keeperCommitDone s = execKeeperCommitDone s := rfl
@[simp] theorem exec_powerFailEvent : exec .powerFailEvent s = execPowerFailEvent s := rfl
@[simp] theorem exec_brownout (rail : Nat) : exec (.brownout rail) s = execBrownout rail s := rfl
@[simp] theorem exec_holdupEnd : exec .holdupEnd s = execHoldupEnd s := rfl
@[simp] theorem exec_powerFailRelease : exec .powerFailRelease s = execPowerFailRelease s := rfl
@[simp] theorem exec_vtackApplied : exec .vtackApplied s = execVtackApplied s := rfl
@[simp] theorem exec_vtackRemoved : exec .vtackRemoved s = execVtackRemoved s := rfl
@[simp] theorem exec_tackOscStable : exec .tackOscStable s = execTackOscStable s := rfl
@[simp] theorem exec_mainRailsLost : exec .mainRailsLost s = execMainRailsLost s := rfl
@[simp] theorem exec_coldResetRelease (inOrder : Bool) :
    exec (.coldResetRelease inOrder) s = execColdResetRelease inOrder s := rfl
@[simp] theorem exec_sysRstN : exec .sysRstN s = execSysRstN s := rfl
@[simp] theorem exec_perstNAssert : exec .perstNAssert s = execPerstNAssert s := rfl
@[simp] theorem exec_sleepEntry : exec .sleepEntry s = execSleepEntry s := rfl
@[simp] theorem exec_perstNRelease : exec .perstNRelease s = execPerstNRelease s := rfl
@[simp] theorem exec_hostLinkReset : exec .hostLinkReset s = execHostLinkReset s := rfl
@[simp] theorem exec_flrPf : exec .flrPf s = execFlrPf s := rfl
@[simp] theorem exec_flrVf (n : Nat) : exec (.flrVf n) s = execFlrVf n s := rfl
@[simp] theorem exec_hbmTrainingDone (us : Nat) : exec (.hbmTrainingDone us) s = execHbmTrainingDone us s := rfl
@[simp] theorem exec_sidebandClockStop : exec .sidebandClockStop s = execSidebandClockStop s := rfl
@[simp] theorem exec_powerSample (r : PowerReading) : exec (.powerSample r) s = execPowerSample r s := rfl
@[simp] theorem exec_thermTrip (die : Nat) : exec (.thermTrip die) s = execThermTrip die s := rfl
@[simp] theorem exec_drbgReseed : exec .drbgReseed s = execDrbgReseed s := rfl
@[simp] theorem exec_getCertificate (via : Transport) (slot off len : Nat) :
    exec (.getCertificate via slot off len) s = execGetCertificate via slot off len s := rfl
@[simp] theorem exec_challenge (via : Transport) (slot : Nat) (nonce : List Byte) :
    exec (.challenge via slot nonce) s = execChallenge via slot nonce s := rfl
@[simp] theorem exec_getMeasurements (via : Transport) (index : Nat) (signed : Bool) (nonce : List Byte) :
    exec (.getMeasurements via index signed nonce) s = execGetMeasurements via index signed nonce s := rfl
@[simp] theorem exec_keyExchange (via : Transport) (slot : Nat) (encap : List Byte) :
    exec (.keyExchange via slot encap) s = execKeyExchange via slot encap s := rfl
@[simp] theorem exec_keyUpdate (session : Nat) : exec (.keyUpdate session) s = execKeyUpdate session s := rfl
@[simp] theorem exec_spdmHeartbeat (session : Nat) :
    exec (.spdmHeartbeat session) s = execSpdmHeartbeat session s := rfl
@[simp] theorem exec_setOwner (session : Nat) (e : Endorsement) :
    exec (.setOwner session e) s = execSetOwner session e s := rfl
@[simp] theorem exec_setManifest (session : Nat) (m : ManifestMsg) :
    exec (.setManifest session m) s = execSetManifest session m s := rfl
@[simp] theorem exec_ideKmKeyProg (session strm : Nat) (key : List Byte) :
    exec (.ideKmKeyProg session strm key) s = execIdeKmKeyProg session strm key s := rfl
@[simp] theorem exec_getIdentity (off len : Nat) : exec (.getIdentity off len) s = execGetIdentity off len s := rfl
@[simp] theorem exec_getKeeperHead : exec .getKeeperHead s = execGetKeeperHead s := rfl
@[simp] theorem exec_getKeeper (seq : Nat) : exec (.getKeeper seq) s = execGetKeeper seq s := rfl
@[simp] theorem exec_getBoot : exec .getBoot s = execGetBoot s := rfl
@[simp] theorem exec_tapReset : exec .tapReset s = execTapReset s := rfl
@[simp] theorem exec_bypass : exec .bypass s = execBypass s := rfl
@[simp] theorem exec_samplePreload : exec .samplePreload s = execSamplePreload s := rfl
@[simp] theorem exec_idcode : exec .idcode s = execIdcode s := rfl
@[simp] theorem exec_extest : exec .extest s = execExtest s := rfl
@[simp] theorem exec_extestPulse : exec .extestPulse s = execExtestPulse s := rfl
@[simp] theorem exec_extestTrain : exec .extestTrain s = execExtestTrain s := rfl
@[simp] theorem exec_clamp : exec .clamp s = execClamp s := rfl
@[simp] theorem exec_highz : exec .highz s = execHighz s := rfl
@[simp] theorem exec_placementMove (id : Nat) (kind : PlacedMove) (die : Nat) :
    exec (.placementMove id kind die) s = execPlacementMove id kind die s := rfl
@[simp] theorem exec_flrReady : exec .flrReady s = execFlrReady s := rfl
@[simp] theorem exec_holdupCharge (ok : Bool) : exec (.holdupCharge ok) s = execHoldupCharge ok s := rfl
@[simp] theorem exec_warningTemperature (temps : List Nat) :
    exec (.warningTemperature temps) s = execWarningTemperature temps s := rfl
@[simp] theorem exec_slewComplete : exec .slewComplete s = execSlewComplete s := rfl
@[simp] theorem exec_idConfirmed (id : Nat) (idFree reserved : Bool) :
    exec (.idConfirmed id idFree reserved) s = execIdConfirmed id idFree reserved s := rfl
@[simp] theorem exec_reinHbInTransition : exec .reinHbInTransition s = execReinHbInTransition s := rfl
@[simp] theorem exec_sysRstNRelease : exec .sysRstNRelease s = execSysRstNRelease s := rfl
@[simp] theorem exec_negotiateAlgorithms (via : Transport) :
    exec (.negotiateAlgorithms via) s = execNegotiateAlgorithms via s := rfl
@[simp] theorem exec_sessionEnd (session : Nat) : exec (.sessionEnd session) s = execSessionEnd session s := rfl
@[simp] theorem exec_dynamicAddressAssignment (addr : Nat) :
    exec (.dynamicAddressAssignment addr) s = execDynamicAddressAssignment addr s := rfl

end Sys2Proof.Machine
end

