-- ==== Sys2Proof/Laws/Memory.lean ====
section
/-! SUPPORT. The canonical form of a memory, and what a write leaves: every memory operation keeps addresses strictly rising
(notes/assumptions/4.md). -/

namespace Sys2Proof.Machine

open Sys2Proof

theorem cellsFrom_mem {a : Nat} {bs : List Byte} {c : Host.Cell} (h : c ∈ cellsFrom a bs) :
    a ≤ c.1 ∧ c.1 < a + bs.length := by
  induction bs generalizing a with
  | nil => simp [cellsFrom] at h
  | cons b bs ih =>
    simp only [cellsFrom, List.mem_cons] at h
    rcases h with rfl | h
    · simp
    · have := ih h
      simp only [List.length_cons]
      omega

theorem cellsFrom_wf (a : Nat) (bs : List Byte) : Memory.wf (cellsFrom a bs) := by
  induction bs generalizing a with
  | nil => simp [cellsFrom]
  | cons b bs ih =>
    refine List.pairwise_cons.2 ⟨fun c hc => ?_, ih (a + 1)⟩
    have := (cellsFrom_mem hc).1
    simp only
    omega

/-- Cells below, cells within and cells beyond a range, each in canonical form, stand in canonical form together. -/
theorem Memory.wf_three {m l : Mem} {a n : Nat} (h : Memory.wf m) (hl : Memory.wf l)
    (hb : ∀ c ∈ l, a ≤ c.1 ∧ c.1 < a + n) :
    Memory.wf (m.filter (fun c => c.1 < a) ++ l ++ m.filter (fun c => a + n ≤ c.1)) := by
  simp only [Memory.wf, List.pairwise_append]
  refine ⟨⟨h.filter _, hl, ?_⟩, h.filter _, ?_⟩
  · intro x hx y hy
    have := (hb y hy).1
    simp only [List.mem_filter, decide_eq_true_eq] at hx
    omega
  · intro x hx y hy
    simp only [List.mem_append, List.mem_filter, decide_eq_true_eq] at hx hy
    rcases hx with hx | hx
    · omega
    · have := (hb x hx).2
      omega

/-- A write keeps the canonical form. -/
theorem Mem.write_wf {m : Mem} (a : Nat) (bs : List Byte) (h : Memory.wf m) : Memory.wf (m.write a bs) :=
  Memory.wf_three h (cellsFrom_wf a bs) fun _ hc => cellsFrom_mem hc

/-- A write into a memory whose unlisted bytes read zero keeps the canonical form. -/
theorem Mem.writeZ_wf {m : Mem} (a : Nat) (bs : List Byte) (h : Memory.wf m) : Memory.wf (m.writeZ a bs) :=
  Memory.wf_three h ((cellsFrom_wf a bs).filter _) fun _ hc => cellsFrom_mem (List.mem_filter.1 hc).1

/-- Forgetting a range keeps the canonical form. -/
theorem Mem.erase_wf {m : Mem} (a n : Nat) (h : Memory.wf m) : Memory.wf (m.erase a n) := List.Pairwise.filter _ h

end Sys2Proof.Machine
end

