-- ==== Sys2Proof/Laws/KeepsBase.lean ====
section
/-! SUPPORT. No operation of a core, the rings, the timebase, the Keeper or a job fault breaks `Safety.Keeps`: the queue, the identity
region, the set of cores and the canonical form of every memory stand as they were. -/

namespace Sys2Proof.Safety

open Sys2Proof.Machine

theorem SameArea.refl (a : Area) (s : State) : SameArea a s s := by
  cases a <;> rfl

theorem SameArea.trans {a : Area} {s t u : State} (h : SameArea a s t) (k : SameArea a t u) : SameArea a s u := by
  cases a <;> exact Eq.trans k h

theorem Keeps.refl (gs : List Area) (s : State) : Keeps gs s s := ⟨rfl, rfl, rfl, id, fun a _ => SameArea.refl a s⟩

theorem Keeps.trans {gs : List Area} {a b c : State} (h : Keeps gs a b) (k : Keeps gs b c) : Keeps gs a c :=
  ⟨k.queue.trans h.queue, k.identity.trans h.identity, k.coreNums.trans h.coreNums, k.memories ∘ h.memories,
   fun x hx => (h.frame x hx).trans (k.frame x hx)⟩

/-- The areas that a command changes may be named with more areas than it changes. -/
theorem Keeps.mono {gs hs : List Area} {s t : State} (h : Keeps gs s t) (sub : ∀ a, a ∈ gs → a ∈ hs) : Keeps hs s t :=
  ⟨h.queue, h.identity, h.coreNums, h.memories, fun a ha => h.frame a fun k => ha (sub a k)⟩

/-- A state that differs from `s` in no core, no memory and not in the Bridle, and otherwise only in the areas named. -/
theorem Keeps.same {gs : List Area} {z s t : State} (h : Keeps gs z s) (hq : t.pending = s.pending) (hb : t.bridle = s.bridle)
    (hc : t.cores = s.cores) (hm : t.mem = s.mem)
    (hf : ∀ a, a ∉ gs → SameArea a s t := by intro a ha; cases a <;> first | exact absurd Fact.out ha | exact rfl) :
    Keeps gs z t :=
  h.trans ⟨hq, by rw [hb], by rw [hc], fun w => by rw [MemoriesWf, hm]; exact w, hf⟩

/-- The group `a` is one of those that may change. -/
abbrev May (gs : List Area) (a : Area) : Prop := Fact (a ∈ gs)

/-- A command that answers a next state keeps what `Keeps` names. -/
def KeepsRes (gs : List Area) (z : State) (r : Res) : Prop := ∀ t, r = .next t → Keeps gs z t

/-- An operation that answers a state, or none, keeps what `Keeps` names where it answers one. -/
structure KeepsOpt (gs : List Area) (z : State) (o : Option State) : Prop where
  keeps : ∀ t, o = some t → Keeps gs z t

/-- The same for an operation that answers a value beside the state. -/
structure KeepsOptSnd {α : Type} (gs : List Area) (z : State) (o : Option (α × State)) : Prop where
  keeps : ∀ r, o = some r → Keeps gs z r.2

/-- The same for an operation that says what it lacks where it answers no state. -/
structure KeepsExc {ε : Type} (gs : List Area) (z : State) (o : Except ε State) : Prop where
  keeps : ∀ t, o = .ok t → Keeps gs z t

/-- The same with a value beside the state. -/
structure KeepsExcSnd {ε α : Type} (gs : List Area) (z : State) (o : Except ε (α × State)) : Prop where
  keeps : ∀ r, o = .ok r → Keeps gs z r.2

theorem KeepsOpt.here {gs : List Area} {z t : State} (h : Keeps gs z t) : KeepsOpt gs z (some t) :=
  ⟨fun _ e => Option.some.inj e ▸ h⟩

theorem KeepsOpt.stop {gs : List Area} {z : State} : KeepsOpt gs z none :=
  ⟨fun _ e => nomatch e⟩

theorem KeepsOptSnd.here {α : Type} {gs : List Area} {z t : State} {a : α} (h : Keeps gs z t) : KeepsOptSnd gs z (some (a, t)) :=
  ⟨fun _ e => Option.some.inj e ▸ h⟩

theorem KeepsOptSnd.stop {α : Type} {gs : List Area} {z : State} : KeepsOptSnd gs z (none : Option (α × State)) :=
  ⟨fun _ e => nomatch e⟩

theorem KeepsOptSnd.map {α β : Type} {gs : List Area} {z t : State} {o : Option α} {f : α → β} (h : Keeps gs z t) :
    KeepsOptSnd gs z (o.map fun x => (f x, t)) :=
  ⟨fun r e => by obtain ⟨_, _, rfl⟩ := Option.map_eq_some_iff.mp e; exact h⟩

theorem KeepsOptSnd.mapSnd {α β : Type} {gs : List Area} {z : State} {o : Option (α × State)} {f : α × State → β × State}
    (hf : ∀ a t, Keeps gs z t → Keeps gs z (f (a, t)).2) (h : KeepsOptSnd gs z o) : KeepsOptSnd gs z (o.map f) :=
  ⟨fun r e => by obtain ⟨x, hx, rfl⟩ := Option.map_eq_some_iff.mp e; exact hf _ _ (h.keeps x hx)⟩

theorem KeepsOptSnd.mapState {α : Type} {gs : List Area} {z : State} {o : Option (α × State)} {f : α × State → State}
    (hf : ∀ a t, Keeps gs z t → Keeps gs z (f (a, t))) (h : KeepsOptSnd gs z o) : KeepsOpt gs z (o.map f) :=
  ⟨fun r e => by obtain ⟨x, hx, rfl⟩ := Option.map_eq_some_iff.mp e; exact hf _ _ (h.keeps x hx)⟩

theorem KeepsOpt.orElse {gs : List Area} {z t : State} {o : Option State} (h : KeepsOpt gs z o) (k : Keeps gs z t) :
    Keeps gs z (o.getD t) := by
  cases o with
  | none => exact k
  | some u => exact h.keeps u rfl

theorem KeepsOpt.first {α : Type} {gs : List Area} {z : State} {f : α → Option State} {xs : List α}
    (hf : ∀ x, KeepsOpt gs z (f x)) : KeepsOpt gs z (xs.findSome? f) :=
  ⟨fun t e => by obtain ⟨_, x, _, _, hx, _⟩ := List.findSome?_eq_some_iff.mp e; exact (hf x).keeps t hx⟩

theorem keeps_elimSnd {α β : Type} {gs : List Area} {z : State} {o : Option α} {d : β × State} {f : α → β × State}
    (hd : Keeps gs z d.2) (hf : ∀ a, Keeps gs z (f a).2) : Keeps gs z (o.elim d f).2 := by
  cases o with
  | none => exact hd
  | some a => exact hf a

theorem KeepsExc.here {ε : Type} {gs : List Area} {z t : State} (h : Keeps gs z t) : KeepsExc (ε := ε) gs z (.ok t) :=
  ⟨fun _ e => Except.ok.inj e ▸ h⟩

theorem KeepsExc.stop {ε : Type} {gs : List Area} {z : State} {x : ε} : KeepsExc gs z (.error x) :=
  ⟨fun _ e => nomatch e⟩

theorem KeepsExcSnd.here {ε α : Type} {gs : List Area} {z t : State} {a : α} (h : Keeps gs z t) :
    KeepsExcSnd (ε := ε) gs z (.ok (a, t)) :=
  ⟨fun _ e => Except.ok.inj e ▸ h⟩

theorem KeepsExcSnd.stop {ε α : Type} {gs : List Area} {z : State} {x : ε} :
    KeepsExcSnd gs z (.error x : Except ε (α × State)) :=
  ⟨fun _ e => nomatch e⟩

theorem keeps_some {gs : List Area} {z t : State} {o : Option State} (e : o = some t) (h : KeepsOpt gs z o) : Keeps gs z t := h.keeps t e

theorem keeps_someSnd {α : Type} {gs : List Area} {z t : State} {a : α} {o : Option (α × State)} (e : o = some (a, t))
    (h : KeepsOptSnd gs z o) : Keeps gs z t := h.keeps _ e

theorem keeps_ok {ε : Type} {gs : List Area} {z t : State} {o : Except ε State} (e : o = .ok t) (h : KeepsExc gs z o) :
    Keeps gs z t := h.keeps t e

theorem keeps_okSnd {ε α : Type} {gs : List Area} {z t : State} {a : α} {o : Except ε (α × State)} (e : o = .ok (a, t))
    (h : KeepsExcSnd gs z o) : Keeps gs z t := h.keeps _ e

theorem keeps_someSnd_proj {α : Type} {gs : List Area} {z : State} {r : α × State} {o : Option (α × State)} (e : o = some r)
    (h : KeepsOptSnd gs z o) : Keeps gs z r.2 := h.keeps r e

theorem keeps_okSnd_proj {ε α : Type} {gs : List Area} {z : State} {r : α × State} {o : Except ε (α × State)} (e : o = .ok r)
    (h : KeepsExcSnd gs z o) : Keeps gs z r.2 := h.keeps r e

theorem KeepsRes.next {gs : List Area} {z t : State} (h : Keeps gs z t) : KeepsRes gs z (.next t) := by
  intro u e
  cases e
  exact h

end Sys2Proof.Safety

namespace Sys2Proof.Machine

open Sys2Proof Safety

set_option linter.unreachableTactic false
set_option linter.unusedTactic false

variable {z s : State} {gs : List Area}

theorem updRegs_keeps [May gs .regs] (f) (h : Keeps gs z s) : Keeps gs z (s.updRegs f) := h.same rfl rfl rfl rfl
theorem updTb_keeps [May gs .tb] (f) (h : Keeps gs z s) : Keeps gs z (s.updTb f) := h.same rfl rfl rfl rfl
theorem updHif_keeps [May gs .hif] (f) (h : Keeps gs z s) : Keeps gs z (s.updHif f) := h.same rfl rfl rfl rfl
theorem updWork_keeps [May gs .work] (f) (h : Keeps gs z s) : Keeps gs z (s.updWork f) := h.same rfl rfl rfl rfl
theorem updCaches_keeps [May gs .caches] (f) (h : Keeps gs z s) : Keeps gs z (s.updCaches f) := h.same rfl rfl rfl rfl
theorem updPair_keeps [May gs .pair] (f) (h : Keeps gs z s) : Keeps gs z (s.updPair f) := h.same rfl rfl rfl rfl
theorem updKeeper_keeps [May gs .keeper] (f) (h : Keeps gs z s) : Keeps gs z (s.updKeeper f) := h.same rfl rfl rfl rfl
theorem updPower_keeps [May gs .power] (f) (h : Keeps gs z s) : Keeps gs z (s.updPower f) := h.same rfl rfl rfl rfl
theorem updBoard_keeps [May gs .board] (f) (h : Keeps gs z s) : Keeps gs z (s.updBoard f) := h.same rfl rfl rfl rfl
theorem emit_keeps [May gs .out] (o) (h : Keeps gs z s) : Keeps gs z (s.emit o) := h.same rfl rfl rfl rfl
theorem nextFree_keeps [May gs .free] (h : Keeps gs z s) : Keeps gs z s.nextFree := h.same rfl rfl rfl rfl

theorem updBridle_keeps [May gs .bridle] {f : Bridle → Bridle} (hf : ∀ b, (f b).identity = b.identity) (h
    : Keeps gs z s) :
    Keeps gs z (s.updBridle f) := h.trans ⟨rfl, hf _, rfl, id, by intro a ha; cases a <;> first | exact absurd Fact.out ha | exact rfl⟩

theorem updCores_keeps [May gs .cores] {f : List Core → List Core} (hf : ∀ cs, (f cs).map (·.num) = cs.map (·.num)) (h
    : Keeps gs z s) :
    Keeps gs z (s.updCores f) := h.trans ⟨rfl, rfl, hf _, id, by intro a ha; cases a <;> first | exact absurd Fact.out ha | exact rfl⟩

theorem map_updWhere {α β : Type} (g : α → β) (p : α → Bool) (f : α → α) (xs : List α) (h : ∀ x, p x = true → g (f x) = g x) :
    (updWhere p f xs).map g = xs.map g := by
  simp only [updWhere, List.map_map, List.map_inj_left, Function.comp_apply]
  intro x _
  split
  · exact h x ‹_›
  · rfl

theorem updCore_keeps [May gs .cores] {c : Nat} {f : Core → Core} (hf : ∀ k, k.num = c → (f k).num = k.num) (h
    : Keeps gs z s) :
    Keeps gs z (s.updCore c f) :=
  updCores_keeps (fun _ => map_updWhere _ _ _ _ fun x hx => hf x (by simpa using hx)) h

/-- A change of one memory that keeps its form. -/
theorem updMem_keeps [May gs .mem] {f : Memories → Memories}
    (hf : Memory.wf s.mem.spm ∧ Memory.wf s.mem.hbm ∧ Memory.wf s.mem.cxl ∧ Memory.wf s.mem.host →
      Memory.wf (f s.mem).spm ∧ Memory.wf (f s.mem).hbm ∧ Memory.wf (f s.mem).cxl ∧ Memory.wf (f s.mem).host)
    (h : Keeps gs z s) : Keeps gs z (s.updMem f) := h.trans ⟨rfl, rfl, rfl, hf, by intro a ha; cases a <;> first | exact absurd Fact.out ha | exact rfl⟩

theorem updMem_hostFail_keeps [May gs .mem] (r) (h : Keeps gs z s) : Keeps gs z (s.updMem fun m => { m with hostFail := r }) :=
  updMem_keeps (fun w => w) h

theorem updMem_erase_keeps [May gs .mem] (a n) (h : Keeps gs z s) : Keeps gs z (s.updMem fun m => { m with spm := m.spm.erase a n }) :=
  updMem_keeps (fun w => ⟨Mem.erase_wf a n w.1, w.2⟩) h

theorem spmWrite_keeps [May gs .mem] (c b) (bs : List Byte) (h : Keeps gs z s) : Keeps gs z (s.spmWrite c b bs) :=
  updMem_keeps (fun w => ⟨Mem.writeZ_wf _ _ w.1, w.2⟩) h

theorem hbmWrite_keeps [May gs .mem] (k o) (bs : List Byte) (h : Keeps gs z s) : Keeps gs z (s.hbmWrite k o bs) :=
  updMem_keeps (fun w => ⟨w.1, Mem.write_wf _ _ w.2.1, w.2.2⟩) h

theorem cxlWrite_keeps [May gs .mem] (p o) (bs : List Byte) (h : Keeps gs z s) : Keeps gs z (s.cxlWrite p o bs) :=
  updMem_keeps (fun w => ⟨w.1, w.2.1, Mem.write_wf _ _ w.2.2.1, w.2.2.2⟩) h

theorem hostWrite_keeps [May gs .mem] (a) (bs : List Byte) (h : Keeps gs z s) : Keeps gs z (s.hostWrite a bs) :=
  updMem_keeps (fun w => ⟨w.1, w.2.1, w.2.2.1, Mem.write_wf _ _ w.2.2.2⟩) h

theorem ite_keeps {p : Prop} [Decidable p] {a b : State} (ha : Keeps gs z a) (hb : Keeps gs z b) : Keeps gs z (if p then a else b) := by
  split
  · exact ha
  · exact hb

theorem pair_keeps {α : Type} (a : α) {t : State} (h : Keeps gs z t) : Keeps gs z (a, t).2 := h

theorem when_keeps {c : Bool} {f : State → State} (hf : ∀ t, Keeps gs z t → Keeps gs z (f t)) (h : Keeps gs z s) :
    Keeps gs z (s.when c f) := by
  unfold State.when
  split
  · exact hf _ h
  · exact h

theorem forEach_keeps {α : Type} {xs : List α} {f : α → State → State} (hf : ∀ x t, Keeps gs z t → Keeps gs z (f x t))
    (h : Keeps gs z s) : Keeps gs z (s.forEach xs f) := by
  unfold State.forEach
  induction xs generalizing s with
  | nil => exact h
  | cons x xs ih => exact ih (hf _ _ h)


theorem keeps_snd {α : Type} {p : α × State} {x : α} {t : State} (e : p = (x, t)) (h : Keeps gs z p.2) : Keeps gs z t := by
  subst e
  exact h

/-- A fold whose accumulator holds a state. -/
theorem foldl_keeps {α β : Type} {step : β → α → β} {xs : List α} {b : β} (g : β → State)
    (hs : ∀ b x, Keeps gs z (g b) → Keeps gs z (g (step b x))) (h : Keeps gs z (g b)) : Keeps gs z (g (xs.foldl step b)) := by
  induction xs generalizing b with
  | nil => exact h
  | cons x xs ih => exact ih (hs _ _ h)


theorem dieWrite_keeps [May gs .mem] (d : Nat) (o : Nat) (bs : List Byte) (hk : Keeps gs z s) : Keeps gs z
    (State.dieWrite d o bs s) := by
  unfold State.dieWrite
  repeat' (first | with_reducible assumption | with_reducible apply forEach_keeps | with_reducible apply hbmWrite_keeps | extract_lets | with_reducible apply ite_keeps | split | (intro _; intros; beta_reduce at *) | (dsimp +zetaDelta only))

theorem cxlIlWrite_keeps [May gs .mem] (o : Nat) (bs : List Byte) (hk : Keeps gs z s) : Keeps gs z
    (State.cxlIlWrite o bs s) := by
  unfold State.cxlIlWrite
  repeat' (first | with_reducible assumption | with_reducible apply forEach_keeps | with_reducible apply cxlWrite_keeps | extract_lets | with_reducible apply ite_keeps | split | (intro _; intros; beta_reduce at *) | (dsimp +zetaDelta only))

theorem updStream_keeps [May gs .work] (id : Nat) (f : Stream → Stream) (hk : Keeps gs z s) : Keeps gs z
    (State.updStream id f s) := by
  unfold State.updStream
  repeat' (first | with_reducible assumption | with_reducible apply updWork_keeps | extract_lets | with_reducible apply ite_keeps | split | (intro _; intros; beta_reduce at *) | (dsimp +zetaDelta only))

theorem updSlot_keeps [May gs .work] (n : Nat) (f : ModelSlot → ModelSlot) (hk : Keeps gs z s) : Keeps gs z
    (State.updSlot n f s) := by
  unfold State.updSlot
  repeat' (first | with_reducible assumption | with_reducible apply updWork_keeps | extract_lets | with_reducible apply ite_keeps | split | (intro _; intros; beta_reduce at *) | (dsimp +zetaDelta only))

theorem updGroup_keeps [May gs .work] (n : Nat) (f : Group → Group) (hk : Keeps gs z s) : Keeps gs z
    (State.updGroup n f s) := by
  unfold State.updGroup
  repeat' (first | with_reducible assumption | with_reducible apply updWork_keeps | extract_lets | with_reducible apply ite_keeps | split | (intro _; intros; beta_reduce at *) | (dsimp +zetaDelta only))

theorem updJob_keeps [May gs .work] (n : Nat) (f : Job → Job) (hk : Keeps gs z s) : Keeps gs z (State.updJob n f
    s) := by
  unfold State.updJob
  repeat' (first | with_reducible assumption | with_reducible apply updWork_keeps | extract_lets | with_reducible apply ite_keeps | split | (intro _; intros; beta_reduce at *) | (dsimp +zetaDelta only))

theorem updStreams_keeps [May gs .work] (f : List Stream → List Stream) (hk : Keeps gs z s) : Keeps gs z
    (State.updStreams f s) := by
  unfold State.updStreams
  repeat' (first | with_reducible assumption | with_reducible apply updWork_keeps | extract_lets | with_reducible apply ite_keeps | split | (intro _; intros; beta_reduce at *) | (dsimp +zetaDelta only))

theorem updJobs_keeps [May gs .work] (f : List Job → List Job) (hk : Keeps gs z s) : Keeps gs z (State.updJobs f
    s) := by
  unfold State.updJobs
  repeat' (first | with_reducible assumption | with_reducible apply updWork_keeps | extract_lets | with_reducible apply ite_keeps | split | (intro _; intros; beta_reduce at *) | (dsimp +zetaDelta only))

theorem updMoves_keeps [May gs .work] (f : List Move → List Move) (hk : Keeps gs z s) : Keeps gs z
    (State.updMoves f s) := by
  unfold State.updMoves
  repeat' (first | with_reducible assumption | with_reducible apply updWork_keeps | extract_lets | with_reducible apply ite_keeps | split | (intro _; intros; beta_reduce at *) | (dsimp +zetaDelta only))

theorem updPages_keeps [May gs .caches] (f : List Page → List Page) (hk : Keeps gs z s) : Keeps gs z
    (State.updPages f s) := by
  unfold State.updPages
  repeat' (first | with_reducible assumption | with_reducible apply updCaches_keeps | extract_lets | with_reducible apply ite_keeps | split | (intro _; intros; beta_reduce at *) | (dsimp +zetaDelta only))

theorem setReg_keeps [May gs .regs] (off : Nat) (v : Nat) (hk : Keeps gs z s) : Keeps gs z (State.setReg off v
    s) := by
  unfold State.setReg
  repeat' (first | with_reducible assumption | with_reducible apply updRegs_keeps | extract_lets | with_reducible apply ite_keeps | split | (intro _; intros; beta_reduce at *) | (dsimp +zetaDelta only))

theorem setBit_keeps [May gs .regs] (off : Nat) (bit : Nat) (hk : Keeps gs z s) : Keeps gs z (State.setBit off
    bit s) := by
  unfold State.setBit
  repeat' (first | with_reducible assumption | with_reducible apply setReg_keeps | extract_lets | with_reducible apply ite_keeps | split | (intro _; intros; beta_reduce at *) | (dsimp +zetaDelta only))

theorem count_keeps [May gs .regs] (c : Counter) (n : Nat) (hk : Keeps gs z s) : Keeps gs z (State.count c n s) := by
  unfold State.count
  repeat' (first | with_reducible assumption | with_reducible apply setReg_keeps | with_reducible apply setBit_keeps | extract_lets | with_reducible apply ite_keeps | split | (intro _; intros; beta_reduce at *) | (dsimp +zetaDelta only))

theorem bump_keeps [May gs .regs] (c : Counter) (hk : Keeps gs z s) : Keeps gs z (State.bump c s) := by
  unfold State.bump
  repeat' (first | with_reducible assumption | with_reducible apply count_keeps | extract_lets | with_reducible apply ite_keeps | split | (intro _; intros; beta_reduce at *) | (dsimp +zetaDelta only))

theorem ignore_keeps [May gs .regs] (b : Block) (hk : Keeps gs z s) : Keeps gs z (State.ignore b s) := by
  unfold State.ignore
  repeat' (first | with_reducible assumption | with_reducible apply bump_keeps | extract_lets | with_reducible apply ite_keeps | split | (intro _; intros; beta_reduce at *) | (dsimp +zetaDelta only))

theorem updRg_keeps [May gs .hif] (g : Nat) (f : RingGroup → RingGroup) (hk : Keeps gs z s) : Keeps gs z
    (State.updRg g f s) := by
  unfold State.updRg
  repeat' (first | with_reducible assumption | with_reducible apply updHif_keeps | extract_lets | with_reducible apply ite_keeps | split | (intro _; intros; beta_reduce at *) | (dsimp +zetaDelta only))

theorem updFunc_keeps [May gs .hif] (f : Nat) (g : FuncCopy → FuncCopy) (hk : Keeps gs z s) : Keeps gs z
    (State.updFunc f g s) := by
  unfold State.updFunc
  repeat' (first | with_reducible assumption | with_reducible apply updHif_keeps | extract_lets | with_reducible apply ite_keeps | split | (intro _; intros; beta_reduce at *) | (dsimp +zetaDelta only))

theorem charge_keeps [May gs .work] (kind : Nat) (idx : Nat) (uses : List (Nat × Nat)) (hk : Keeps gs z s) :
    Keeps gs z (State.charge kind idx uses s) := by
  unfold State.charge
  repeat' (first | with_reducible assumption | with_reducible apply updWork_keeps | ((with_reducible refine foldl_keeps Prod.snd ?_ ?_)) | ((with_reducible refine foldl_keeps id ?_ ?_)) | extract_lets | with_reducible apply ite_keeps | split | (intro _; intros; beta_reduce at *) | (dsimp +zetaDelta only))

theorem chargeStream_keeps [May gs .work] (x : Stream) (uses : List (Nat × Nat)) (hk : Keeps gs z s) : Keeps gs
    z (State.chargeStream x uses s) := by
  unfold State.chargeStream
  repeat' (first | with_reducible assumption | with_reducible apply charge_keeps | extract_lets | with_reducible apply ite_keeps | split | (intro _; intros; beta_reduce at *) | (dsimp +zetaDelta only))

theorem chargeId_keeps [May gs .work] (id : Nat) (uses : List (Nat × Nat)) (hk : Keeps gs z s) : Keeps gs z
    (State.chargeId id uses s) := by
  unfold State.chargeId
  repeat' (first | with_reducible assumption | with_reducible apply chargeStream_keeps | extract_lets | with_reducible apply ite_keeps | split | (intro _; intros; beta_reduce at *) | (dsimp +zetaDelta only))

theorem chargeOverhead_keeps [May gs .work] (p : Nat) (uses : List (Nat × Nat)) (hk : Keeps gs z s) : Keeps gs z
    (State.chargeOverhead p uses s) := by
  unfold State.chargeOverhead
  repeat' (first | with_reducible assumption | with_reducible apply charge_keeps | extract_lets | with_reducible apply ite_keeps | split | (intro _; intros; beta_reduce at *) | (dsimp +zetaDelta only))

theorem fireVector_keeps [May gs .hif] [May gs .out] (f : Nat) (v : Nat) (hk : Keeps gs z s) : Keeps gs z
    (State.fireVector f v s) := by
  unfold State.fireVector
  repeat' (first | with_reducible assumption | with_reducible apply updHif_keeps | with_reducible apply emit_keeps | extract_lets | with_reducible apply ite_keeps | split | (intro _; intros; beta_reduce at *) | (dsimp +zetaDelta only))

theorem setMask_keeps [May gs .hif] [May gs .out] (f : Nat) (v : Nat) (m : Bool) (hk : Keeps gs z s) : Keeps gs
    z (State.setMask f v m s) := by
  unfold State.setMask
  repeat' (first | with_reducible assumption | with_reducible apply updHif_keeps | with_reducible apply emit_keeps | extract_lets | with_reducible apply ite_keeps | split | (intro _; intros; beta_reduce at *) | (dsimp +zetaDelta only))

theorem hostConfig_keeps [May gs .hif] [May gs .out] (c : HostConfig) (hk : Keeps gs z s) : Keeps gs z
    (State.hostConfig c s) := by
  unfold State.hostConfig
  repeat' (first | with_reducible assumption | with_reducible apply updHif_keeps | with_reducible apply forEach_keeps | with_reducible apply setMask_keeps | extract_lets | with_reducible apply ite_keeps | split | (intro _; intros; beta_reduce at *) | (dsimp +zetaDelta only))

theorem fireGroup_keeps [May gs .hif] [May gs .out] (g : Nat) (event : Bool) (hk : Keeps gs z s) : Keeps gs z
    (State.fireGroup g event s) := by
  unfold State.fireGroup
  repeat' (first | with_reducible assumption | with_reducible apply updRg_keeps | with_reducible apply fireVector_keeps | extract_lets | with_reducible apply ite_keeps | split | (intro _; intros; beta_reduce at *) | (dsimp +zetaDelta only))

theorem pendEntry_keeps [May gs .hif] [May gs .out] (g : Nat) (event : Bool) (now : Bool) (hk : Keeps gs z s) :
    Keeps gs z (State.pendEntry g event now s) := by
  unfold State.pendEntry
  repeat' (first | with_reducible assumption | with_reducible apply updRg_keeps | with_reducible apply fireGroup_keeps | extract_lets | with_reducible apply ite_keeps | split | (intro _; intros; beta_reduce at *) | (dsimp +zetaDelta only))

theorem writeEntry_keeps [May gs .mem] (a : Nat) (ws : List Word) (w7 : Nat) (hk : Keeps gs z s) : Keeps gs z
    (State.writeEntry a ws w7 s) := by
  unfold State.writeEntry
  repeat' (first | with_reducible assumption | with_reducible apply hostWrite_keeps | extract_lets | with_reducible apply ite_keeps | split | (intro _; intros; beta_reduce at *) | (dsimp +zetaDelta only))

theorem postRaw_keeps [May gs .hif] [May gs .mem] [May gs .out] (g : Nat) (k : Nat) (ws : List Word) (w7 : Nat)
    (irq : Bool) (hk : Keeps gs z s) : Keeps gs z (State.postRaw g k ws w7 irq s) := by
  unfold State.postRaw
  repeat' (first | with_reducible assumption | with_reducible apply updRg_keeps | with_reducible apply pendEntry_keeps | with_reducible apply writeEntry_keeps | extract_lets | with_reducible apply ite_keeps | split | (intro _; intros; beta_reduce at *) | (dsimp +zetaDelta only))

theorem post_keeps [May gs .hif] [May gs .mem] [May gs .out] (g : Nat) (k : Nat) (ws : List Word) (w7 : Nat)
    (irq : Bool) (hk : Keeps gs z s) : Keeps gs z (State.post g k ws w7 irq s) := by
  unfold State.post
  repeat' (first | with_reducible assumption | with_reducible apply postRaw_keeps | extract_lets | with_reducible apply ite_keeps | split | (intro _; intros; beta_reduce at *) | (dsimp +zetaDelta only))

theorem complete_keeps [May gs .hif] [May gs .mem] [May gs .out] (g : Nat) (k : Nat) (d : Desc) (status : Nat)
    (flags : Nat) (rest : List Word) (hk : Keeps gs z s) : Keeps gs z (State.complete g k d status flags rest s)
    := by
  unfold State.complete
  repeat' (first | with_reducible assumption | with_reducible apply post_keeps | extract_lets | with_reducible apply ite_keeps | split | (intro _; intros; beta_reduce at *) | (dsimp +zetaDelta only))

theorem finishCmd_keeps [May gs .hif] [May gs .mem] [May gs .out] (g : Nat) (d : Nat) (status : Nat) (rest :
    List Word) (hk : Keeps gs z s) : Keeps gs z (State.finishCmd g d status rest s) := by
  unfold State.finishCmd
  repeat' (first | with_reducible assumption | with_reducible apply updRg_keeps | with_reducible apply complete_keeps | extract_lets | with_reducible apply ite_keeps | split | (intro _; intros; beta_reduce at *) | (dsimp +zetaDelta only))

theorem postEventRaw_keeps [May gs .hif] [May gs .mem] [May gs .out] (g : Nat) (code : Nat) (stream : Option
    Nat) (rest : List Word) (now : Bool) (hk : Keeps gs z s) : Keeps gs z (State.postEventRaw g code stream rest
    now s) := by
  unfold State.postEventRaw
  repeat' (first | with_reducible assumption | with_reducible apply updRg_keeps | with_reducible apply pendEntry_keeps | with_reducible apply writeEntry_keeps | extract_lets | with_reducible apply ite_keeps | split | (intro _; intros; beta_reduce at *) | (dsimp +zetaDelta only))

theorem postEvent_keeps [May gs .regs] [May gs .hif] [May gs .mem] [May gs .out] (g : Nat) (code : Nat) (stream
    : Option Nat) (rest : List Word) (now : Bool) (hk : Keeps gs z s) : Keeps gs z (State.postEvent g code
    stream rest now s) := by
  unfold State.postEvent
  repeat' (first | with_reducible assumption | with_reducible apply bump_keeps | with_reducible apply updRg_keeps | with_reducible apply postEventRaw_keeps | extract_lets | with_reducible apply ite_keeps | split | (intro _; intros; beta_reduce at *) | (dsimp +zetaDelta only))

theorem devEvent_keeps [May gs .regs] [May gs .hif] [May gs .mem] [May gs .out] (code : Nat) (rest : List Word)
    (hk : Keeps gs z s) : Keeps gs z (State.devEvent code rest s) := by
  unfold State.devEvent
  repeat' (first | with_reducible assumption | with_reducible apply forEach_keeps | with_reducible apply postEvent_keeps | extract_lets | with_reducible apply ite_keeps | split | (intro _; intros; beta_reduce at *) | (dsimp +zetaDelta only))

theorem elapse_keeps [May gs .free] [May gs .tb] (n : Nat) (hk : Keeps gs z s) : Keeps gs z (State.elapse n s) := by
  unfold State.elapse
  repeat' (first | with_reducible assumption | with_reducible apply nextFree_keeps | extract_lets | with_reducible apply ite_keeps | split | (intro _; intros; beta_reduce at *) | with_reducible exact hk.same rfl rfl rfl rfl | (dsimp +zetaDelta only))

theorem advanceTo_keeps [May gs .free] [May gs .tb] (t0 : Nat) (hk : Keeps gs z s) : Keeps gs z (State.advanceTo
    t0 s) := by
  unfold State.advanceTo
  repeat' (first | with_reducible assumption | with_reducible apply updTb_keeps | with_reducible apply elapse_keeps | extract_lets | with_reducible apply ite_keeps | split | (intro _; intros; beta_reduce at *) | (dsimp +zetaDelta only))

theorem timebaseEvent_keeps [May gs .regs] [May gs .hif] [May gs .mem] [May gs .out] (cond : Nat) (entry : Bool)
    (hk : Keeps gs z s) : Keeps gs z (State.timebaseEvent cond entry s) := by
  unfold State.timebaseEvent
  repeat' (first | with_reducible assumption | with_reducible apply devEvent_keeps | extract_lets | with_reducible apply ite_keeps | split | (intro _; intros; beta_reduce at *) | (dsimp +zetaDelta only))

theorem addRecord_keeps [May gs .keeper] (kind : Nat) (body : List Byte) (hk : Keeps gs z s) : Keeps gs z
    (State.addRecord kind body s) := by
  unfold State.addRecord
  repeat' (first | with_reducible assumption | with_reducible apply updKeeper_keeps | extract_lets | with_reducible apply ite_keeps | split | (intro _; intros; beta_reduce at *) | (dsimp +zetaDelta only))

theorem commitStart_keeps [May gs .keeper] (hk : Keeps gs z s) : Keeps gs z (State.commitStart s) := by
  unfold State.commitStart
  repeat' (first | with_reducible assumption | with_reducible apply updKeeper_keeps | extract_lets | with_reducible apply ite_keeps | split | (intro _; intros; beta_reduce at *) | (dsimp +zetaDelta only))

theorem commitDone_keeps [May gs .keeper] (hk : Keeps gs z s) : Keeps gs z (State.commitDone s) := by
  unfold State.commitDone
  repeat' (first | with_reducible assumption | with_reducible apply updKeeper_keeps | extract_lets | with_reducible apply ite_keeps | split | (intro _; intros; beta_reduce at *) | (dsimp +zetaDelta only))

theorem faultEntries_keeps [May gs .hif] [May gs .mem] [May gs .out] (cause : Nat) (seq : Nat) (g : Nat) (hk :
    Keeps gs z s) : Keeps gs z (State.faultEntries cause seq g s) := by
  unfold State.faultEntries
  repeat' (first | with_reducible assumption | with_reducible apply fireGroup_keeps | with_reducible apply postRaw_keeps | with_reducible apply postEventRaw_keeps | extract_lets | with_reducible apply ite_keeps | split | (intro _; intros; beta_reduce at *) | (dsimp +zetaDelta only))

theorem sendFlit_keeps [May gs .out] (name : String) (args : List Nat) (hk : Keeps gs z s) : Keeps gs z
    (State.sendFlit name args s) := by
  unfold State.sendFlit
  repeat' (first | with_reducible assumption | with_reducible apply emit_keeps | with_reducible apply forEach_keeps | extract_lets | with_reducible apply ite_keeps | split | (intro _; intros; beta_reduce at *) | (dsimp +zetaDelta only))

theorem loseAll_keeps [May gs .work] [May gs .cores] [May gs .pair] (hk : Keeps gs z s) : Keeps gs z
    (State.loseAll s) := by
  unfold State.loseAll
  repeat' (first | with_reducible assumption | with_reducible apply updWork_keeps | ((with_reducible refine updCores_keeps ?_ ?_); on_goal 1 => (intros; simp)) | with_reducible apply updPair_keeps | extract_lets | with_reducible apply ite_keeps | split | (intro _; intros; beta_reduce at *) | (dsimp +zetaDelta only))

theorem fault_keeps [May gs .regs] [May gs .hif] [May gs .work] [May gs .cores] [May gs .mem] [May gs .pair]
    [May gs .keeper] [May gs .out] (i : FaultInfo) (hk : Keeps gs z s) : Keeps gs z (State.fault i s) := by
  unfold State.fault
  repeat' (first | with_reducible assumption | with_reducible apply updPair_keeps | with_reducible apply updKeeper_keeps | with_reducible apply forEach_keeps | with_reducible apply bump_keeps | with_reducible apply addRecord_keeps | with_reducible apply faultEntries_keeps | with_reducible apply sendFlit_keeps | with_reducible apply loseAll_keeps | extract_lets | with_reducible apply ite_keeps | split | (intro _; intros; beta_reduce at *) | (dsimp +zetaDelta only))

theorem trap_keeps [May gs .free] [May gs .regs] [May gs .hif] [May gs .work] [May gs .cores] [May gs .mem] [May
    gs .pair] [May gs .keeper] [May gs .out] (c : Nat) (code : Nat) (hk : Keeps gs z s) : Keeps gs z (State.trap
    c code s) := by
  unfold State.trap
  repeat' (first | with_reducible assumption | with_reducible apply nextFree_keeps | ((with_reducible refine updCore_keeps ?_ ?_); on_goal 1 => (intros; first | rfl | (split <;> rfl))) | with_reducible apply setReg_keeps | with_reducible apply fault_keeps | extract_lets | with_reducible apply ite_keeps | split | (intro _; intros; beta_reduce at *) | (dsimp +zetaDelta only))

theorem tileMismatch_keeps [May gs .regs] [May gs .hif] [May gs .work] [May gs .cores] [May gs .mem] [May gs
    .pair] [May gs .keeper] [May gs .out] (c : Option Nat) (unit : Nat) (addr : Nat) (got : Nat) (tag : Nat) (hk
    : Keeps gs z s) : Keeps gs z (State.tileMismatch c unit addr got tag s) := by
  unfold State.tileMismatch
  repeat' (first | with_reducible assumption | with_reducible apply bump_keeps | with_reducible apply fault_keeps | extract_lets | with_reducible apply ite_keeps | split | (intro _; intros; beta_reduce at *) | (dsimp +zetaDelta only))

theorem uncorrectable_keeps [May gs .regs] [May gs .hif] [May gs .work] [May gs .cores] [May gs .mem] [May gs
    .pair] [May gs .keeper] [May gs .out] (c : Option Nat) (unit : Nat) (kind : Nat) (addr : Nat) (hk : Keeps gs
    z s) : Keeps gs z (State.uncorrectable c unit kind addr s) := by
  unfold State.uncorrectable
  repeat' (first | with_reducible assumption | with_reducible apply bump_keeps | with_reducible apply fault_keeps | extract_lets | with_reducible apply ite_keeps | split | (intro _; intros; beta_reduce at *) | (dsimp +zetaDelta only))

end Sys2Proof.Machine
end

