-- ==== Sys2Proof/Laws/KeepsMemory.lean ====
section
/-! SUPPORT. No operation on addresses, tiles, pages or input areas breaks Safety.Keeps. -/

namespace Sys2Proof.Machine

open Sys2Proof Safety

set_option linter.unreachableTactic false
set_option linter.unusedTactic false
set_option linter.unusedVariables false

variable {z s : State} {gs : List Area}

theorem updSkvSlot_keeps [May gs .caches] (p : Nat) (k : Nat) (f : SkvSlot → SkvSlot) (hk : Keeps gs z s) :
    Keeps gs z (State.updSkvSlot p k f s) := by
  unfold State.updSkvSlot
  repeat' (first | with_reducible assumption | with_reducible apply updCaches_keeps | extract_lets | with_reducible apply ite_keeps | split | (intro _; intros; beta_reduce at *) | (dsimp +zetaDelta only))

theorem updSkvGen_keeps [May gs .caches] (p : Nat) (k : Nat) (g : Nat) (f : SkvGen → SkvGen) (hk : Keeps gs z s)
    : Keeps gs z (State.updSkvGen p k g f s) := by
  unfold State.updSkvGen
  repeat' (first | with_reducible assumption | with_reducible apply updCaches_keeps | extract_lets | with_reducible apply ite_keeps | split | (intro _; intros; beta_reduce at *) | (dsimp +zetaDelta only))

theorem addNames_keeps [May gs .caches] (p : Nat) (names : List (Nat × Nat)) (hk : Keeps gs z s) : Keeps gs z
    (State.addNames p names s) := by
  unfold State.addNames
  repeat' (first | with_reducible assumption | with_reducible apply forEach_keeps | with_reducible apply updSkvGen_keeps | extract_lets | with_reducible apply ite_keeps | split | (intro _; intros; beta_reduce at *) | (dsimp +zetaDelta only))

theorem dropNames_keeps [May gs .caches] (p : Nat) (names : List (Nat × Nat)) (hk : Keeps gs z s) : Keeps gs z
    (State.dropNames p names s) := by
  unfold State.dropNames
  repeat' (first | with_reducible assumption | with_reducible apply forEach_keeps | with_reducible apply updSkvGen_keeps | extract_lets | with_reducible apply ite_keeps | split | (intro _; intros; beta_reduce at *) | (dsimp +zetaDelta only))

theorem writeLoc_keeps [May gs .mem] (l : Loc) (bs : List Byte) (hk : Keeps gs z s) : Keeps gs z (State.writeLoc
    l bs s) := by
  unfold State.writeLoc
  repeat' (first | with_reducible assumption | with_reducible apply forEach_keeps | with_reducible apply spmWrite_keeps | with_reducible apply hbmWrite_keeps | with_reducible apply cxlWrite_keeps | with_reducible apply hostWrite_keeps | with_reducible apply dieWrite_keeps | extract_lets | with_reducible apply ite_keeps | split | (intro _; intros; beta_reduce at *) | (dsimp +zetaDelta only))

theorem remoteRow_keeps [May gs .regs] [May gs .cores] [May gs .mem] (owner : Nat) (r : Nat) (wr : Writer) (off
    : Nat) (bs : List Byte) (hk : Keeps gs z s) : Keeps gs z (State.remoteRow owner r wr off bs s) := by
  unfold State.remoteRow
  repeat' (first | with_reducible assumption | with_reducible apply spmWrite_keeps | ((with_reducible refine updCore_keeps ?_ ?_); on_goal 1 => (intros; first | rfl | (split <;> rfl))) | with_reducible apply bump_keeps | extract_lets | with_reducible apply ite_keeps | split | (intro _; intros; beta_reduce at *) | (dsimp +zetaDelta only))

theorem remoteWrite_keeps [May gs .regs] [May gs .cores] [May gs .mem] (owner : Nat) (b : Nat) (wr : Writer) (bs
    : List Byte) (hk : Keeps gs z s) : Keeps gs z (State.remoteWrite owner b wr bs s) := by
  unfold State.remoteWrite
  repeat' (first | with_reducible assumption | with_reducible apply forEach_keeps | with_reducible apply remoteRow_keeps | extract_lets | with_reducible apply ite_keeps | split | (intro _; intros; beta_reduce at *) | (dsimp +zetaDelta only))

theorem dmRead_keeps [May gs .free] [May gs .regs] [May gs .hif] [May gs .work] [May gs .cores] [May gs .mem]
    [May gs .pair] [May gs .keeper] [May gs .out] (c : Nat) (a : Nat) (n : Nat) (hk : Keeps gs z s) : Keeps gs z
    (State.dmRead s c a n).2 := by
  unfold State.dmRead
  repeat' (first | with_reducible assumption | with_reducible apply bump_keeps | with_reducible apply uncorrectable_keeps | extract_lets | with_reducible apply ite_keeps | split | (intro _; intros; beta_reduce at *) | with_reducible exact hk.same rfl rfl rfl rfl | (dsimp only) | (refine keeps_snd (by assumption) ?_) | (dsimp +zetaDelta only))

theorem dmWrite_keeps [May gs .regs] [May gs .cores] [May gs .mem] [May gs .out] (c : Nat) (a : Nat) (bs : List
    Byte) (hk : Keeps gs z s) : Keeps gs z (State.dmWrite c a bs s) := by
  unfold State.dmWrite
  repeat' (first | with_reducible assumption | with_reducible apply emit_keeps | with_reducible apply spmWrite_keeps | with_reducible apply bump_keeps | with_reducible apply writeLoc_keeps | with_reducible apply remoteWrite_keeps | extract_lets | with_reducible apply ite_keeps | split | (intro _; intros; beta_reduce at *) | (dsimp +zetaDelta only))

theorem spmCorrected_keeps [May gs .regs] (c : Nat) (hk : Keeps gs z s) : Keeps gs z (State.spmCorrected c s) := by
  unfold State.spmCorrected
  repeat' (first | with_reducible assumption | with_reducible apply bump_keeps | extract_lets | with_reducible apply ite_keeps | split | (intro _; intros; beta_reduce at *) | (dsimp +zetaDelta only))

theorem corrected_keeps [May gs .regs] (u : Upset) (hk : Keeps gs z s) : Keeps gs z (State.corrected u s) := by
  unfold State.corrected
  repeat' (first | with_reducible assumption | with_reducible apply forEach_keeps | with_reducible apply bump_keeps | with_reducible apply spmCorrected_keeps | extract_lets | with_reducible apply ite_keeps | split | (intro _; intros; beta_reduce at *) | (dsimp +zetaDelta only))

theorem readErrors_keeps [May gs .regs] [May gs .hif] [May gs .work] [May gs .cores] [May gs .mem] [May gs
    .pair] [May gs .keeper] [May gs .out] (core : Option Nat) (unit : Nat) (u : Upset) (reads : Nat → Bool)
    (every : Bool) (hk : Keeps gs z s) : Keeps gs z (State.readErrors core unit u reads every s) := by
  unfold State.readErrors
  repeat' (first | with_reducible assumption | with_reducible apply tileMismatch_keeps | with_reducible apply uncorrectable_keeps | extract_lets | with_reducible apply ite_keeps | split | (intro _; intros; beta_reduce at *) | (dsimp +zetaDelta only))

theorem moveErrors_keeps [May gs .regs] [May gs .hif] [May gs .work] [May gs .cores] [May gs .mem] [May gs
    .pair] [May gs .keeper] [May gs .out] (unit : Nat) (u : Upset) (ranges : List (Nat × Nat)) (hk : Keeps gs z
    s) : Keeps gs z (State.moveErrors unit u ranges s) := by
  unfold State.moveErrors
  repeat' (first | with_reducible assumption | with_reducible apply corrected_keeps | with_reducible apply readErrors_keeps | extract_lets | with_reducible apply ite_keeps | split | (intro _; intros; beta_reduce at *) | (dsimp +zetaDelta only))

theorem tally_keeps [May gs .regs] (k : Counter) (n : Nat) (hk : Keeps gs z s) : Keeps gs z (State.tally k n s) := by
  unfold State.tally
  repeat' (first | with_reducible assumption | with_reducible apply count_keeps | extract_lets | with_reducible apply ite_keeps | split | (intro _; intros; beta_reduce at *) | (dsimp +zetaDelta only))

theorem setSreg_keeps [May gs .cores] (c : Nat) (i : Nat) (v : Nat) (hk : Keeps gs z s) : Keeps gs z
    (State.setSreg c i v s) := by
  unfold State.setSreg
  repeat' (first | with_reducible assumption | ((with_reducible refine updCore_keeps ?_ ?_); on_goal 1 => (intros; first | rfl | (split <;> rfl))) | extract_lets | with_reducible apply ite_keeps | split | (intro _; intros; beta_reduce at *) | (dsimp +zetaDelta only))

theorem putTable_keeps [May gs .caches] (p : Nat) (k : Nat) (ew : Nat) (entries : List Nat) (hk : Keeps gs z s)
    : Keeps gs z (State.putTable p k ew entries s) := by
  unfold State.putTable
  repeat' (first | with_reducible assumption | with_reducible apply updSkvSlot_keeps | with_reducible apply updSkvGen_keeps | extract_lets | with_reducible apply ite_keeps | split | (intro _; intros; beta_reduce at *) | (dsimp +zetaDelta only))

theorem buildPass_keeps [May gs .regs] [May gs .caches] (p : Nat) (k : Nat) (ew : Nat) (group : List (List
    Byte)) (hk : Keeps gs z s) : Keeps gs z (State.buildPass p k ew group s) := by
  unfold State.buildPass
  repeat' (first | with_reducible assumption | with_reducible apply bump_keeps | with_reducible apply putTable_keeps | extract_lets | with_reducible apply ite_keeps | split | (intro _; intros; beta_reduce at *) | (dsimp +zetaDelta only))

theorem countTile_keeps [May gs .regs] (t0 : CodedTile) (hk : Keeps gs z s) : Keeps gs z (State.countTile t0 s) := by
  unfold State.countTile
  repeat' (first | with_reducible assumption | with_reducible apply forEach_keeps | with_reducible apply count_keeps | with_reducible apply bump_keeps | extract_lets | with_reducible apply ite_keeps | split | (intro _; intros; beta_reduce at *) | (dsimp +zetaDelta only))

theorem codeGroup_keeps [May gs .regs] [May gs .caches] (p : Nat) (ew : Nat) (how : Coding) (tiles : List (List
    Byte)) (hk : Keeps gs z s) : Keeps gs z (State.codeGroup p ew how tiles s).2 := by
  unfold State.codeGroup
  repeat' (first | with_reducible assumption | with_reducible apply forEach_keeps | with_reducible apply buildPass_keeps | with_reducible apply countTile_keeps | extract_lets | with_reducible apply ite_keeps | split | (intro _; intros; beta_reduce at *) | (dsimp only) | (refine keeps_snd (by assumption) ?_) | (dsimp +zetaDelta only))

theorem codeTiles_keeps [May gs .regs] [May gs .caches] (p : Nat) (ew : Nat) (how : Coding) (tiles : List (List
    Byte)) (hk : Keeps gs z s) : Keeps gs z (State.codeTiles p ew how tiles s).2 := by
  unfold State.codeTiles
  repeat' (first | with_reducible assumption | with_reducible apply codeGroup_keeps | ((with_reducible refine foldl_keeps Prod.snd ?_ ?_)) | ((with_reducible refine foldl_keeps id ?_ ?_)) | extract_lets | with_reducible apply ite_keeps | split | (intro _; intros; beta_reduce at *) | (dsimp only) | (refine keeps_snd (by assumption) ?_) | (dsimp +zetaDelta only))

theorem slotCoding_keeps [May gs .free] (p : Nat) (k : Nat) (hk : Keeps gs z s) : Keeps gs z (State.slotCoding p
    k s).2 := by
  unfold State.slotCoding
  repeat' (first | with_reducible assumption | with_reducible apply nextFree_keeps | extract_lets | with_reducible apply ite_keeps | split | (intro _; intros; beta_reduce at *) | (dsimp only) | (refine keeps_snd (by assumption) ?_) | (dsimp +zetaDelta only))

theorem chooseCoding_keeps [May gs .free] [May gs .caches] (p : Nat) (model : Nat) (cls : Nat) (fmt : Option
    Nat) (hk : Keeps gs z s) : Keeps gs z (State.chooseCoding p model cls fmt s).2 := by
  unfold State.chooseCoding
  repeat' (first | with_reducible assumption | with_reducible apply updSkvSlot_keeps | with_reducible apply slotCoding_keeps | extract_lets | with_reducible apply ite_keeps | split | (intro _; intros; beta_reduce at *) | (dsimp only) | (refine keeps_snd (by assumption) ?_) | (dsimp +zetaDelta only))

theorem leaveSlots_keeps [May gs .caches] (model : Nat) (hk : Keeps gs z s) : Keeps gs z (State.leaveSlots model
    s) := by
  unfold State.leaveSlots
  repeat' (first | with_reducible assumption | with_reducible apply updCaches_keeps | extract_lets | with_reducible apply ite_keeps | split | (intro _; intros; beta_reduce at *) | (dsimp +zetaDelta only))

theorem skiverMismatch_keeps [May gs .regs] [May gs .hif] [May gs .work] [May gs .cores] [May gs .mem] [May gs
    .pair] [May gs .keeper] [May gs .out] (c : Option Nat) (addr : Nat) (want : Option Nat) (got : Option Nat)
    (hk : Keeps gs z s) : Keeps gs z (State.skiverMismatch c addr want got s) := by
  unfold State.skiverMismatch
  repeat' (first | with_reducible assumption | with_reducible apply bump_keeps | with_reducible apply fault_keeps | extract_lets | with_reducible apply ite_keeps | split | (intro _; intros; beta_reduce at *) | (dsimp +zetaDelta only))

theorem skxBlock_keeps [May gs .free] [May gs .regs] [May gs .hif] [May gs .work] [May gs .cores] [May gs .mem]
    [May gs .pair] [May gs .keeper] [May gs .out] (c : Nat) (d : SkDesc) (p : Progress) (hk : Keeps gs z s) :
    KeepsOptSnd gs z (State.skxBlock c d p s) := by
  unfold State.skxBlock
  repeat' (first | with_reducible assumption | ((with_reducible refine updCore_keeps ?_ ?_); on_goal 1 => (intros; first | rfl | (split <;> rfl))) | with_reducible apply dmRead_keeps | with_reducible apply dmWrite_keeps | with_reducible apply skiverMismatch_keeps | with_reducible apply KeepsOptSnd.here | with_reducible apply KeepsOptSnd.stop | extract_lets | with_reducible apply ite_keeps | split | (intro _; intros; beta_reduce at *) | (dsimp only) | (refine keeps_snd (by assumption) ?_) | (dsimp +zetaDelta only))

theorem skxBlocks_keeps [May gs .free] [May gs .regs] [May gs .hif] [May gs .work] [May gs .cores] [May gs .mem]
    [May gs .pair] [May gs .keeper] [May gs .out] (c : Nat) (d : SkDesc) (x3 : Nat) (x4 : Progress) (hk : Keeps
    gs z s) : Keeps gs z (State.skxBlocks c d x3 x4 s).2 := by
  induction x3 generalizing x4 s with
  | zero =>
    unfold State.skxBlocks
    repeat' (first | with_reducible assumption | with_reducible apply skxBlock_keeps | with_reducible apply KeepsOptSnd.here | with_reducible apply KeepsOptSnd.stop | extract_lets | with_reducible apply ite_keeps | split | (intro _; intros; beta_reduce at *) | (dsimp only) | (refine keeps_snd (by assumption) ?_) | (refine keeps_someSnd (by assumption) ?_) | (refine keeps_someSnd_proj (by assumption) ?_) | (dsimp +zetaDelta only))
  | succ n ih =>
    unfold State.skxBlocks
    repeat' (first | with_reducible assumption | with_reducible apply ih | with_reducible apply skxBlock_keeps | with_reducible apply KeepsOptSnd.here | with_reducible apply KeepsOptSnd.stop | extract_lets | with_reducible apply ite_keeps | split | (intro _; intros; beta_reduce at *) | (dsimp only) | (refine keeps_snd (by assumption) ?_) | (refine keeps_someSnd (by assumption) ?_) | (refine keeps_someSnd_proj (by assumption) ?_) | (dsimp +zetaDelta only))

theorem skxOn_keeps [May gs .free] [May gs .regs] [May gs .hif] [May gs .work] [May gs .cores] [May gs .mem]
    [May gs .pair] [May gs .keeper] [May gs .out] (c : Nat) (n : Option Nat) (f : Flight) (hk : Keeps gs z s) :
    Keeps gs z (State.skxOn c n f s).2 := by
  unfold State.skxOn
  repeat' (first | with_reducible assumption | with_reducible apply skxBlocks_keeps | extract_lets | with_reducible apply ite_keeps | split | (intro _; intros; beta_reduce at *) | (dsimp only) | (refine keeps_snd (by assumption) ?_) | (dsimp +zetaDelta only))

theorem skcRun_keeps [May gs .free] [May gs .regs] [May gs .hif] [May gs .work] [May gs .caches] [May gs .cores]
    [May gs .mem] [May gs .pair] [May gs .keeper] [May gs .out] (c : Nat) (rreg : Nat) (d : SkDesc) (hk : Keeps
    gs z s) : Keeps gs z (State.skcRun c rreg d s) := by
  unfold State.skcRun
  repeat' (first | with_reducible assumption | with_reducible apply updCaches_keeps | with_reducible apply when_keeps | with_reducible apply trap_keeps | with_reducible apply dmRead_keeps | with_reducible apply dmWrite_keeps | with_reducible apply setSreg_keeps | with_reducible apply codeGroup_keeps | ((with_reducible refine foldl_keeps Prod.snd ?_ ?_)) | ((with_reducible refine foldl_keeps id ?_ ?_)) | extract_lets | with_reducible apply ite_keeps | split | (intro _; intros; beta_reduce at *) | (dsimp only) | (refine keeps_snd (by assumption) ?_) | (dsimp +zetaDelta only))

theorem skcOn_keeps [May gs .free] [May gs .regs] [May gs .hif] [May gs .work] [May gs .caches] [May gs .cores]
    [May gs .mem] [May gs .pair] [May gs .keeper] [May gs .out] (c : Nat) (rreg : Nat) (n : Option Nat) (f :
    Flight) (hk : Keeps gs z s) : Keeps gs z (State.skcOn c rreg n f s).2 := by
  unfold State.skcOn
  repeat' (first | with_reducible assumption | with_reducible apply skcRun_keeps | extract_lets | with_reducible apply ite_keeps | split | (intro _; intros; beta_reduce at *) | (dsimp only) | (refine keeps_snd (by assumption) ?_) | (dsimp +zetaDelta only))

theorem frameWrite_keeps [May gs .mem] (tier : Nat) (frame : Nat) (bs : List Byte) (hk : Keeps gs z s) : Keeps
    gs z (State.frameWrite tier frame bs s) := by
  unfold State.frameWrite
  repeat' (first | with_reducible assumption | with_reducible apply writeLoc_keeps | extract_lets | with_reducible apply ite_keeps | split | (intro _; intros; beta_reduce at *) | (dsimp +zetaDelta only))

theorem pageDropNames_keeps [May gs .caches] (pg : Page) (hk : Keeps gs z s) : Keeps gs z (State.pageDropNames
    pg s) := by
  unfold State.pageDropNames
  repeat' (first | with_reducible assumption | with_reducible apply dropNames_keeps | extract_lets | with_reducible apply ite_keeps | split | (intro _; intros; beta_reduce at *) | (dsimp +zetaDelta only))

theorem placePage_keeps [May gs .caches] (n : Nat) (tier : Nat) (frame : Nat) (skv : Bool) (hk : Keeps gs z s) :
    Keeps gs z (State.placePage n tier frame skv s) := by
  unfold State.placePage
  repeat' (first | with_reducible assumption | with_reducible apply updPages_keeps | extract_lets | with_reducible apply ite_keeps | split | (intro _; intros; beta_reduce at *) | (dsimp +zetaDelta only))

theorem storePage_keeps [May gs .free] [May gs .regs] [May gs .caches] [May gs .mem] (pg : Page) (tier : Nat)
    (frame : Nat) (raw : List Byte) (hk : Keeps gs z s) : Keeps gs z (State.storePage pg tier frame raw s) := by
  unfold State.storePage
  repeat' (first | with_reducible assumption | with_reducible apply addNames_keeps | with_reducible apply codeGroup_keeps | with_reducible apply chooseCoding_keeps | with_reducible apply frameWrite_keeps | with_reducible apply placePage_keeps | extract_lets | with_reducible apply ite_keeps | split | (intro _; intros; beta_reduce at *) | (dsimp only) | (refine keeps_snd (by assumption) ?_) | (dsimp +zetaDelta only))

theorem updPage_keeps [May gs .caches] (n : Nat) (f : Page → Page) (hk : Keeps gs z s) : Keeps gs z
    (State.updPage n f s) := by
  unfold State.updPage
  repeat' (first | with_reducible assumption | with_reducible apply updPages_keeps | extract_lets | with_reducible apply ite_keeps | split | (intro _; intros; beta_reduce at *) | (dsimp +zetaDelta only))

theorem freePage_keeps [May gs .caches] (n : Nat) (hk : Keeps gs z s) : Keeps gs z (State.freePage n s) := by
  unfold State.freePage
  repeat' (first | with_reducible assumption | with_reducible apply updCaches_keeps | with_reducible apply pageDropNames_keeps | extract_lets | with_reducible apply ite_keeps | split | (intro _; intros; beta_reduce at *) | (dsimp +zetaDelta only))

theorem toReclaim_keeps [May gs .caches] (n : Nat) (hk : Keeps gs z s) : Keeps gs z (State.toReclaim n s) := by
  unfold State.toReclaim
  repeat' (first | with_reducible assumption | with_reducible apply updCaches_keeps | extract_lets | with_reducible apply ite_keeps | split | (intro _; intros; beta_reduce at *) | (dsimp +zetaDelta only))

theorem pageUnused_keeps [May gs .caches] (n : Nat) (hk : Keeps gs z s) : Keeps gs z (State.pageUnused n s) := by
  unfold State.pageUnused
  repeat' (first | with_reducible assumption | with_reducible apply freePage_keeps | with_reducible apply toReclaim_keeps | extract_lets | with_reducible apply ite_keeps | split | (intro _; intros; beta_reduce at *) | (dsimp +zetaDelta only))

theorem dropRef_keeps [May gs .caches] (holder : Nat) (n : Nat) (hk : Keeps gs z s) : Keeps gs z (State.dropRef
    holder n s) := by
  unfold State.dropRef
  repeat' (first | with_reducible assumption | with_reducible apply updPage_keeps | with_reducible apply pageUnused_keeps | extract_lets | with_reducible apply ite_keeps | split | (intro _; intros; beta_reduce at *) | (dsimp +zetaDelta only))

theorem releasePages_keeps [May gs .work] [May gs .caches] (id : Nat) (ns : List Nat) (hk : Keeps gs z s) :
    Keeps gs z (State.releasePages id ns s) := by
  unfold State.releasePages
  repeat' (first | with_reducible assumption | with_reducible apply forEach_keeps | with_reducible apply updStream_keeps | with_reducible apply dropRef_keeps | extract_lets | with_reducible apply ite_keeps | split | (intro _; intros; beta_reduce at *) | (dsimp +zetaDelta only))

theorem makePage_keeps [May gs .caches] [May gs .mem] (pg : Page) (hk : Keeps gs z s) : Keeps gs z
    (State.makePage pg s) := by
  unfold State.makePage
  repeat' (first | with_reducible assumption | with_reducible apply updPages_keeps | with_reducible apply frameWrite_keeps | extract_lets | with_reducible apply ite_keeps | split | (intro _; intros; beta_reduce at *) | (dsimp +zetaDelta only))

theorem landPage_keeps [May gs .free] [May gs .regs] [May gs .caches] [May gs .mem] (pg : Page) (frame : Nat)
    (raw : List Byte) (hk : Keeps gs z s) : Keeps gs z (State.landPage pg frame raw s) := by
  unfold State.landPage
  repeat' (first | with_reducible assumption | with_reducible apply frameWrite_keeps | with_reducible apply placePage_keeps | with_reducible apply storePage_keeps | extract_lets | with_reducible apply ite_keeps | split | (intro _; intros; beta_reduce at *) | (dsimp +zetaDelta only))

theorem takeFrame_keeps [May gs .regs] [May gs .caches] (p : Nat) (named : List Nat) (hk : Keeps gs z s) :
    KeepsOptSnd gs z (State.takeFrame p named s) := by
  unfold State.takeFrame
  repeat' (first | with_reducible assumption | with_reducible apply bump_keeps | with_reducible apply freePage_keeps | with_reducible apply KeepsOptSnd.here | with_reducible apply KeepsOptSnd.stop | (refine KeepsOptSnd.map (f := id) ?_) | with_reducible apply KeepsOptSnd.mapSnd | with_reducible apply KeepsOptSnd.mapState | extract_lets | with_reducible apply ite_keeps | split | (intro _; intros; beta_reduce at *) | (dsimp +zetaDelta only))

theorem needFrame_keeps [May gs .regs] [May gs .caches] (p : Nat) (named : List Nat) (hk : Keeps gs z s) :
    KeepsExcSnd gs z (State.needFrame p named s) := by
  unfold State.needFrame
  repeat' (first | with_reducible assumption | with_reducible apply takeFrame_keeps | with_reducible apply KeepsOptSnd.here | with_reducible apply KeepsOptSnd.stop | with_reducible apply KeepsExcSnd.here | with_reducible apply KeepsExcSnd.stop | extract_lets | with_reducible apply ite_keeps | split | (intro _; intros; beta_reduce at *) | (dsimp only) | (refine keeps_someSnd (by assumption) ?_) | (refine keeps_someSnd_proj (by assumption) ?_) | (dsimp +zetaDelta only))

theorem startEvict_keeps [May gs .regs] [May gs .work] [May gs .caches] (n : Nat) (x : Stream) (hk : Keeps gs z
    s) : Keeps gs z (State.startEvict n x s) := by
  unfold State.startEvict
  repeat' (first | with_reducible assumption | with_reducible apply bump_keeps | with_reducible apply chargeStream_keeps | with_reducible apply updPage_keeps | extract_lets | with_reducible apply ite_keeps | split | (intro _; intros; beta_reduce at *) | (dsimp +zetaDelta only))

theorem copySealed_keeps [May gs .regs] [May gs .work] [May gs .caches] [May gs .mem] (id : Nat) (fr : Nat) (pg
    : Page) (raw : List Byte) (hk : Keeps gs z s) : Keeps gs z (State.copySealed id fr pg raw s) := by
  unfold State.copySealed
  repeat' (first | with_reducible assumption | with_reducible apply updStream_keeps | with_reducible apply bump_keeps | with_reducible apply chargeId_keeps | with_reducible apply frameWrite_keeps | with_reducible apply makePage_keeps | extract_lets | with_reducible apply ite_keeps | split | (intro _; intros; beta_reduce at *) | (dsimp +zetaDelta only))

theorem addRef_keeps [May gs .regs] [May gs .hif] [May gs .work] [May gs .caches] [May gs .cores] [May gs .mem]
    [May gs .pair] [May gs .keeper] [May gs .out] (id : Nat) (n : Nat) (named : List Nat) (hk : Keeps gs z s) :
    KeepsExc gs z (State.addRef id n named s) := by
  unfold State.addRef
  repeat' (first | with_reducible assumption | with_reducible apply updCaches_keeps | with_reducible apply updStream_keeps | with_reducible apply skiverMismatch_keeps | with_reducible apply updPage_keeps | with_reducible apply needFrame_keeps | with_reducible apply copySealed_keeps | with_reducible apply KeepsExc.here | with_reducible apply KeepsExc.stop | with_reducible apply KeepsExcSnd.here | with_reducible apply KeepsExcSnd.stop | extract_lets | with_reducible apply ite_keeps | split | (intro _; intros; beta_reduce at *) | (dsimp only) | (refine keeps_okSnd (by assumption) ?_) | (refine keeps_okSnd_proj (by assumption) ?_) | (dsimp +zetaDelta only))

theorem addRefs_keeps [May gs .regs] [May gs .hif] [May gs .work] [May gs .caches] [May gs .cores] [May gs .mem]
    [May gs .pair] [May gs .keeper] [May gs .out] (id : Nat) (named : List Nat) (x3 : List Nat) (hk : Keeps gs z
    s) : KeepsExc gs z (State.addRefs id named x3 s) := by
  induction x3 generalizing s with
  | nil =>
    unfold State.addRefs
    repeat' (first | with_reducible assumption | with_reducible apply addRef_keeps | with_reducible apply KeepsExc.here | with_reducible apply KeepsExc.stop | extract_lets | with_reducible apply ite_keeps | split | (intro _; intros; beta_reduce at *) | (refine keeps_ok (by assumption) ?_) | (dsimp +zetaDelta only))
  | cons q rest ih =>
    unfold State.addRefs
    repeat' (first | with_reducible assumption | with_reducible apply ih | with_reducible apply addRef_keeps | with_reducible apply KeepsExc.here | with_reducible apply KeepsExc.stop | extract_lets | with_reducible apply ite_keeps | split | (intro _; intros; beta_reduce at *) | (refine keeps_ok (by assumption) ?_) | (dsimp +zetaDelta only))

theorem givePage_keeps [May gs .work] [May gs .caches] [May gs .mem] (id : Nat) (p : Nat) (kind : Nat) (fmt :
    Nat) (shape : Nat) (p0 : Nat) (fr : Nat) (hk : Keeps gs z s) : Keeps gs z (State.givePage id p kind fmt
    shape p0 fr s) := by
  unfold State.givePage
  repeat' (first | with_reducible assumption | with_reducible apply updStream_keeps | with_reducible apply makePage_keeps | extract_lets | with_reducible apply ite_keeps | split | (intro _; intros; beta_reduce at *) | (dsimp +zetaDelta only))

theorem claimPage_keeps [May gs .caches] (id : Nat) (n : Nat) (hk : Keeps gs z s) : Keeps gs z (State.claimPage
    id n s) := by
  unfold State.claimPage
  repeat' (first | with_reducible assumption | with_reducible apply updPage_keeps | extract_lets | with_reducible apply ite_keeps | split | (intro _; intros; beta_reduce at *) | (dsimp +zetaDelta only))

theorem copyPage_keeps [May gs .regs] [May gs .hif] [May gs .work] [May gs .caches] [May gs .cores] [May gs
    .mem] [May gs .pair] [May gs .keeper] [May gs .out] (id : Nat) (n : Nat) (fr : Nat) (hk : Keeps gs z s) :
    Keeps gs z (State.copyPage id n fr s) := by
  unfold State.copyPage
  repeat' (first | with_reducible assumption | with_reducible apply updStream_keeps | with_reducible apply bump_keeps | with_reducible apply chargeId_keeps | with_reducible apply skiverMismatch_keeps | with_reducible apply frameWrite_keeps | with_reducible apply dropRef_keeps | with_reducible apply makePage_keeps | extract_lets | with_reducible apply ite_keeps | split | (intro _; intros; beta_reduce at *) | (dsimp +zetaDelta only))

theorem appendTo_keeps [May gs .caches] (id : Nat) (n : Nat) (k : Nat) (hk : Keeps gs z s) : Keeps gs z
    (State.appendTo id n k s) := by
  unfold State.appendTo
  repeat' (first | with_reducible assumption | with_reducible apply updPage_keeps | extract_lets | with_reducible apply ite_keeps | split | (intro _; intros; beta_reduce at *) | (dsimp +zetaDelta only))

theorem sealPages_keeps [May gs .caches] (id : Nat) (hk : Keeps gs z s) : Keeps gs z (State.sealPages id s) := by
  unfold State.sealPages
  repeat' (first | with_reducible assumption | with_reducible apply updPages_keeps | extract_lets | with_reducible apply ite_keeps | split | (intro _; intros; beta_reduce at *) | (dsimp +zetaDelta only))

theorem dropPrefix_keeps [May gs .caches] (k : Nat) (hk : Keeps gs z s) : Keeps gs z (State.dropPrefix k s) := by
  unfold State.dropPrefix
  repeat' (first | with_reducible assumption | with_reducible apply updCaches_keeps | with_reducible apply forEach_keeps | with_reducible apply updPage_keeps | with_reducible apply pageUnused_keeps | extract_lets | with_reducible apply ite_keeps | split | (intro _; intros; beta_reduce at *) | (dsimp +zetaDelta only))

theorem pinPrefix_keeps [May gs .caches] (k : Nat) (pin : Bool) (hk : Keeps gs z s) : Keeps gs z
    (State.pinPrefix k pin s) := by
  unfold State.pinPrefix
  repeat' (first | with_reducible assumption | with_reducible apply updCaches_keeps | with_reducible apply forEach_keeps | with_reducible apply updPage_keeps | with_reducible apply pageUnused_keeps | extract_lets | with_reducible apply ite_keeps | split | (intro _; intros; beta_reduce at *) | (dsimp +zetaDelta only))

theorem mapCore_keeps [May gs .cores] (c : Nat) (hk : Keeps gs z s) : Keeps gs z (State.mapCore c s) := by
  unfold State.mapCore
  repeat' (first | with_reducible assumption | ((with_reducible refine updCore_keeps ?_ ?_); on_goal 1 => (intros; first | rfl | (split <;> rfl))) | extract_lets | with_reducible apply ite_keeps | split | (intro _; intros; beta_reduce at *) | (dsimp +zetaDelta only))

end Sys2Proof.Machine
end

