-- ==== Sys2Proof/Laws/KeepsRecord.lean ====
section
/-! SUPPORT. No operation on records, the pair, the host rings or the audio front-end breaks Safety.Keeps. -/

namespace Sys2Proof.Machine

open Sys2Proof Safety

set_option linter.unreachableTactic false
set_option linter.unusedTactic false
set_option linter.unusedVariables false

variable {z s : State} {gs : List Area}

theorem updRec_keeps [May gs .work] (id : Nat) (f : Record → Record) (hk : Keeps gs z s) : Keeps gs z
    (State.updRec id f s) := by
  unfold State.updRec
  repeat' (first | with_reducible assumption | with_reducible apply updStream_keeps | extract_lets | with_reducible apply ite_keeps | split | (intro _; intros; beta_reduce at *) | (dsimp +zetaDelta only))

theorem recordPut_keeps [May gs .work] [May gs .mem] (id : Nat) (b : Nat) (bs : List Byte) (hk : Keeps gs z s) :
    Keeps gs z (State.recordPut id b bs s) := by
  unfold State.recordPut
  repeat' (first | with_reducible assumption | with_reducible apply spmWrite_keeps | with_reducible apply dieWrite_keeps | with_reducible apply updRec_keeps | ((with_reducible refine foldl_keeps Prod.snd ?_ ?_)) | ((with_reducible refine foldl_keeps id ?_ ?_)) | extract_lets | with_reducible apply ite_keeps | split | (intro _; intros; beta_reduce at *) | (dsimp +zetaDelta only))

theorem writeHeader_keeps [May gs .work] [May gs .mem] (id : Nat) (hk : Keeps gs z s) : Keeps gs z
    (State.writeHeader id s) := by
  unfold State.writeHeader
  repeat' (first | with_reducible assumption | with_reducible apply updRec_keeps | with_reducible apply recordPut_keeps | extract_lets | with_reducible apply ite_keeps | split | (intro _; intros; beta_reduce at *) | (dsimp +zetaDelta only))

theorem writePageList_keeps [May gs .work] [May gs .mem] (id : Nat) (hk : Keeps gs z s) : Keeps gs z
    (State.writePageList id s) := by
  unfold State.writePageList
  repeat' (first | with_reducible assumption | with_reducible apply forEach_keeps | with_reducible apply updRec_keeps | with_reducible apply recordPut_keeps | extract_lets | with_reducible apply ite_keeps | split | (intro _; intros; beta_reduce at *) | (dsimp +zetaDelta only))

theorem applyHeld_keeps [May gs .work] [May gs .mem] (id : Nat) (hk : Keeps gs z s) : Keeps gs z
    (State.applyHeld id s) := by
  unfold State.applyHeld
  repeat' (first | with_reducible assumption | with_reducible apply updRec_keeps | with_reducible apply writeHeader_keeps | with_reducible apply writePageList_keeps | extract_lets | with_reducible apply ite_keeps | split | (intro _; intros; beta_reduce at *) | (dsimp +zetaDelta only))

theorem handOff_keeps [May gs .work] [May gs .pair] (id : Nat) (hk : Keeps gs z s) : Keeps gs z (State.handOff
    id s) := by
  unfold State.handOff
  repeat' (first | with_reducible assumption | with_reducible apply updPair_keeps | with_reducible apply updStream_keeps | with_reducible apply updRec_keeps | extract_lets | with_reducible apply ite_keeps | split | (intro _; intros; beta_reduce at *) | (dsimp +zetaDelta only))

theorem handOffFull_keeps [May gs .work] [May gs .caches] [May gs .pair] (id : Nat) (hk : Keeps gs z s) : Keeps
    gs z (State.handOffFull id s) := by
  unfold State.handOffFull
  repeat' (first | with_reducible assumption | with_reducible apply updStream_keeps | with_reducible apply updPages_keeps | with_reducible apply handOff_keeps | extract_lets | with_reducible apply ite_keeps | split | (intro _; intros; beta_reduce at *) | (dsimp +zetaDelta only))

theorem dropMove_keeps [May gs .work] (id : Nat) (hk : Keeps gs z s) : Keeps gs z (State.dropMove id s) := by
  unfold State.dropMove
  repeat' (first | with_reducible assumption | with_reducible apply updMoves_keeps | extract_lets | with_reducible apply ite_keeps | split | (intro _; intros; beta_reduce at *) | (dsimp +zetaDelta only))

theorem queueMove_keeps [May gs .work] (id : Nat) (kind : MoveKind) (prio : Nat) (due : Option Nat) (hk : Keeps
    gs z s) : Keeps gs z (State.queueMove id kind prio due s) := by
  unfold State.queueMove
  repeat' (first | with_reducible assumption | with_reducible apply updMoves_keeps | extract_lets | with_reducible apply ite_keeps | split | (intro _; intros; beta_reduce at *) | (dsimp +zetaDelta only))

theorem demoteFor_keeps [May gs .work] (x : Stream) (hk : Keeps gs z s) : Keeps gs z (State.demoteFor x s) := by
  unfold State.demoteFor
  repeat' (first | with_reducible assumption | with_reducible apply queueMove_keeps | ((with_reducible refine foldl_keeps Prod.snd ?_ ?_)) | ((with_reducible refine foldl_keeps id ?_ ?_)) | extract_lets | with_reducible apply ite_keeps | split | (intro _; intros; beta_reduce at *) | (dsimp +zetaDelta only))

theorem swapFor_keeps [May gs .work] (x : Stream) (prio : Nat) (tick : Option Nat) (hk : Keeps gs z s) : Keeps
    gs z (State.swapFor x prio tick s) := by
  unfold State.swapFor
  repeat' (first | with_reducible assumption | with_reducible apply queueMove_keeps | ((with_reducible refine foldl_keeps Prod.snd ?_ ?_)) | ((with_reducible refine foldl_keeps id ?_ ?_)) | extract_lets | with_reducible apply ite_keeps | split | (intro _; intros; beta_reduce at *) | (dsimp +zetaDelta only))

theorem makeRoom_keeps [May gs .work] (x : Stream) (prio : Nat) (tick : Option Nat) (hk : Keeps gs z s) : Keeps
    gs z (State.makeRoom x prio tick s) := by
  unfold State.makeRoom
  repeat' (first | with_reducible assumption | with_reducible apply when_keeps | with_reducible apply demoteFor_keeps | with_reducible apply swapFor_keeps | extract_lets | with_reducible apply ite_keeps | split | (intro _; intros; beta_reduce at *) | (dsimp +zetaDelta only))

theorem queueFill_keeps [May gs .regs] [May gs .work] (id : Nat) (prio : Nat) (tick : Nat) (hk : Keeps gs z s) :
    Keeps gs z (State.queueFill id prio tick s) := by
  unfold State.queueFill
  repeat' (first | with_reducible assumption | with_reducible apply when_keeps | with_reducible apply bump_keeps | with_reducible apply queueMove_keeps | with_reducible apply makeRoom_keeps | extract_lets | with_reducible apply ite_keeps | split | (intro _; intros; beta_reduce at *) | (dsimp +zetaDelta only))

theorem cancelMove_keeps [May gs .work] (id : Nat) (hk : Keeps gs z s) : Keeps gs z (State.cancelMove id s) := by
  unfold State.cancelMove
  repeat' (first | with_reducible assumption | with_reducible apply updRec_keeps | with_reducible apply dropMove_keeps | extract_lets | with_reducible apply ite_keeps | split | (intro _; intros; beta_reduce at *) | (dsimp +zetaDelta only))

theorem decideMoves_keeps [May gs .regs] [May gs .work] (id : Nat) (prio : Nat) (tick : Nat) (hk : Keeps gs z s)
    : Keeps gs z (State.decideMoves id prio tick s) := by
  unfold State.decideMoves
  repeat' (first | with_reducible assumption | with_reducible apply when_keeps | with_reducible apply bump_keeps | with_reducible apply dropMove_keeps | with_reducible apply queueFill_keeps | with_reducible apply cancelMove_keeps | extract_lets | with_reducible apply ite_keeps | split | (intro _; intros; beta_reduce at *) | (dsimp +zetaDelta only))

theorem markCopied_keeps [May gs .work] (id : Nat) (hk : Keeps gs z s) : Keeps gs z (State.markCopied id s) := by
  unfold State.markCopied
  repeat' (first | with_reducible assumption | with_reducible apply updMoves_keeps | extract_lets | with_reducible apply ite_keeps | split | (intro _; intros; beta_reduce at *) | (dsimp +zetaDelta only))

theorem swapOutEnd_keeps [May gs .regs] [May gs .work] [May gs .mem] (id : Nat) (hk : Keeps gs z s) : Keeps gs z
    (State.swapOutEnd id s) := by
  unfold State.swapOutEnd
  repeat' (first | with_reducible assumption | with_reducible apply forEach_keeps | with_reducible apply dieWrite_keeps | with_reducible apply updStream_keeps | with_reducible apply bump_keeps | with_reducible apply chargeStream_keeps | with_reducible apply updRec_keeps | with_reducible apply dropMove_keeps | with_reducible apply queueFill_keeps | with_reducible apply markCopied_keeps | extract_lets | with_reducible apply ite_keeps | split | (intro _; intros; beta_reduce at *) | (dsimp +zetaDelta only))

theorem moveBegin_keeps [May gs .regs] [May gs .work] [May gs .mem] (m : Move) (dst : Nat) (hk : Keeps gs z s) :
    Keeps gs z (State.moveBegin m dst s) := by
  unfold State.moveBegin
  repeat' (first | with_reducible assumption | with_reducible apply updMoves_keeps | with_reducible apply updRec_keeps | with_reducible apply swapOutEnd_keeps | extract_lets | with_reducible apply ite_keeps | split | (intro _; intros; beta_reduce at *) | (dsimp +zetaDelta only))

theorem execRecordMoveStart_keeps [May gs .regs] [May gs .work] [May gs .mem] (id : Nat) (dst : Nat) (hk : Keeps
    gs z s) : KeepsRes gs z (execRecordMoveStart id dst s) := by
  unfold execRecordMoveStart
  refine KeepsRes.next ?_
  repeat' (first | with_reducible assumption | with_reducible apply updMoves_keeps | with_reducible apply bump_keeps | with_reducible apply makeRoom_keeps | with_reducible apply moveBegin_keeps | extract_lets | with_reducible apply ite_keeps | split | (intro _; intros; beta_reduce at *) | (dsimp +zetaDelta only))

theorem freeExtent_keeps [May gs .work] [May gs .caches] (id : Nat) (hk : Keeps gs z s) : Keeps gs z
    (State.freeExtent id s) := by
  unfold State.freeExtent
  repeat' (first | with_reducible assumption | with_reducible apply dropNames_keeps | with_reducible apply updRec_keeps | extract_lets | with_reducible apply ite_keeps | split | (intro _; intros; beta_reduce at *) | (dsimp +zetaDelta only))

theorem returnPages_keeps [May gs .free] [May gs .regs] [May gs .hif] [May gs .work] [May gs .caches] [May gs
    .cores] [May gs .mem] [May gs .pair] [May gs .keeper] [May gs .out] (x1 : List Page) (hk : Keeps gs z s) :
    KeepsOpt gs z (State.returnPages x1 s) := by
  induction x1 generalizing s with
  | nil =>
    unfold State.returnPages
    repeat' (first | with_reducible assumption | with_reducible apply uncorrectable_keeps | with_reducible apply skiverMismatch_keeps | with_reducible apply pageDropNames_keeps | with_reducible apply landPage_keeps | with_reducible apply takeFrame_keeps | with_reducible apply KeepsOpt.here | with_reducible apply KeepsOpt.stop | with_reducible apply KeepsOptSnd.here | with_reducible apply KeepsOptSnd.stop | with_reducible apply keeps_elimSnd | extract_lets | with_reducible apply ite_keeps | split | (intro _; intros; beta_reduce at *) | (dsimp only) | (refine keeps_someSnd (by assumption) ?_) | (refine keeps_someSnd_proj (by assumption) ?_) | (dsimp +zetaDelta only))
  | cons q rest ih =>
    unfold State.returnPages
    repeat' (first | with_reducible assumption | with_reducible apply ih | with_reducible apply uncorrectable_keeps | with_reducible apply skiverMismatch_keeps | with_reducible apply pageDropNames_keeps | with_reducible apply landPage_keeps | with_reducible apply takeFrame_keeps | with_reducible apply KeepsOpt.here | with_reducible apply KeepsOpt.stop | with_reducible apply KeepsOptSnd.here | with_reducible apply KeepsOptSnd.stop | with_reducible apply keeps_elimSnd | extract_lets | with_reducible apply ite_keeps | split | (intro _; intros; beta_reduce at *) | (dsimp only) | (refine keeps_someSnd (by assumption) ?_) | (refine keeps_someSnd_proj (by assumption) ?_) | (dsimp +zetaDelta only))

theorem landed_keeps [May gs .work] (id : Nat) (hk : Keeps gs z s) : Keeps gs z (State.landed id s) := by
  unfold State.landed
  repeat' (first | with_reducible assumption | with_reducible apply updStream_keeps | extract_lets | with_reducible apply ite_keeps | split | (intro _; intros; beta_reduce at *) | (dsimp +zetaDelta only))

theorem fillEnd_keeps [May gs .regs] [May gs .work] [May gs .caches] [May gs .mem] (x : Stream) (raw : List
    Byte) (hk : Keeps gs z s) : Keeps gs z (State.fillEnd x raw s) := by
  unfold State.fillEnd
  repeat' (first | with_reducible assumption | with_reducible apply when_keeps | with_reducible apply spmWrite_keeps | with_reducible apply bump_keeps | with_reducible apply chargeStream_keeps | with_reducible apply updRec_keeps | with_reducible apply applyHeld_keeps | with_reducible apply dropMove_keeps | with_reducible apply freeExtent_keeps | with_reducible apply landed_keeps | extract_lets | with_reducible apply ite_keeps | split | (intro _; intros; beta_reduce at *) | (dsimp +zetaDelta only))

theorem execFillDone_keeps [May gs .free] [May gs .regs] [May gs .hif] [May gs .work] [May gs .caches] [May gs
    .cores] [May gs .mem] [May gs .pair] [May gs .keeper] [May gs .out] (id : Nat) (u : Upset) (hk : Keeps gs z
    s) : KeepsRes gs z (execFillDone id u s) := by
  unfold execFillDone
  refine KeepsRes.next ?_
  repeat' (first | with_reducible assumption | with_reducible apply uncorrectable_keeps | with_reducible apply moveErrors_keeps | with_reducible apply skiverMismatch_keeps | with_reducible apply returnPages_keeps | with_reducible apply fillEnd_keeps | with_reducible apply KeepsOpt.here | with_reducible apply KeepsOpt.stop | extract_lets | with_reducible apply ite_keeps | split | (intro _; intros; beta_reduce at *) | (refine keeps_some (by assumption) ?_) | (dsimp +zetaDelta only))

theorem execSwapOutDone_keeps [May gs .regs] [May gs .hif] [May gs .work] [May gs .cores] [May gs .mem] [May gs
    .pair] [May gs .keeper] [May gs .out] (id : Nat) (u : Upset) (hk : Keeps gs z s) : KeepsRes gs z
    (execSwapOutDone id u s) := by
  unfold execSwapOutDone
  refine KeepsRes.next ?_
  repeat' (first | with_reducible assumption | with_reducible apply when_keeps | with_reducible apply moveErrors_keeps | with_reducible apply swapOutEnd_keeps | extract_lets | with_reducible apply ite_keeps | split | (intro _; intros; beta_reduce at *) | (dsimp +zetaDelta only))

theorem codeRecord_keeps [May gs .free] [May gs .regs] [May gs .caches] (x : Stream) (raw : List Byte) (hk :
    Keeps gs z s) : Keeps gs z (State.codeRecord x raw s).2 := by
  unfold State.codeRecord
  repeat' (first | with_reducible assumption | with_reducible apply codeTiles_keeps | with_reducible apply chooseCoding_keeps | extract_lets | with_reducible apply ite_keeps | split | (intro _; intros; beta_reduce at *) | (dsimp only) | (refine keeps_snd (by assumption) ?_) | (dsimp +zetaDelta only))

theorem demotionEnd_keeps [May gs .free] [May gs .regs] [May gs .work] [May gs .caches] [May gs .mem] (id : Nat)
    (hk : Keeps gs z s) : Keeps gs z (State.demotionEnd id s) := by
  unfold State.demotionEnd
  repeat' (first | with_reducible assumption | with_reducible apply updStream_keeps | with_reducible apply chargeStream_keeps | with_reducible apply addNames_keeps | with_reducible apply writeLoc_keeps | with_reducible apply updRec_keeps | with_reducible apply dropMove_keeps | with_reducible apply markCopied_keeps | with_reducible apply codeRecord_keeps | extract_lets | with_reducible apply ite_keeps | split | (intro _; intros; beta_reduce at *) | (dsimp only) | (refine keeps_snd (by assumption) ?_) | (dsimp +zetaDelta only))

theorem execDemotionDone_keeps [May gs .free] [May gs .regs] [May gs .hif] [May gs .work] [May gs .caches] [May
    gs .cores] [May gs .mem] [May gs .pair] [May gs .keeper] [May gs .out] (id : Nat) (u : Upset) (hk : Keeps gs
    z s) : KeepsRes gs z (execDemotionDone id u s) := by
  unfold execDemotionDone
  refine KeepsRes.next ?_
  repeat' (first | with_reducible assumption | with_reducible apply when_keeps | with_reducible apply moveErrors_keeps | with_reducible apply demotionEnd_keeps | extract_lets | with_reducible apply ite_keeps | split | (intro _; intros; beta_reduce at *) | (dsimp +zetaDelta only))

theorem promotionEnd_keeps [May gs .regs] [May gs .hif] [May gs .work] [May gs .caches] [May gs .cores] [May gs
    .mem] [May gs .pair] [May gs .keeper] [May gs .out] (id : Nat) (u : Upset) (hk : Keeps gs z s) : Keeps gs z
    (State.promotionEnd id u s) := by
  unfold State.promotionEnd
  repeat' (first | with_reducible assumption | with_reducible apply dieWrite_keeps | with_reducible apply updStream_keeps | with_reducible apply chargeStream_keeps | with_reducible apply uncorrectable_keeps | with_reducible apply moveErrors_keeps | with_reducible apply skiverMismatch_keeps | with_reducible apply updRec_keeps | with_reducible apply applyHeld_keeps | with_reducible apply dropMove_keeps | with_reducible apply queueFill_keeps | with_reducible apply freeExtent_keeps | extract_lets | with_reducible apply ite_keeps | split | (intro _; intros; beta_reduce at *) | (dsimp +zetaDelta only))

theorem rehomingEnd_keeps [May gs .work] [May gs .mem] (id : Nat) (hk : Keeps gs z s) : Keeps gs z
    (State.rehomingEnd id s) := by
  unfold State.rehomingEnd
  repeat' (first | with_reducible assumption | with_reducible apply dieWrite_keeps | with_reducible apply chargeStream_keeps | with_reducible apply updRec_keeps | with_reducible apply dropMove_keeps | with_reducible apply markCopied_keeps | extract_lets | with_reducible apply ite_keeps | split | (intro _; intros; beta_reduce at *) | (dsimp +zetaDelta only))

theorem execRehomingDone_keeps [May gs .regs] [May gs .hif] [May gs .work] [May gs .cores] [May gs .mem] [May gs
    .pair] [May gs .keeper] [May gs .out] (id : Nat) (u : Upset) (hk : Keeps gs z s) : KeepsRes gs z
    (execRehomingDone id u s) := by
  unfold execRehomingDone
  refine KeepsRes.next ?_
  repeat' (first | with_reducible assumption | with_reducible apply when_keeps | with_reducible apply moveErrors_keeps | with_reducible apply rehomingEnd_keeps | extract_lets | with_reducible apply ite_keeps | split | (intro _; intros; beta_reduce at *) | (dsimp +zetaDelta only))

theorem endCopied_keeps [May gs .free] [May gs .regs] [May gs .work] [May gs .caches] [May gs .mem] (id : Nat)
    (hk : Keeps gs z s) : Keeps gs z (State.endCopied id s) := by
  unfold State.endCopied
  repeat' (first | with_reducible assumption | with_reducible apply swapOutEnd_keeps | with_reducible apply demotionEnd_keeps | with_reducible apply rehomingEnd_keeps | extract_lets | with_reducible apply ite_keeps | split | (intro _; intros; beta_reduce at *) | (dsimp +zetaDelta only))

theorem mirrorRead_keeps [May gs .free] [May gs .regs] [May gs .hif] [May gs .work] [May gs .caches] [May gs
    .cores] [May gs .mem] [May gs .pair] [May gs .keeper] [May gs .out] (id : Nat) (hk : Keeps gs z s) : Keeps
    gs z (State.mirrorRead id s) := by
  unfold State.mirrorRead
  repeat' (first | with_reducible assumption | with_reducible apply emit_keeps | with_reducible apply when_keeps | with_reducible apply updPages_keeps | with_reducible apply count_keeps | with_reducible apply bump_keeps | with_reducible apply chargeStream_keeps | with_reducible apply skiverMismatch_keeps | with_reducible apply updRec_keeps | with_reducible apply applyHeld_keeps | with_reducible apply endCopied_keeps | extract_lets | with_reducible apply ite_keeps | split | (intro _; intros; beta_reduce at *) | (dsimp +zetaDelta only))

theorem execPlacementMove_keeps [May gs .work] (id : Nat) (kind : PlacedMove) (die : Nat) (hk : Keeps gs z s) :
    KeepsRes gs z (execPlacementMove id kind die s) := by
  unfold execPlacementMove
  refine KeepsRes.next ?_
  repeat' (first | with_reducible assumption | with_reducible apply queueMove_keeps | ((with_reducible refine foldl_keeps Prod.snd ?_ ?_)) | ((with_reducible refine foldl_keeps id ?_ ?_)) | extract_lets | with_reducible apply ite_keeps | split | (intro _; intros; beta_reduce at *) | (dsimp +zetaDelta only))

theorem prune_keeps [May gs .hif] [May gs .work] [May gs .mem] [May gs .out] (hk : Keeps gs z s) : Keeps gs z
    (State.prune s) := by
  unfold State.prune
  repeat' (first | with_reducible assumption | with_reducible apply updWork_keeps | with_reducible apply forEach_keeps | with_reducible apply finishCmd_keeps | extract_lets | with_reducible apply ite_keeps | split | (intro _; intros; beta_reduce at *) | (dsimp +zetaDelta only))

theorem removeStream_keeps [May gs .hif] [May gs .work] [May gs .cores] [May gs .mem] [May gs .out] (id : Nat)
    (hk : Keeps gs z s) : Keeps gs z (State.removeStream id s) := by
  unfold State.removeStream
  repeat' (first | with_reducible assumption | with_reducible apply updWork_keeps | with_reducible apply forEach_keeps | with_reducible apply mapCore_keeps | with_reducible apply prune_keeps | extract_lets | with_reducible apply ite_keeps | split | (intro _; intros; beta_reduce at *) | (dsimp +zetaDelta only))

theorem refuseOpen_keeps [May gs .hif] [May gs .work] [May gs .cores] [May gs .mem] [May gs .out] (id : Nat)
    (status : Nat) (hk : Keeps gs z s) : Keeps gs z (State.refuseOpen id status s) := by
  unfold State.refuseOpen
  repeat' (first | with_reducible assumption | with_reducible apply finishCmd_keeps | with_reducible apply removeStream_keeps | extract_lets | with_reducible apply ite_keeps | split | (intro _; intros; beta_reduce at *) | (dsimp +zetaDelta only))

theorem releaseHeld_keeps [May gs .hif] [May gs .work] [May gs .mem] [May gs .out] (id : Nat) (upTo : Option
    Nat) (hk : Keeps gs z s) : Keeps gs z (State.releaseHeld id upTo s) := by
  unfold State.releaseHeld
  repeat' (first | with_reducible assumption | with_reducible apply forEach_keeps | with_reducible apply updStream_keeps | with_reducible apply post_keeps | with_reducible apply keeps_elimSnd | extract_lets | with_reducible apply ite_keeps | split | (intro _; intros; beta_reduce at *) | (dsimp +zetaDelta only))

theorem leaveMirroring_keeps [May gs .hif] [May gs .work] [May gs .cores] [May gs .mem] [May gs .pair] [May gs
    .out] (hk : Keeps gs z s) : Keeps gs z (State.leaveMirroring s) := by
  unfold State.leaveMirroring
  repeat' (first | with_reducible assumption | with_reducible apply updPair_keeps | with_reducible apply forEach_keeps | with_reducible apply updStream_keeps | with_reducible apply updStreams_keeps | with_reducible apply refuseOpen_keeps | with_reducible apply releaseHeld_keeps | extract_lets | with_reducible apply ite_keeps | split | (intro _; intros; beta_reduce at *) | (dsimp +zetaDelta only))

theorem setPair_keeps [May gs .regs] [May gs .tb] [May gs .hif] [May gs .work] [May gs .cores] [May gs .mem]
    [May gs .pair] [May gs .out] (st : PairState) (promoted : Nat) (hk : Keeps gs z s) : Keeps gs z
    (State.setPair st promoted s) := by
  unfold State.setPair
  repeat' (first | with_reducible assumption | with_reducible apply updTb_keeps | with_reducible apply updPair_keeps | with_reducible apply when_keeps | with_reducible apply updStreams_keeps | with_reducible apply devEvent_keeps | with_reducible apply timebaseEvent_keeps | with_reducible apply leaveMirroring_keeps | extract_lets | with_reducible apply ite_keeps | split | (intro _; intros; beta_reduce at *) | (dsimp +zetaDelta only))

theorem dropMirrors_keeps [May gs .pair] (hk : Keeps gs z s) : Keeps gs z (State.dropMirrors s) := by
  unfold State.dropMirrors
  repeat' (first | with_reducible assumption | with_reducible apply updPair_keeps | extract_lets | with_reducible apply ite_keeps | split | (intro _; intros; beta_reduce at *) | (dsimp +zetaDelta only))

theorem dropPartMirrors_keeps [May gs .pair] (p : Nat) (hk : Keeps gs z s) : Keeps gs z (State.dropPartMirrors p
    s) := by
  unfold State.dropPartMirrors
  repeat' (first | with_reducible assumption | with_reducible apply updPair_keeps | extract_lets | with_reducible apply ite_keeps | split | (intro _; intros; beta_reduce at *) | (dsimp +zetaDelta only))

theorem takeover_keeps [May gs .regs] [May gs .tb] [May gs .hif] [May gs .work] [May gs .cores] [May gs .mem]
    [May gs .pair] [May gs .out] (path : Nat) (hk : Keeps gs z s) : Keeps gs z (State.takeover path s) := by
  unfold State.takeover
  repeat' (first | with_reducible assumption | with_reducible apply updPair_keeps | with_reducible apply updStreams_keeps | with_reducible apply setPair_keeps | extract_lets | with_reducible apply ite_keeps | split | (intro _; intros; beta_reduce at *) | (dsimp +zetaDelta only))

theorem enterSyncing_keeps [May gs .regs] [May gs .tb] [May gs .hif] [May gs .work] [May gs .caches] [May gs
    .cores] [May gs .mem] [May gs .pair] [May gs .out] (p : PartnerInfo) (hk : Keeps gs z s) : Keeps gs z
    (State.enterSyncing p s) := by
  unfold State.enterSyncing
  repeat' (first | with_reducible assumption | with_reducible apply updTb_keeps | with_reducible apply updPair_keeps | with_reducible apply forEach_keeps | with_reducible apply handOffFull_keeps | with_reducible apply setPair_keeps | extract_lets | with_reducible apply ite_keeps | split | (intro _; intros; beta_reduce at *) | (dsimp +zetaDelta only))

theorem pairAgain_keeps [May gs .regs] [May gs .tb] [May gs .hif] [May gs .work] [May gs .caches] [May gs
    .cores] [May gs .mem] [May gs .pair] [May gs .out] (p : PartnerInfo) (hk : Keeps gs z s) : Keeps gs z
    (State.pairAgain p s) := by
  unfold State.pairAgain
  repeat' (first | with_reducible assumption | with_reducible apply enterSyncing_keeps | extract_lets | with_reducible apply ite_keeps | split | (intro _; intros; beta_reduce at *) | (dsimp +zetaDelta only))

theorem checkPaired_keeps [May gs .regs] [May gs .tb] [May gs .hif] [May gs .work] [May gs .cores] [May gs .mem]
    [May gs .pair] [May gs .out] (hk : Keeps gs z s) : Keeps gs z (State.checkPaired s) := by
  unfold State.checkPaired
  repeat' (first | with_reducible assumption | with_reducible apply setPair_keeps | extract_lets | with_reducible apply ite_keeps | split | (intro _; intros; beta_reduce at *) | (dsimp +zetaDelta only))

theorem newPools_keeps [May gs .work] [May gs .caches] [May gs .pair] (p : PartnerInfo) (hk : Keeps gs z s) :
    Keeps gs z (State.newPools p s) := by
  unfold State.newPools
  repeat' (first | with_reducible assumption | with_reducible apply updPair_keeps | with_reducible apply forEach_keeps | with_reducible apply handOffFull_keeps | extract_lets | with_reducible apply ite_keeps | split | (intro _; intros; beta_reduce at *) | (dsimp +zetaDelta only))

theorem execPairExchange_keeps [May gs .regs] [May gs .tb] [May gs .hif] [May gs .work] [May gs .caches] [May gs
    .cores] [May gs .mem] [May gs .pair] [May gs .out] (p : PartnerInfo) (hk : Keeps gs z s) : KeepsRes gs z
    (execPairExchange p s) := by
  unfold execPairExchange
  refine KeepsRes.next ?_
  repeat' (first | with_reducible assumption | with_reducible apply updPair_keeps | with_reducible apply setPair_keeps | with_reducible apply enterSyncing_keeps | with_reducible apply checkPaired_keeps | with_reducible apply newPools_keeps | extract_lets | with_reducible apply ite_keeps | split | (intro _; intros; beta_reduce at *) | (dsimp +zetaDelta only))

theorem execBundleTrained_keeps [May gs .pair] (b : Nat) (hk : Keeps gs z s) : KeepsRes gs z (execBundleTrained
    b s) := by
  unfold execBundleTrained
  refine KeepsRes.next ?_
  repeat' (first | with_reducible assumption | with_reducible apply updPair_keeps | extract_lets | with_reducible apply ite_keeps | split | (intro _; intros; beta_reduce at *) | (dsimp +zetaDelta only))

theorem execBundleRetrain_keeps [May gs .regs] [May gs .pair] (b : Nat) (hk : Keeps gs z s) : KeepsRes gs z
    (execBundleRetrain b s) := by
  unfold execBundleRetrain
  refine KeepsRes.next ?_
  repeat' (first | with_reducible assumption | with_reducible apply updPair_keeps | with_reducible apply bump_keeps | extract_lets | with_reducible apply ite_keeps | split | (intro _; intros; beta_reduce at *) | (dsimp +zetaDelta only))

theorem execFlitReplay_keeps [May gs .regs] (b : Nat) (hk : Keeps gs z s) : KeepsRes gs z (execFlitReplay b s) := by
  unfold execFlitReplay
  refine KeepsRes.next ?_
  repeat' (first | with_reducible assumption | with_reducible apply bump_keeps | extract_lets | with_reducible apply ite_keeps | split | (intro _; intros; beta_reduce at *) | (dsimp +zetaDelta only))

theorem execHeartbeatSend_keeps [May gs .out] (hk : Keeps gs z s) : KeepsRes gs z (execHeartbeatSend s) := by
  unfold execHeartbeatSend
  refine KeepsRes.next ?_
  repeat' (first | with_reducible assumption | with_reducible apply emit_keeps | with_reducible apply when_keeps | with_reducible apply sendFlit_keeps | extract_lets | with_reducible apply ite_keeps | split | (intro _; intros; beta_reduce at *) | (dsimp +zetaDelta only))

theorem follow_keeps [May gs .regs] [May gs .tb] [May gs .pair] (time : Nat) (delay : Nat) (hk : Keeps gs z s) :
    Keeps gs z (State.follow time delay s) := by
  unfold State.follow
  repeat' (first | with_reducible assumption | with_reducible apply updTb_keeps | with_reducible apply updPair_keeps | with_reducible apply setReg_keeps | extract_lets | with_reducible apply ite_keeps | split | (intro _; intros; beta_reduce at *) | (dsimp +zetaDelta only))

theorem execHeartbeat_keeps [May gs .regs] [May gs .tb] [May gs .hif] [May gs .work] [May gs .caches] [May gs
    .cores] [May gs .mem] [May gs .pair] [May gs .out] (pairState : Nat) (started : Bool) (time : Nat) (service
    : Nat) (delay : Nat) (hk : Keeps gs z s) : KeepsRes gs z (execHeartbeat pairState started time service delay
    s) := by
  unfold execHeartbeat
  refine KeepsRes.next ?_
  repeat' (first | with_reducible assumption | with_reducible apply updTb_keeps | with_reducible apply updPair_keeps | with_reducible apply when_keeps | with_reducible apply setReg_keeps | with_reducible apply timebaseEvent_keeps | with_reducible apply sendFlit_keeps | with_reducible apply takeover_keeps | with_reducible apply pairAgain_keeps | with_reducible apply checkPaired_keeps | with_reducible apply follow_keeps | extract_lets | with_reducible apply ite_keeps | split | (intro _; intros; beta_reduce at *) | (dsimp +zetaDelta only))

theorem bothSilent_keeps [May gs .regs] [May gs .tb] [May gs .hif] [May gs .work] [May gs .cores] [May gs .mem]
    [May gs .pair] [May gs .out] (hk : Keeps gs z s) : Keeps gs z (State.bothSilent s) := by
  unfold State.bothSilent
  repeat' (first | with_reducible assumption | with_reducible apply setPair_keeps | with_reducible apply takeover_keeps | extract_lets | with_reducible apply ite_keeps | split | (intro _; intros; beta_reduce at *) | (dsimp +zetaDelta only))

theorem linkGoesSilent_keeps [May gs .regs] [May gs .tb] [May gs .hif] [May gs .work] [May gs .cores] [May gs
    .mem] [May gs .pair] [May gs .out] (hk : Keeps gs z s) : Keeps gs z (State.linkGoesSilent s) := by
  unfold State.linkGoesSilent
  repeat' (first | with_reducible assumption | with_reducible apply updTb_keeps | with_reducible apply when_keeps | with_reducible apply timebaseEvent_keeps | with_reducible apply setPair_keeps | with_reducible apply bothSilent_keeps | extract_lets | with_reducible apply ite_keeps | split | (intro _; intros; beta_reduce at *) | (dsimp +zetaDelta only))

theorem execLinkSilence_keeps [May gs .regs] [May gs .tb] [May gs .hif] [May gs .work] [May gs .cores] [May gs
    .mem] [May gs .pair] [May gs .out] (hk : Keeps gs z s) : KeepsRes gs z (execLinkSilence s) := by
  unfold execLinkSilence
  refine KeepsRes.next ?_
  repeat' (first | with_reducible assumption | with_reducible apply updPair_keeps | with_reducible apply bump_keeps | with_reducible apply linkGoesSilent_keeps | extract_lets | with_reducible apply ite_keeps | split | (intro _; intros; beta_reduce at *) | (dsimp +zetaDelta only))

theorem execSidebandSilence_keeps [May gs .regs] [May gs .tb] [May gs .hif] [May gs .work] [May gs .cores] [May
    gs .mem] [May gs .pair] [May gs .out] (hk : Keeps gs z s) : KeepsRes gs z (execSidebandSilence s) := by
  unfold execSidebandSilence
  refine KeepsRes.next ?_
  repeat' (first | with_reducible assumption | with_reducible apply updPair_keeps | with_reducible apply bothSilent_keeps | extract_lets | with_reducible apply ite_keeps | split | (intro _; intros; beta_reduce at *) | (dsimp +zetaDelta only))

theorem execReinHbInTransition_keeps [May gs .pair] (hk : Keeps gs z s) : KeepsRes gs z (execReinHbInTransition
    s) := by
  unfold execReinHbInTransition
  refine KeepsRes.next ?_
  repeat' (first | with_reducible assumption | with_reducible apply updPair_keeps | extract_lets | with_reducible apply ite_keeps | split | (intro _; intros; beta_reduce at *) | (dsimp +zetaDelta only))

theorem partnerGone_keeps [May gs .regs] [May gs .tb] [May gs .hif] [May gs .work] [May gs .cores] [May gs .mem]
    [May gs .pair] [May gs .out] (path : Nat) (hk : Keeps gs z s) : Keeps gs z (State.partnerGone path s) := by
  unfold State.partnerGone
  repeat' (first | with_reducible assumption | with_reducible apply takeover_keeps | extract_lets | with_reducible apply ite_keeps | split | (intro _; intros; beta_reduce at *) | (dsimp +zetaDelta only))

theorem execFaultFlit_keeps [May gs .regs] [May gs .tb] [May gs .hif] [May gs .work] [May gs .cores] [May gs
    .mem] [May gs .pair] [May gs .out] (hk : Keeps gs z s) : KeepsRes gs z (execFaultFlit s) := by
  unfold execFaultFlit
  refine KeepsRes.next ?_
  repeat' (first | with_reducible assumption | with_reducible apply partnerGone_keeps | extract_lets | with_reducible apply ite_keeps | split | (intro _; intros; beta_reduce at *) | (dsimp +zetaDelta only))

theorem execDownFlit_keeps [May gs .regs] [May gs .tb] [May gs .hif] [May gs .work] [May gs .cores] [May gs
    .mem] [May gs .pair] [May gs .out] (hk : Keeps gs z s) : KeepsRes gs z (execDownFlit s) := by
  unfold execDownFlit
  refine KeepsRes.next ?_
  repeat' (first | with_reducible assumption | with_reducible apply partnerGone_keeps | extract_lets | with_reducible apply ite_keeps | split | (intro _; intros; beta_reduce at *) | (dsimp +zetaDelta only))

theorem execFence_keeps [May gs .regs] [May gs .hif] [May gs .work] [May gs .cores] [May gs .mem] [May gs .pair]
    [May gs .keeper] [May gs .out] (hk : Keeps gs z s) : KeepsRes gs z (execFence s) := by
  unfold execFence
  refine KeepsRes.next ?_
  repeat' (first | with_reducible assumption | with_reducible apply fault_keeps | extract_lets | with_reducible apply ite_keeps | split | (intro _; intros; beta_reduce at *) | (dsimp +zetaDelta only))

theorem execLeave_keeps [May gs .regs] [May gs .tb] [May gs .hif] [May gs .work] [May gs .cores] [May gs .mem]
    [May gs .pair] [May gs .out] (hk : Keeps gs z s) : KeepsRes gs z (execLeave s) := by
  unfold execLeave
  refine KeepsRes.next ?_
  repeat' (first | with_reducible assumption | with_reducible apply setPair_keeps | with_reducible apply dropMirrors_keeps | extract_lets | with_reducible apply ite_keeps | split | (intro _; intros; beta_reduce at *) | (dsimp +zetaDelta only))

theorem pairCtrl_keeps [May gs .regs] [May gs .tb] [May gs .hif] [May gs .work] [May gs .cores] [May gs .mem]
    [May gs .pair] [May gs .out] (en : Bool) (hk : Keeps gs z s) : Keeps gs z (State.pairCtrl en s) := by
  unfold State.pairCtrl
  repeat' (first | with_reducible assumption | with_reducible apply updPair_keeps | with_reducible apply when_keeps | with_reducible apply updStreams_keeps | with_reducible apply sendFlit_keeps | with_reducible apply setPair_keeps | with_reducible apply dropMirrors_keeps | extract_lets | with_reducible apply ite_keeps | split | (intro _; intros; beta_reduce at *) | (dsimp +zetaDelta only))

theorem execOpenIdConfirm_keeps [May gs .pair] [May gs .out] (id : Nat) (part : Nat) (tiles : Nat) (hk : Keeps
    gs z s) : KeepsRes gs z (execOpenIdConfirm id part tiles s) := by
  unfold execOpenIdConfirm
  refine KeepsRes.next ?_
  repeat' (first | with_reducible assumption | with_reducible apply updPair_keeps | with_reducible apply when_keeps | with_reducible apply sendFlit_keeps | extract_lets | with_reducible apply ite_keeps | split | (intro _; intros; beta_reduce at *) | (dsimp +zetaDelta only))

theorem execIdConfirmed_keeps [May gs .hif] [May gs .work] [May gs .cores] [May gs .mem] [May gs .out] (id :
    Nat) (idFree : Bool) (reserved : Bool) (hk : Keeps gs z s) : KeepsRes gs z (execIdConfirmed id idFree
    reserved s) := by
  unfold execIdConfirmed
  refine KeepsRes.next ?_
  repeat' (first | with_reducible assumption | with_reducible apply updStream_keeps | with_reducible apply refuseOpen_keeps | extract_lets | with_reducible apply ite_keeps | split | (intro _; intros; beta_reduce at *) | (dsimp +zetaDelta only))

theorem commitHandoff_keeps [May gs .pair] [May gs .out] (h : HandoffMsg) (hk : Keeps gs z s) : Keeps gs z
    (State.commitHandoff h s) := by
  unfold State.commitHandoff
  repeat' (first | with_reducible assumption | with_reducible apply updPair_keeps | with_reducible apply sendFlit_keeps | ((with_reducible refine foldl_keeps Prod.snd ?_ ?_)) | ((with_reducible refine foldl_keeps id ?_ ?_)) | extract_lets | with_reducible apply ite_keeps | split | (intro _; intros; beta_reduce at *) | (dsimp +zetaDelta only))

theorem drainInbound_keeps [May gs .pair] [May gs .out] (x1 : Nat) (hk : Keeps gs z s) : Keeps gs z
    (State.drainInbound x1 s) := by
  induction x1 generalizing s with
  | zero =>
    unfold State.drainInbound
    repeat' (first | with_reducible assumption | with_reducible apply updPair_keeps | with_reducible apply commitHandoff_keeps | extract_lets | with_reducible apply ite_keeps | split | (intro _; intros; beta_reduce at *) | (dsimp +zetaDelta only))
  | succ n ih =>
    unfold State.drainInbound
    repeat' (first | with_reducible assumption | with_reducible apply ih | with_reducible apply updPair_keeps | with_reducible apply commitHandoff_keeps | extract_lets | with_reducible apply ite_keeps | split | (intro _; intros; beta_reduce at *) | (dsimp +zetaDelta only))

theorem execHandoff_keeps [May gs .regs] [May gs .tb] [May gs .hif] [May gs .work] [May gs .cores] [May gs .mem]
    [May gs .pair] [May gs .out] (h : HandoffMsg) (hk : Keeps gs z s) : KeepsRes gs z (execHandoff h s) := by
  unfold execHandoff
  refine KeepsRes.next ?_
  repeat' (first | with_reducible assumption | with_reducible apply updPair_keeps | with_reducible apply checkPaired_keeps | with_reducible apply drainInbound_keeps | extract_lets | with_reducible apply ite_keeps | split | (intro _; intros; beta_reduce at *) | (dsimp +zetaDelta only))

theorem execHandoffCommitted_keeps [May gs .regs] [May gs .tb] [May gs .hif] [May gs .work] [May gs .cores] [May
    gs .mem] [May gs .pair] [May gs .out] (id : Nat) (seq : Nat) (hk : Keeps gs z s) : KeepsRes gs z
    (execHandoffCommitted id seq s) := by
  unfold execHandoffCommitted
  refine KeepsRes.next ?_
  repeat' (first | with_reducible assumption | with_reducible apply updPair_keeps | with_reducible apply updStream_keeps | with_reducible apply releaseHeld_keeps | with_reducible apply checkPaired_keeps | extract_lets | with_reducible apply ite_keeps | split | (intro _; intros; beta_reduce at *) | (dsimp +zetaDelta only))

theorem execMirrorDropNotice_keeps [May gs .hif] [May gs .work] [May gs .mem] [May gs .pair] [May gs .out] (p :
    Nat) (hk : Keeps gs z s) : KeepsRes gs z (execMirrorDropNotice p s) := by
  unfold execMirrorDropNotice
  refine KeepsRes.next ?_
  repeat' (first | with_reducible assumption | with_reducible apply updPair_keeps | with_reducible apply forEach_keeps | with_reducible apply updStreams_keeps | with_reducible apply releaseHeld_keeps | with_reducible apply dropPartMirrors_keeps | extract_lets | with_reducible apply ite_keeps | split | (intro _; intros; beta_reduce at *) | (dsimp +zetaDelta only))

theorem execHandoverSend_keeps [May gs .pair] [May gs .out] (hk : Keeps gs z s) : KeepsRes gs z
    (execHandoverSend s) := by
  unfold execHandoverSend
  refine KeepsRes.next ?_
  repeat' (first | with_reducible assumption | with_reducible apply updPair_keeps | with_reducible apply sendFlit_keeps | extract_lets | with_reducible apply ite_keeps | split | (intro _; intros; beta_reduce at *) | (dsimp +zetaDelta only))

theorem execHandoverReceived_keeps [May gs .pair] (g : Nat) (hk : Keeps gs z s) : KeepsRes gs z
    (execHandoverReceived g s) := by
  unfold execHandoverReceived
  refine KeepsRes.next ?_
  repeat' (first | with_reducible assumption | with_reducible apply updPair_keeps | extract_lets | with_reducible apply ite_keeps | split | (intro _; intros; beta_reduce at *) | (dsimp +zetaDelta only))

theorem stopRing_keeps [May gs .regs] [May gs .hif] [May gs .mem] [May gs .out] (g : Nat) (k : Nat) (status :
    Nat) (idx : Nat) (hk : Keeps gs z s) : Keeps gs z (State.stopRing g k status idx s) := by
  unfold State.stopRing
  repeat' (first | with_reducible assumption | with_reducible apply bump_keeps | with_reducible apply updRg_keeps | with_reducible apply postEvent_keeps | extract_lets | with_reducible apply ite_keeps | split | (intro _; intros; beta_reduce at *) | (dsimp +zetaDelta only))

theorem fetchRing_keeps [May gs .regs] [May gs .hif] [May gs .mem] [May gs .out] (g : Nat) (k : Nat) (x3 : Nat)
    (hk : Keeps gs z s) : Keeps gs z (State.fetchRing g k x3 s) := by
  induction x3 generalizing s with
  | zero =>
    unfold State.fetchRing
    repeat' (first | with_reducible assumption | with_reducible apply updRg_keeps | with_reducible apply complete_keeps | with_reducible apply stopRing_keeps | extract_lets | with_reducible apply ite_keeps | split | (intro _; intros; beta_reduce at *) | (dsimp +zetaDelta only))
  | succ n ih =>
    unfold State.fetchRing
    repeat' (first | with_reducible assumption | with_reducible apply ih | with_reducible apply updRg_keeps | with_reducible apply complete_keeps | with_reducible apply stopRing_keeps | extract_lets | with_reducible apply ite_keeps | split | (intro _; intros; beta_reduce at *) | (dsimp +zetaDelta only))

theorem readLine_keeps [May gs .regs] [May gs .hif] [May gs .mem] [May gs .out] (g : Nat) (k : Nat) (hk : Keeps
    gs z s) : Keeps gs z (State.readLine g k s) := by
  unfold State.readLine
  repeat' (first | with_reducible assumption | with_reducible apply updRg_keeps | with_reducible apply stopRing_keeps | extract_lets | with_reducible apply ite_keeps | split | (intro _; intros; beta_reduce at *) | (dsimp +zetaDelta only))

theorem fetchAll_keeps [May gs .regs] [May gs .hif] [May gs .mem] [May gs .out] (g : Nat) (hk : Keeps gs z s) :
    Keeps gs z (State.fetchAll g s) := by
  unfold State.fetchAll
  repeat' (first | with_reducible assumption | with_reducible apply forEach_keeps | with_reducible apply fetchRing_keeps | extract_lets | with_reducible apply ite_keeps | split | (intro _; intros; beta_reduce at *) | (dsimp +zetaDelta only))

theorem execDoorbellFetch_keeps [May gs .regs] [May gs .hif] [May gs .work] [May gs .mem] [May gs .out] (g :
    Nat) (host : HostDelta) (hk : Keeps gs z s) : KeepsRes gs z (execDoorbellFetch g host s) := by
  unfold execDoorbellFetch
  refine KeepsRes.next ?_
  repeat' (first | with_reducible assumption | with_reducible apply updWork_keeps | with_reducible apply updMem_hostFail_keeps | with_reducible apply updMem_erase_keeps | with_reducible apply forEach_keeps | with_reducible apply hostWrite_keeps | with_reducible apply updRg_keeps | with_reducible apply hostConfig_keeps | with_reducible apply readLine_keeps | with_reducible apply fetchAll_keeps | extract_lets | with_reducible apply ite_keeps | split | (intro _; intros; beta_reduce at *) | (dsimp +zetaDelta only))

theorem runCmd_keeps [May gs .hif] [May gs .mem] [May gs .out] (opc : Nat) (g : Nat) (d : Nat) (f : Desc → State
    → State) (hf : ∀ v1 t, Keeps gs z t → Keeps gs z (f v1 t)) (hk : Keeps gs z s) : Keeps gs z (State.runCmd
    opc g d f s) := by
  unfold State.runCmd
  repeat' (first | with_reducible assumption | with_reducible apply hf | with_reducible apply updRg_keeps | with_reducible apply finishCmd_keeps | extract_lets | with_reducible apply ite_keeps | split | (intro _; intros; beta_reduce at *) | (dsimp +zetaDelta only))

theorem refuseChunk_keeps [May gs .hif] [May gs .mem] [May gs .out] (g : Nat) (x : Desc) (status : Nat) (hk :
    Keeps gs z s) : Keeps gs z (State.refuseChunk g x status s) := by
  unfold State.refuseChunk
  repeat' (first | with_reducible assumption | with_reducible apply updRg_keeps | with_reducible apply complete_keeps | extract_lets | with_reducible apply ite_keeps | split | (intro _; intros; beta_reduce at *) | (dsimp +zetaDelta only))

theorem dropChunk_keeps [May gs .hif] [May gs .work] [May gs .mem] [May gs .out] (id : Nat) (c : Chunk) (status
    : Nat) (hk : Keeps gs z s) : Keeps gs z (State.dropChunk id c status s) := by
  unfold State.dropChunk
  repeat' (first | with_reducible assumption | with_reducible apply updStream_keeps | with_reducible apply post_keeps | extract_lets | with_reducible apply ite_keeps | split | (intro _; intros; beta_reduce at *) | (dsimp +zetaDelta only))

theorem dropChunks_keeps [May gs .hif] [May gs .work] [May gs .mem] [May gs .out] (id : Nat) (status : Nat) (hk
    : Keeps gs z s) : Keeps gs z (State.dropChunks id status s) := by
  unfold State.dropChunks
  repeat' (first | with_reducible assumption | with_reducible apply forEach_keeps | with_reducible apply dropChunk_keeps | extract_lets | with_reducible apply ite_keeps | split | (intro _; intros; beta_reduce at *) | (dsimp +zetaDelta only))

theorem fillInputs_keeps [May gs .hif] [May gs .work] [May gs .mem] [May gs .out] (id : Nat) (x2 : Nat) (hk :
    Keeps gs z s) : Keeps gs z (State.fillInputs id x2 s) := by
  induction x2 generalizing s with
  | zero =>
    unfold State.fillInputs
    repeat' (first | with_reducible assumption | with_reducible apply spmWrite_keeps | with_reducible apply updStream_keeps | with_reducible apply dropChunk_keeps | extract_lets | with_reducible apply ite_keeps | split | (intro _; intros; beta_reduce at *) | (dsimp +zetaDelta only))
  | succ n ih =>
    unfold State.fillInputs
    repeat' (first | with_reducible assumption | with_reducible apply ih | with_reducible apply spmWrite_keeps | with_reducible apply updStream_keeps | with_reducible apply dropChunk_keeps | extract_lets | with_reducible apply ite_keeps | split | (intro _; intros; beta_reduce at *) | (dsimp +zetaDelta only))

theorem execChunk_keeps [May gs .hif] [May gs .work] [May gs .mem] [May gs .out] (g : Nat) (d : Nat) (hk : Keeps
    gs z s) : KeepsRes gs z (execChunk g d s) := by
  unfold execChunk
  refine KeepsRes.next ?_
  repeat' (first | with_reducible assumption | with_reducible apply updStream_keeps | with_reducible apply updRg_keeps | with_reducible apply refuseChunk_keeps | with_reducible apply fillInputs_keeps | extract_lets | with_reducible apply ite_keeps | split | (intro _; intros; beta_reduce at *) | (dsimp +zetaDelta only))

theorem postComp_keeps [May gs .hif] [May gs .work] [May gs .mem] [May gs .out] (id : Nat) (seq : Nat) (k : Nat)
    (ws : List Word) (w7 : Nat) (irq : Bool) (hk : Keeps gs z s) : Keeps gs z (State.postComp id seq k ws w7 irq
    s) := by
  unfold State.postComp
  repeat' (first | with_reducible assumption | with_reducible apply updStream_keeps | with_reducible apply post_keeps | extract_lets | with_reducible apply ite_keeps | split | (intro _; intros; beta_reduce at *) | (dsimp +zetaDelta only))

theorem outDrop_keeps [May gs .regs] [May gs .hif] [May gs .mem] [May gs .out] (id : Nat) (o : OutWait)
    (delivered : Bool) (hk : Keeps gs z s) : Keeps gs z (State.outDrop id o delivered s) := by
  unfold State.outDrop
  repeat' (first | with_reducible assumption | with_reducible apply bump_keeps | with_reducible apply postEvent_keeps | extract_lets | with_reducible apply ite_keeps | split | (intro _; intros; beta_reduce at *) | (dsimp +zetaDelta only))

theorem deliverPart_keeps [May gs .regs] [May gs .hif] [May gs .work] [May gs .mem] [May gs .out] (id : Nat) (o
    : OutWait) (b : OutBuf) (hk : Keeps gs z s) : Keeps gs z (State.deliverPart id o b s) := by
  unfold State.deliverPart
  repeat' (first | with_reducible assumption | with_reducible apply when_keeps | with_reducible apply hostWrite_keeps | with_reducible apply updStream_keeps | with_reducible apply postComp_keeps | with_reducible apply outDrop_keeps | extract_lets | with_reducible apply ite_keeps | split | (intro _; intros; beta_reduce at *) | (dsimp +zetaDelta only))

theorem deliver_keeps [May gs .regs] [May gs .hif] [May gs .work] [May gs .mem] [May gs .out] (id : Nat) (x2 :
    Nat) (hk : Keeps gs z s) : Keeps gs z (State.deliver id x2 s) := by
  induction x2 generalizing s with
  | zero =>
    unfold State.deliver
    repeat' (first | with_reducible assumption | with_reducible apply updRg_keeps | with_reducible apply deliverPart_keeps | extract_lets | with_reducible apply ite_keeps | split | (intro _; intros; beta_reduce at *) | (dsimp +zetaDelta only))
  | succ n ih =>
    unfold State.deliver
    repeat' (first | with_reducible assumption | with_reducible apply ih | with_reducible apply updRg_keeps | with_reducible apply deliverPart_keeps | extract_lets | with_reducible apply ite_keeps | split | (intro _; intros; beta_reduce at *) | (dsimp +zetaDelta only))

theorem execOutputBuffer_keeps [May gs .regs] [May gs .hif] [May gs .work] [May gs .mem] [May gs .out] (g : Nat)
    (d : Nat) (hk : Keeps gs z s) : KeepsRes gs z (execOutputBuffer g d s) := by
  unfold execOutputBuffer
  refine KeepsRes.next ?_
  repeat' (first | with_reducible assumption | with_reducible apply forEach_keeps | with_reducible apply updRg_keeps | with_reducible apply complete_keeps | with_reducible apply deliver_keeps | extract_lets | with_reducible apply ite_keeps | split | (intro _; intros; beta_reduce at *) | (dsimp +zetaDelta only))

theorem execModerationTimer_keeps [May gs .free] [May gs .tb] [May gs .hif] [May gs .out] (g : Nat) (event :
    Bool) (hk : Keeps gs z s) : KeepsRes gs z (execModerationTimer g event s) := by
  unfold execModerationTimer
  refine KeepsRes.next ?_
  repeat' (first | with_reducible assumption | with_reducible apply fireGroup_keeps | with_reducible apply advanceTo_keeps | extract_lets | with_reducible apply ite_keeps | split | (intro _; intros; beta_reduce at *) | (dsimp +zetaDelta only))

theorem convert_keeps [May gs .regs] [May gs .work] [May gs .mem] (x : Stream) (a : AfeStream) (c : Chunk) (h :
    ImageHdr) (hk : Keeps gs z s) : Keeps gs z (State.convert x a c h s) := by
  unfold State.convert
  repeat' (first | with_reducible assumption | with_reducible apply when_keeps | with_reducible apply spmWrite_keeps | with_reducible apply updStream_keeps | with_reducible apply count_keeps | with_reducible apply bump_keeps | with_reducible apply chargeStream_keeps | with_reducible apply writeHeader_keeps | extract_lets | with_reducible apply ite_keeps | split | (intro _; intros; beta_reduce at *) | (dsimp +zetaDelta only))

theorem execAfeConversionStart_keeps [May gs .regs] [May gs .hif] [May gs .work] [May gs .mem] [May gs .out] (id
    : Nat) (hk : Keeps gs z s) : KeepsRes gs z (execAfeConversionStart id s) := by
  unfold execAfeConversionStart
  refine KeepsRes.next ?_
  repeat' (first | with_reducible assumption | with_reducible apply dropChunk_keeps | with_reducible apply convert_keeps | extract_lets | with_reducible apply ite_keeps | split | (intro _; intros; beta_reduce at *) | (dsimp +zetaDelta only))

theorem execAfeConversionDone_keeps [May gs .work] (id : Nat) (hk : Keeps gs z s) : KeepsRes gs z
    (execAfeConversionDone id s) := by
  unfold execAfeConversionDone
  refine KeepsRes.next ?_
  repeat' (first | with_reducible assumption | with_reducible apply updStream_keeps | extract_lets | with_reducible apply ite_keeps | split | (intro _; intros; beta_reduce at *) | (dsimp +zetaDelta only))

end Sys2Proof.Machine
end

