-- ==== Sys2Proof/Laws/KeepsEngines.lean ====
section
/-! SUPPORT. No arithmetic of the Lacing Unit, the matrix engine or an attention pass breaks Safety.Keeps. -/

namespace Sys2Proof.Machine

open Sys2Proof Safety

set_option linter.unreachableTactic false
set_option linter.unusedTactic false
set_option linter.unusedVariables false

variable {z s : State} {gs : List Area}

theorem luNarrow_keeps [May gs .regs] [May gs .cores] (c : Nat) (d : LuDesc) (xs : List Word) (hk : Keeps gs z
    s) : Keeps gs z (State.luNarrow c d xs s).2 := by
  unfold State.luNarrow
  repeat' (first | with_reducible assumption | ((with_reducible refine updCore_keeps ?_ ?_); on_goal 1 => (intros; first | rfl | (split <;> rfl))) | with_reducible apply count_keeps | extract_lets | with_reducible apply ite_keeps | split | (intro _; intros; beta_reduce at *) | (dsimp only) | (refine keeps_snd (by assumption) ?_) | (dsimp +zetaDelta only))

theorem luOutput_keeps [May gs .regs] [May gs .cores] [May gs .mem] (c : Nat) (d : LuDesc) (blk : Nat) (g : Nat)
    (pad : Bool) (h : List Word) (hk : Keeps gs z s) : Keeps gs z (State.luOutput c d blk g pad h s) := by
  unfold State.luOutput
  repeat' (first | with_reducible assumption | with_reducible apply spmWrite_keeps | with_reducible apply luNarrow_keeps | extract_lets | with_reducible apply ite_keeps | split | (intro _; intros; beta_reduce at *) | (dsimp only) | (refine keeps_snd (by assumption) ?_) | (dsimp +zetaDelta only))

theorem luOutputs_keeps [May gs .regs] [May gs .cores] [May gs .mem] (c : Nat) (d : LuDesc) (blk : Nat) (g0 :
    Nat) (hs : List (List Word)) (pads : List Bool) (hk : Keeps gs z s) : Keeps gs z (State.luOutputs c d blk g0
    hs pads s) := by
  unfold State.luOutputs
  repeat' (first | with_reducible assumption | with_reducible apply forEach_keeps | with_reducible apply luOutput_keeps | extract_lets | with_reducible apply ite_keeps | split | (intro _; intros; beta_reduce at *) | (dsimp +zetaDelta only))

theorem luNonfinite_keeps [May gs .regs] [May gs .work] (c : Nat) (n : Nat) (hk : Keeps gs z s) : Keeps gs z
    (State.luNonfinite c n s) := by
  unfold State.luNonfinite
  repeat' (first | with_reducible assumption | with_reducible apply updStream_keeps | with_reducible apply updJob_keeps | with_reducible apply bump_keeps | extract_lets | with_reducible apply ite_keeps | split | (intro _; intros; beta_reduce at *) | (dsimp +zetaDelta only))

theorem luRowEnd_keeps [May gs .regs] [May gs .work] [May gs .cores] [May gs .mem] (c : Nat) (d : LuDesc) (blk :
    Nat) (k : Nat) (h : List Word) (hk : Keeps gs z s) : Keeps gs z (State.luRowEnd c d blk k h s) := by
  unfold State.luRowEnd
  repeat' (first | with_reducible assumption | with_reducible apply when_keeps | with_reducible apply spmWrite_keeps | with_reducible apply luNarrow_keeps | with_reducible apply luNonfinite_keeps | extract_lets | with_reducible apply ite_keeps | split | (intro _; intros; beta_reduce at *) | (dsimp only) | (refine keeps_snd (by assumption) ?_) | (dsimp +zetaDelta only))

theorem luCompose_keeps [May gs .regs] [May gs .cores] [May gs .mem] (c : Nat) (d : LuDesc) (blk : Nat) (g :
    Nat) (b : LuBlock) (hk : Keeps gs z s) : Keeps gs z (State.luCompose c d blk g b s).2 := by
  unfold State.luCompose
  repeat' (first | with_reducible assumption | with_reducible apply luOutputs_keeps | extract_lets | with_reducible apply ite_keeps | split | (intro _; intros; beta_reduce at *) | (dsimp only) | (refine keeps_snd (by assumption) ?_) | (dsimp +zetaDelta only))

theorem luStep_keeps [May gs .regs] [May gs .work] [May gs .cores] [May gs .mem] (c : Nat) (d : LuDesc) (blk :
    Nat) (b : LuBlock) (entry : List (Word × Word)) (hk : Keeps gs z s) : Keeps gs z (State.luStep c d blk b
    entry s).2 := by
  unfold State.luStep
  repeat' (first | with_reducible assumption | with_reducible apply when_keeps | with_reducible apply spmWrite_keeps | with_reducible apply bump_keeps | with_reducible apply luRowEnd_keeps | with_reducible apply luCompose_keeps | extract_lets | with_reducible apply ite_keeps | split | (intro _; intros; beta_reduce at *) | (dsimp only) | (refine keeps_snd (by assumption) ?_) | (dsimp +zetaDelta only))

theorem luUpdate_keeps [May gs .regs] [May gs .mem] (c : Nat) (d : LuDesc) (row : Nat) (uv : List Word × List
    Word) (g : List Word × List Word) (hk : Keeps gs z s) : Keeps gs z (State.luUpdate c d row uv g s) := by
  unfold State.luUpdate
  repeat' (first | with_reducible assumption | with_reducible apply when_keeps | with_reducible apply spmWrite_keeps | with_reducible apply bump_keeps | ((with_reducible refine foldl_keeps Prod.snd ?_ ?_)) | ((with_reducible refine foldl_keeps id ?_ ?_)) | extract_lets | with_reducible apply ite_keeps | split | (intro _; intros; beta_reduce at *) | (dsimp +zetaDelta only))

theorem luRevPart_keeps [May gs .regs] [May gs .mem] (c : Nat) (d : LuDesc) (r : LuRev) (m : Nat) (hk : Keeps gs
    z s) : Keeps gs z (State.luRevPart c d r m s).2 := by
  unfold State.luRevPart
  repeat' (first | with_reducible assumption | with_reducible apply when_keeps | with_reducible apply forEach_keeps | with_reducible apply spmWrite_keeps | with_reducible apply luUpdate_keeps | ((with_reducible refine foldl_keeps Prod.snd ?_ ?_)) | ((with_reducible refine foldl_keeps id ?_ ?_)) | extract_lets | with_reducible apply ite_keeps | split | (intro _; intros; beta_reduce at *) | (dsimp only) | (refine keeps_snd (by assumption) ?_) | (dsimp +zetaDelta only))

theorem luRevRun_keeps [May gs .regs] [May gs .mem] (c : Nat) (d : LuDesc) (x3 : Nat) (x4 : Nat) (x5 : LuRev)
    (hk : Keeps gs z s) : Keeps gs z (State.luRevRun c d x3 x4 x5 s).2 := by
  induction x3 generalizing x4 x5 s with
  | zero =>
    unfold State.luRevRun
    repeat' (first | with_reducible assumption | with_reducible apply luRevPart_keeps | extract_lets | with_reducible apply ite_keeps | split | (intro _; intros; beta_reduce at *) | (dsimp only) | (refine keeps_snd (by assumption) ?_) | (dsimp +zetaDelta only))
  | succ n ih =>
    unfold State.luRevRun
    repeat' (first | with_reducible assumption | with_reducible apply ih | with_reducible apply luRevPart_keeps | extract_lets | with_reducible apply ite_keeps | split | (intro _; intros; beta_reduce at *) | (dsimp only) | (refine keeps_snd (by assumption) ?_) | (dsimp +zetaDelta only))

theorem luReverseOn_keeps [May gs .regs] [May gs .cores] [May gs .mem] (c : Nat) (n : Nat) (hk : Keeps gs z s) :
    Keeps gs z (State.luReverseOn c n s) := by
  unfold State.luReverseOn
  repeat' (first | with_reducible assumption | ((with_reducible refine updCore_keeps ?_ ?_); on_goal 1 => (intros; first | rfl | (split <;> rfl))) | with_reducible apply luRevRun_keeps | extract_lets | with_reducible apply ite_keeps | split | (intro _; intros; beta_reduce at *) | (dsimp only) | (refine keeps_snd (by assumption) ?_) | (dsimp +zetaDelta only))

theorem luEntry_keeps [May gs .free] [May gs .regs] [May gs .hif] [May gs .work] [May gs .cores] [May gs .mem]
    [May gs .pair] [May gs .keeper] [May gs .out] (c : Nat) (e : Nat × Nat × List (Word × Word)) (hk : Keeps gs
    z s) : Keeps gs z (State.luEntry c e s) := by
  unfold State.luEntry
  repeat' (first | with_reducible assumption | ((with_reducible refine updCore_keeps ?_ ?_); on_goal 1 => (intros; first | rfl | (split <;> rfl))) | with_reducible apply trap_keeps | with_reducible apply luStep_keeps | extract_lets | with_reducible apply ite_keeps | split | (intro _; intros; beta_reduce at *) | (dsimp only) | (refine keeps_snd (by assumption) ?_) | (dsimp +zetaDelta only))

theorem luDrain_keeps [May gs .free] [May gs .regs] [May gs .hif] [May gs .work] [May gs .cores] [May gs .mem]
    [May gs .pair] [May gs .keeper] [May gs .out] (c : Nat) (hk : Keeps gs z s) : Keeps gs z (State.luDrain c s)
    := by
  unfold State.luDrain
  repeat' (first | with_reducible assumption | with_reducible apply forEach_keeps | ((with_reducible refine updCore_keeps ?_ ?_); on_goal 1 => (intros; first | rfl | (split <;> rfl))) | with_reducible apply luEntry_keeps | extract_lets | with_reducible apply ite_keeps | split | (intro _; intros; beta_reduce at *) | (dsimp +zetaDelta only))

theorem luPush_keeps [May gs .free] [May gs .regs] [May gs .hif] [May gs .work] [May gs .cores] [May gs .mem]
    [May gs .pair] [May gs .keeper] [May gs .out] (c : Nat) (tag : Nat) (cblk : Nat) (entry : List (Word ×
    Word)) (hk : Keeps gs z s) : Keeps gs z (State.luPush c tag cblk entry s) := by
  unfold State.luPush
  repeat' (first | with_reducible assumption | with_reducible apply when_keeps | ((with_reducible refine updCore_keeps ?_ ?_); on_goal 1 => (intros; first | rfl | (split <;> rfl))) | with_reducible apply luDrain_keeps | extract_lets | with_reducible apply ite_keeps | split | (intro _; intros; beta_reduce at *) | (dsimp +zetaDelta only))

theorem luSpill_keeps [May gs .regs] [May gs .cores] [May gs .mem] (c : Nat) (hk : Keeps gs z s) : Keeps gs z
    (State.luSpill c s) := by
  unfold State.luSpill
  repeat' (first | with_reducible assumption | with_reducible apply forEach_keeps | ((with_reducible refine updCore_keeps ?_ ?_); on_goal 1 => (intros; first | rfl | (split <;> rfl))) | with_reducible apply luCompose_keeps | extract_lets | with_reducible apply ite_keeps | split | (intro _; intros; beta_reduce at *) | (dsimp only) | (refine keeps_snd (by assumption) ?_) | (dsimp +zetaDelta only))

theorem lscanOpen_keeps [May gs .cores] (c : Nat) (w : BitVec 64) (ws : List Word) (es : List SbEntry) (hk :
    Keeps gs z s) : Keeps gs z (State.lscanOpen c w ws es s) := by
  unfold State.lscanOpen
  repeat' (first | with_reducible assumption | ((with_reducible refine updCore_keeps ?_ ?_); on_goal 1 => (intros; first | rfl | (split <;> rfl))) | ((with_reducible refine foldl_keeps Prod.snd ?_ ?_)) | ((with_reducible refine foldl_keeps id ?_ ?_)) | extract_lets | with_reducible apply ite_keeps | split | (intro _; intros; beta_reduce at *) | (dsimp +zetaDelta only))

theorem meTally_keeps [May gs .regs] (c : Nat) (t0 : Tally) (hk : Keeps gs z s) : Keeps gs z (State.meTally c t0
    s) := by
  unfold State.meTally
  repeat' (first | with_reducible assumption | with_reducible apply count_keeps | extract_lets | with_reducible apply ite_keeps | split | (intro _; intros; beta_reduce at *) | (dsimp +zetaDelta only))

theorem gateOut_keeps [May gs .free] [May gs .regs] [May gs .hif] [May gs .work] [May gs .cores] [May gs .mem]
    [May gs .pair] [May gs .keeper] [May gs .out] (c : Nat) (m : MmaOp) (ws : List Word) (sregs : List Word)
    (sums : List Word) (hk : Keeps gs z s) : Keeps gs z (State.gateOut c m ws sregs sums s) := by
  unfold State.gateOut
  repeat' (first | with_reducible assumption | with_reducible apply when_keeps | with_reducible apply forEach_keeps | with_reducible apply spmWrite_keeps | ((with_reducible refine updCore_keeps ?_ ?_); on_goal 1 => (intros; first | rfl | (split <;> rfl))) | with_reducible apply luPush_keeps | with_reducible apply meTally_keeps | extract_lets | with_reducible apply ite_keeps | split | (intro _; intros; beta_reduce at *) | (dsimp +zetaDelta only))

theorem mmaRun_keeps [May gs .free] [May gs .regs] [May gs .hif] [May gs .work] [May gs .cores] [May gs .mem]
    [May gs .pair] [May gs .keeper] [May gs .out] (c : Nat) (m : MmaOp) (ws : List Word) (sregs : List Word)
    (run : List Byte) (hk : Keeps gs z s) : Keeps gs z (State.mmaRun c m ws sregs run s) := by
  unfold State.mmaRun
  repeat' (first | with_reducible assumption | ((with_reducible refine updCore_keeps ?_ ?_); on_goal 1 => (intros; first | rfl | (split <;> rfl))) | with_reducible apply gateOut_keeps | extract_lets | with_reducible apply ite_keeps | split | (intro _; intros; beta_reduce at *) | with_reducible exact hk.same rfl rfl rfl rfl | (dsimp +zetaDelta only))

theorem mmaOn_keeps [May gs .free] [May gs .regs] [May gs .hif] [May gs .work] [May gs .cores] [May gs .mem]
    [May gs .pair] [May gs .keeper] [May gs .out] (c : Nat) (f : Flight) (m : MmaOp) (hk : Keeps gs z s) : Keeps
    gs z (State.mmaOn c f m s).2 := by
  unfold State.mmaOn
  repeat' (first | with_reducible assumption | with_reducible apply when_keeps | ((with_reducible refine updCore_keeps ?_ ?_); on_goal 1 => (intros; first | rfl | (split <;> rfl))) | with_reducible apply mmaRun_keeps | extract_lets | with_reducible apply ite_keeps | split | (intro _; intros; beta_reduce at *) | (dsimp only) | (refine keeps_snd (by assumption) ?_) | (dsimp +zetaDelta only))

theorem gpload_keeps [May gs .cores] (c : Nat) (slot : Nat) (ws : List Word) (hk : Keeps gs z s) : Keeps gs z
    (State.gpload c slot ws s) := by
  unfold State.gpload
  repeat' (first | with_reducible assumption | ((with_reducible refine updCore_keeps ?_ ?_); on_goal 1 => (intros; first | rfl | (split <;> rfl))) | extract_lets | with_reducible apply ite_keeps | split | (intro _; intros; beta_reduce at *) | (dsimp +zetaDelta only))

theorem attNarrow_keeps [May gs .regs] [May gs .cores] (c : Nat) (fmt : Nat) (x : AttDesc) (xs : List FV) (hk :
    Keeps gs z s) : Keeps gs z (State.attNarrow c fmt x xs s).2 := by
  unfold State.attNarrow
  repeat' (first | with_reducible assumption | ((with_reducible refine updCore_keeps ?_ ?_); on_goal 1 => (intros; first | rfl | (split <;> rfl))) | with_reducible apply count_keeps | extract_lets | with_reducible apply ite_keeps | split | (intro _; intros; beta_reduce at *) | (dsimp only) | (refine keeps_snd (by assumption) ?_) | (dsimp +zetaDelta only))

theorem attScoreRow_keeps [May gs .regs] [May gs .cores] [May gs .mem] (c : Nat) (x : AttDesc) (freqs : List
    Nat) (col : Nat) (keys : List (Nat × List FV × List FV)) (i : Nat) (old : Word × Nat) (hk : Keeps gs z s) :
    Keeps gs z (State.attScoreRow c x freqs col keys i old s).2 := by
  unfold State.attScoreRow
  repeat' (first | with_reducible assumption | with_reducible apply spmWrite_keeps | with_reducible apply attNarrow_keeps | extract_lets | with_reducible apply ite_keeps | split | (intro _; intros; beta_reduce at *) | (dsimp only) | (refine keeps_snd (by assumption) ?_) | (dsimp +zetaDelta only))

theorem attRowStats_keeps [May gs .mem] (c : Nat) (x : AttDesc) (i : Nat) (new : Word × Nat) (hk : Keeps gs z s)
    : Keeps gs z (State.attRowStats c x i new s) := by
  unfold State.attRowStats
  repeat' (first | with_reducible assumption | with_reducible apply spmWrite_keeps | extract_lets | with_reducible apply ite_keeps | split | (intro _; intros; beta_reduce at *) | (dsimp +zetaDelta only))

theorem attScoreOp_keeps [May gs .regs] [May gs .cores] [May gs .mem] (c : Nat) (x : AttDesc) (ps : List
    AttPage) (p : Progress) (hk : Keeps gs z s) : Keeps gs z (State.attScoreOp c x ps p s).2 := by
  unfold State.attScoreOp
  repeat' (first | with_reducible assumption | with_reducible apply when_keeps | with_reducible apply forEach_keeps | with_reducible apply count_keeps | with_reducible apply attScoreRow_keeps | with_reducible apply attRowStats_keeps | ((with_reducible refine foldl_keeps Prod.snd ?_ ?_)) | ((with_reducible refine foldl_keeps id ?_ ?_)) | extract_lets | with_reducible apply ite_keeps | split | (intro _; intros; beta_reduce at *) | (dsimp only) | (refine keeps_snd (by assumption) ?_) | (dsimp +zetaDelta only))

theorem attValueRow_keeps [May gs .regs] [May gs .cores] [May gs .mem] (c : Nat) (x : AttDesc) (i : Nat) (d0 :
    Nat) (sums : List Word) (hk : Keeps gs z s) : Keeps gs z (State.attValueRow c x i d0 sums s) := by
  unfold State.attValueRow
  repeat' (first | with_reducible assumption | with_reducible apply when_keeps | with_reducible apply spmWrite_keeps | with_reducible apply bump_keeps | with_reducible apply attNarrow_keeps | extract_lets | with_reducible apply ite_keeps | split | (intro _; intros; beta_reduce at *) | (dsimp only) | (refine keeps_snd (by assumption) ?_) | (dsimp +zetaDelta only))

theorem attValueOp_keeps [May gs .regs] [May gs .cores] [May gs .mem] (c : Nat) (x : AttDesc) (ps : List
    AttPage) (p : Progress) (hk : Keeps gs z s) : Keeps gs z (State.attValueOp c x ps p s).2 := by
  unfold State.attValueOp
  repeat' (first | with_reducible assumption | with_reducible apply when_keeps | with_reducible apply forEach_keeps | with_reducible apply attValueRow_keeps | extract_lets | with_reducible apply ite_keeps | split | (intro _; intros; beta_reduce at *) | (dsimp only) | (refine keeps_snd (by assumption) ?_) | (dsimp +zetaDelta only))

theorem attExpandOp_keeps [May gs .regs] [May gs .cores] [May gs .mem] (c : Nat) (x : AttDesc) (ps : List
    AttPage) (p : Progress) (hk : Keeps gs z s) : Keeps gs z (State.attExpandOp c x ps p s).2 := by
  unfold State.attExpandOp
  repeat' (first | with_reducible assumption | with_reducible apply when_keeps | with_reducible apply forEach_keeps | with_reducible apply spmWrite_keeps | with_reducible apply attNarrow_keeps | extract_lets | with_reducible apply ite_keeps | split | (intro _; intros; beta_reduce at *) | (dsimp only) | (refine keeps_snd (by assumption) ?_) | (dsimp +zetaDelta only))

theorem attOps_keeps [May gs .regs] [May gs .cores] [May gs .mem] (c : Nat) (pass : Nat) (x : AttDesc) (ps :
    List AttPage) (x5 : Nat) (x6 : Progress) (hk : Keeps gs z s) : Keeps gs z (State.attOps c pass x ps x5 x6
    s).2 := by
  induction x5 generalizing x6 s with
  | zero =>
    unfold State.attOps
    repeat' (first | with_reducible assumption | with_reducible apply attScoreOp_keeps | with_reducible apply attValueOp_keeps | with_reducible apply attExpandOp_keeps | extract_lets | with_reducible apply ite_keeps | split | (intro _; intros; beta_reduce at *) | (dsimp only) | (refine keeps_snd (by assumption) ?_) | (dsimp +zetaDelta only))
  | succ n ih =>
    unfold State.attOps
    repeat' (first | with_reducible assumption | with_reducible apply ih | with_reducible apply attScoreOp_keeps | with_reducible apply attValueOp_keeps | with_reducible apply attExpandOp_keeps | extract_lets | with_reducible apply ite_keeps | split | (intro _; intros; beta_reduce at *) | (dsimp only) | (refine keeps_snd (by assumption) ?_) | (dsimp +zetaDelta only))

theorem attOn_keeps [May gs .regs] [May gs .cores] [May gs .mem] (c : Nat) (n : Option Nat) (f : Flight) (pass :
    Nat) (hk : Keeps gs z s) : Keeps gs z (State.attOn c n f pass s).2 := by
  unfold State.attOn
  repeat' (first | with_reducible assumption | with_reducible apply attOps_keeps | extract_lets | with_reducible apply ite_keeps | split | (intro _; intros; beta_reduce at *) | (dsimp only) | (refine keeps_snd (by assumption) ?_) | (dsimp +zetaDelta only))

end Sys2Proof.Machine
end

