-- ==== Sys2Proof/Laws/KeepsVector.lean ====
section
/-! SUPPORT. No vector instruction, movement of data or issue of an instruction breaks Safety.Keeps. -/

namespace Sys2Proof.Machine

open Sys2Proof Safety

set_option linter.unreachableTactic false
set_option linter.unusedTactic false
set_option linter.unusedVariables false

variable {z s : State} {gs : List Area}

theorem veWrite_keeps [May gs .cores] [May gs .mem] (c : Nat) (l : VeLoc) (off : Nat) (bs : List Byte) (hk :
    Keeps gs z s) : Keeps gs z (State.veWrite c l off bs s) := by
  unfold State.veWrite
  repeat' (first | with_reducible assumption | with_reducible apply spmWrite_keeps | ((with_reducible refine updCore_keeps ?_ ?_); on_goal 1 => (intros; first | rfl | (split <;> rfl))) | extract_lets | with_reducible apply ite_keeps | split | (intro _; intros; beta_reduce at *) | (dsimp +zetaDelta only))

theorem vePut_keeps [May gs .regs] [May gs .cores] [May gs .mem] (c : Nat) (v : VeOp) (l : VeLoc) (k : Nat) (e :
    Word) (hk : Keeps gs z s) : Keeps gs z (State.vePut c v l k e s) := by
  unfold State.vePut
  repeat' (first | with_reducible assumption | with_reducible apply when_keeps | ((with_reducible refine updCore_keeps ?_ ?_); on_goal 1 => (intros; first | rfl | (split <;> rfl))) | with_reducible apply bump_keeps | with_reducible apply veWrite_keeps | extract_lets | with_reducible apply ite_keeps | split | (intro _; intros; beta_reduce at *) | (dsimp +zetaDelta only))

theorem veZero_keeps [May gs .cores] [May gs .mem] (c : Nat) (v : VeOp) (l : VeLoc) (k : Nat) (hk : Keeps gs z
    s) : Keeps gs z (State.veZero c v l k s) := by
  unfold State.veZero
  repeat' (first | with_reducible assumption | with_reducible apply veWrite_keeps | extract_lets | with_reducible apply ite_keeps | split | (intro _; intros; beta_reduce at *) | (dsimp +zetaDelta only))

theorem veZdiv_keeps [May gs .regs] (c : Nat) (es : List (Nat × Bool × Word × Nat)) (hk : Keeps gs z s) : Keeps
    gs z (State.veZdiv c es s) := by
  unfold State.veZdiv
  repeat' (first | with_reducible assumption | with_reducible apply count_keeps | extract_lets | with_reducible apply ite_keeps | split | (intro _; intros; beta_reduce at *) | (dsimp +zetaDelta only))

theorem vePutAll_keeps [May gs .regs] [May gs .cores] [May gs .mem] (c : Nat) (p : VePlan) (r : Nat) (es : List
    (Nat × Bool × Word × Nat)) (hk : Keeps gs z s) : Keeps gs z (State.vePutAll c p r es s) := by
  unfold State.vePutAll
  repeat' (first | with_reducible assumption | with_reducible apply forEach_keeps | with_reducible apply vePut_keeps | with_reducible apply veZero_keeps | extract_lets | with_reducible apply ite_keeps | split | (intro _; intros; beta_reduce at *) | (dsimp +zetaDelta only))

theorem veMapGroup_keeps [May gs .regs] [May gs .cores] [May gs .mem] (c : Nat) (p : VePlan) (r : Nat) (g : Nat)
    (hk : Keeps gs z s) : Keeps gs z (State.veMapGroup c p r g s) := by
  unfold State.veMapGroup
  repeat' (first | with_reducible assumption | with_reducible apply veZdiv_keeps | with_reducible apply vePutAll_keeps | extract_lets | with_reducible apply ite_keeps | split | (intro _; intros; beta_reduce at *) | (dsimp +zetaDelta only))

theorem veCount_keeps [May gs .cores] [May gs .mem] (c : Nat) (p : VePlan) (r : Nat) (k : Nat) (hk : Keeps gs z
    s) : Keeps gs z (State.veCount c p r k s) := by
  unfold State.veCount
  repeat' (first | with_reducible assumption | with_reducible apply when_keeps | with_reducible apply setSreg_keeps | with_reducible apply veWrite_keeps | extract_lets | with_reducible apply ite_keeps | split | (intro _; intros; beta_reduce at *) | (dsimp +zetaDelta only))

theorem veCompressGroup_keeps [May gs .regs] [May gs .cores] [May gs .mem] (c : Nat) (p : VePlan) (r : Nat) (g :
    Nat) (pos : Nat) (hk : Keeps gs z s) : Keeps gs z (State.veCompressGroup c p r g pos s).2 := by
  unfold State.veCompressGroup
  repeat' (first | with_reducible assumption | with_reducible apply when_keeps | with_reducible apply forEach_keeps | with_reducible apply vePut_keeps | with_reducible apply veZero_keeps | with_reducible apply veZdiv_keeps | with_reducible apply veCount_keeps | ((with_reducible refine foldl_keeps Prod.snd ?_ ?_)) | ((with_reducible refine foldl_keeps id ?_ ?_)) | extract_lets | with_reducible apply ite_keeps | split | (intro _; intros; beta_reduce at *) | (dsimp only) | (refine keeps_snd (by assumption) ?_) | (dsimp +zetaDelta only))

theorem veExpandGroup_keeps [May gs .regs] [May gs .cores] [May gs .mem] (c : Nat) (p : VePlan) (r : Nat) (g :
    Nat) (pos : Nat) (hk : Keeps gs z s) : Keeps gs z (State.veExpandGroup c p r g pos s).2 := by
  unfold State.veExpandGroup
  repeat' (first | with_reducible assumption | with_reducible apply when_keeps | with_reducible apply veZdiv_keeps | with_reducible apply vePutAll_keeps | with_reducible apply veCount_keeps | extract_lets | with_reducible apply ite_keeps | split | (intro _; intros; beta_reduce at *) | (dsimp only) | (refine keeps_snd (by assumption) ?_) | (dsimp +zetaDelta only))

theorem veRedEnd_keeps [May gs .regs] [May gs .cores] [May gs .mem] (c : Nat) (p : VePlan) (r : Nat) (a :
    RedAcc) (hk : Keeps gs z s) : Keeps gs z (State.veRedEnd c p r a s) := by
  unfold State.veRedEnd
  repeat' (first | with_reducible assumption | with_reducible apply when_keeps | with_reducible apply bump_keeps | with_reducible apply setSreg_keeps | with_reducible apply vePut_keeps | extract_lets | with_reducible apply ite_keeps | split | (intro _; intros; beta_reduce at *) | (dsimp +zetaDelta only))

theorem veReduceGroup_keeps [May gs .regs] [May gs .cores] [May gs .mem] (c : Nat) (p : VePlan) (r : Nat) (g :
    Nat) (a : RedAcc) (hk : Keeps gs z s) : Keeps gs z (State.veReduceGroup c p r g a s).2 := by
  unfold State.veReduceGroup
  repeat' (first | with_reducible assumption | with_reducible apply when_keeps | with_reducible apply veZdiv_keeps | with_reducible apply veRedEnd_keeps | extract_lets | with_reducible apply ite_keeps | split | (intro _; intros; beta_reduce at *) | (dsimp only) | (refine keeps_snd (by assumption) ?_) | (dsimp +zetaDelta only))

theorem veNext_keeps [May gs .regs] [May gs .cores] [May gs .mem] (c : Nat) (p : VePlan) (pr : Progress) (hk :
    Keeps gs z s) : Keeps gs z (State.veNext c p pr s).2 := by
  unfold State.veNext
  repeat' (first | with_reducible assumption | with_reducible apply veMapGroup_keeps | with_reducible apply veCompressGroup_keeps | with_reducible apply veExpandGroup_keeps | with_reducible apply veReduceGroup_keeps | extract_lets | with_reducible apply ite_keeps | split | (intro _; intros; beta_reduce at *) | (dsimp only) | (refine keeps_snd (by assumption) ?_) | (dsimp +zetaDelta only))

theorem veRun_keeps [May gs .regs] [May gs .cores] [May gs .mem] (c : Nat) (p : VePlan) (x3 : Nat) (x4 :
    Progress) (hk : Keeps gs z s) : Keeps gs z (State.veRun c p x3 x4 s).2 := by
  induction x3 generalizing x4 s with
  | zero =>
    unfold State.veRun
    repeat' (first | with_reducible assumption | with_reducible apply veNext_keeps | extract_lets | with_reducible apply ite_keeps | split | (intro _; intros; beta_reduce at *) | (dsimp only) | (refine keeps_snd (by assumption) ?_) | (dsimp +zetaDelta only))
  | succ n ih =>
    unfold State.veRun
    repeat' (first | with_reducible assumption | with_reducible apply ih | with_reducible apply veNext_keeps | extract_lets | with_reducible apply ite_keeps | split | (intro _; intros; beta_reduce at *) | (dsimp only) | (refine keeps_snd (by assumption) ?_) | (dsimp +zetaDelta only))

theorem veOn_keeps [May gs .regs] [May gs .cores] [May gs .mem] (c : Nat) (n : Option Nat) (f : Flight) (kind :
    VeKind) (v : VeOp) (hk : Keeps gs z s) : Keeps gs z (State.veOn c n f kind v s).2 := by
  unfold State.veOn
  repeat' (first | with_reducible assumption | with_reducible apply veRun_keeps | extract_lets | with_reducible apply ite_keeps | split | (intro _; intros; beta_reduce at *) | (dsimp only) | (refine keeps_snd (by assumption) ?_) | (dsimp +zetaDelta only))

theorem vqpopOn_keeps [May gs .cores] (c : Nat) (b : Nat) (hk : Keeps gs z s) : Keeps gs z (State.vqpopOn c b
    s).2 := by
  unfold State.vqpopOn
  repeat' (first | with_reducible assumption | ((with_reducible refine updCore_keeps ?_ ?_); on_goal 1 => (intros; first | rfl | (split <;> rfl))) | extract_lets | with_reducible apply ite_keeps | split | (intro _; intros; beta_reduce at *) | (dsimp only) | (refine keeps_snd (by assumption) ?_) | (dsimp +zetaDelta only))

theorem vsload_keeps [May gs .cores] (c : Nat) (slot : Nat) (ws : List Word) (hk : Keeps gs z s) : Keeps gs z
    (State.vsload c slot ws s) := by
  unfold State.vsload
  repeat' (first | with_reducible assumption | ((with_reducible refine updCore_keeps ?_ ?_); on_goal 1 => (intros; first | rfl | (split <;> rfl))) | extract_lets | with_reducible apply ite_keeps | split | (intro _; intros; beta_reduce at *) | (dsimp +zetaDelta only))

theorem vtload_keeps [May gs .cores] (c : Nat) (n : Nat) (ws : List Word) (hk : Keeps gs z s) : Keeps gs z
    (State.vtload c n ws s) := by
  unfold State.vtload
  repeat' (first | with_reducible assumption | ((with_reducible refine updCore_keeps ?_ ?_); on_goal 1 => (intros; first | rfl | (split <;> rfl))) | extract_lets | with_reducible apply ite_keeps | split | (intro _; intros; beta_reduce at *) | (dsimp +zetaDelta only))

theorem vbrel_keeps [May gs .cores] (c : Nat) (set : Nat) (hk : Keeps gs z s) : Keeps gs z (State.vbrel c set s) := by
  unfold State.vbrel
  repeat' (first | with_reducible assumption | ((with_reducible refine updCore_keeps ?_ ?_); on_goal 1 => (intros; first | rfl | (split <;> rfl))) | extract_lets | with_reducible apply ite_keeps | split | (intro _; intros; beta_reduce at *) | (dsimp +zetaDelta only))

theorem dmReadAt_keeps [May gs .free] [May gs .regs] [May gs .hif] [May gs .work] [May gs .cores] [May gs .mem]
    [May gs .pair] [May gs .keeper] [May gs .out] (c : Nat) (base : Nat) (d : Int) (n : Nat) (hk : Keeps gs z s)
    : Keeps gs z (State.dmReadAt s c base d n).2 := by
  unfold State.dmReadAt
  repeat' (first | with_reducible assumption | with_reducible apply bump_keeps | with_reducible apply dmRead_keeps | extract_lets | with_reducible apply ite_keeps | split | (intro _; intros; beta_reduce at *) | (dsimp only) | (refine keeps_snd (by assumption) ?_) | (dsimp +zetaDelta only))

theorem dmWriteAt_keeps [May gs .regs] [May gs .cores] [May gs .mem] [May gs .out] (c : Nat) (base : Nat) (d :
    Int) (bs : List Byte) (hk : Keeps gs z s) : Keeps gs z (State.dmWriteAt c base d bs s) := by
  unfold State.dmWriteAt
  repeat' (first | with_reducible assumption | with_reducible apply bump_keeps | with_reducible apply dmWrite_keeps | extract_lets | with_reducible apply ite_keeps | split | (intro _; intros; beta_reduce at *) | (dsimp +zetaDelta only))

theorem moveTag_keeps [May gs .out] (c : Nat) (m : MoveDesc) (p : Nat) (k : Nat) (hk : Keeps gs z s) : Keeps gs
    z (State.moveTag c m p k s) := by
  unfold State.moveTag
  repeat' (first | with_reducible assumption | with_reducible apply emit_keeps | extract_lets | with_reducible apply ite_keeps | split | (intro _; intros; beta_reduce at *) | (dsimp +zetaDelta only))

theorem moveRow_keeps [May gs .free] [May gs .regs] [May gs .hif] [May gs .work] [May gs .cores] [May gs .mem]
    [May gs .pair] [May gs .keeper] [May gs .out] (c : Nat) (m : MoveDesc) (p : Nat) (k : Nat) (hk : Keeps gs z
    s) : Keeps gs z (State.moveRow c m p k s) := by
  unfold State.moveRow
  repeat' (first | with_reducible assumption | with_reducible apply dmReadAt_keeps | with_reducible apply dmWriteAt_keeps | with_reducible apply moveTag_keeps | extract_lets | with_reducible apply ite_keeps | split | (intro _; intros; beta_reduce at *) | (dsimp only) | (refine keeps_snd (by assumption) ?_) | (dsimp +zetaDelta only))

theorem moveRows_keeps [May gs .free] [May gs .regs] [May gs .hif] [May gs .work] [May gs .cores] [May gs .mem]
    [May gs .pair] [May gs .keeper] [May gs .out] (c : Nat) (m : MoveDesc) (i : Nat) (n : Nat) (hk : Keeps gs z
    s) : Keeps gs z (State.moveRows c m i n s) := by
  unfold State.moveRows
  repeat' (first | with_reducible assumption | with_reducible apply forEach_keeps | with_reducible apply moveRow_keeps | extract_lets | with_reducible apply ite_keeps | split | (intro _; intros; beta_reduce at *) | (dsimp +zetaDelta only))

theorem dmovOn_keeps [May gs .free] [May gs .regs] [May gs .hif] [May gs .work] [May gs .cores] [May gs .mem]
    [May gs .pair] [May gs .keeper] [May gs .out] (c : Nat) (n : Option Nat) (f : Flight) (hk : Keeps gs z s) :
    Keeps gs z (State.dmovOn c n f s).2 := by
  unfold State.dmovOn
  repeat' (first | with_reducible assumption | with_reducible apply moveRows_keeps | extract_lets | with_reducible apply ite_keeps | split | (intro _; intros; beta_reduce at *) | (dsimp only) | (refine keeps_snd (by assumption) ?_) | (dsimp +zetaDelta only))

theorem unitRead_keeps [May gs .free] [May gs .regs] [May gs .hif] [May gs .work] [May gs .cores] [May gs .mem]
    [May gs .pair] [May gs .keeper] [May gs .out] (c : Nat) (t0 : Tensor) (x : List Int) (hk : Keeps gs z s) :
    Keeps gs z (State.unitRead s c t0 x).2 := by
  unfold State.unitRead
  repeat' (first | with_reducible assumption | with_reducible apply dmReadAt_keeps | extract_lets | with_reducible apply ite_keeps | split | (intro _; intros; beta_reduce at *) | (dsimp only) | (refine keeps_snd (by assumption) ?_) | (dsimp +zetaDelta only))

theorem unitWrite_keeps [May gs .regs] [May gs .cores] [May gs .mem] [May gs .out] (c : Nat) (t0 : Tensor) (x :
    List Int) (v : Nat) (scale : Nat) (hk : Keeps gs z s) : Keeps gs z (State.unitWrite c t0 x v scale s) := by
  unfold State.unitWrite
  repeat' (first | with_reducible assumption | with_reducible apply dmWriteAt_keeps | extract_lets | with_reducible apply ite_keeps | split | (intro _; intros; beta_reduce at *) | (dsimp +zetaDelta only))

theorem tensUnit_keeps [May gs .free] [May gs .regs] [May gs .hif] [May gs .work] [May gs .cores] [May gs .mem]
    [May gs .pair] [May gs .keeper] [May gs .out] (c : Nat) (m : TensMove) (l : Nat) (hk : Keeps gs z s) : Keeps
    gs z (State.tensUnit c m l s) := by
  unfold State.tensUnit
  repeat' (first | with_reducible assumption | with_reducible apply bump_keeps | with_reducible apply dmReadAt_keeps | with_reducible apply unitRead_keeps | with_reducible apply unitWrite_keeps | extract_lets | with_reducible apply ite_keeps | split | (intro _; intros; beta_reduce at *) | (dsimp only) | (refine keeps_snd (by assumption) ?_) | (dsimp +zetaDelta only))

theorem tensUnits_keeps [May gs .free] [May gs .regs] [May gs .hif] [May gs .work] [May gs .cores] [May gs .mem]
    [May gs .pair] [May gs .keeper] [May gs .out] (c : Nat) (m : TensMove) (i : Nat) (n : Nat) (hk : Keeps gs z
    s) : Keeps gs z (State.tensUnits c m i n s) := by
  unfold State.tensUnits
  repeat' (first | with_reducible assumption | with_reducible apply forEach_keeps | with_reducible apply tensUnit_keeps | extract_lets | with_reducible apply ite_keeps | split | (intro _; intros; beta_reduce at *) | (dsimp +zetaDelta only))

theorem dtensOn_keeps [May gs .free] [May gs .regs] [May gs .hif] [May gs .work] [May gs .cores] [May gs .mem]
    [May gs .pair] [May gs .keeper] [May gs .out] (c : Nat) (n : Option Nat) (f : Flight) (hk : Keeps gs z s) :
    Keeps gs z (State.dtensOn c n f s).2 := by
  unfold State.dtensOn
  repeat' (first | with_reducible assumption | with_reducible apply tensUnits_keeps | extract_lets | with_reducible apply ite_keeps | split | (intro _; intros; beta_reduce at *) | (dsimp only) | (refine keeps_snd (by assumption) ?_) | (dsimp +zetaDelta only))

theorem wopen_keeps [May gs .cores] (c : Nat) (n : Nat) (ws : List Word) (hk : Keeps gs z s) : Keeps gs z
    (State.wopen c n ws s) := by
  unfold State.wopen
  repeat' (first | with_reducible assumption | ((with_reducible refine updCore_keeps ?_ ?_); on_goal 1 => (intros; first | rfl | (split <;> rfl))) | extract_lets | with_reducible apply ite_keeps | split | (intro _; intros; beta_reduce at *) | (dsimp +zetaDelta only))

theorem wclose_keeps [May gs .cores] (c : Nat) (n : Nat) (hk : Keeps gs z s) : Keeps gs z (State.wclose c n s) := by
  unfold State.wclose
  repeat' (first | with_reducible assumption | ((with_reducible refine updCore_keeps ?_ ?_); on_goal 1 => (intros; first | rfl | (split <;> rfl))) | extract_lets | with_reducible apply ite_keeps | split | (intro _; intros; beta_reduce at *) | (dsimp +zetaDelta only))

theorem timeRead_keeps [May gs .cores] (c : Nat) (sreg : Nat) (hk : Keeps gs z s) : Keeps gs z (State.timeRead c
    sreg s) := by
  unfold State.timeRead
  repeat' (first | with_reducible assumption | with_reducible apply setSreg_keeps | extract_lets | with_reducible apply ite_keeps | split | (intro _; intros; beta_reduce at *) | (dsimp +zetaDelta only))

theorem countHold_keeps [May gs .regs] (c : Nat) (u : Upset) (p : OpPlan) (hk : Keeps gs z s) : Keeps gs z
    (State.countHold c u p s) := by
  unfold State.countHold
  repeat' (first | with_reducible assumption | with_reducible apply count_keeps | extract_lets | with_reducible apply ite_keeps | split | (intro _; intros; beta_reduce at *) | (dsimp +zetaDelta only))

theorem opStalls_keeps [May gs .regs] (c : Nat) (op : CoreOp) (u : Upset) (hk : Keeps gs z s) : Keeps gs z
    (State.opStalls c op u s) := by
  unfold State.opStalls
  repeat' (first | with_reducible assumption | with_reducible apply tally_keeps | extract_lets | with_reducible apply ite_keeps | split | (intro _; intros; beta_reduce at *) | (dsimp +zetaDelta only))

theorem opErrors_keeps [May gs .regs] [May gs .hif] [May gs .work] [May gs .cores] [May gs .mem] [May gs .pair]
    [May gs .keeper] [May gs .out] (c : Nat) (op : CoreOp) (p : OpPlan) (u : Upset) (hk : Keeps gs z s) : Keeps
    gs z (State.opErrors c op p u s) := by
  unfold State.opErrors
  repeat' (first | with_reducible assumption | with_reducible apply readErrors_keeps | extract_lets | with_reducible apply ite_keeps | split | (intro _; intros; beta_reduce at *) | (dsimp +zetaDelta only))

theorem atIssue_keeps [May gs .cores] (c : Nat) (op : CoreOp) (p : OpPlan) (hk : Keeps gs z s) : Keeps gs z
    (State.atIssue c op p s) := by
  unfold State.atIssue
  repeat' (first | with_reducible assumption | ((with_reducible refine updCore_keeps ?_ ?_); on_goal 1 => (intros; first | rfl | (split <;> rfl))) | with_reducible apply lscanOpen_keeps | with_reducible apply gpload_keeps | with_reducible apply wopen_keeps | with_reducible apply wclose_keeps | with_reducible apply timeRead_keeps | extract_lets | with_reducible apply ite_keeps | split | (intro _; intros; beta_reduce at *) | (dsimp +zetaDelta only))

theorem issue_keeps [May gs .free] [May gs .regs] [May gs .hif] [May gs .work] [May gs .cores] [May gs .mem]
    [May gs .pair] [May gs .keeper] [May gs .out] (c : Nat) (i : Nat) (f : Flight) (p : OpPlan) (hk : Keeps gs z
    s) : Keeps gs z (State.issue c i f p s) := by
  unfold State.issue
  repeat' (first | with_reducible assumption | ((with_reducible refine updCore_keeps ?_ ?_); on_goal 1 => (intros; first | rfl | (split <;> rfl))) | with_reducible apply trap_keeps | with_reducible apply corrected_keeps | with_reducible apply opStalls_keeps | with_reducible apply opErrors_keeps | with_reducible apply atIssue_keeps | extract_lets | with_reducible apply ite_keeps | split | (intro _; intros; beta_reduce at *) | (dsimp +zetaDelta only))

theorem issueNext_keeps [May gs .free] [May gs .regs] [May gs .hif] [May gs .work] [May gs .cores] [May gs .mem]
    [May gs .pair] [May gs .keeper] [May gs .out] (c : Nat) (hk : Keeps gs z s) : KeepsOpt gs z (State.issueNext
    c s) := by
  unfold State.issueNext
  repeat' (first | with_reducible assumption | with_reducible apply issue_keeps | with_reducible apply KeepsOpt.here | with_reducible apply KeepsOpt.stop | extract_lets | with_reducible apply ite_keeps | split | (intro _; intros; beta_reduce at *) | (dsimp +zetaDelta only))

theorem opOn_keeps [May gs .free] [May gs .regs] [May gs .hif] [May gs .work] [May gs .caches] [May gs .cores]
    [May gs .mem] [May gs .pair] [May gs .keeper] [May gs .out] (c : Nat) (n : Option Nat) (f : Flight) (hk :
    Keeps gs z s) : Keeps gs z (State.opOn c n f s).2 := by
  unfold State.opOn
  repeat' (first | with_reducible assumption | with_reducible apply skxOn_keeps | with_reducible apply skcOn_keeps | with_reducible apply mmaOn_keeps | with_reducible apply attOn_keeps | with_reducible apply veOn_keeps | with_reducible apply vqpopOn_keeps | with_reducible apply vsload_keeps | with_reducible apply vtload_keeps | with_reducible apply vbrel_keeps | with_reducible apply dmovOn_keeps | with_reducible apply dtensOn_keeps | extract_lets | with_reducible apply ite_keeps | split | (intro _; intros; beta_reduce at *) | (dsimp only) | (refine keeps_snd (by assumption) ?_) | (dsimp +zetaDelta only))

theorem advance_keeps [May gs .free] [May gs .regs] [May gs .hif] [May gs .work] [May gs .caches] [May gs
    .cores] [May gs .mem] [May gs .pair] [May gs .keeper] [May gs .out] (c : Nat) (x2 : List (Nat × Flight)) (hk
    : Keeps gs z s) : KeepsOpt gs z (State.advance c x2 s) := by
  induction x2 generalizing s with
  | nil =>
    unfold State.advance
    repeat' (first | with_reducible assumption | ((with_reducible refine updCore_keeps ?_ ?_); on_goal 1 => (intros; first | rfl | (split <;> rfl))) | with_reducible apply opOn_keeps | with_reducible apply KeepsOpt.here | with_reducible apply KeepsOpt.stop | extract_lets | with_reducible apply ite_keeps | split | (intro _; intros; beta_reduce at *) | (dsimp only) | (refine keeps_snd (by assumption) ?_) | (dsimp +zetaDelta only))
  | cons q rest ih =>
    unfold State.advance
    repeat' (first | with_reducible assumption | with_reducible apply ih | ((with_reducible refine updCore_keeps ?_ ?_); on_goal 1 => (intros; first | rfl | (split <;> rfl))) | with_reducible apply opOn_keeps | with_reducible apply KeepsOpt.here | with_reducible apply KeepsOpt.stop | extract_lets | with_reducible apply ite_keeps | split | (intro _; intros; beta_reduce at *) | (dsimp only) | (refine keeps_snd (by assumption) ?_) | (dsimp +zetaDelta only))

theorem pump_keeps [May gs .free] [May gs .regs] [May gs .hif] [May gs .work] [May gs .caches] [May gs .cores]
    [May gs .mem] [May gs .pair] [May gs .keeper] [May gs .out] (c : Nat) (x2 : Nat) (hk : Keeps gs z s) : Keeps
    gs z (State.pump c x2 s) := by
  induction x2 generalizing s with
  | zero =>
    unfold State.pump
    repeat' (first | with_reducible assumption | with_reducible apply luReverseOn_keeps | with_reducible apply issueNext_keeps | with_reducible apply advance_keeps | with_reducible apply KeepsOpt.here | with_reducible apply KeepsOpt.stop | extract_lets | with_reducible apply ite_keeps | split | (intro _; intros; beta_reduce at *) | (refine keeps_some (by assumption) ?_) | (dsimp +zetaDelta only))
  | succ n ih =>
    unfold State.pump
    repeat' (first | with_reducible assumption | with_reducible apply ih | with_reducible apply luReverseOn_keeps | with_reducible apply issueNext_keeps | with_reducible apply advance_keeps | with_reducible apply KeepsOpt.here | with_reducible apply KeepsOpt.stop | extract_lets | with_reducible apply ite_keeps | split | (intro _; intros; beta_reduce at *) | (refine keeps_some (by assumption) ?_) | (dsimp +zetaDelta only))

theorem settle_keeps [May gs .free] [May gs .regs] [May gs .hif] [May gs .work] [May gs .caches] [May gs .cores]
    [May gs .mem] [May gs .pair] [May gs .keeper] [May gs .out] (c : Nat) (hk : Keeps gs z s) : Keeps gs z
    (State.settle c s) := by
  unfold State.settle
  repeat' (first | with_reducible assumption | ((with_reducible refine updCore_keeps ?_ ?_); on_goal 1 => (intros; first | rfl | (split <;> rfl))) | with_reducible apply pump_keeps | extract_lets | with_reducible apply ite_keeps | split | (intro _; intros; beta_reduce at *) | (dsimp +zetaDelta only))

theorem cutReverse_keeps [May gs .regs] [May gs .cores] [May gs .mem] (c : Nat) (op : CoreOp) (u : Upset) (hk :
    Keeps gs z s) : Keeps gs z (State.cutReverse c op u s) := by
  unfold State.cutReverse
  repeat' (first | with_reducible assumption | ((with_reducible refine updCore_keeps ?_ ?_); on_goal 1 => (intros; first | rfl | (split <;> rfl))) | with_reducible apply luReverseOn_keeps | extract_lets | with_reducible apply ite_keeps | split | (intro _; intros; beta_reduce at *) | (dsimp +zetaDelta only))

theorem meet_keeps [May gs .free] [May gs .regs] [May gs .hif] [May gs .work] [May gs .cores] [May gs .mem] [May
    gs .pair] [May gs .keeper] [May gs .out] (c : Nat) (hk : Keeps gs z s) : Keeps gs z (State.meet c s) := by
  unfold State.meet
  repeat' (first | with_reducible assumption | ((with_reducible refine updCore_keeps ?_ ?_); on_goal 1 => (intros; first | rfl | (split <;> rfl))) | with_reducible apply countHold_keeps | with_reducible apply issue_keeps | with_reducible apply cutReverse_keeps | extract_lets | with_reducible apply ite_keeps | split | (intro _; intros; beta_reduce at *) | (dsimp +zetaDelta only))

theorem rounds_keeps [May gs .free] [May gs .regs] [May gs .hif] [May gs .work] [May gs .caches] [May gs .cores]
    [May gs .mem] [May gs .pair] [May gs .keeper] [May gs .out] (x1 : Nat) (hk : Keeps gs z s) : Keeps gs z
    (State.rounds x1 s) := by
  induction x1 generalizing s with
  | zero =>
    unfold State.rounds
    repeat' (first | with_reducible assumption | with_reducible apply forEach_keeps | with_reducible apply pump_keeps | extract_lets | with_reducible apply ite_keeps | split | (intro _; intros; beta_reduce at *) | (dsimp +zetaDelta only))
  | succ n ih =>
    unfold State.rounds
    repeat' (first | with_reducible assumption | with_reducible apply ih | with_reducible apply forEach_keeps | with_reducible apply pump_keeps | extract_lets | with_reducible apply ite_keeps | split | (intro _; intros; beta_reduce at *) | (dsimp +zetaDelta only))

theorem rouse_keeps [May gs .free] [May gs .regs] [May gs .hif] [May gs .work] [May gs .caches] [May gs .cores]
    [May gs .mem] [May gs .pair] [May gs .keeper] [May gs .out] (hk : Keeps gs z s) : Keeps gs z (State.rouse s)
    := by
  unfold State.rouse
  repeat' (first | with_reducible assumption | with_reducible apply rounds_keeps | extract_lets | with_reducible apply ite_keeps | split | (intro _; intros; beta_reduce at *) | (dsimp +zetaDelta only))

theorem instruct_keeps [May gs .free] [May gs .regs] [May gs .hif] [May gs .work] [May gs .caches] [May gs
    .cores] [May gs .mem] [May gs .pair] [May gs .keeper] [May gs .out] (c : Nat) (op : CoreOp) (u : Upset) (hk
    : Keeps gs z s) : Keeps gs z (State.instruct c op u s) := by
  unfold State.instruct
  repeat' (first | with_reducible assumption | ((with_reducible refine updCore_keeps ?_ ?_); on_goal 1 => (intros; first | rfl | (split <;> rfl))) | with_reducible apply pump_keeps | with_reducible apply meet_keeps | with_reducible apply rouse_keeps | extract_lets | with_reducible apply ite_keeps | split | (intro _; intros; beta_reduce at *) | (dsimp +zetaDelta only))

theorem execMma_keeps [May gs .free] [May gs .regs] [May gs .hif] [May gs .work] [May gs .caches] [May gs
    .cores] [May gs .mem] [May gs .pair] [May gs .keeper] [May gs .out] (core : Nat) (w : BitVec 128) (u :
    Upset) (hk : Keeps gs z s) : KeepsRes gs z (execMma core w u s) := by
  unfold execMma
  refine KeepsRes.next ?_
  repeat' (first | with_reducible assumption | with_reducible apply instruct_keeps | extract_lets | with_reducible apply ite_keeps | split | (intro _; intros; beta_reduce at *) | (dsimp +zetaDelta only))

theorem execGpload_keeps [May gs .free] [May gs .regs] [May gs .hif] [May gs .work] [May gs .caches] [May gs
    .cores] [May gs .mem] [May gs .pair] [May gs .keeper] [May gs .out] (core : Nat) (slot : Nat) (row : Nat) (u
    : Upset) (hk : Keeps gs z s) : KeepsRes gs z (execGpload core slot row u s) := by
  unfold execGpload
  refine KeepsRes.next ?_
  repeat' (first | with_reducible assumption | with_reducible apply instruct_keeps | extract_lets | with_reducible apply ite_keeps | split | (intro _; intros; beta_reduce at *) | (dsimp +zetaDelta only))

theorem execLscanForward_keeps [May gs .free] [May gs .regs] [May gs .hif] [May gs .work] [May gs .caches] [May
    gs .cores] [May gs .mem] [May gs .pair] [May gs .keeper] [May gs .out] (core : Nat) (w : BitVec 64) (u :
    Upset) (hk : Keeps gs z s) : KeepsRes gs z (execLscanForward core w u s) := by
  unfold execLscanForward
  refine KeepsRes.next ?_
  repeat' (first | with_reducible assumption | with_reducible apply instruct_keeps | extract_lets | with_reducible apply ite_keeps | split | (intro _; intros; beta_reduce at *) | (dsimp +zetaDelta only))

theorem execLscanReverse_keeps [May gs .free] [May gs .regs] [May gs .hif] [May gs .work] [May gs .caches] [May
    gs .cores] [May gs .mem] [May gs .pair] [May gs .keeper] [May gs .out] (core : Nat) (w : BitVec 64) (u :
    Upset) (hk : Keeps gs z s) : KeepsRes gs z (execLscanReverse core w u s) := by
  unfold execLscanReverse
  refine KeepsRes.next ?_
  repeat' (first | with_reducible assumption | with_reducible apply instruct_keeps | extract_lets | with_reducible apply ite_keeps | split | (intro _; intros; beta_reduce at *) | (dsimp +zetaDelta only))

theorem execAttScore_keeps [May gs .free] [May gs .regs] [May gs .hif] [May gs .work] [May gs .caches] [May gs
    .cores] [May gs .mem] [May gs .pair] [May gs .keeper] [May gs .out] (core : Nat) (w : BitVec 64) (u : Upset)
    (hk : Keeps gs z s) : KeepsRes gs z (execAttScore core w u s) := by
  unfold execAttScore
  refine KeepsRes.next ?_
  repeat' (first | with_reducible assumption | with_reducible apply instruct_keeps | extract_lets | with_reducible apply ite_keeps | split | (intro _; intros; beta_reduce at *) | (dsimp +zetaDelta only))

theorem execAttValue_keeps [May gs .free] [May gs .regs] [May gs .hif] [May gs .work] [May gs .caches] [May gs
    .cores] [May gs .mem] [May gs .pair] [May gs .keeper] [May gs .out] (core : Nat) (w : BitVec 64) (u : Upset)
    (hk : Keeps gs z s) : KeepsRes gs z (execAttValue core w u s) := by
  unfold execAttValue
  refine KeepsRes.next ?_
  repeat' (first | with_reducible assumption | with_reducible apply instruct_keeps | extract_lets | with_reducible apply ite_keeps | split | (intro _; intros; beta_reduce at *) | (dsimp +zetaDelta only))

theorem execAttExpand_keeps [May gs .free] [May gs .regs] [May gs .hif] [May gs .work] [May gs .caches] [May gs
    .cores] [May gs .mem] [May gs .pair] [May gs .keeper] [May gs .out] (core : Nat) (w : BitVec 64) (u : Upset)
    (hk : Keeps gs z s) : KeepsRes gs z (execAttExpand core w u s) := by
  unfold execAttExpand
  refine KeepsRes.next ?_
  repeat' (first | with_reducible assumption | with_reducible apply instruct_keeps | extract_lets | with_reducible apply ite_keeps | split | (intro _; intros; beta_reduce at *) | (dsimp +zetaDelta only))

theorem execVmap_keeps [May gs .free] [May gs .regs] [May gs .hif] [May gs .work] [May gs .caches] [May gs
    .cores] [May gs .mem] [May gs .pair] [May gs .keeper] [May gs .out] (core : Nat) (w : BitVec 128) (u :
    Upset) (hk : Keeps gs z s) : KeepsRes gs z (execVmap core w u s) := by
  unfold execVmap
  refine KeepsRes.next ?_
  repeat' (first | with_reducible assumption | with_reducible apply instruct_keeps | extract_lets | with_reducible apply ite_keeps | split | (intro _; intros; beta_reduce at *) | (dsimp +zetaDelta only))

theorem execVred_keeps [May gs .free] [May gs .regs] [May gs .hif] [May gs .work] [May gs .caches] [May gs
    .cores] [May gs .mem] [May gs .pair] [May gs .keeper] [May gs .out] (core : Nat) (w : BitVec 128) (u :
    Upset) (hk : Keeps gs z s) : KeepsRes gs z (execVred core w u s) := by
  unfold execVred
  refine KeepsRes.next ?_
  repeat' (first | with_reducible assumption | with_reducible apply instruct_keeps | extract_lets | with_reducible apply ite_keeps | split | (intro _; intros; beta_reduce at *) | (dsimp +zetaDelta only))

theorem execVcpr_keeps [May gs .free] [May gs .regs] [May gs .hif] [May gs .work] [May gs .caches] [May gs
    .cores] [May gs .mem] [May gs .pair] [May gs .keeper] [May gs .out] (core : Nat) (w : BitVec 128) (u :
    Upset) (hk : Keeps gs z s) : KeepsRes gs z (execVcpr core w u s) := by
  unfold execVcpr
  refine KeepsRes.next ?_
  repeat' (first | with_reducible assumption | with_reducible apply instruct_keeps | extract_lets | with_reducible apply ite_keeps | split | (intro _; intros; beta_reduce at *) | (dsimp +zetaDelta only))

theorem execVxpn_keeps [May gs .free] [May gs .regs] [May gs .hif] [May gs .work] [May gs .caches] [May gs
    .cores] [May gs .mem] [May gs .pair] [May gs .keeper] [May gs .out] (core : Nat) (w : BitVec 128) (u :
    Upset) (hk : Keeps gs z s) : KeepsRes gs z (execVxpn core w u s) := by
  unfold execVxpn
  refine KeepsRes.next ?_
  repeat' (first | with_reducible assumption | with_reducible apply instruct_keeps | extract_lets | with_reducible apply ite_keeps | split | (intro _; intros; beta_reduce at *) | (dsimp +zetaDelta only))

theorem execVperm_keeps [May gs .free] [May gs .regs] [May gs .hif] [May gs .work] [May gs .caches] [May gs
    .cores] [May gs .mem] [May gs .pair] [May gs .keeper] [May gs .out] (core : Nat) (w : BitVec 128) (u :
    Upset) (hk : Keeps gs z s) : KeepsRes gs z (execVperm core w u s) := by
  unfold execVperm
  refine KeepsRes.next ?_
  repeat' (first | with_reducible assumption | with_reducible apply instruct_keeps | extract_lets | with_reducible apply ite_keeps | split | (intro _; intros; beta_reduce at *) | (dsimp +zetaDelta only))

theorem execVqpop_keeps [May gs .free] [May gs .regs] [May gs .hif] [May gs .work] [May gs .caches] [May gs
    .cores] [May gs .mem] [May gs .pair] [May gs .keeper] [May gs .out] (core : Nat) (w : BitVec 64) (u : Upset)
    (hk : Keeps gs z s) : KeepsRes gs z (execVqpop core w u s) := by
  unfold execVqpop
  refine KeepsRes.next ?_
  repeat' (first | with_reducible assumption | with_reducible apply instruct_keeps | extract_lets | with_reducible apply ite_keeps | split | (intro _; intros; beta_reduce at *) | (dsimp +zetaDelta only))

theorem execVsload_keeps [May gs .free] [May gs .regs] [May gs .hif] [May gs .work] [May gs .caches] [May gs
    .cores] [May gs .mem] [May gs .pair] [May gs .keeper] [May gs .out] (core : Nat) (w : BitVec 64) (u : Upset)
    (hk : Keeps gs z s) : KeepsRes gs z (execVsload core w u s) := by
  unfold execVsload
  refine KeepsRes.next ?_
  repeat' (first | with_reducible assumption | with_reducible apply instruct_keeps | extract_lets | with_reducible apply ite_keeps | split | (intro _; intros; beta_reduce at *) | (dsimp +zetaDelta only))

theorem execVtload_keeps [May gs .free] [May gs .regs] [May gs .hif] [May gs .work] [May gs .caches] [May gs
    .cores] [May gs .mem] [May gs .pair] [May gs .keeper] [May gs .out] (core : Nat) (w : BitVec 64) (u : Upset)
    (hk : Keeps gs z s) : KeepsRes gs z (execVtload core w u s) := by
  unfold execVtload
  refine KeepsRes.next ?_
  repeat' (first | with_reducible assumption | with_reducible apply instruct_keeps | extract_lets | with_reducible apply ite_keeps | split | (intro _; intros; beta_reduce at *) | (dsimp +zetaDelta only))

theorem execVbrel_keeps [May gs .free] [May gs .regs] [May gs .hif] [May gs .work] [May gs .caches] [May gs
    .cores] [May gs .mem] [May gs .pair] [May gs .keeper] [May gs .out] (core : Nat) (w : BitVec 64) (u : Upset)
    (hk : Keeps gs z s) : KeepsRes gs z (execVbrel core w u s) := by
  unfold execVbrel
  refine KeepsRes.next ?_
  repeat' (first | with_reducible assumption | with_reducible apply instruct_keeps | extract_lets | with_reducible apply ite_keeps | split | (intro _; intros; beta_reduce at *) | (dsimp +zetaDelta only))

theorem execSkx_keeps [May gs .free] [May gs .regs] [May gs .hif] [May gs .work] [May gs .caches] [May gs
    .cores] [May gs .mem] [May gs .pair] [May gs .keeper] [May gs .out] (core : Nat) (w : BitVec 64) (u : Upset)
    (hk : Keeps gs z s) : KeepsRes gs z (execSkx core w u s) := by
  unfold execSkx
  refine KeepsRes.next ?_
  repeat' (first | with_reducible assumption | with_reducible apply instruct_keeps | extract_lets | with_reducible apply ite_keeps | split | (intro _; intros; beta_reduce at *) | (dsimp +zetaDelta only))

theorem execSkc_keeps [May gs .free] [May gs .regs] [May gs .hif] [May gs .work] [May gs .caches] [May gs
    .cores] [May gs .mem] [May gs .pair] [May gs .keeper] [May gs .out] (core : Nat) (w : BitVec 64)
    (hostWritten : Bool) (u : Upset) (hk : Keeps gs z s) : KeepsRes gs z (execSkc core w hostWritten u s) := by
  unfold execSkc
  refine KeepsRes.next ?_
  repeat' (first | with_reducible assumption | with_reducible apply instruct_keeps | extract_lets | with_reducible apply ite_keeps | split | (intro _; intros; beta_reduce at *) | (dsimp +zetaDelta only))

theorem execDmov_keeps [May gs .free] [May gs .regs] [May gs .hif] [May gs .work] [May gs .caches] [May gs
    .cores] [May gs .mem] [May gs .pair] [May gs .keeper] [May gs .out] (core : Nat) (w : BitVec 64) (u : Upset)
    (hk : Keeps gs z s) : KeepsRes gs z (execDmov core w u s) := by
  unfold execDmov
  refine KeepsRes.next ?_
  repeat' (first | with_reducible assumption | with_reducible apply instruct_keeps | extract_lets | with_reducible apply ite_keeps | split | (intro _; intros; beta_reduce at *) | (dsimp +zetaDelta only))

theorem execDtens_keeps [May gs .free] [May gs .regs] [May gs .hif] [May gs .work] [May gs .caches] [May gs
    .cores] [May gs .mem] [May gs .pair] [May gs .keeper] [May gs .out] (core : Nat) (w : BitVec 64) (u : Upset)
    (hk : Keeps gs z s) : KeepsRes gs z (execDtens core w u s) := by
  unfold execDtens
  refine KeepsRes.next ?_
  repeat' (first | with_reducible assumption | with_reducible apply instruct_keeps | extract_lets | with_reducible apply ite_keeps | split | (intro _; intros; beta_reduce at *) | (dsimp +zetaDelta only))

theorem execWopen_keeps [May gs .free] [May gs .regs] [May gs .hif] [May gs .work] [May gs .caches] [May gs
    .cores] [May gs .mem] [May gs .pair] [May gs .keeper] [May gs .out] (core : Nat) (w : BitVec 64) (u : Upset)
    (hk : Keeps gs z s) : KeepsRes gs z (execWopen core w u s) := by
  unfold execWopen
  refine KeepsRes.next ?_
  repeat' (first | with_reducible assumption | with_reducible apply instruct_keeps | extract_lets | with_reducible apply ite_keeps | split | (intro _; intros; beta_reduce at *) | (dsimp +zetaDelta only))

theorem execWclose_keeps [May gs .free] [May gs .regs] [May gs .hif] [May gs .work] [May gs .caches] [May gs
    .cores] [May gs .mem] [May gs .pair] [May gs .keeper] [May gs .out] (core : Nat) (w : BitVec 64) (u : Upset)
    (hk : Keeps gs z s) : KeepsRes gs z (execWclose core w u s) := by
  unfold execWclose
  refine KeepsRes.next ?_
  repeat' (first | with_reducible assumption | with_reducible apply instruct_keeps | extract_lets | with_reducible apply ite_keeps | split | (intro _; intros; beta_reduce at *) | (dsimp +zetaDelta only))

theorem execTimeRead_keeps [May gs .free] [May gs .regs] [May gs .hif] [May gs .work] [May gs .caches] [May gs
    .cores] [May gs .mem] [May gs .pair] [May gs .keeper] [May gs .out] (core : Nat) (sreg : Nat) (hk : Keeps gs
    z s) : KeepsRes gs z (execTimeRead core sreg s) := by
  unfold execTimeRead
  refine KeepsRes.next ?_
  repeat' (first | with_reducible assumption | with_reducible apply instruct_keeps | extract_lets | with_reducible apply ite_keeps | split | (intro _; intros; beta_reduce at *) | (dsimp +zetaDelta only))

theorem execIllegalOp_keeps [May gs .free] [May gs .regs] [May gs .hif] [May gs .work] [May gs .caches] [May gs
    .cores] [May gs .mem] [May gs .pair] [May gs .keeper] [May gs .out] (core : Nat) (w : BitVec 64) (hk : Keeps
    gs z s) : KeepsRes gs z (execIllegalOp core w s) := by
  unfold execIllegalOp
  refine KeepsRes.next ?_
  repeat' (first | with_reducible assumption | with_reducible apply instruct_keeps | extract_lets | with_reducible apply ite_keeps | split | (intro _; intros; beta_reduce at *) | (dsimp +zetaDelta only))

theorem hostTensor_keeps [May gs .free] [May gs .regs] [May gs .hif] [May gs .work] [May gs .caches] [May gs
    .cores] [May gs .mem] [May gs .pair] [May gs .keeper] [May gs .out] (c : Nat) (row : Nat) (ds : List Byte)
    (u : Upset) (hk : Keeps gs z s) : Keeps gs z (State.hostTensor c row ds u s) := by
  unfold State.hostTensor
  repeat' (first | with_reducible assumption | with_reducible apply spmWrite_keeps | with_reducible apply corrected_keeps | with_reducible apply tensUnits_keeps | with_reducible apply opErrors_keeps | with_reducible apply rouse_keeps | extract_lets | with_reducible apply ite_keeps | split | (intro _; intros; beta_reduce at *) | (dsimp +zetaDelta only))

end Sys2Proof.Machine
end

