-- ==== Sys2Proof/Laws/KeepsCommands.lean ====
section
/-! SUPPORT. No host command and no message of the Bridle breaks Safety.Keeps. -/

namespace Sys2Proof.Machine

open Sys2Proof Safety

set_option linter.unreachableTactic false
set_option linter.unusedTactic false
set_option linter.unusedVariables false

variable {z s : State} {gs : List Area}

theorem seedHist_keeps [May gs .work] (n : Nat) (hk : Keeps gs z s) : Keeps gs z (State.seedHist n s) := by
  unfold State.seedHist
  repeat' (first | with_reducible assumption | with_reducible apply updGroup_keeps | extract_lets | with_reducible apply ite_keeps | split | (intro _; intros; beta_reduce at *) | (dsimp +zetaDelta only))

theorem storeRun_keeps [May gs .free] [May gs .regs] [May gs .caches] (m : ModelSlot) (w : List Nat) (raw : List
    Byte) (hk : Keeps gs z s) : Keeps gs z (State.storeRun m w raw s).2 := by
  unfold State.storeRun
  repeat' (first | with_reducible assumption | with_reducible apply codeTiles_keeps | with_reducible apply chooseCoding_keeps | extract_lets | with_reducible apply ite_keeps | split | (intro _; intros; beta_reduce at *) | (dsimp only) | (refine keeps_snd (by assumption) ?_) | (dsimp +zetaDelta only))

theorem storePart_keeps [May gs .free] [May gs .regs] [May gs .caches] (m : ModelSlot) (cs : CoreSet) (d : Nat)
    (hk : Keeps gs z s) : Keeps gs z (State.storePart m cs d s).2 := by
  unfold State.storePart
  repeat' (first | with_reducible assumption | with_reducible apply storeRun_keeps | ((with_reducible refine foldl_keeps Prod.snd ?_ ?_)) | ((with_reducible refine foldl_keeps id ?_ ?_)) | extract_lets | with_reducible apply ite_keeps | split | (intro _; intros; beta_reduce at *) | (dsimp only) | (refine keeps_snd (by assumption) ?_) | (dsimp +zetaDelta only))

theorem storeParts_keeps [May gs .free] [May gs .regs] [May gs .caches] [May gs .mem] (m : ModelSlot) (cs :
    CoreSet) (x3 : List Nat) (hk : Keeps gs z s) : KeepsOptSnd gs z (State.storeParts m cs x3 s) := by
  induction x3 generalizing s with
  | nil =>
    unfold State.storeParts
    repeat' (first | with_reducible assumption | with_reducible apply dieWrite_keeps | with_reducible apply storePart_keeps | with_reducible apply KeepsOptSnd.here | with_reducible apply KeepsOptSnd.stop | (refine KeepsOptSnd.map (f := id) ?_) | with_reducible apply KeepsOptSnd.mapSnd | with_reducible apply KeepsOptSnd.mapState | extract_lets | with_reducible apply ite_keeps | split | (intro _; intros; beta_reduce at *) | (dsimp only) | (refine keeps_snd (by assumption) ?_) | (dsimp +zetaDelta only))
  | cons q rest ih =>
    unfold State.storeParts
    repeat' (first | with_reducible assumption | with_reducible apply ih | with_reducible apply dieWrite_keeps | with_reducible apply storePart_keeps | with_reducible apply KeepsOptSnd.here | with_reducible apply KeepsOptSnd.stop | (refine KeepsOptSnd.map (f := id) ?_) | with_reducible apply KeepsOptSnd.mapSnd | with_reducible apply KeepsOptSnd.mapState | extract_lets | with_reducible apply ite_keeps | split | (intro _; intros; beta_reduce at *) | (dsimp only) | (refine keeps_snd (by assumption) ?_) | (dsimp +zetaDelta only))

theorem addCopy_keeps [May gs .free] [May gs .regs] [May gs .work] [May gs .caches] [May gs .mem] (m :
    ModelSlot) (cs : CoreSet) (hk : Keeps gs z s) : KeepsOpt gs z (State.addCopy m cs s) := by
  unfold State.addCopy
  repeat' (first | with_reducible assumption | with_reducible apply updSlot_keeps | with_reducible apply addNames_keeps | with_reducible apply storeParts_keeps | with_reducible apply KeepsOpt.here | with_reducible apply KeepsOpt.stop | with_reducible apply KeepsOptSnd.here | with_reducible apply KeepsOptSnd.stop | with_reducible apply KeepsOptSnd.mapSnd | with_reducible apply KeepsOptSnd.mapState | extract_lets | with_reducible apply ite_keeps | split | (intro _; intros; beta_reduce at *) | (dsimp only) | (refine keeps_someSnd (by assumption) ?_) | (refine keeps_someSnd_proj (by assumption) ?_) | (dsimp +zetaDelta only))

theorem placeCopies_keeps [May gs .free] [May gs .regs] [May gs .work] [May gs .caches] [May gs .mem] (slot :
    Nat) (cs : CoreSet) (hk : Keeps gs z s) : Keeps gs z (State.placeCopies slot cs s) := by
  unfold State.placeCopies
  repeat' (first | with_reducible assumption | with_reducible apply addCopy_keeps | with_reducible apply KeepsOpt.here | with_reducible apply KeepsOpt.stop | with_reducible apply KeepsOpt.orElse | extract_lets | with_reducible apply ite_keeps | split | (intro _; intros; beta_reduce at *) | (refine keeps_some (by assumption) ?_) | (dsimp +zetaDelta only))

theorem settleGroup_keeps [May gs .free] [May gs .regs] [May gs .work] [May gs .caches] [May gs .cores] [May gs
    .mem] (g : Group) (hk : Keeps gs z s) : Keeps gs z (State.settleGroup g s) := by
  unfold State.settleGroup
  repeat' (first | with_reducible assumption | with_reducible apply forEach_keeps | with_reducible apply mapCore_keeps | with_reducible apply placeCopies_keeps | extract_lets | with_reducible apply ite_keeps | split | (intro _; intros; beta_reduce at *) | (dsimp +zetaDelta only))

theorem addStream_keeps [May gs .free] [May gs .regs] [May gs .work] [May gs .caches] [May gs .cores] [May gs
    .mem] (x : Stream) (g : Group) (hk : Keeps gs z s) : Keeps gs z (State.addStream x g s) := by
  unfold State.addStream
  repeat' (first | with_reducible assumption | with_reducible apply updWork_keeps | with_reducible apply when_keeps | with_reducible apply seedHist_keeps | with_reducible apply settleGroup_keeps | extract_lets | with_reducible apply ite_keeps | split | (intro _; intros; beta_reduce at *) | (dsimp +zetaDelta only))

theorem execCmdOpen_keeps [May gs .free] [May gs .regs] [May gs .hif] [May gs .work] [May gs .caches] [May gs
    .cores] [May gs .mem] [May gs .out] (g : Nat) (d : Nat) (pl : Placement) (hk : Keeps gs z s) : KeepsRes gs z
    (execCmdOpen g d pl s) := by
  unfold execCmdOpen
  refine KeepsRes.next ?_
  repeat' (first | with_reducible assumption | with_reducible apply when_keeps | with_reducible apply finishCmd_keeps | with_reducible apply sendFlit_keeps | with_reducible apply runCmd_keeps | with_reducible apply addStream_keeps | extract_lets | with_reducible apply ite_keeps | split | (intro _; intros; beta_reduce at *) | (dsimp +zetaDelta only))

theorem execOpenInitDone_keeps [May gs .hif] [May gs .work] [May gs .caches] [May gs .mem] [May gs .pair] [May
    gs .out] (id : Nat) (hk : Keeps gs z s) : KeepsRes gs z (execOpenInitDone id s) := by
  unfold execOpenInitDone
  refine KeepsRes.next ?_
  repeat' (first | with_reducible assumption | with_reducible apply when_keeps | with_reducible apply dieWrite_keeps | with_reducible apply updStream_keeps | with_reducible apply finishCmd_keeps | with_reducible apply recordPut_keeps | with_reducible apply writeHeader_keeps | with_reducible apply writePageList_keeps | with_reducible apply handOffFull_keeps | extract_lets | with_reducible apply ite_keeps | split | (intro _; intros; beta_reduce at *) | (dsimp +zetaDelta only))

theorem streamCmd_keeps [May gs .hif] [May gs .mem] [May gs .out] (opc : Nat) (g : Nat) (d : Nat) (f : Desc →
    Stream → State → State) (hf : ∀ v1 v2 t, Keeps gs z t → Keeps gs z (f v1 v2 t)) (hk : Keeps gs z s) : Keeps
    gs z (State.streamCmd opc g d f s) := by
  unfold State.streamCmd
  repeat' (first | with_reducible assumption | with_reducible apply hf | with_reducible apply finishCmd_keeps | with_reducible apply runCmd_keeps | extract_lets | with_reducible apply ite_keeps | split | (intro _; intros; beta_reduce at *) | (dsimp +zetaDelta only))

theorem unlaunchRow_keeps [May gs .work] (id : Nat) (j : Job) (hk : Keeps gs z s) : Keeps gs z
    (State.unlaunchRow id j s) := by
  unfold State.unlaunchRow
  repeat' (first | with_reducible assumption | with_reducible apply updStream_keeps | with_reducible apply updJobs_keeps | with_reducible apply keeps_elimSnd | extract_lets | with_reducible apply ite_keeps | split | (intro _; intros; beta_reduce at *) | (dsimp +zetaDelta only))

theorem unlaunch_keeps [May gs .work] (id : Nat) (hk : Keeps gs z s) : Keeps gs z (State.unlaunch id s) := by
  unfold State.unlaunch
  repeat' (first | with_reducible assumption | with_reducible apply forEach_keeps | with_reducible apply unlaunchRow_keeps | extract_lets | with_reducible apply ite_keeps | split | (intro _; intros; beta_reduce at *) | (dsimp +zetaDelta only))

theorem enterPaused_keeps [May gs .hif] [May gs .work] [May gs .mem] [May gs .out] (id : Nat) (hk : Keeps gs z
    s) : Keeps gs z (State.enterPaused id s) := by
  unfold State.enterPaused
  repeat' (first | with_reducible assumption | with_reducible apply updStream_keeps | with_reducible apply finishCmd_keeps | with_reducible apply dropChunks_keeps | with_reducible apply unlaunch_keeps | extract_lets | with_reducible apply ite_keeps | split | (intro _; intros; beta_reduce at *) | (dsimp +zetaDelta only))

theorem enterClosing_keeps [May gs .hif] [May gs .work] [May gs .mem] [May gs .out] (id : Nat) (hk : Keeps gs z
    s) : Keeps gs z (State.enterClosing id s) := by
  unfold State.enterClosing
  repeat' (first | with_reducible assumption | with_reducible apply updStream_keeps | with_reducible apply cancelMove_keeps | with_reducible apply dropChunks_keeps | with_reducible apply unlaunch_keeps | extract_lets | with_reducible apply ite_keeps | split | (intro _; intros; beta_reduce at *) | (dsimp +zetaDelta only))

theorem execCmdClose_keeps [May gs .hif] [May gs .work] [May gs .mem] [May gs .out] (g : Nat) (d : Nat) (hk :
    Keeps gs z s) : KeepsRes gs z (execCmdClose g d s) := by
  unfold execCmdClose
  refine KeepsRes.next ?_
  repeat' (first | with_reducible assumption | with_reducible apply updStream_keeps | with_reducible apply finishCmd_keeps | with_reducible apply streamCmd_keeps | with_reducible apply enterClosing_keeps | extract_lets | with_reducible apply ite_keeps | split | (intro _; intros; beta_reduce at *) | (dsimp +zetaDelta only))

theorem execCmdPause_keeps [May gs .hif] [May gs .work] [May gs .mem] [May gs .out] (g : Nat) (d : Nat) (hk :
    Keeps gs z s) : KeepsRes gs z (execCmdPause g d s) := by
  unfold execCmdPause
  refine KeepsRes.next ?_
  repeat' (first | with_reducible assumption | with_reducible apply updStream_keeps | with_reducible apply finishCmd_keeps | with_reducible apply streamCmd_keeps | with_reducible apply enterPaused_keeps | extract_lets | with_reducible apply ite_keeps | split | (intro _; intros; beta_reduce at *) | (dsimp +zetaDelta only))

theorem execCmdResume_keeps [May gs .hif] [May gs .work] [May gs .mem] [May gs .out] (g : Nat) (d : Nat) (hk :
    Keeps gs z s) : KeepsRes gs z (execCmdResume g d s) := by
  unfold execCmdResume
  refine KeepsRes.next ?_
  repeat' (first | with_reducible assumption | with_reducible apply updStream_keeps | with_reducible apply finishCmd_keeps | with_reducible apply streamCmd_keeps | extract_lets | with_reducible apply ite_keeps | split | (intro _; intros; beta_reduce at *) | (dsimp +zetaDelta only))

theorem rejoin_keeps [May gs .hif] [May gs .work] [May gs .mem] [May gs .out] (id : Nat) (hk : Keeps gs z s) :
    Keeps gs z (State.rejoin id s) := by
  unfold State.rejoin
  repeat' (first | with_reducible assumption | with_reducible apply updStream_keeps | with_reducible apply finishCmd_keeps | extract_lets | with_reducible apply ite_keeps | split | (intro _; intros; beta_reduce at *) | (dsimp +zetaDelta only))

theorem letGo_keeps [May gs .work] [May gs .caches] (id : Nat) (ns : List Nat) (hk : Keeps gs z s) : Keeps gs z
    (State.letGo id ns s) := by
  unfold State.letGo
  repeat' (first | with_reducible assumption | with_reducible apply updStream_keeps | with_reducible apply releasePages_keeps | extract_lets | with_reducible apply ite_keeps | split | (intro _; intros; beta_reduce at *) | (dsimp +zetaDelta only))

theorem letGoSelf_keeps [May gs .work] [May gs .caches] (id : Nat) (hk : Keeps gs z s) : Keeps gs z
    (State.letGoSelf id s) := by
  unfold State.letGoSelf
  repeat' (first | with_reducible assumption | with_reducible apply updStream_keeps | with_reducible apply letGo_keeps | extract_lets | with_reducible apply ite_keeps | split | (intro _; intros; beta_reduce at *) | (dsimp +zetaDelta only))

theorem execCmdReset_keeps [May gs .hif] [May gs .work] [May gs .caches] [May gs .mem] [May gs .out] (g : Nat)
    (d : Nat) (hk : Keeps gs z s) : KeepsRes gs z (execCmdReset g d s) := by
  unfold execCmdReset
  refine KeepsRes.next ?_
  repeat' (first | with_reducible assumption | with_reducible apply updStream_keeps | with_reducible apply updJob_keeps | with_reducible apply finishCmd_keeps | with_reducible apply streamCmd_keeps | with_reducible apply letGoSelf_keeps | extract_lets | with_reducible apply ite_keeps | split | (intro _; intros; beta_reduce at *) | (dsimp +zetaDelta only))

theorem streamItem_keeps [May gs .work] [May gs .mem] (x : Stream) (d : Desc) (hk : Keeps gs z s) : Keeps gs z
    (State.streamItem x d s).2 := by
  unfold State.streamItem
  repeat' (first | with_reducible assumption | with_reducible apply updStream_keeps | with_reducible apply writeHeader_keeps | extract_lets | with_reducible apply ite_keeps | split | (intro _; intros; beta_reduce at *) | (dsimp only) | (refine keeps_snd (by assumption) ?_) | (dsimp +zetaDelta only))

theorem execCmdStreamCtl_keeps [May gs .hif] [May gs .work] [May gs .mem] [May gs .out] (g : Nat) (d : Nat) (hk
    : Keeps gs z s) : KeepsRes gs z (execCmdStreamCtl g d s) := by
  unfold execCmdStreamCtl
  refine KeepsRes.next ?_
  repeat' (first | with_reducible assumption | with_reducible apply finishCmd_keeps | with_reducible apply streamCmd_keeps | with_reducible apply streamItem_keeps | extract_lets | with_reducible apply ite_keeps | split | (intro _; intros; beta_reduce at *) | (dsimp only) | (refine keeps_snd (by assumption) ?_) | (dsimp +zetaDelta only))

theorem execCmdQuery_keeps [May gs .hif] [May gs .mem] [May gs .out] (g : Nat) (d : Nat) (hk : Keeps gs z s) :
    KeepsRes gs z (execCmdQuery g d s) := by
  unfold execCmdQuery
  refine KeepsRes.next ?_
  repeat' (first | with_reducible assumption | with_reducible apply finishCmd_keeps | with_reducible apply runCmd_keeps | extract_lets | with_reducible apply ite_keeps | split | (intro _; intros; beta_reduce at *) | (dsimp +zetaDelta only))

theorem execCmdStateRead_keeps [May gs .regs] [May gs .hif] [May gs .work] [May gs .cores] [May gs .mem] [May gs
    .pair] [May gs .keeper] [May gs .out] (g : Nat) (d : Nat) (u : Upset) (hk : Keeps gs z s) : KeepsRes gs z
    (execCmdStateRead g d u s) := by
  unfold execCmdStateRead
  refine KeepsRes.next ?_
  repeat' (first | with_reducible assumption | with_reducible apply hostWrite_keeps | with_reducible apply updStream_keeps | with_reducible apply finishCmd_keeps | with_reducible apply uncorrectable_keeps | with_reducible apply moveErrors_keeps | with_reducible apply skiverMismatch_keeps | with_reducible apply streamCmd_keeps | extract_lets | with_reducible apply ite_keeps | split | (intro _; intros; beta_reduce at *) | (dsimp +zetaDelta only))

theorem stateWrite_keeps [May gs .work] [May gs .mem] [May gs .pair] (x : Desc) (id : Nat) (hk : Keeps gs z s) :
    Keeps gs z (State.stateWrite x id s) := by
  unfold State.stateWrite
  repeat' (first | with_reducible assumption | with_reducible apply updStream_keeps | with_reducible apply recordPut_keeps | with_reducible apply handOff_keeps | extract_lets | with_reducible apply ite_keeps | split | (intro _; intros; beta_reduce at *) | (dsimp +zetaDelta only))

theorem stateWriteEnd_keeps [May gs .hif] [May gs .work] [May gs .mem] [May gs .pair] [May gs .out] (g : Nat) (d
    : Nat) (x : Desc) (id : Nat) (hk : Keeps gs z s) : Keeps gs z (State.stateWriteEnd g d x id s) := by
  unfold State.stateWriteEnd
  repeat' (first | with_reducible assumption | with_reducible apply when_keeps | with_reducible apply updStream_keeps | with_reducible apply finishCmd_keeps | with_reducible apply queueMove_keeps | with_reducible apply stateWrite_keeps | extract_lets | with_reducible apply ite_keeps | split | (intro _; intros; beta_reduce at *) | (dsimp +zetaDelta only))

theorem execCmdStateWrite_keeps [May gs .hif] [May gs .work] [May gs .mem] [May gs .pair] [May gs .out] (g :
    Nat) (d : Nat) (hk : Keeps gs z s) : KeepsRes gs z (execCmdStateWrite g d s) := by
  unfold execCmdStateWrite
  refine KeepsRes.next ?_
  repeat' (first | with_reducible assumption | with_reducible apply updStream_keeps | with_reducible apply updMoves_keeps | with_reducible apply finishCmd_keeps | with_reducible apply dropMove_keeps | with_reducible apply queueMove_keeps | with_reducible apply streamCmd_keeps | with_reducible apply stateWriteEnd_keeps | extract_lets | with_reducible apply ite_keeps | split | (intro _; intros; beta_reduce at *) | (dsimp +zetaDelta only))

theorem execPromotionDone_keeps [May gs .regs] [May gs .hif] [May gs .work] [May gs .caches] [May gs .cores]
    [May gs .mem] [May gs .pair] [May gs .keeper] [May gs .out] (id : Nat) (u : Upset) (hk : Keeps gs z s) :
    KeepsRes gs z (execPromotionDone id u s) := by
  unfold execPromotionDone
  refine KeepsRes.next ?_
  repeat' (first | with_reducible assumption | with_reducible apply promotionEnd_keeps | with_reducible apply stateWriteEnd_keeps | with_reducible apply keeps_elimSnd | extract_lets | with_reducible apply ite_keeps | split | (intro _; intros; beta_reduce at *) | (dsimp +zetaDelta only))

theorem execCloseReleaseDone_keeps [May gs .regs] [May gs .hif] [May gs .work] [May gs .caches] [May gs .cores]
    [May gs .mem] [May gs .out] (id : Nat) (hk : Keeps gs z s) : KeepsRes gs z (execCloseReleaseDone id s) := by
  unfold execCloseReleaseDone
  refine KeepsRes.next ?_
  repeat' (first | with_reducible assumption | with_reducible apply when_keeps | with_reducible apply forEach_keeps | with_reducible apply finishCmd_keeps | with_reducible apply sendFlit_keeps | with_reducible apply releasePages_keeps | with_reducible apply freeExtent_keeps | with_reducible apply removeStream_keeps | with_reducible apply outDrop_keeps | extract_lets | with_reducible apply ite_keeps | split | (intro _; intros; beta_reduce at *) | (dsimp +zetaDelta only))

theorem execCmdNop_keeps [May gs .hif] [May gs .mem] [May gs .out] (g : Nat) (d : Nat) (hk : Keeps gs z s) :
    KeepsRes gs z (execCmdNop g d s) := by
  unfold execCmdNop
  refine KeepsRes.next ?_
  repeat' (first | with_reducible assumption | with_reducible apply finishCmd_keeps | with_reducible apply runCmd_keeps | extract_lets | with_reducible apply ite_keeps | split | (intro _; intros; beta_reduce at *) | (dsimp +zetaDelta only))

theorem draw_keeps [May gs .bridle] (hk : Keeps gs z s) : Keeps gs z (State.draw s).2 := by
  unfold State.draw
  repeat' (first | with_reducible assumption | ((with_reducible refine updBridle_keeps ?_ ?_); on_goal 1 => (intros; first | rfl | (split <;> rfl))) | extract_lets | with_reducible apply ite_keeps | split | (intro _; intros; beta_reduce at *) | (dsimp only) | (refine keeps_snd (by assumption) ?_) | (dsimp +zetaDelta only))

theorem seedCores_keeps [May gs .cores] [May gs .bridle] (hk : Keeps gs z s) : Keeps gs z (State.seedCores s) := by
  unfold State.seedCores
  repeat' (first | with_reducible assumption | with_reducible apply forEach_keeps | ((with_reducible refine updCore_keeps ?_ ?_); on_goal 1 => (intros; first | rfl | (split <;> rfl))) | with_reducible apply draw_keeps | extract_lets | with_reducible apply ite_keeps | split | (intro _; intros; beta_reduce at *) | (dsimp only) | (refine keeps_snd (by assumption) ?_) | (dsimp +zetaDelta only))

theorem setMeas_keeps [May gs .bridle] (m : Nat) (v : List Byte) (hk : Keeps gs z s) : Keeps gs z (State.setMeas
    m v s) := by
  unfold State.setMeas
  repeat' (first | with_reducible assumption | ((with_reducible refine updBridle_keeps ?_ ?_); on_goal 1 => (intros; first | rfl | (split <;> rfl))) | extract_lets | with_reducible apply ite_keeps | split | (intro _; intros; beta_reduce at *) | (dsimp +zetaDelta only))

theorem bootMeasure_keeps [May gs .bridle] (hk : Keeps gs z s) : Keeps gs z (State.bootMeasure s) := by
  unfold State.bootMeasure
  repeat' (first | with_reducible assumption | with_reducible apply setMeas_keeps | extract_lets | with_reducible apply ite_keeps | split | (intro _; intros; beta_reduce at *) | (dsimp +zetaDelta only))

theorem enterRecovery_keeps [May gs .bridle] [May gs .power] (code : Nat) (hk : Keeps gs z s) : Keeps gs z
    (State.enterRecovery code s) := by
  unfold State.enterRecovery
  repeat' (first | with_reducible assumption | ((with_reducible refine updBridle_keeps ?_ ?_); on_goal 1 => (intros; first | rfl | (split <;> rfl))) | with_reducible apply updPower_keeps | extract_lets | with_reducible apply ite_keeps | split | (intro _; intros; beta_reduce at *) | (dsimp +zetaDelta only))

theorem readSecret_keeps [May gs .bridle] (cold : Bool) (hk : Keeps gs z s) : Keeps gs z (State.readSecret cold
    s) := by
  unfold State.readSecret
  repeat' (first | with_reducible assumption | ((with_reducible refine updBridle_keeps ?_ ?_); on_goal 1 => (intros; first | rfl | (split <;> rfl))) | extract_lets | with_reducible apply ite_keeps | split | (intro _; intros; beta_reduce at *) | (dsimp +zetaDelta only))

theorem chooseImage_keeps [May gs .regs] [May gs .bridle] [May gs .power] (hk : Keeps gs z s) : Keeps gs z
    (State.chooseImage s) := by
  unfold State.chooseImage
  repeat' (first | with_reducible assumption | ((with_reducible refine updBridle_keeps ?_ ?_); on_goal 1 => (intros; first | rfl | (split <;> rfl))) | with_reducible apply updPower_keeps | with_reducible apply when_keeps | with_reducible apply bump_keeps | with_reducible apply bootMeasure_keeps | with_reducible apply enterRecovery_keeps | extract_lets | with_reducible apply ite_keeps | split | (intro _; intros; beta_reduce at *) | (dsimp +zetaDelta only))

theorem bootChain_keeps [May gs .regs] [May gs .cores] [May gs .bridle] [May gs .power] (cold : Bool) (hk :
    Keeps gs z s) : Keeps gs z (State.bootChain cold s) := by
  unfold State.bootChain
  repeat' (first | with_reducible assumption | ((with_reducible refine updBridle_keeps ?_ ?_); on_goal 1 => (intros; first | rfl | (split <;> rfl))) | with_reducible apply when_keeps | with_reducible apply setReg_keeps | with_reducible apply bump_keeps | with_reducible apply seedCores_keeps | with_reducible apply enterRecovery_keeps | with_reducible apply readSecret_keeps | with_reducible apply chooseImage_keeps | extract_lets | with_reducible apply ite_keeps | split | (intro _; intros; beta_reduce at *) | (dsimp +zetaDelta only))

theorem updFlash_keeps [May gs .bridle] (b : Bool) (f : Mem → Mem) (hk : Keeps gs z s) : Keeps gs z
    (State.updFlash b f s) := by
  unfold State.updFlash
  repeat' (first | with_reducible assumption | ((with_reducible refine updBridle_keeps ?_ ?_); on_goal 1 => (intros; first | rfl | (split <;> rfl))) | extract_lets | with_reducible apply ite_keeps | split | (intro _; intros; beta_reduce at *) | (dsimp +zetaDelta only))

theorem flashAddr_keeps [May gs .regs] [May gs .bridle] (v : Nat) (hk : Keeps gs z s) : Keeps gs z
    (State.flashAddr v s) := by
  unfold State.flashAddr
  repeat' (first | with_reducible assumption | with_reducible apply setReg_keeps | with_reducible apply ignore_keeps | with_reducible apply updFlash_keeps | extract_lets | with_reducible apply ite_keeps | split | (intro _; intros; beta_reduce at *) | (dsimp +zetaDelta only))

theorem flashData_keeps [May gs .free] [May gs .regs] [May gs .bridle] (i : Nat) (v : Nat) (hk : Keeps gs z s) :
    Keeps gs z (State.flashData i v s) := by
  unfold State.flashData
  repeat' (first | with_reducible assumption | with_reducible apply nextFree_keeps | with_reducible apply ignore_keeps | with_reducible apply updFlash_keeps | extract_lets | with_reducible apply ite_keeps | split | (intro _; intros; beta_reduce at *) | (dsimp +zetaDelta only))

theorem activate_keeps [May gs .regs] [May gs .keeper] [May gs .bridle] (hk : Keeps gs z s) : Keeps gs z
    (State.activate s) := by
  unfold State.activate
  repeat' (first | with_reducible assumption | ((with_reducible refine updBridle_keeps ?_ ?_); on_goal 1 => (intros; first | rfl | (split <;> rfl))) | with_reducible apply bump_keeps | with_reducible apply addRecord_keeps | extract_lets | with_reducible apply ite_keeps | split | (intro _; intros; beta_reduce at *) | (dsimp +zetaDelta only))

theorem takeIndex_keeps [May gs .regs] [May gs .bridle] (hk : Keeps gs z s) : Keeps gs z (State.takeIndex s).2 := by
  unfold State.takeIndex
  repeat' (first | with_reducible assumption | ((with_reducible refine updBridle_keeps ?_ ?_); on_goal 1 => (intros; first | rfl | (split <;> rfl))) | with_reducible apply setReg_keeps | with_reducible apply bump_keeps | extract_lets | with_reducible apply ite_keeps | split | (intro _; intros; beta_reduce at *) | (dsimp only) | (refine keeps_snd (by assumption) ?_) | (dsimp +zetaDelta only))

theorem keyExhausted_keeps [May gs .out] (via : Transport) (hk : Keeps gs z s) : Keeps gs z (State.keyExhausted
    via s) := by
  unfold State.keyExhausted
  repeat' (first | with_reducible assumption | with_reducible apply emit_keeps | extract_lets | with_reducible apply ite_keeps | split | (intro _; intros; beta_reduce at *) | (dsimp +zetaDelta only))

theorem spdm_keeps [May gs .power] [May gs .out] (via : Transport) (f : State → State) (hf : ∀ t, Keeps gs z t →
    Keeps gs z (f t)) (hk : Keeps gs z s) : Keeps gs z (State.spdm via f s) := by
  unfold State.spdm
  repeat' (first | with_reducible assumption | with_reducible apply hf | with_reducible apply updPower_keeps | with_reducible apply emit_keeps | extract_lets | with_reducible apply ite_keeps | split | (intro _; intros; beta_reduce at *) | (dsimp +zetaDelta only))

theorem signAndSend_keeps [May gs .regs] [May gs .bridle] [May gs .out] (via : Transport) (name : String) (msg :
    List Byte) (hk : Keeps gs z s) : Keeps gs z (State.signAndSend via name msg s) := by
  unfold State.signAndSend
  repeat' (first | with_reducible assumption | with_reducible apply emit_keeps | with_reducible apply takeIndex_keeps | with_reducible apply keyExhausted_keeps | extract_lets | with_reducible apply ite_keeps | split | (intro _; intros; beta_reduce at *) | (dsimp only) | (refine keeps_snd (by assumption) ?_) | (dsimp +zetaDelta only))

theorem execDrbgReseed_keeps [May gs .bridle] (hk : Keeps gs z s) : KeepsRes gs z (execDrbgReseed s) := by
  unfold execDrbgReseed
  refine KeepsRes.next ?_
  repeat' (first | with_reducible assumption | ((with_reducible refine updBridle_keeps ?_ ?_); on_goal 1 => (intros; first | rfl | (split <;> rfl))) | extract_lets | with_reducible apply ite_keeps | split | (intro _; intros; beta_reduce at *) | (dsimp +zetaDelta only))

theorem execNegotiateAlgorithms_keeps [May gs .power] [May gs .out] (via : Transport) (hk : Keeps gs z s) :
    KeepsRes gs z (execNegotiateAlgorithms via s) := by
  unfold execNegotiateAlgorithms
  refine KeepsRes.next ?_
  repeat' (first | with_reducible assumption | with_reducible apply emit_keeps | with_reducible apply spdm_keeps | extract_lets | with_reducible apply ite_keeps | split | (intro _; intros; beta_reduce at *) | (dsimp +zetaDelta only))

theorem execGetCertificate_keeps [May gs .power] [May gs .out] (via : Transport) (slot : Nat) (off : Nat) (len :
    Nat) (hk : Keeps gs z s) : KeepsRes gs z (execGetCertificate via slot off len s) := by
  unfold execGetCertificate
  refine KeepsRes.next ?_
  repeat' (first | with_reducible assumption | with_reducible apply emit_keeps | with_reducible apply spdm_keeps | extract_lets | with_reducible apply ite_keeps | split | (intro _; intros; beta_reduce at *) | (dsimp +zetaDelta only))

theorem execChallenge_keeps [May gs .regs] [May gs .bridle] [May gs .power] [May gs .out] (via : Transport)
    (slot : Nat) (nonce : List Byte) (hk : Keeps gs z s) : KeepsRes gs z (execChallenge via slot nonce s) := by
  unfold execChallenge
  refine KeepsRes.next ?_
  repeat' (first | with_reducible assumption | with_reducible apply emit_keeps | with_reducible apply spdm_keeps | with_reducible apply signAndSend_keeps | extract_lets | with_reducible apply ite_keeps | split | (intro _; intros; beta_reduce at *) | (dsimp +zetaDelta only))

theorem execGetMeasurements_keeps [May gs .regs] [May gs .bridle] [May gs .power] [May gs .out] (via :
    Transport) (index : Nat) (signed : Bool) (nonce : List Byte) (hk : Keeps gs z s) : KeepsRes gs z
    (execGetMeasurements via index signed nonce s) := by
  unfold execGetMeasurements
  refine KeepsRes.next ?_
  repeat' (first | with_reducible assumption | with_reducible apply emit_keeps | with_reducible apply spdm_keeps | with_reducible apply signAndSend_keeps | extract_lets | with_reducible apply ite_keeps | split | (intro _; intros; beta_reduce at *) | (dsimp +zetaDelta only))

theorem execKeyExchange_keeps [May gs .regs] [May gs .bridle] [May gs .power] [May gs .out] (via : Transport)
    (slot : Nat) (encap : List Byte) (hk : Keeps gs z s) : KeepsRes gs z (execKeyExchange via slot encap s) :=
    by
  unfold execKeyExchange
  refine KeepsRes.next ?_
  repeat' (first | with_reducible assumption | ((with_reducible refine updBridle_keeps ?_ ?_); on_goal 1 => (intros; first | rfl | (split <;> rfl))) | with_reducible apply emit_keeps | with_reducible apply draw_keeps | with_reducible apply takeIndex_keeps | with_reducible apply keyExhausted_keeps | with_reducible apply spdm_keeps | extract_lets | with_reducible apply ite_keeps | split | (intro _; intros; beta_reduce at *) | (dsimp only) | (refine keeps_snd (by assumption) ?_) | (dsimp +zetaDelta only))

theorem execKeyUpdate_keeps [May gs .out] (session : Nat) (hk : Keeps gs z s) : KeepsRes gs z (execKeyUpdate
    session s) := by
  unfold execKeyUpdate
  refine KeepsRes.next ?_
  repeat' (first | with_reducible assumption | with_reducible apply emit_keeps | extract_lets | with_reducible apply ite_keeps | split | (intro _; intros; beta_reduce at *) | (dsimp +zetaDelta only))

theorem execSpdmHeartbeat_keeps [May gs .out] (session : Nat) (hk : Keeps gs z s) : KeepsRes gs z
    (execSpdmHeartbeat session s) := by
  unfold execSpdmHeartbeat
  refine KeepsRes.next ?_
  repeat' (first | with_reducible assumption | with_reducible apply emit_keeps | extract_lets | with_reducible apply ite_keeps | split | (intro _; intros; beta_reduce at *) | (dsimp +zetaDelta only))

theorem execSessionEnd_keeps [May gs .bridle] [May gs .out] (session : Nat) (hk : Keeps gs z s) : KeepsRes gs z
    (execSessionEnd session s) := by
  unfold execSessionEnd
  refine KeepsRes.next ?_
  repeat' (first | with_reducible assumption | ((with_reducible refine updBridle_keeps ?_ ?_); on_goal 1 => (intros; first | rfl | (split <;> rfl))) | with_reducible apply emit_keeps | extract_lets | with_reducible apply ite_keeps | split | (intro _; intros; beta_reduce at *) | (dsimp +zetaDelta only))

theorem execSetOwner_keeps [May gs .regs] [May gs .bridle] [May gs .out] (session : Nat) (e : Endorsement) (hk :
    Keeps gs z s) : KeepsRes gs z (execSetOwner session e s) := by
  unfold execSetOwner
  refine KeepsRes.next ?_
  repeat' (first | with_reducible assumption | ((with_reducible refine updBridle_keeps ?_ ?_); on_goal 1 => (intros; first | rfl | (split <;> rfl))) | with_reducible apply emit_keeps | with_reducible apply setReg_keeps | with_reducible apply bump_keeps | extract_lets | with_reducible apply ite_keeps | split | (intro _; intros; beta_reduce at *) | (dsimp +zetaDelta only))

theorem execSetManifest_keeps [May gs .regs] [May gs .bridle] [May gs .out] (session : Nat) (m : ManifestMsg)
    (hk : Keeps gs z s) : KeepsRes gs z (execSetManifest session m s) := by
  unfold execSetManifest
  refine KeepsRes.next ?_
  repeat' (first | with_reducible assumption | ((with_reducible refine updBridle_keeps ?_ ?_); on_goal 1 => (intros; first | rfl | (split <;> rfl))) | with_reducible apply emit_keeps | with_reducible apply setReg_keeps | with_reducible apply bump_keeps | extract_lets | with_reducible apply ite_keeps | split | (intro _; intros; beta_reduce at *) | (dsimp +zetaDelta only))

theorem execIdeKmKeyProg_keeps [May gs .bridle] [May gs .out] (session : Nat) (strm : Nat) (key : List Byte) (hk
    : Keeps gs z s) : KeepsRes gs z (execIdeKmKeyProg session strm key s) := by
  unfold execIdeKmKeyProg
  refine KeepsRes.next ?_
  repeat' (first | with_reducible assumption | ((with_reducible refine updBridle_keeps ?_ ?_); on_goal 1 => (intros; first | rfl | (split <;> rfl))) | with_reducible apply emit_keeps | extract_lets | with_reducible apply ite_keeps | split | (intro _; intros; beta_reduce at *) | (dsimp +zetaDelta only))

theorem sideband_keeps (f : State → State) (hf : ∀ t, Keeps gs z t → Keeps gs z (f t)) (hk : Keeps gs z s) :
    Keeps gs z (State.sideband s f) := by
  unfold State.sideband
  repeat' (first | with_reducible assumption | with_reducible apply hf | extract_lets | with_reducible apply ite_keeps | split | (intro _; intros; beta_reduce at *) | (dsimp +zetaDelta only))

theorem execGetIdentity_keeps [May gs .out] (off : Nat) (len : Nat) (hk : Keeps gs z s) : KeepsRes gs z
    (execGetIdentity off len s) := by
  unfold execGetIdentity
  refine KeepsRes.next ?_
  repeat' (first | with_reducible assumption | with_reducible apply emit_keeps | with_reducible apply sideband_keeps | extract_lets | with_reducible apply ite_keeps | split | (intro _; intros; beta_reduce at *) | (dsimp +zetaDelta only))

theorem execGetKeeperHead_keeps [May gs .out] (hk : Keeps gs z s) : KeepsRes gs z (execGetKeeperHead s) := by
  unfold execGetKeeperHead
  refine KeepsRes.next ?_
  repeat' (first | with_reducible assumption | with_reducible apply emit_keeps | with_reducible apply sideband_keeps | extract_lets | with_reducible apply ite_keeps | split | (intro _; intros; beta_reduce at *) | (dsimp +zetaDelta only))

theorem execGetKeeper_keeps [May gs .out] (seq : Nat) (hk : Keeps gs z s) : KeepsRes gs z (execGetKeeper seq s) := by
  unfold execGetKeeper
  refine KeepsRes.next ?_
  repeat' (first | with_reducible assumption | with_reducible apply emit_keeps | with_reducible apply sideband_keeps | extract_lets | with_reducible apply ite_keeps | split | (intro _; intros; beta_reduce at *) | (dsimp +zetaDelta only))

theorem execGetBoot_keeps [May gs .out] (hk : Keeps gs z s) : KeepsRes gs z (execGetBoot s) := by
  unfold execGetBoot
  refine KeepsRes.next ?_
  repeat' (first | with_reducible assumption | with_reducible apply emit_keeps | with_reducible apply sideband_keeps | extract_lets | with_reducible apply ite_keeps | split | (intro _; intros; beta_reduce at *) | (dsimp +zetaDelta only))

theorem execSidebandClockStop_keeps [May gs .power] (hk : Keeps gs z s) : KeepsRes gs z (execSidebandClockStop
    s) := by
  unfold execSidebandClockStop
  refine KeepsRes.next ?_
  repeat' (first | with_reducible assumption | with_reducible apply updPower_keeps | extract_lets | with_reducible apply ite_keeps | split | (intro _; intros; beta_reduce at *) | (dsimp +zetaDelta only))

theorem execDynamicAddressAssignment_keeps [May gs .board] (addr : Nat) (hk : Keeps gs z s) : KeepsRes gs z
    (execDynamicAddressAssignment addr s) := by
  unfold execDynamicAddressAssignment
  refine KeepsRes.next ?_
  repeat' (first | with_reducible assumption | with_reducible apply updBoard_keeps | with_reducible apply sideband_keeps | extract_lets | with_reducible apply ite_keeps | split | (intro _; intros; beta_reduce at *) | (dsimp +zetaDelta only))

theorem queueJob_keeps [May gs .work] (kind : JobKind) (part : Nat) (base : Nat) (hk : Keeps gs z s) : Keeps gs
    z (State.queueJob kind part base s) := by
  unfold State.queueJob
  repeat' (first | with_reducible assumption | with_reducible apply updWork_keeps | extract_lets | with_reducible apply ite_keeps | split | (intro _; intros; beta_reduce at *) | (dsimp +zetaDelta only))

theorem endJob_keeps [May gs .work] (kind : JobKind) (hk : Keeps gs z s) : Keeps gs z (State.endJob kind s) := by
  unfold State.endJob
  repeat' (first | with_reducible assumption | with_reducible apply updJobs_keeps | extract_lets | with_reducible apply ite_keeps | split | (intro _; intros; beta_reduce at *) | (dsimp +zetaDelta only))

theorem execCmdModelLoad_keeps [May gs .hif] [May gs .work] [May gs .mem] [May gs .out] (g : Nat) (d : Nat) (hk
    : Keeps gs z s) : KeepsRes gs z (execCmdModelLoad g d s) := by
  unfold execCmdModelLoad
  refine KeepsRes.next ?_
  repeat' (first | with_reducible assumption | with_reducible apply updWork_keeps | with_reducible apply finishCmd_keeps | with_reducible apply runCmd_keeps | with_reducible apply queueJob_keeps | extract_lets | with_reducible apply ite_keeps | split | (intro _; intros; beta_reduce at *) | (dsimp +zetaDelta only))

theorem declarePrefix_keeps [May gs .work] [May gs .caches] (m : ModelSlot) (hk : Keeps gs z s) : Keeps gs z
    (State.declarePrefix m s) := by
  unfold State.declarePrefix
  repeat' (first | with_reducible assumption | with_reducible apply updCaches_keeps | with_reducible apply queueJob_keeps | extract_lets | with_reducible apply ite_keeps | split | (intro _; intros; beta_reduce at *) | (dsimp +zetaDelta only))

theorem execModelLoadDone_keeps [May gs .free] [May gs .regs] [May gs .hif] [May gs .work] [May gs .caches] [May
    gs .mem] [May gs .bridle] [May gs .out] (slot : Nat) (hk : Keeps gs z s) : KeepsRes gs z (execModelLoadDone
    slot s) := by
  unfold execModelLoadDone
  refine KeepsRes.next ?_
  repeat' (first | with_reducible assumption | with_reducible apply forEach_keeps | with_reducible apply updSlot_keeps | with_reducible apply chargeOverhead_keeps | with_reducible apply finishCmd_keeps | with_reducible apply seedHist_keeps | with_reducible apply addCopy_keeps | with_reducible apply setMeas_keeps | with_reducible apply endJob_keeps | with_reducible apply declarePrefix_keeps | with_reducible apply KeepsOpt.here | with_reducible apply KeepsOpt.stop | with_reducible apply KeepsOpt.first | extract_lets | with_reducible apply ite_keeps | split | (intro _; intros; beta_reduce at *) | (refine keeps_some (by assumption) ?_) | (dsimp +zetaDelta only))

theorem execCmdModelUnload_keeps [May gs .hif] [May gs .work] [May gs .mem] [May gs .out] (g : Nat) (d : Nat)
    (hk : Keeps gs z s) : KeepsRes gs z (execCmdModelUnload g d s) := by
  unfold execCmdModelUnload
  refine KeepsRes.next ?_
  repeat' (first | with_reducible assumption | with_reducible apply forEach_keeps | with_reducible apply updStream_keeps | with_reducible apply updSlot_keeps | with_reducible apply finishCmd_keeps | with_reducible apply writeHeader_keeps | with_reducible apply runCmd_keeps | with_reducible apply queueJob_keeps | extract_lets | with_reducible apply ite_keeps | split | (intro _; intros; beta_reduce at *) | (dsimp +zetaDelta only))

theorem execModelUnloadDone_keeps [May gs .hif] [May gs .work] [May gs .caches] [May gs .cores] [May gs .mem]
    [May gs .out] (slot : Nat) (hk : Keeps gs z s) : KeepsRes gs z (execModelUnloadDone slot s) := by
  unfold execModelUnloadDone
  refine KeepsRes.next ?_
  repeat' (first | with_reducible assumption | with_reducible apply updWork_keeps | ((with_reducible refine updCores_keeps ?_ ?_); on_goal 1 => (intros; simp)) | with_reducible apply forEach_keeps | with_reducible apply finishCmd_keeps | with_reducible apply dropNames_keeps | with_reducible apply leaveSlots_keeps | with_reducible apply dropPrefix_keeps | with_reducible apply endJob_keeps | extract_lets | with_reducible apply ite_keeps | split | (intro _; intros; beta_reduce at *) | (dsimp +zetaDelta only))

theorem moveInput_keeps [May gs .work] [May gs .mem] (cores : CoreSet) (id : Nat) (hk : Keeps gs z s) : Keeps gs
    z (State.moveInput cores id s) := by
  unfold State.moveInput
  repeat' (first | with_reducible assumption | with_reducible apply spmWrite_keeps | with_reducible apply updStream_keeps | extract_lets | with_reducible apply ite_keeps | split | (intro _; intros; beta_reduce at *) | (dsimp +zetaDelta only))

theorem applyCores_keeps [May gs .free] [May gs .regs] [May gs .hif] [May gs .work] [May gs .caches] [May gs
    .cores] [May gs .mem] [May gs .out] (n : Nat) (hk : Keeps gs z s) : Keeps gs z (State.applyCores n s) := by
  unfold State.applyCores
  repeat' (first | with_reducible assumption | with_reducible apply when_keeps | with_reducible apply forEach_keeps | with_reducible apply updGroup_keeps | with_reducible apply finishCmd_keeps | with_reducible apply mapCore_keeps | with_reducible apply seedHist_keeps | with_reducible apply placeCopies_keeps | with_reducible apply moveInput_keeps | extract_lets | with_reducible apply ite_keeps | split | (intro _; intros; beta_reduce at *) | (dsimp +zetaDelta only))

theorem execCmdGroupCtl_keeps [May gs .hif] [May gs .work] [May gs .mem] [May gs .out] (g : Nat) (d : Nat) (hk :
    Keeps gs z s) : KeepsRes gs z (execCmdGroupCtl g d s) := by
  unfold execCmdGroupCtl
  refine KeepsRes.next ?_
  repeat' (first | with_reducible assumption | with_reducible apply updGroup_keeps | with_reducible apply finishCmd_keeps | with_reducible apply runCmd_keeps | with_reducible apply seedHist_keeps | extract_lets | with_reducible apply ite_keeps | split | (intro _; intros; beta_reduce at *) | (dsimp +zetaDelta only))

theorem fillResident_keeps [May gs .mem] (m : ModelSlot) (cs : CoreSet) (hk : Keeps gs z s) : Keeps gs z
    (State.fillResident m cs s) := by
  unfold State.fillResident
  repeat' (first | with_reducible assumption | with_reducible apply forEach_keeps | with_reducible apply spmWrite_keeps | extract_lets | with_reducible apply ite_keeps | split | (intro _; intros; beta_reduce at *) | (dsimp +zetaDelta only))

theorem execCmdWeightPin_keeps [May gs .free] [May gs .regs] [May gs .hif] [May gs .work] [May gs .caches] [May
    gs .mem] [May gs .out] (g : Nat) (d : Nat) (hk : Keeps gs z s) : KeepsRes gs z (execCmdWeightPin g d s) :=
    by
  unfold execCmdWeightPin
  refine KeepsRes.next ?_
  repeat' (first | with_reducible assumption | with_reducible apply updSlot_keeps | with_reducible apply finishCmd_keeps | with_reducible apply runCmd_keeps | with_reducible apply placeCopies_keeps | with_reducible apply fillResident_keeps | extract_lets | with_reducible apply ite_keeps | split | (intro _; intros; beta_reduce at *) | (dsimp +zetaDelta only))

theorem execCmdPrefix_keeps [May gs .hif] [May gs .work] [May gs .caches] [May gs .mem] [May gs .out] (g : Nat)
    (d : Nat) (hk : Keeps gs z s) : KeepsRes gs z (execCmdPrefix g d s) := by
  unfold execCmdPrefix
  refine KeepsRes.next ?_
  repeat' (first | with_reducible assumption | with_reducible apply updCaches_keeps | with_reducible apply finishCmd_keeps | with_reducible apply dropPrefix_keeps | with_reducible apply pinPrefix_keeps | with_reducible apply runCmd_keeps | with_reducible apply queueJob_keeps | extract_lets | with_reducible apply ite_keeps | split | (intro _; intros; beta_reduce at *) | (dsimp +zetaDelta only))

theorem freeBytes_keeps [May gs .free] (n : Nat) (hk : Keeps gs z s) : Keeps gs z (State.freeBytes n s).2 := by
  unfold State.freeBytes
  repeat' (first | with_reducible assumption | extract_lets | with_reducible apply ite_keeps | split | (intro _; intros; beta_reduce at *) | with_reducible exact hk.same rfl rfl rfl rfl | (dsimp only) | (refine keeps_snd (by assumption) ?_) | (dsimp +zetaDelta only))

theorem prefixPage_keeps [May gs .free] [May gs .regs] [May gs .caches] [May gs .mem] (k : Nat) (part : Nat)
    (model : Nat) (tokens : Nat) (named : List Nat) (q : Nat × Nat × Nat × Nat) (hk : Keeps gs z s) : Keeps gs z
    (State.prefixPage k part model tokens named q s) := by
  unfold State.prefixPage
  repeat' (first | with_reducible assumption | with_reducible apply updCaches_keeps | with_reducible apply toReclaim_keeps | with_reducible apply makePage_keeps | with_reducible apply landPage_keeps | with_reducible apply takeFrame_keeps | with_reducible apply freeBytes_keeps | with_reducible apply KeepsOptSnd.here | with_reducible apply KeepsOptSnd.stop | extract_lets | with_reducible apply ite_keeps | split | (intro _; intros; beta_reduce at *) | (dsimp only) | (refine keeps_snd (by assumption) ?_) | (refine keeps_someSnd (by assumption) ?_) | (refine keeps_someSnd_proj (by assumption) ?_) | (dsimp +zetaDelta only))

theorem execPrefixDone_keeps [May gs .free] [May gs .regs] [May gs .hif] [May gs .work] [May gs .caches] [May gs
    .mem] [May gs .out] (pfx : Nat) (pages : List Nat) (hk : Keeps gs z s) : KeepsRes gs z (execPrefixDone pfx
    pages s) := by
  unfold execPrefixDone
  refine KeepsRes.next ?_
  repeat' (first | with_reducible assumption | with_reducible apply updCaches_keeps | with_reducible apply forEach_keeps | with_reducible apply finishCmd_keeps | with_reducible apply endJob_keeps | with_reducible apply prefixPage_keeps | extract_lets | with_reducible apply ite_keeps | split | (intro _; intros; beta_reduce at *) | (dsimp +zetaDelta only))

theorem execCmdSkvCtl_keeps [May gs .regs] [May gs .hif] [May gs .work] [May gs .caches] [May gs .cores] [May gs
    .mem] [May gs .pair] [May gs .keeper] [May gs .out] (g : Nat) (d : Nat) (hk : Keeps gs z s) : KeepsRes gs z
    (execCmdSkvCtl g d s) := by
  unfold execCmdSkvCtl
  refine KeepsRes.next ?_
  repeat' (first | with_reducible assumption | with_reducible apply updCaches_keeps | with_reducible apply finishCmd_keeps | with_reducible apply putTable_keeps | with_reducible apply buildPass_keeps | with_reducible apply skiverMismatch_keeps | with_reducible apply runCmd_keeps | extract_lets | with_reducible apply ite_keeps | split | (intro _; intros; beta_reduce at *) | (dsimp +zetaDelta only))

theorem clearRows_keeps [May gs .regs] [May gs .work] [May gs .mem] (c : Nat) (first : Nat) (n : Nat) (hk :
    Keeps gs z s) : Keeps gs z (State.clearRows c first n s) := by
  unfold State.clearRows
  repeat' (first | with_reducible assumption | with_reducible apply forEach_keeps | with_reducible apply updRec_keeps | with_reducible apply cancelMove_keeps | with_reducible apply swapOutEnd_keeps | with_reducible apply moveInput_keeps | extract_lets | with_reducible apply ite_keeps | split | (intro _; intros; beta_reduce at *) | (dsimp +zetaDelta only))

theorem applyRegion_keeps [May gs .regs] [May gs .work] [May gs .cores] [May gs .mem] (c : Nat) (e : Nat) (r :
    Word) (clear : Bool) (hk : Keeps gs z s) : Keeps gs z (State.applyRegion c e r clear s) := by
  unfold State.applyRegion
  repeat' (first | with_reducible assumption | ((with_reducible refine updCore_keeps ?_ ?_); on_goal 1 => (intros; first | rfl | (split <;> rfl))) | with_reducible apply mapCore_keeps | with_reducible apply clearRows_keeps | extract_lets | with_reducible apply ite_keeps | split | (intro _; intros; beta_reduce at *) | (dsimp +zetaDelta only))

theorem regionPins_keeps [May gs .regs] [May gs .hif] [May gs .work] [May gs .cores] [May gs .mem] [May gs .out]
    (c : Nat) (hk : Keeps gs z s) : Keeps gs z (State.regionPins c s) := by
  unfold State.regionPins
  repeat' (first | with_reducible assumption | with_reducible apply finishCmd_keeps | with_reducible apply applyRegion_keeps | extract_lets | with_reducible apply ite_keeps | split | (intro _; intros; beta_reduce at *) | (dsimp +zetaDelta only))

theorem execMirrorReadDone_keeps [May gs .free] [May gs .regs] [May gs .hif] [May gs .work] [May gs .caches]
    [May gs .cores] [May gs .mem] [May gs .pair] [May gs .keeper] [May gs .out] (id : Nat) (u : Upset) (hk :
    Keeps gs z s) : KeepsRes gs z (execMirrorReadDone id u s) := by
  unfold execMirrorReadDone
  refine KeepsRes.next ?_
  repeat' (first | with_reducible assumption | with_reducible apply forEach_keeps | with_reducible apply moveErrors_keeps | with_reducible apply mirrorRead_keeps | with_reducible apply regionPins_keeps | extract_lets | with_reducible apply ite_keeps | split | (intro _; intros; beta_reduce at *) | (dsimp +zetaDelta only))

theorem execCmdRegionPin_keeps [May gs .regs] [May gs .hif] [May gs .work] [May gs .cores] [May gs .mem] [May gs
    .out] (g : Nat) (d : Nat) (hk : Keeps gs z s) : KeepsRes gs z (execCmdRegionPin g d s) := by
  unfold execCmdRegionPin
  refine KeepsRes.next ?_
  repeat' (first | with_reducible assumption | ((with_reducible refine updCore_keeps ?_ ?_); on_goal 1 => (intros; first | rfl | (split <;> rfl))) | with_reducible apply finishCmd_keeps | with_reducible apply runCmd_keeps | with_reducible apply regionPins_keeps | extract_lets | with_reducible apply ite_keeps | split | (intro _; intros; beta_reduce at *) | (dsimp +zetaDelta only))

theorem execCmdWindow_keeps [May gs .free] [May gs .regs] [May gs .hif] [May gs .work] [May gs .caches] [May gs
    .cores] [May gs .mem] [May gs .pair] [May gs .keeper] [May gs .out] (g : Nat) (d : Nat) (hk : Keeps gs z s)
    : KeepsRes gs z (execCmdWindow g d s) := by
  unfold execCmdWindow
  refine KeepsRes.next ?_
  repeat' (first | with_reducible assumption | ((with_reducible refine updCore_keeps ?_ ?_); on_goal 1 => (intros; first | rfl | (split <;> rfl))) | with_reducible apply finishCmd_keeps | with_reducible apply runCmd_keeps | with_reducible apply rouse_keeps | extract_lets | with_reducible apply ite_keeps | split | (intro _; intros; beta_reduce at *) | (dsimp +zetaDelta only))

theorem execCmdTensorMove_keeps [May gs .free] [May gs .regs] [May gs .hif] [May gs .work] [May gs .caches] [May
    gs .cores] [May gs .mem] [May gs .pair] [May gs .keeper] [May gs .out] (g : Nat) (d : Nat) (row : Nat) (u :
    Upset) (hk : Keeps gs z s) : KeepsRes gs z (execCmdTensorMove g d row u s) := by
  unfold execCmdTensorMove
  refine KeepsRes.next ?_
  repeat' (first | with_reducible assumption | with_reducible apply finishCmd_keeps | with_reducible apply runCmd_keeps | with_reducible apply hostTensor_keeps | extract_lets | with_reducible apply ite_keeps | split | (intro _; intros; beta_reduce at *) | (dsimp +zetaDelta only))

end Sys2Proof.Machine
end

