-- ==== Sys2Proof/Laws/KeepsSaddler.lean ====
section
/-! SUPPORT. No act of the Saddler breaks Safety.Keeps. -/

namespace Sys2Proof.Machine

open Sys2Proof Safety

set_option linter.unreachableTactic false
set_option linter.unusedTactic false
set_option linter.unusedVariables false

variable {z s : State} {gs : List Area}

theorem joinGroup_keeps [May gs .free] [May gs .regs] [May gs .work] [May gs .caches] [May gs .cores] [May gs
    .mem] (id : Nat) (g : Group) (hk : Keeps gs z s) : Keeps gs z (State.joinGroup id g s) := by
  unfold State.joinGroup
  repeat' (first | with_reducible assumption | with_reducible apply updWork_keeps | with_reducible apply when_keeps | with_reducible apply seedHist_keeps | with_reducible apply settleGroup_keeps | with_reducible apply moveInput_keeps | extract_lets | with_reducible apply ite_keeps | split | (intro _; intros; beta_reduce at *) | (dsimp +zetaDelta only))

theorem rejoinPins_keeps [May gs .free] [May gs .regs] [May gs .work] [May gs .caches] [May gs .cores] [May gs
    .mem] (g : Group) (id : Nat) (hk : Keeps gs z s) : Keeps gs z (State.rejoinPins g id s) := by
  unfold State.rejoinPins
  repeat' (first | with_reducible assumption | with_reducible apply updStream_keeps | with_reducible apply joinGroup_keeps | extract_lets | with_reducible apply ite_keeps | split | (intro _; intros; beta_reduce at *) | (dsimp +zetaDelta only))

theorem regroup_keeps [May gs .free] [May gs .regs] [May gs .hif] [May gs .work] [May gs .caches] [May gs
    .cores] [May gs .mem] [May gs .out] (g : Group) (hk : Keeps gs z s) : Keeps gs z (State.regroup g s) := by
  unfold State.regroup
  repeat' (first | with_reducible assumption | with_reducible apply when_keeps | with_reducible apply forEach_keeps | with_reducible apply updStreams_keeps | with_reducible apply prune_keeps | with_reducible apply rejoinPins_keeps | extract_lets | with_reducible apply ite_keeps | split | (intro _; intros; beta_reduce at *) | (dsimp +zetaDelta only))

theorem mergeInto_keeps [May gs .free] [May gs .regs] [May gs .hif] [May gs .work] [May gs .caches] [May gs
    .cores] [May gs .mem] [May gs .out] (g : Group) (beat : Nat) (hk : Keeps gs z s) : KeepsOpt gs z
    (State.mergeInto s g beat) := by
  unfold State.mergeInto
  repeat' (first | with_reducible assumption | with_reducible apply forEach_keeps | with_reducible apply prune_keeps | with_reducible apply joinGroup_keeps | with_reducible apply KeepsOpt.here | with_reducible apply KeepsOpt.stop | with_reducible apply KeepsOpt.first | extract_lets | with_reducible apply ite_keeps | split | (intro _; intros; beta_reduce at *) | (dsimp +zetaDelta only))

theorem refreshCopy_keeps [May gs .regs] [May gs .hif] [May gs .work] [May gs .caches] [May gs .cores] [May gs
    .mem] [May gs .pair] [May gs .keeper] [May gs .out] (p : Page) (q : Page) (hk : Keeps gs z s) : Keeps gs z
    (State.refreshCopy p q s) := by
  unfold State.refreshCopy
  repeat' (first | with_reducible assumption | with_reducible apply skiverMismatch_keeps | with_reducible apply frameWrite_keeps | with_reducible apply updPage_keeps | extract_lets | with_reducible apply ite_keeps | split | (intro _; intros; beta_reduce at *) | (dsimp +zetaDelta only))

theorem lacking_keeps [May gs .regs] [May gs .work] [May gs .caches] (l : Lack) (x : Stream) (hk : Keeps gs z s)
    : Keeps gs z (State.lacking l x s) := by
  unfold State.lacking
  repeat' (first | with_reducible assumption | with_reducible apply bump_keeps | with_reducible apply startEvict_keeps | extract_lets | with_reducible apply ite_keeps | split | (intro _; intros; beta_reduce at *) | (dsimp +zetaDelta only))

theorem reachPage_keeps [May gs .regs] [May gs .hif] [May gs .work] [May gs .caches] [May gs .cores] [May gs
    .mem] [May gs .pair] [May gs .keeper] [May gs .out] (id : Nat) (p : Page) (held : Bool) (hk : Keeps gs z s)
    : Keeps gs z (State.reachPage id p held s).2 := by
  unfold State.reachPage
  repeat' (first | with_reducible assumption | with_reducible apply updStream_keeps | with_reducible apply addRef_keeps | with_reducible apply lacking_keeps | with_reducible apply KeepsExc.here | with_reducible apply KeepsExc.stop | extract_lets | with_reducible apply ite_keeps | split | (intro _; intros; beta_reduce at *) | (dsimp only) | (refine keeps_snd (by assumption) ?_) | (refine keeps_ok (by assumption) ?_) | (dsimp +zetaDelta only))

theorem contextWindow_keeps [May gs .regs] [May gs .hif] [May gs .work] [May gs .caches] [May gs .cores] [May gs
    .mem] [May gs .pair] [May gs .keeper] [May gs .out] (id : Nat) (hk : Keeps gs z s) : Keeps gs z
    (State.contextWindow id s).2 := by
  unfold State.contextWindow
  repeat' (first | with_reducible assumption | with_reducible apply writePageList_keeps | with_reducible apply letGo_keeps | with_reducible apply refreshCopy_keeps | with_reducible apply reachPage_keeps | ((with_reducible refine foldl_keeps Prod.snd ?_ ?_)) | ((with_reducible refine foldl_keeps id ?_ ?_)) | with_reducible apply reachPage_keeps | extract_lets | with_reducible apply ite_keeps | split | (intro _; intros; beta_reduce at *) | (dsimp only) | (refine keeps_snd (by assumption) ?_) | (dsimp +zetaDelta only))

theorem formCompanion_keeps [May gs .free] [May gs .regs] [May gs .work] [May gs .caches] [May gs .cores] [May
    gs .mem] (h : Group) (hk : Keeps gs z s) : Keeps gs z (State.formCompanion h s) := by
  unfold State.formCompanion
  repeat' (first | with_reducible assumption | with_reducible apply updWork_keeps | with_reducible apply seedHist_keeps | with_reducible apply settleGroup_keeps | extract_lets | with_reducible apply ite_keeps | split | (intro _; intros; beta_reduce at *) | (dsimp +zetaDelta only))

theorem takeRow_keeps [May gs .free] [May gs .regs] [May gs .hif] [May gs .work] [May gs .caches] [May gs
    .cores] [May gs .mem] [May gs .pair] [May gs .keeper] [May gs .out] (cores : CoreSet) (r : LaunchRow) (beat
    : Nat) (tick : Nat) (mode : Bool) (count : Nat) (hk : Keeps gs z s) : Keeps gs z (State.takeRow cores r beat
    tick mode count s).2 := by
  unfold State.takeRow
  repeat' (first | with_reducible assumption | with_reducible apply nextFree_keeps | with_reducible apply when_keeps | with_reducible apply updStream_keeps | with_reducible apply bump_keeps | with_reducible apply writePageList_keeps | with_reducible apply decideMoves_keeps | with_reducible apply letGo_keeps | with_reducible apply letGoSelf_keeps | with_reducible apply contextWindow_keeps | extract_lets | with_reducible apply ite_keeps | split | (intro _; intros; beta_reduce at *) | (dsimp only) | (refine keeps_snd (by assumption) ?_) | (dsimp +zetaDelta only))

theorem launchJob_keeps [May gs .work] (g : Group) (fb : Bool) (rows : List LaunchRow) (beat : Nat) (tick : Nat)
    (pred : Nat × Nat) (hk : Keeps gs z s) : Keeps gs z (State.launchJob g fb rows beat tick pred s) := by
  unfold State.launchJob
  repeat' (first | with_reducible assumption | with_reducible apply updWork_keeps | ((with_reducible refine foldl_keeps Prod.snd ?_ ?_)) | ((with_reducible refine foldl_keeps id ?_ ?_)) | extract_lets | with_reducible apply ite_keeps | split | (intro _; intros; beta_reduce at *) | (dsimp +zetaDelta only))

theorem pickRows_keeps [May gs .free] [May gs .regs] [May gs .work] [May gs .caches] [May gs .cores] [May gs
    .mem] (g : Group) (tick : Nat) (finish : Nat) (x4 : List (LaunchRow × Stream)) (hk : Keeps gs z s) : Keeps
    gs z (State.pickRows g tick finish x4 s).2 := by
  induction x4 generalizing s with
  | nil =>
    unfold State.pickRows
    repeat' (first | with_reducible assumption | with_reducible apply formCompanion_keeps | extract_lets | with_reducible apply ite_keeps | split | (intro _; intros; beta_reduce at *) | (dsimp only) | (refine keeps_snd (by assumption) ?_) | (dsimp +zetaDelta only))
  | cons q rest ih =>
    unfold State.pickRows
    repeat' (first | with_reducible assumption | with_reducible apply ih | with_reducible apply formCompanion_keeps | extract_lets | with_reducible apply ite_keeps | split | (intro _; intros; beta_reduce at *) | (dsimp only) | (refine keeps_snd (by assumption) ?_) | (dsimp +zetaDelta only))

theorem takeRows_keeps [May gs .free] [May gs .regs] [May gs .hif] [May gs .work] [May gs .caches] [May gs
    .cores] [May gs .mem] [May gs .pair] [May gs .keeper] [May gs .out] (g : Group) (beat : Nat) (tick : Nat)
    (x4 : List (LaunchRow × Option Group × Bool × Nat × Bool)) (hk : Keeps gs z s) : Keeps gs z (State.takeRows
    g beat tick x4 s).2 := by
  induction x4 generalizing s with
  | nil =>
    unfold State.takeRows
    repeat' (first | with_reducible assumption | with_reducible apply takeRow_keeps | extract_lets | with_reducible apply ite_keeps | split | (intro _; intros; beta_reduce at *) | (dsimp only) | (refine keeps_snd (by assumption) ?_) | (dsimp +zetaDelta only))
  | cons q rest ih =>
    unfold State.takeRows
    repeat' (first | with_reducible assumption | with_reducible apply ih | with_reducible apply takeRow_keeps | extract_lets | with_reducible apply ite_keeps | split | (intro _; intros; beta_reduce at *) | (dsimp only) | (refine keeps_snd (by assumption) ?_) | (dsimp +zetaDelta only))

theorem assignRows_keeps [May gs .free] [May gs .regs] [May gs .hif] [May gs .work] [May gs .caches] [May gs
    .cores] [May gs .mem] [May gs .pair] [May gs .keeper] [May gs .out] (g : Group) (beat : Nat) (tick : Nat)
    (rows : List LaunchRow) (hk : Keeps gs z s) : Keeps gs z (State.assignRows g beat tick rows s) := by
  unfold State.assignRows
  repeat' (first | with_reducible assumption | with_reducible apply nextFree_keeps | with_reducible apply when_keeps | with_reducible apply forEach_keeps | with_reducible apply count_keeps | with_reducible apply placeCopies_keeps | with_reducible apply launchJob_keeps | with_reducible apply pickRows_keeps | with_reducible apply takeRows_keeps | extract_lets | with_reducible apply ite_keeps | split | (intro _; intros; beta_reduce at *) | (dsimp only) | (refine keeps_snd (by assumption) ?_) | (dsimp +zetaDelta only))

theorem decide_keeps [May gs .free] [May gs .regs] [May gs .hif] [May gs .work] [May gs .caches] [May gs .cores]
    [May gs .mem] [May gs .pair] [May gs .keeper] [May gs .out] (g : Group) (beat : Nat) (tick : Nat) (hk :
    Keeps gs z s) : Keeps gs z (State.decide g beat tick s) := by
  unfold State.decide
  repeat' (first | with_reducible assumption | with_reducible apply when_keeps | with_reducible apply updStreams_keeps | with_reducible apply prune_keeps | with_reducible apply placeCopies_keeps | with_reducible apply assignRows_keeps | extract_lets | with_reducible apply ite_keeps | split | (intro _; intros; beta_reduce at *) | (dsimp +zetaDelta only))

theorem execLaunchDecision_keeps [May gs .free] [May gs .regs] [May gs .tb] [May gs .hif] [May gs .work] [May gs
    .caches] [May gs .cores] [May gs .mem] [May gs .pair] [May gs .keeper] [May gs .out] (grp : Nat) (beat :
    Nat) (hk : Keeps gs z s) : KeepsRes gs z (execLaunchDecision grp beat s) := by
  unfold execLaunchDecision
  refine KeepsRes.next ?_
  repeat' (first | with_reducible assumption | with_reducible apply advanceTo_keeps | with_reducible apply applyCores_keeps | with_reducible apply regroup_keeps | with_reducible apply mergeInto_keeps | with_reducible apply decide_keeps | with_reducible apply KeepsOpt.here | with_reducible apply KeepsOpt.stop | with_reducible apply KeepsOpt.orElse | extract_lets | with_reducible apply ite_keeps | split | (intro _; intros; beta_reduce at *) | (refine keeps_some (by assumption) ?_) | (dsimp +zetaDelta only))

theorem restCore_keeps [May gs .cores] (predicted : Nat) (c : Nat) (hk : Keeps gs z s) : Keeps gs z
    (State.restCore predicted c s) := by
  unfold State.restCore
  repeat' (first | with_reducible assumption | ((with_reducible refine updCore_keeps ?_ ?_); on_goal 1 => (intros; first | rfl | (split <;> rfl))) | extract_lets | with_reducible apply ite_keeps | split | (intro _; intros; beta_reduce at *) | (dsimp +zetaDelta only))

theorem execCoreStateEntryDone_keeps [May gs .free] [May gs .cores] [May gs .mem] (core : Nat) (hk : Keeps gs z
    s) : KeepsRes gs z (execCoreStateEntryDone core s) := by
  unfold execCoreStateEntryDone
  refine KeepsRes.next ?_
  repeat' (first | with_reducible assumption | with_reducible apply dieWrite_keeps | ((with_reducible refine updCore_keeps ?_ ?_); on_goal 1 => (intros; first | rfl | (split <;> rfl))) | with_reducible apply freeBytes_keeps | extract_lets | with_reducible apply ite_keeps | split | (intro _; intros; beta_reduce at *) | (dsimp only) | (refine keeps_snd (by assumption) ?_) | (dsimp +zetaDelta only))

theorem execCoreArmed_keeps [May gs .regs] [May gs .hif] [May gs .work] [May gs .cores] [May gs .mem] [May gs
    .pair] [May gs .keeper] [May gs .out] (core : Nat) (u : Upset) (hk : Keeps gs z s) : KeepsRes gs z
    (execCoreArmed core u s) := by
  unfold execCoreArmed
  refine KeepsRes.next ?_
  repeat' (first | with_reducible assumption | ((with_reducible refine updCore_keeps ?_ ?_); on_goal 1 => (intros; first | rfl | (split <;> rfl))) | with_reducible apply moveErrors_keeps | extract_lets | with_reducible apply ite_keeps | split | (intro _; intros; beta_reduce at *) | (dsimp +zetaDelta only))

theorem armRows_keeps [May gs .work] (j : Job) (hk : Keeps gs z s) : Keeps gs z (State.armRows j s) := by
  unfold State.armRows
  repeat' (first | with_reducible assumption | with_reducible apply forEach_keeps | with_reducible apply updStream_keeps | extract_lets | with_reducible apply ite_keeps | split | (intro _; intros; beta_reduce at *) | (dsimp +zetaDelta only))

theorem Core.wake_num (k : Core) : k.wake.num = k.num := by
  unfold Core.wake
  split
  · rfl
  · split <;> rfl

theorem execWakeIssue_keeps [May gs .free] [May gs .tb] [May gs .work] [May gs .cores] (grp : Nat) (hk : Keeps
    gs z s) : KeepsRes gs z (execWakeIssue grp s) := by
  unfold execWakeIssue
  refine KeepsRes.next ?_
  repeat' (first | with_reducible assumption | with_reducible apply forEach_keeps | ((with_reducible refine updCore_keeps ?_ ?_); on_goal 1 => (intros; first | rfl | exact Core.wake_num _ | (split <;> rfl))) | with_reducible apply updJob_keeps | with_reducible apply advanceTo_keeps | with_reducible apply armRows_keeps | extract_lets | with_reducible apply ite_keeps | split | (intro _; intros; beta_reduce at *) | (dsimp +zetaDelta only))

theorem layRecords_keeps [May gs .work] [May gs .mem] (ids : List Nat) (cores : CoreSet) (hk : Keeps gs z s) :
    Keeps gs z (State.layRecords ids cores s) := by
  unfold State.layRecords
  repeat' (first | with_reducible assumption | with_reducible apply forEach_keeps | with_reducible apply spmWrite_keeps | with_reducible apply updRec_keeps | ((with_reducible refine foldl_keeps Prod.snd ?_ ?_)) | ((with_reducible refine foldl_keeps id ?_ ?_)) | extract_lets | with_reducible apply ite_keeps | split | (intro _; intros; beta_reduce at *) | (dsimp +zetaDelta only))

theorem launchCore_keeps [May gs .free] [May gs .cores] [May gs .mem] (j : Job) (model : Nat) (i : Nat) (c :
    Nat) (hk : Keeps gs z s) : Keeps gs z (State.launchCore j model i c s) := by
  unfold State.launchCore
  repeat' (first | with_reducible assumption | with_reducible apply spmWrite_keeps | ((with_reducible refine updCore_keeps ?_ ?_); on_goal 1 => (intros; first | rfl | (split <;> rfl))) | with_reducible apply freeBytes_keeps | ((with_reducible refine foldl_keeps Prod.snd ?_ ?_)) | ((with_reducible refine foldl_keeps id ?_ ?_)) | with_reducible apply keeps_elimSnd | extract_lets | with_reducible apply ite_keeps | split | (intro _; intros; beta_reduce at *) | (dsimp only) | (refine keeps_snd (by assumption) ?_) | (dsimp +zetaDelta only))

theorem stagePage_keeps [May gs .regs] [May gs .hif] [May gs .work] [May gs .cores] [May gs .mem] [May gs .pair]
    [May gs .keeper] [May gs .out] (j : Job) (i : Nat) (r : LaunchRow) (v : Nat × Nat) (hk : Keeps gs z s) :
    Keeps gs z (State.stagePage j i r v s) := by
  unfold State.stagePage
  repeat' (first | with_reducible assumption | with_reducible apply spmWrite_keeps | with_reducible apply updJob_keeps | with_reducible apply chargeStream_keeps | with_reducible apply skiverMismatch_keeps | extract_lets | with_reducible apply ite_keeps | split | (intro _; intros; beta_reduce at *) | (dsimp +zetaDelta only))

theorem stageRows_keeps [May gs .regs] [May gs .hif] [May gs .work] [May gs .cores] [May gs .mem] [May gs .pair]
    [May gs .keeper] [May gs .out] (j : Job) (hk : Keeps gs z s) : Keeps gs z (State.stageRows j s) := by
  unfold State.stageRows
  repeat' (first | with_reducible assumption | with_reducible apply forEach_keeps | with_reducible apply stagePage_keeps | extract_lets | with_reducible apply ite_keeps | split | (intro _; intros; beta_reduce at *) | (dsimp +zetaDelta only))

theorem initAdapters_keeps [May gs .work] [May gs .mem] (id : Nat) (h : ImageHdr) (hk : Keeps gs z s) : Keeps gs
    z (State.initAdapters id h s) := by
  unfold State.initAdapters
  repeat' (first | with_reducible assumption | with_reducible apply forEach_keeps | with_reducible apply recordPut_keeps | extract_lets | with_reducible apply ite_keeps | split | (intro _; intros; beta_reduce at *) | (dsimp +zetaDelta only))

theorem resetAdapters_keeps [May gs .work] [May gs .mem] (j : Job) (r : LaunchRow) (hk : Keeps gs z s) : Keeps
    gs z (State.resetAdapters j r s) := by
  unfold State.resetAdapters
  repeat' (first | with_reducible assumption | with_reducible apply initAdapters_keeps | extract_lets | with_reducible apply ite_keeps | split | (intro _; intros; beta_reduce at *) | (dsimp +zetaDelta only))

theorem runRows_keeps [May gs .work] [May gs .mem] (j : Job) (hk : Keeps gs z s) : Keeps gs z (State.runRows j
    s) := by
  unfold State.runRows
  repeat' (first | with_reducible assumption | with_reducible apply when_keeps | with_reducible apply forEach_keeps | with_reducible apply updStream_keeps | with_reducible apply writeHeader_keeps | with_reducible apply resetAdapters_keeps | extract_lets | with_reducible apply ite_keeps | split | (intro _; intros; beta_reduce at *) | (dsimp +zetaDelta only))

theorem Core.exchangeWindow_num (k : Core) : k.exchangeWindow.num = k.num := by
  unfold Core.exchangeWindow
  split <;> rfl

theorem startJob_keeps [May gs .free] [May gs .regs] [May gs .hif] [May gs .work] [May gs .cores] [May gs .mem]
    [May gs .pair] [May gs .keeper] [May gs .out] (j : Job) (hk : Keeps gs z s) : Keeps gs z (State.startJob j
    s) := by
  unfold State.startJob
  repeat' (first | with_reducible assumption | with_reducible apply when_keeps | with_reducible apply forEach_keeps | ((with_reducible refine updCore_keeps ?_ ?_); on_goal 1 => (intros; first | rfl | exact Core.exchangeWindow_num _ | (split <;> rfl))) | with_reducible apply updJob_keeps | with_reducible apply bump_keeps | with_reducible apply layRecords_keeps | with_reducible apply launchCore_keeps | with_reducible apply stageRows_keeps | with_reducible apply runRows_keeps | extract_lets | with_reducible apply ite_keeps | split | (intro _; intros; beta_reduce at *) | (dsimp +zetaDelta only))

theorem spillCore_keeps [May gs .free] [May gs .regs] [May gs .work] [May gs .cores] [May gs .mem] (id : Nat) (c
    : Nat) (hk : Keeps gs z s) : Keeps gs z (State.spillCore id c s) := by
  unfold State.spillCore
  repeat' (first | with_reducible assumption | with_reducible apply forEach_keeps | with_reducible apply dieWrite_keeps | ((with_reducible refine updCore_keeps ?_ ?_); on_goal 1 => (intros; first | rfl | (split <;> rfl))) | with_reducible apply chargeOverhead_keeps | with_reducible apply luSpill_keeps | with_reducible apply freeBytes_keeps | extract_lets | with_reducible apply ite_keeps | split | (intro _; intros; beta_reduce at *) | (dsimp only) | (refine keeps_snd (by assumption) ?_) | (dsimp +zetaDelta only))

theorem suspend_keeps [May gs .free] [May gs .regs] [May gs .work] [May gs .cores] [May gs .mem] (j : Job) (v :
    Job) (hk : Keeps gs z s) : Keeps gs z (State.suspend j v s) := by
  unfold State.suspend
  repeat' (first | with_reducible assumption | with_reducible apply forEach_keeps | ((with_reducible refine updCore_keeps ?_ ?_); on_goal 1 => (intros; first | rfl | (split <;> rfl))) | with_reducible apply updJob_keeps | with_reducible apply bump_keeps | with_reducible apply spillCore_keeps | extract_lets | with_reducible apply ite_keeps | split | (intro _; intros; beta_reduce at *) | (dsimp +zetaDelta only))

theorem preempt_keeps [May gs .free] [May gs .regs] [May gs .work] [May gs .cores] [May gs .mem] (j : Job) (hk :
    Keeps gs z s) : Keeps gs z (State.preempt j s) := by
  unfold State.preempt
  repeat' (first | with_reducible assumption | with_reducible apply forEach_keeps | ((with_reducible refine updCore_keeps ?_ ?_); on_goal 1 => (intros; first | rfl | (split <;> rfl))) | with_reducible apply updJob_keeps | with_reducible apply suspend_keeps | extract_lets | with_reducible apply ite_keeps | split | (intro _; intros; beta_reduce at *) | (dsimp +zetaDelta only))

theorem refillBufs_keeps [May gs .free] (x1 : List (Mem × Bool)) (hk : Keeps gs z s) : Keeps gs z
    (State.refillBufs x1 s).2 := by
  induction x1 generalizing s with
  | nil =>
    unfold State.refillBufs
    repeat' (first | with_reducible assumption | with_reducible apply freeBytes_keeps | extract_lets | with_reducible apply ite_keeps | split | (intro _; intros; beta_reduce at *) | (dsimp only) | (refine keeps_snd (by assumption) ?_) | (dsimp +zetaDelta only))
  | cons q rest ih =>
    unfold State.refillBufs
    repeat' (first | with_reducible assumption | with_reducible apply ih | with_reducible apply freeBytes_keeps | extract_lets | with_reducible apply ite_keeps | split | (intro _; intros; beta_reduce at *) | (dsimp only) | (refine keeps_snd (by assumption) ?_) | (dsimp +zetaDelta only))

theorem refillCore_keeps [May gs .free] [May gs .work] [May gs .cores] [May gs .mem] (c : Nat) (hk : Keeps gs z
    s) : Keeps gs z (State.refillCore c s) := by
  unfold State.refillCore
  repeat' (first | with_reducible assumption | with_reducible apply forEach_keeps | with_reducible apply spmWrite_keeps | ((with_reducible refine updCore_keeps ?_ ?_); on_goal 1 => (intros; first | rfl | (split <;> rfl))) | with_reducible apply chargeOverhead_keeps | with_reducible apply refillBufs_keeps | extract_lets | with_reducible apply ite_keeps | split | (intro _; intros; beta_reduce at *) | (dsimp only) | (refine keeps_snd (by assumption) ?_) | (dsimp +zetaDelta only))

theorem execTick_keeps [May gs .free] [May gs .regs] [May gs .tb] [May gs .hif] [May gs .work] [May gs .cores]
    [May gs .mem] [May gs .pair] [May gs .keeper] [May gs .out] (grp : Nat) (hk : Keeps gs z s) : KeepsRes gs z
    (execTick grp s) := by
  unfold execTick
  refine KeepsRes.next ?_
  repeat' (first | with_reducible assumption | with_reducible apply when_keeps | with_reducible apply updJob_keeps | with_reducible apply bump_keeps | with_reducible apply advanceTo_keeps | with_reducible apply startJob_keeps | with_reducible apply preempt_keeps | extract_lets | with_reducible apply ite_keeps | split | (intro _; intros; beta_reduce at *) | (dsimp +zetaDelta only))

theorem strobe_keeps [May gs .free] [May gs .regs] [May gs .tb] [May gs .hif] [May gs .work] [May gs .cores]
    [May gs .mem] [May gs .pair] [May gs .keeper] [May gs .out] (grp : Nat) (time : Nat) (hk : Keeps gs z s) :
    Keeps gs z (State.strobe grp time s) := by
  unfold State.strobe
  repeat' (first | with_reducible assumption | with_reducible apply advanceTo_keeps | with_reducible apply startJob_keeps | extract_lets | with_reducible apply ite_keeps | split | (intro _; intros; beta_reduce at *) | (dsimp +zetaDelta only))

theorem execLateStrobe_keeps [May gs .free] [May gs .regs] [May gs .tb] [May gs .hif] [May gs .work] [May gs
    .cores] [May gs .mem] [May gs .pair] [May gs .keeper] [May gs .out] (grp : Nat) (time : Nat) (hk : Keeps gs
    z s) : KeepsRes gs z (execLateStrobe grp time s) := by
  unfold execLateStrobe
  refine KeepsRes.next ?_
  repeat' (first | with_reducible assumption | with_reducible apply strobe_keeps | extract_lets | with_reducible apply ite_keeps | split | (intro _; intros; beta_reduce at *) | (dsimp +zetaDelta only))

theorem execHeldDispatch_keeps [May gs .free] [May gs .regs] [May gs .tb] [May gs .hif] [May gs .work] [May gs
    .cores] [May gs .mem] [May gs .pair] [May gs .keeper] [May gs .out] (grp : Nat) (time : Nat) (hk : Keeps gs
    z s) : KeepsRes gs z (execHeldDispatch grp time s) := by
  unfold execHeldDispatch
  refine KeepsRes.next ?_
  repeat' (first | with_reducible assumption | with_reducible apply strobe_keeps | extract_lets | with_reducible apply ite_keeps | split | (intro _; intros; beta_reduce at *) | (dsimp +zetaDelta only))

theorem execSwitchComplete_keeps [May gs .free] [May gs .regs] [May gs .tb] [May gs .hif] [May gs .work] [May gs
    .cores] [May gs .mem] [May gs .pair] [May gs .keeper] [May gs .out] (grp : Nat) (time : Nat) (hk : Keeps gs
    z s) : KeepsRes gs z (execSwitchComplete grp time s) := by
  unfold execSwitchComplete
  refine KeepsRes.next ?_
  repeat' (first | with_reducible assumption | with_reducible apply advanceTo_keeps | with_reducible apply startJob_keeps | extract_lets | with_reducible apply ite_keeps | split | (intro _; intros; beta_reduce at *) | (dsimp +zetaDelta only))

theorem execJobResume_keeps [May gs .free] [May gs .regs] [May gs .tb] [May gs .hif] [May gs .work] [May gs
    .caches] [May gs .cores] [May gs .mem] [May gs .pair] [May gs .keeper] [May gs .out] (grp : Nat) (time :
    Nat) (hk : Keeps gs z s) : KeepsRes gs z (execJobResume grp time s) := by
  unfold execJobResume
  refine KeepsRes.next ?_
  repeat' (first | with_reducible assumption | with_reducible apply forEach_keeps | ((with_reducible refine updCore_keeps ?_ ?_); on_goal 1 => (intros; first | rfl | (split <;> rfl))) | with_reducible apply updJob_keeps | with_reducible apply advanceTo_keeps | with_reducible apply rouse_keeps | with_reducible apply refillCore_keeps | extract_lets | with_reducible apply ite_keeps | split | (intro _; intros; beta_reduce at *) | (dsimp +zetaDelta only))

theorem ageJob_keeps [May gs .free] [May gs .regs] [May gs .tb] [May gs .work] [May gs .cores] [May gs .mem] (j
    : Job) (hk : Keeps gs z s) : Keeps gs z (State.ageJob j s) := by
  unfold State.ageJob
  repeat' (first | with_reducible assumption | with_reducible apply when_keeps | with_reducible apply updJob_keeps | with_reducible apply bump_keeps | with_reducible apply advanceTo_keeps | with_reducible apply preempt_keeps | extract_lets | with_reducible apply ite_keeps | split | (intro _; intros; beta_reduce at *) | (dsimp +zetaDelta only))

theorem ageMove_keeps [May gs .free] [May gs .regs] [May gs .tb] [May gs .work] (m : Move) (hk : Keeps gs z s) :
    Keeps gs z (State.ageMove m s) := by
  unfold State.ageMove
  repeat' (first | with_reducible assumption | with_reducible apply when_keeps | with_reducible apply updMoves_keeps | with_reducible apply bump_keeps | with_reducible apply advanceTo_keeps | extract_lets | with_reducible apply ite_keeps | split | (intro _; intros; beta_reduce at *) | (dsimp +zetaDelta only))

theorem execAgeInterval_keeps [May gs .free] [May gs .regs] [May gs .tb] [May gs .work] [May gs .cores] [May gs
    .mem] (job : Nat) (hk : Keeps gs z s) : KeepsRes gs z (execAgeInterval job s) := by
  unfold execAgeInterval
  refine KeepsRes.next ?_
  repeat' (first | with_reducible assumption | with_reducible apply ageJob_keeps | with_reducible apply ageMove_keeps | extract_lets | with_reducible apply ite_keeps | split | (intro _; intros; beta_reduce at *) | (dsimp +zetaDelta only))

theorem carryOut_keeps [May gs .work] [May gs .mem] (j : Job) (r : LaunchRow) (touched : List Nat) (hk : Keeps
    gs z s) : Keeps gs z (State.carryOut j r touched s) := by
  unfold State.carryOut
  repeat' (first | with_reducible assumption | with_reducible apply updStream_keeps | with_reducible apply writeHeader_keeps | with_reducible apply writePageList_keeps | ((with_reducible refine foldl_keeps Prod.snd ?_ ?_)) | ((with_reducible refine foldl_keeps id ?_ ?_)) | extract_lets | with_reducible apply ite_keeps | split | (intro _; intros; beta_reduce at *) | (dsimp +zetaDelta only))

theorem sealTimes_keeps [May gs .work] (src : Nat) (before : Nat) (time : Nat) (hk : Keeps gs z s) : Keeps gs z
    (State.sealTimes src before time s) := by
  unfold State.sealTimes
  repeat' (first | with_reducible assumption | with_reducible apply updStreams_keeps | extract_lets | with_reducible apply ite_keeps | split | (intro _; intros; beta_reduce at *) | (dsimp +zetaDelta only))

theorem codeFull_keeps [May gs .free] [May gs .regs] [May gs .hif] [May gs .work] [May gs .caches] [May gs
    .cores] [May gs .mem] [May gs .pair] [May gs .keeper] [May gs .out] (full : List Nat) (hk : Keeps gs z s) :
    Keeps gs z (State.codeFull full s) := by
  unfold State.codeFull
  repeat' (first | with_reducible assumption | with_reducible apply forEach_keeps | with_reducible apply skiverMismatch_keeps | with_reducible apply storePage_keeps | extract_lets | with_reducible apply ite_keeps | split | (intro _; intros; beta_reduce at *) | (dsimp +zetaDelta only))

theorem sealRow_keeps [May gs .free] [May gs .regs] [May gs .hif] [May gs .work] [May gs .caches] [May gs
    .cores] [May gs .mem] [May gs .pair] [May gs .keeper] [May gs .out] (x : Stream) (hk : Keeps gs z s) : Keeps
    gs z (State.sealRow x s) := by
  unfold State.sealRow
  repeat' (first | with_reducible assumption | with_reducible apply sealPages_keeps | with_reducible apply codeFull_keeps | extract_lets | with_reducible apply ite_keeps | split | (intro _; intros; beta_reduce at *) | (dsimp +zetaDelta only))

theorem sendOutput_keeps [May gs .regs] [May gs .hif] [May gs .work] [May gs .mem] [May gs .out] (id : Nat) (o :
    OutWait) (hk : Keeps gs z s) : Keeps gs z (State.sendOutput id o s) := by
  unfold State.sendOutput
  repeat' (first | with_reducible assumption | with_reducible apply forEach_keeps | with_reducible apply updStream_keeps | with_reducible apply outDrop_keeps | with_reducible apply deliver_keeps | extract_lets | with_reducible apply ite_keeps | split | (intro _; intros; beta_reduce at *) | (dsimp +zetaDelta only))

theorem reportChunk_keeps [May gs .regs] [May gs .hif] [May gs .work] [May gs .mem] [May gs .out] (r :
    LaunchRow) (flags : Nat) (late : Nat) (output : Bool) (hk : Keeps gs z s) : Keeps gs z (State.reportChunk r
    flags late output s) := by
  unfold State.reportChunk
  repeat' (first | with_reducible assumption | with_reducible apply postEvent_keeps | with_reducible apply postComp_keeps | extract_lets | with_reducible apply ite_keeps | split | (intro _; intros; beta_reduce at *) | (dsimp +zetaDelta only))

theorem learn_keeps [May gs .work] (j : Job) (cycles : Nat) (hk : Keeps gs z s) : Keeps gs z (State.learn j
    cycles s) := by
  unfold State.learn
  repeat' (first | with_reducible assumption | with_reducible apply updGroup_keeps | extract_lets | with_reducible apply ite_keeps | split | (intro _; intros; beta_reduce at *) | (dsimp +zetaDelta only))

theorem chargeLaunch_keeps [May gs .work] (j : Job) (time : Nat) (u : Usage) (hk : Keeps gs z s) : Keeps gs z
    (State.chargeLaunch j time u s) := by
  unfold State.chargeLaunch
  repeat' (first | with_reducible assumption | with_reducible apply forEach_keeps | with_reducible apply chargeStream_keeps | extract_lets | with_reducible apply ite_keeps | split | (intro _; intros; beta_reduce at *) | (dsimp +zetaDelta only))

theorem settleRecord_keeps [May gs .regs] [May gs .work] [May gs .mem] (id : Nat) (hk : Keeps gs z s) : Keeps gs
    z (State.settleRecord id s) := by
  unfold State.settleRecord
  repeat' (first | with_reducible assumption | with_reducible apply when_keeps | with_reducible apply updStream_keeps | with_reducible apply dropMove_keeps | with_reducible apply queueMove_keeps | with_reducible apply swapOutEnd_keeps | extract_lets | with_reducible apply ite_keeps | split | (intro _; intros; beta_reduce at *) | (dsimp +zetaDelta only))

theorem leaveRun_keeps [May gs .hif] [May gs .work] [May gs .mem] [May gs .out] (id : Nat) (hk : Keeps gs z s) :
    Keeps gs z (State.leaveRun id s) := by
  unfold State.leaveRun
  repeat' (first | with_reducible assumption | with_reducible apply enterPaused_keeps | with_reducible apply enterClosing_keeps | extract_lets | with_reducible apply ite_keeps | split | (intro _; intros; beta_reduce at *) | (dsimp +zetaDelta only))

theorem freeHalf_keeps [May gs .hif] [May gs .work] [May gs .mem] [May gs .out] (r : LaunchRow) (hk : Keeps gs z
    s) : Keeps gs z (State.freeHalf r s) := by
  unfold State.freeHalf
  repeat' (first | with_reducible assumption | with_reducible apply updStream_keeps | with_reducible apply fillInputs_keeps | extract_lets | with_reducible apply ite_keeps | split | (intro _; intros; beta_reduce at *) | (dsimp +zetaDelta only))

theorem releaseLeaving_keeps [May gs .work] [May gs .caches] (id : Nat) (hk : Keeps gs z s) : Keeps gs z
    (State.releaseLeaving id s) := by
  unfold State.releaseLeaving
  repeat' (first | with_reducible assumption | with_reducible apply updStream_keeps | with_reducible apply releasePages_keeps | extract_lets | with_reducible apply ite_keeps | split | (intro _; intros; beta_reduce at *) | (dsimp +zetaDelta only))

theorem endRow_keeps [May gs .free] [May gs .regs] [May gs .hif] [May gs .work] [May gs .caches] [May gs .cores]
    [May gs .mem] [May gs .pair] [May gs .keeper] [May gs .out] (j : Job) (time : Nat) (r : LaunchRow) (out :
    RowOutput) (touched : List Nat) (hk : Keeps gs z s) : Keeps gs z (State.endRow j time r out touched s) := by
  unfold State.endRow
  repeat' (first | with_reducible assumption | with_reducible apply when_keeps | with_reducible apply updStream_keeps | with_reducible apply bump_keeps | with_reducible apply handOff_keeps | with_reducible apply carryOut_keeps | with_reducible apply sealTimes_keeps | with_reducible apply sealRow_keeps | with_reducible apply sendOutput_keeps | with_reducible apply reportChunk_keeps | with_reducible apply settleRecord_keeps | with_reducible apply leaveRun_keeps | with_reducible apply freeHalf_keeps | with_reducible apply releaseLeaving_keeps | extract_lets | with_reducible apply ite_keeps | split | (intro _; intros; beta_reduce at *) | (dsimp +zetaDelta only))

theorem endCore_keeps [May gs .cores] (j : Job) (model : Nat) (c : Nat) (hk : Keeps gs z s) : Keeps gs z
    (State.endCore j model c s) := by
  unfold State.endCore
  repeat' (first | with_reducible assumption | ((with_reducible refine updCore_keeps ?_ ?_); on_goal 1 => (intros; first | rfl | (split <;> rfl))) | with_reducible apply restCore_keeps | extract_lets | with_reducible apply ite_keeps | split | (intro _; intros; beta_reduce at *) | (dsimp +zetaDelta only))

theorem endLaunch_keeps [May gs .free] [May gs .regs] [May gs .hif] [May gs .work] [May gs .caches] [May gs
    .cores] [May gs .mem] [May gs .pair] [May gs .keeper] [May gs .out] (j : Job) (rep : ChunkReport) (hk :
    Keeps gs z s) : Keeps gs z (State.endLaunch j rep s) := by
  unfold State.endLaunch
  repeat' (first | with_reducible assumption | with_reducible apply forEach_keeps | with_reducible apply updJobs_keeps | with_reducible apply mapCore_keeps | with_reducible apply prune_keeps | with_reducible apply rouse_keeps | with_reducible apply regionPins_keeps | with_reducible apply learn_keeps | with_reducible apply chargeLaunch_keeps | with_reducible apply endRow_keeps | with_reducible apply endCore_keeps | extract_lets | with_reducible apply ite_keeps | split | (intro _; intros; beta_reduce at *) | (dsimp +zetaDelta only))

theorem execChunkEnd_keeps [May gs .free] [May gs .regs] [May gs .tb] [May gs .hif] [May gs .work] [May gs
    .caches] [May gs .cores] [May gs .mem] [May gs .pair] [May gs .keeper] [May gs .out] (grp : Nat) (rep :
    ChunkReport) (hk : Keeps gs z s) : KeepsRes gs z (execChunkEnd grp rep s) := by
  unfold execChunkEnd
  refine KeepsRes.next ?_
  repeat' (first | with_reducible assumption | with_reducible apply forEach_keeps | with_reducible apply advanceTo_keeps | with_reducible apply moveErrors_keeps | with_reducible apply settle_keeps | with_reducible apply rouse_keeps | with_reducible apply endLaunch_keeps | extract_lets | with_reducible apply ite_keeps | split | (intro _; intros; beta_reduce at *) | (dsimp +zetaDelta only))

theorem holdRow_keeps [May gs .regs] [May gs .work] (j : Job) (row : Nat) (hk : Keeps gs z s) : Keeps gs z
    (State.holdRow j row s) := by
  unfold State.holdRow
  repeat' (first | with_reducible assumption | with_reducible apply updJob_keeps | with_reducible apply bump_keeps | extract_lets | with_reducible apply ite_keeps | split | (intro _; intros; beta_reduce at *) | (dsimp +zetaDelta only))

theorem giveAll_keeps [May gs .regs] [May gs .work] [May gs .caches] [May gs .mem] (x : Stream) (named : List
    Nat) (x3 : List (Nat × Nat × Nat × Nat)) (hk : Keeps gs z s) : KeepsExc gs z (State.giveAll x named x3 s) :=
    by
  induction x3 generalizing s with
  | nil =>
    unfold State.giveAll
    repeat' (first | with_reducible assumption | with_reducible apply needFrame_keeps | with_reducible apply givePage_keeps | with_reducible apply KeepsExc.here | with_reducible apply KeepsExc.stop | with_reducible apply KeepsExcSnd.here | with_reducible apply KeepsExcSnd.stop | extract_lets | with_reducible apply ite_keeps | split | (intro _; intros; beta_reduce at *) | (dsimp only) | (refine keeps_okSnd (by assumption) ?_) | (refine keeps_okSnd_proj (by assumption) ?_) | (dsimp +zetaDelta only))
  | cons q rest ih =>
    unfold State.giveAll
    repeat' (first | with_reducible assumption | with_reducible apply ih | with_reducible apply needFrame_keeps | with_reducible apply givePage_keeps | with_reducible apply KeepsExc.here | with_reducible apply KeepsExc.stop | with_reducible apply KeepsExcSnd.here | with_reducible apply KeepsExcSnd.stop | extract_lets | with_reducible apply ite_keeps | split | (intro _; intros; beta_reduce at *) | (dsimp only) | (refine keeps_okSnd (by assumption) ?_) | (refine keeps_okSnd_proj (by assumption) ?_) | (dsimp +zetaDelta only))

theorem appendAll_keeps [May gs .regs] [May gs .hif] [May gs .work] [May gs .caches] [May gs .cores] [May gs
    .mem] [May gs .pair] [May gs .keeper] [May gs .out] (x : Stream) (named : List Nat) (x3 : List (Nat × Nat))
    (hk : Keeps gs z s) : KeepsExc gs z (State.appendAll x named x3 s) := by
  induction x3 generalizing s with
  | nil =>
    unfold State.appendAll
    repeat' (first | with_reducible assumption | with_reducible apply needFrame_keeps | with_reducible apply claimPage_keeps | with_reducible apply copyPage_keeps | with_reducible apply appendTo_keeps | with_reducible apply KeepsExc.here | with_reducible apply KeepsExc.stop | with_reducible apply KeepsExcSnd.here | with_reducible apply KeepsExcSnd.stop | extract_lets | with_reducible apply ite_keeps | split | (intro _; intros; beta_reduce at *) | (dsimp only) | (refine keeps_okSnd (by assumption) ?_) | (refine keeps_okSnd_proj (by assumption) ?_) | (dsimp +zetaDelta only))
  | cons q rest ih =>
    unfold State.appendAll
    repeat' (first | with_reducible assumption | with_reducible apply ih | with_reducible apply needFrame_keeps | with_reducible apply claimPage_keeps | with_reducible apply copyPage_keeps | with_reducible apply appendTo_keeps | with_reducible apply KeepsExc.here | with_reducible apply KeepsExc.stop | with_reducible apply KeepsExcSnd.here | with_reducible apply KeepsExcSnd.stop | extract_lets | with_reducible apply ite_keeps | split | (intro _; intros; beta_reduce at *) | (dsimp only) | (refine keeps_okSnd (by assumption) ?_) | (refine keeps_okSnd_proj (by assumption) ?_) | (dsimp +zetaDelta only))

theorem stepRow_keeps [May gs .regs] [May gs .hif] [May gs .work] [May gs .caches] [May gs .cores] [May gs .mem]
    [May gs .pair] [May gs .keeper] [May gs .out] (j : Job) (named : List Nat) (q : TokenRow) (hk : Keeps gs z
    s) : Keeps gs z (State.stepRow j named q s) := by
  unfold State.stepRow
  repeat' (first | with_reducible assumption | with_reducible apply startEvict_keeps | with_reducible apply holdRow_keeps | with_reducible apply giveAll_keeps | with_reducible apply appendAll_keeps | with_reducible apply KeepsExc.here | with_reducible apply KeepsExc.stop | extract_lets | with_reducible apply ite_keeps | split | (intro _; intros; beta_reduce at *) | (refine keeps_ok (by assumption) ?_) | (dsimp +zetaDelta only))

theorem reserveAll_keeps [May gs .regs] [May gs .work] [May gs .caches] [May gs .mem] (x : Stream) (named : List
    Nat) (x3 : List (Nat × Nat × Nat × Nat)) (hk : Keeps gs z s) : KeepsOpt gs z (State.reserveAll x named x3 s)
    := by
  induction x3 generalizing s with
  | nil =>
    unfold State.reserveAll
    repeat' (first | with_reducible assumption | with_reducible apply takeFrame_keeps | with_reducible apply givePage_keeps | with_reducible apply KeepsOpt.here | with_reducible apply KeepsOpt.stop | with_reducible apply KeepsOptSnd.here | with_reducible apply KeepsOptSnd.stop | extract_lets | with_reducible apply ite_keeps | split | (intro _; intros; beta_reduce at *) | (dsimp only) | (refine keeps_someSnd (by assumption) ?_) | (refine keeps_someSnd_proj (by assumption) ?_) | (dsimp +zetaDelta only))
  | cons q rest ih =>
    unfold State.reserveAll
    repeat' (first | with_reducible assumption | with_reducible apply ih | with_reducible apply takeFrame_keeps | with_reducible apply givePage_keeps | with_reducible apply KeepsOpt.here | with_reducible apply KeepsOpt.stop | with_reducible apply KeepsOptSnd.here | with_reducible apply KeepsOptSnd.stop | extract_lets | with_reducible apply ite_keeps | split | (intro _; intros; beta_reduce at *) | (dsimp only) | (refine keeps_someSnd (by assumption) ?_) | (refine keeps_someSnd_proj (by assumption) ?_) | (dsimp +zetaDelta only))

theorem joinRow_keeps [May gs .regs] [May gs .hif] [May gs .work] [May gs .caches] [May gs .cores] [May gs .mem]
    [May gs .pair] [May gs .keeper] [May gs .out] (j : Job) (named : List Nat) (q : TokenRow) (hk : Keeps gs z
    s) : Keeps gs z (State.joinRow j named q s) := by
  unfold State.joinRow
  repeat' (first | with_reducible assumption | with_reducible apply bump_keeps | with_reducible apply addRefs_keeps | with_reducible apply lacking_keeps | with_reducible apply reserveAll_keeps | with_reducible apply KeepsOpt.here | with_reducible apply KeepsOpt.stop | with_reducible apply KeepsExc.here | with_reducible apply KeepsExc.stop | with_reducible apply KeepsOpt.orElse | extract_lets | with_reducible apply ite_keeps | split | (intro _; intros; beta_reduce at *) | (refine keeps_some (by assumption) ?_) | (refine keeps_ok (by assumption) ?_) | (dsimp +zetaDelta only))

theorem execTokenStepBoundary_keeps [May gs .regs] [May gs .hif] [May gs .work] [May gs .caches] [May gs .cores]
    [May gs .mem] [May gs .pair] [May gs .keeper] [May gs .out] (grp : Nat) (rows : List TokenRow) (frames :
    List Nat) (u : Upset) (hk : Keeps gs z s) : KeepsRes gs z (execTokenStepBoundary grp rows frames u s) := by
  unfold execTokenStepBoundary
  refine KeepsRes.next ?_
  repeat' (first | with_reducible assumption | with_reducible apply forEach_keeps | with_reducible apply moveErrors_keeps | with_reducible apply releasePages_keeps | with_reducible apply stepRow_keeps | with_reducible apply joinRow_keeps | extract_lets | with_reducible apply ite_keeps | split | (intro _; intros; beta_reduce at *) | (dsimp +zetaDelta only))

theorem execKvEvictionDone_keeps [May gs .free] [May gs .regs] [May gs .hif] [May gs .work] [May gs .caches]
    [May gs .cores] [May gs .mem] [May gs .pair] [May gs .keeper] [May gs .out] (page : Nat) (frame : Nat) (u :
    Upset) (hk : Keeps gs z s) : KeepsRes gs z (execKvEvictionDone page frame u s) := by
  unfold execKvEvictionDone
  refine KeepsRes.next ?_
  repeat' (first | with_reducible assumption | with_reducible apply moveErrors_keeps | with_reducible apply skiverMismatch_keeps | with_reducible apply pageDropNames_keeps | with_reducible apply storePage_keeps | with_reducible apply updPage_keeps | extract_lets | with_reducible apply ite_keeps | split | (intro _; intros; beta_reduce at *) | (dsimp +zetaDelta only))

theorem promotePage_keeps [May gs .free] [May gs .regs] [May gs .caches] [May gs .mem] (ms : List Mirror) (part
    : Nat) (q : Nat × MirrorPage) (hk : Keeps gs z s) : Keeps gs z (State.promotePage ms part q s).2 := by
  unfold State.promotePage
  repeat' (first | with_reducible assumption | with_reducible apply makePage_keeps | with_reducible apply landPage_keeps | with_reducible apply keeps_elimSnd | extract_lets | with_reducible apply ite_keeps | split | (intro _; intros; beta_reduce at *) | (dsimp only) | (refine keeps_snd (by assumption) ?_) | (dsimp +zetaDelta only))

theorem promotePages_keeps [May gs .free] [May gs .regs] [May gs .caches] [May gs .mem] (ms : List Mirror) (hk :
    Keeps gs z s) : Keeps gs z (State.promotePages ms s).2 := by
  unfold State.promotePages
  exact foldl_keeps Prod.snd (fun _ _ hb => pair_keeps _ (promotePage_keeps _ _ _ hb)) hk

theorem promoteOne_keeps [May gs .free] [May gs .regs] [May gs .work] [May gs .caches] [May gs .cores] [May gs
    .mem] (names : List (Nat × Nat)) (m : Mirror) (hk : Keeps gs z s) : Keeps gs z (State.promoteOne names m s)
    := by
  unfold State.promoteOne
  repeat' (first | with_reducible assumption | with_reducible apply forEach_keeps | with_reducible apply dieWrite_keeps | with_reducible apply bump_keeps | with_reducible apply writeHeader_keeps | with_reducible apply writePageList_keeps | with_reducible apply addStream_keeps | extract_lets | with_reducible apply ite_keeps | split | (intro _; intros; beta_reduce at *) | (dsimp +zetaDelta only))

theorem promoteRounds_keeps [May gs .free] [May gs .regs] [May gs .work] [May gs .caches] [May gs .cores] [May
    gs .mem] (names : List (Nat × Nat)) (x2 : Nat) (x3 : List Mirror) (hk : Keeps gs z s) : Keeps gs z
    (State.promoteRounds names x2 x3 s) := by
  induction x2 generalizing x3 s with
  | zero =>
    unfold State.promoteRounds
    repeat' (first | with_reducible assumption | with_reducible apply forEach_keeps | with_reducible apply promoteOne_keeps | extract_lets | with_reducible apply ite_keeps | split | (intro _; intros; beta_reduce at *) | (dsimp +zetaDelta only))
  | succ n ih =>
    unfold State.promoteRounds
    repeat' (first | with_reducible assumption | with_reducible apply ih | with_reducible apply forEach_keeps | with_reducible apply promoteOne_keeps | extract_lets | with_reducible apply ite_keeps | split | (intro _; intros; beta_reduce at *) | (dsimp +zetaDelta only))

theorem dropMirrorRefs_keeps [May gs .caches] (names : List (Nat × Nat)) (m : Mirror) (hk : Keeps gs z s) :
    Keeps gs z (State.dropMirrorRefs names m s) := by
  unfold State.dropMirrorRefs
  repeat' (first | with_reducible assumption | with_reducible apply forEach_keeps | with_reducible apply dropRef_keeps | extract_lets | with_reducible apply ite_keeps | split | (intro _; intros; beta_reduce at *) | (dsimp +zetaDelta only))

theorem promoteMirrors_keeps [May gs .free] [May gs .regs] [May gs .work] [May gs .caches] [May gs .cores] [May
    gs .mem] [May gs .pair] (take : Mirror → Bool) (hk : Keeps gs z s) : Keeps gs z (State.promoteMirrors take
    s) := by
  unfold State.promoteMirrors
  repeat' (first | with_reducible assumption | with_reducible apply updPair_keeps | with_reducible apply forEach_keeps | with_reducible apply count_keeps | with_reducible apply promotePages_keeps | with_reducible apply promoteRounds_keeps | with_reducible apply dropMirrorRefs_keeps | extract_lets | with_reducible apply ite_keeps | split | (intro _; intros; beta_reduce at *) | (dsimp only) | (refine keeps_snd (by assumption) ?_) | (dsimp +zetaDelta only))

theorem promoteAll_keeps [May gs .free] [May gs .regs] [May gs .tb] [May gs .hif] [May gs .work] [May gs
    .caches] [May gs .cores] [May gs .mem] [May gs .pair] [May gs .keeper] [May gs .out] (hk : Keeps gs z s) :
    Keeps gs z (State.promoteAll s) := by
  unfold State.promoteAll
  repeat' (first | with_reducible assumption | with_reducible apply updPair_keeps | with_reducible apply count_keeps | with_reducible apply addRecord_keeps | with_reducible apply setPair_keeps | with_reducible apply promoteMirrors_keeps | extract_lets | with_reducible apply ite_keeps | split | (intro _; intros; beta_reduce at *) | (dsimp +zetaDelta only))

theorem promoteHandovers_keeps [May gs .free] [May gs .regs] [May gs .hif] [May gs .work] [May gs .caches] [May
    gs .cores] [May gs .mem] [May gs .pair] [May gs .out] (hk : Keeps gs z s) : Keeps gs z
    (State.promoteHandovers s) := by
  unfold State.promoteHandovers
  repeat' (first | with_reducible assumption | with_reducible apply updPair_keeps | with_reducible apply devEvent_keeps | with_reducible apply promoteMirrors_keeps | extract_lets | with_reducible apply ite_keeps | split | (intro _; intros; beta_reduce at *) | (dsimp +zetaDelta only))

theorem releaseGiven_keeps [May gs .hif] [May gs .work] [May gs .caches] [May gs .cores] [May gs .mem] [May gs
    .pair] [May gs .out] (id : Nat) (hk : Keeps gs z s) : Keeps gs z (State.releaseGiven id s) := by
  unfold State.releaseGiven
  repeat' (first | with_reducible assumption | with_reducible apply updPair_keeps | with_reducible apply releasePages_keeps | with_reducible apply freeExtent_keeps | with_reducible apply removeStream_keeps | extract_lets | with_reducible apply ite_keeps | split | (intro _; intros; beta_reduce at *) | (dsimp +zetaDelta only))

theorem handbackBeat_keeps [May gs .regs] [May gs .hif] [May gs .work] [May gs .caches] [May gs .cores] [May gs
    .mem] [May gs .pair] [May gs .out] (hk : Keeps gs z s) : Keeps gs z (State.handbackBeat s) := by
  unfold State.handbackBeat
  repeat' (first | with_reducible assumption | with_reducible apply updPair_keeps | with_reducible apply forEach_keeps | with_reducible apply updStream_keeps | with_reducible apply setReg_keeps | with_reducible apply dropChunks_keeps | with_reducible apply unlaunch_keeps | with_reducible apply releaseGiven_keeps | extract_lets | with_reducible apply ite_keeps | split | (intro _; intros; beta_reduce at *) | (dsimp +zetaDelta only))

theorem fenceTest_keeps [May gs .regs] [May gs .tb] [May gs .hif] [May gs .work] [May gs .cores] [May gs .mem]
    [May gs .pair] [May gs .out] (hk : Keeps gs z s) : Keeps gs z (State.fenceTest s) := by
  unfold State.fenceTest
  repeat' (first | with_reducible assumption | with_reducible apply sendFlit_keeps | with_reducible apply takeover_keeps | extract_lets | with_reducible apply ite_keeps | split | (intro _; intros; beta_reduce at *) | (dsimp +zetaDelta only))

theorem execBeatBoundary_keeps [May gs .free] [May gs .regs] [May gs .tb] [May gs .hif] [May gs .work] [May gs
    .caches] [May gs .cores] [May gs .mem] [May gs .pair] [May gs .keeper] [May gs .out] (beat : Nat) (hk :
    Keeps gs z s) : KeepsRes gs z (execBeatBoundary beat s) := by
  unfold execBeatBoundary
  refine KeepsRes.next ?_
  repeat' (first | with_reducible assumption | with_reducible apply updHif_keeps | with_reducible apply updWork_keeps | with_reducible apply forEach_keeps | with_reducible apply advanceTo_keeps | with_reducible apply rejoin_keeps | with_reducible apply promoteAll_keeps | with_reducible apply promoteHandovers_keeps | with_reducible apply handbackBeat_keeps | with_reducible apply fenceTest_keeps | with_reducible apply keeps_elimSnd | extract_lets | with_reducible apply ite_keeps | split | (intro _; intros; beta_reduce at *) | (dsimp +zetaDelta only))

theorem execCoreProgressWatchdog_keeps [May gs .regs] [May gs .hif] [May gs .work] [May gs .cores] [May gs .mem]
    [May gs .pair] [May gs .keeper] [May gs .out] (core : Nat) (hk : Keeps gs z s) : KeepsRes gs z
    (execCoreProgressWatchdog core s) := by
  unfold execCoreProgressWatchdog
  refine KeepsRes.next ?_
  repeat' (first | with_reducible assumption | with_reducible apply fault_keeps | extract_lets | with_reducible apply ite_keeps | split | (intro _; intros; beta_reduce at *) | (dsimp +zetaDelta only))

theorem execBeatServiceWatchdog_keeps [May gs .free] [May gs .regs] [May gs .tb] [May gs .hif] [May gs .work]
    [May gs .cores] [May gs .mem] [May gs .pair] [May gs .keeper] [May gs .out] (beat : Nat) (hk : Keeps gs z s)
    : KeepsRes gs z (execBeatServiceWatchdog beat s) := by
  unfold execBeatServiceWatchdog
  refine KeepsRes.next ?_
  repeat' (first | with_reducible assumption | with_reducible apply advanceTo_keeps | with_reducible apply fault_keeps | extract_lets | with_reducible apply ite_keeps | split | (intro _; intros; beta_reduce at *) | (dsimp +zetaDelta only))

theorem execCxlPortTrained_keeps [May gs .bridle] [May gs .board] (port : Nat) (width : Nat) (speed : Nat)
    (capacity : Nat) (ide : Bool) (chain : List Byte) (hk : Keeps gs z s) : KeepsRes gs z (execCxlPortTrained
    port width speed capacity ide chain s) := by
  unfold execCxlPortTrained
  refine KeepsRes.next ?_
  repeat' (first | with_reducible assumption | with_reducible apply updBoard_keeps | with_reducible apply setMeas_keeps | extract_lets | with_reducible apply ite_keeps | split | (intro _; intros; beta_reduce at *) | (dsimp +zetaDelta only))

theorem execCxlDown_keeps [May gs .regs] [May gs .hif] [May gs .mem] [May gs .board] [May gs .out] (port : Nat)
    (hk : Keeps gs z s) : KeepsRes gs z (execCxlDown port s) := by
  unfold execCxlDown
  refine KeepsRes.next ?_
  repeat' (first | with_reducible assumption | with_reducible apply updBoard_keeps | with_reducible apply bump_keeps | with_reducible apply devEvent_keeps | extract_lets | with_reducible apply ite_keeps | split | (intro _; intros; beta_reduce at *) | (dsimp +zetaDelta only))

end Sys2Proof.Machine
end

