-- ==== Sys2Proof/Laws/KeepsDevice.lean ====
section
/-! SUPPORT. No register write, reset, supply event or time source breaks Safety.Keeps. -/

namespace Sys2Proof.Machine

open Sys2Proof Safety

set_option linter.unreachableTactic false
set_option linter.unusedTactic false
set_option linter.unusedVariables false

variable {z s : State} {gs : List Area}

theorem resetRecord_keeps [May gs .keeper] (k : ResetKind) (x : Nat) (hk : Keeps gs z s) : Keeps gs z
    (State.resetRecord k x s) := by
  unfold State.resetRecord
  repeat' (first | with_reducible assumption | with_reducible apply addRecord_keeps | extract_lets | with_reducible apply ite_keeps | split | (intro _; intros; beta_reduce at *) | (dsimp +zetaDelta only))

theorem nil_wf : Memory.wf ([] : Mem) := by decide

theorem devReset_num (cs : List Core) : (cs.map Core.devReset).map (·.num) = cs.map (·.num) := by
  rw [List.map_map]
  exact List.map_congr_left fun _ _ => rfl

theorem reset_num (cs : List Core) : (cs.map fun k => Core.reset k.num).map (·.num) = cs.map (·.num) := by
  rw [List.map_map]
  exact List.map_congr_left fun _ _ => rfl

theorem devReset_keeps [May gs .regs] [May gs .tb] [May gs .hif] [May gs .work] [May gs .caches] [May gs .cores]
    [May gs .mem] [May gs .pair] [May gs .keeper] [May gs .bridle] [May gs .power] [May gs .board] [May gs .out]
    (k : ResetKind) (hk : Keeps gs z s) : Keeps gs z (State.devReset k s) := by
  unfold State.devReset
  extract_lets s1 s2 clients
  have h2 : Keeps gs z s2 := resetRecord_keeps _ _ (ite_keeps hk (sendFlit_keeps _ _ hk))
  clear_value s2
  exact h2.trans ⟨rfl, rfl, devReset_num _, fun w => ⟨nil_wf, nil_wf, nil_wf, w.2.2.2⟩,
    by intro a ha; cases a <;> first | exact absurd Fact.out ha | exact rfl⟩

theorem becomeReady_keeps [May gs .regs] [May gs .keeper] [May gs .power] (hk : Keeps gs z s) : Keeps gs z
    (State.becomeReady s) := by
  unfold State.becomeReady
  repeat' (first | with_reducible assumption | with_reducible apply updPower_keeps | with_reducible apply setReg_keeps | with_reducible apply bump_keeps | with_reducible apply addRecord_keeps | extract_lets | with_reducible apply ite_keeps | split | (intro _; intros; beta_reduce at *) | (dsimp +zetaDelta only))

theorem warmReset_keeps [May gs .regs] [May gs .tb] [May gs .hif] [May gs .work] [May gs .caches] [May gs
    .cores] [May gs .mem] [May gs .pair] [May gs .keeper] [May gs .bridle] [May gs .power] [May gs .board] [May
    gs .out] (hk : Keeps gs z s) : Keeps gs z (State.warmReset s) := by
  unfold State.warmReset
  repeat' (first | with_reducible assumption | with_reducible apply bootChain_keeps | with_reducible apply devReset_keeps | extract_lets | with_reducible apply ite_keeps | split | (intro _; intros; beta_reduce at *) | (dsimp +zetaDelta only))

theorem resetCore_keeps [May gs .regs] [May gs .cores] [May gs .mem] (c : Nat) (hk : Keeps gs z s) : Keeps gs z
    (State.resetCore c s) := by
  unfold State.resetCore
  exact updMem_erase_keeps _ _ (updRegs_keeps _ (updCore_keeps (fun _ e => e.symm) hk))

theorem partResetBegin_keeps [May gs .regs] [May gs .hif] [May gs .work] [May gs .caches] [May gs .cores] [May
    gs .mem] [May gs .pair] [May gs .out] (p : Nat) (hk : Keeps gs z s) : Keeps gs z (State.partResetBegin p s)
    := by
  unfold State.partResetBegin
  repeat' (first | with_reducible assumption | with_reducible apply updHif_keeps | with_reducible apply updWork_keeps | with_reducible apply updCaches_keeps | with_reducible apply when_keeps | with_reducible apply forEach_keeps | with_reducible apply sendFlit_keeps | with_reducible apply dropPartMirrors_keeps | with_reducible apply resetCore_keeps | extract_lets | with_reducible apply ite_keeps | split | (intro _; intros; beta_reduce at *) | (dsimp +zetaDelta only))

theorem partResetEnd_keeps [May gs .work] (p : Nat) (hk : Keeps gs z s) : Keeps gs z (State.partResetEnd p s) := by
  unfold State.partResetEnd
  repeat' (first | with_reducible assumption | with_reducible apply updWork_keeps | extract_lets | with_reducible apply ite_keeps | split | (intro _; intros; beta_reduce at *) | (dsimp +zetaDelta only))

theorem execPartitionResetDone_keeps [May gs .work] (p : Nat) (hk : Keeps gs z s) : KeepsRes gs z
    (execPartitionResetDone p s) := by
  unfold execPartitionResetDone
  refine KeepsRes.next ?_
  repeat' (first | with_reducible assumption | with_reducible apply partResetEnd_keeps | extract_lets | with_reducible apply ite_keeps | split | (intro _; intros; beta_reduce at *) | (dsimp +zetaDelta only))

theorem execFlrVf_keeps [May gs .regs] [May gs .hif] [May gs .work] [May gs .caches] [May gs .cores] [May gs
    .mem] [May gs .pair] [May gs .keeper] [May gs .power] [May gs .out] (n : Nat) (hk : Keeps gs z s) : KeepsRes
    gs z (execFlrVf n s) := by
  unfold execFlrVf
  refine KeepsRes.next ?_
  repeat' (first | with_reducible assumption | with_reducible apply updHif_keeps | with_reducible apply updWork_keeps | with_reducible apply updPower_keeps | with_reducible apply forEach_keeps | with_reducible apply resetRecord_keeps | with_reducible apply partResetBegin_keeps | extract_lets | with_reducible apply ite_keeps | split | (intro _; intros; beta_reduce at *) | (dsimp +zetaDelta only))

theorem execSysRstN_keeps [May gs .regs] [May gs .tb] [May gs .hif] [May gs .work] [May gs .caches] [May gs
    .cores] [May gs .mem] [May gs .pair] [May gs .keeper] [May gs .bridle] [May gs .power] [May gs .board] [May
    gs .out] (hk : Keeps gs z s) : KeepsRes gs z (execSysRstN s) := by
  unfold execSysRstN
  refine KeepsRes.next ?_
  repeat' (first | with_reducible assumption | with_reducible apply updPower_keeps | with_reducible apply devReset_keeps | extract_lets | with_reducible apply ite_keeps | split | (intro _; intros; beta_reduce at *) | (dsimp +zetaDelta only))

theorem execSysRstNRelease_keeps [May gs .power] [May gs .board] (hk : Keeps gs z s) : KeepsRes gs z
    (execSysRstNRelease s) := by
  unfold execSysRstNRelease
  refine KeepsRes.next ?_
  repeat' (first | with_reducible assumption | with_reducible apply updPower_keeps | with_reducible apply updBoard_keeps | extract_lets | with_reducible apply ite_keeps | split | (intro _; intros; beta_reduce at *) | (dsimp +zetaDelta only))

theorem execColdResetRelease_keeps [May gs .regs] [May gs .tb] [May gs .hif] [May gs .work] [May gs .caches]
    [May gs .cores] [May gs .mem] [May gs .pair] [May gs .keeper] [May gs .bridle] [May gs .power] [May gs
    .board] [May gs .out] (inOrder : Bool) (hk : Keeps gs z s) : KeepsRes gs z (execColdResetRelease inOrder s)
    := by
  unfold execColdResetRelease
  refine KeepsRes.next ?_
  repeat' (first | with_reducible assumption | with_reducible apply updTb_keeps | with_reducible apply updPower_keeps | with_reducible apply when_keeps | with_reducible apply timebaseEvent_keeps | with_reducible apply bootChain_keeps | with_reducible apply devReset_keeps | extract_lets | with_reducible apply ite_keeps | split | (intro _; intros; beta_reduce at *) | (dsimp +zetaDelta only))

theorem execHbmTrainingDone_keeps [May gs .regs] [May gs .keeper] [May gs .power] (us : Nat) (hk : Keeps gs z s)
    : KeepsRes gs z (execHbmTrainingDone us s) := by
  unfold execHbmTrainingDone
  refine KeepsRes.next ?_
  repeat' (first | with_reducible assumption | with_reducible apply updPower_keeps | with_reducible apply becomeReady_keeps | extract_lets | with_reducible apply ite_keeps | split | (intro _; intros; beta_reduce at *) | (dsimp +zetaDelta only))

theorem execFlrPf_keeps [May gs .regs] [May gs .tb] [May gs .hif] [May gs .work] [May gs .caches] [May gs
    .cores] [May gs .mem] [May gs .pair] [May gs .keeper] [May gs .bridle] [May gs .power] [May gs .board] [May
    gs .out] (hk : Keeps gs z s) : KeepsRes gs z (execFlrPf s) := by
  unfold execFlrPf
  refine KeepsRes.next ?_
  repeat' (first | with_reducible assumption | with_reducible apply devReset_keeps | extract_lets | with_reducible apply ite_keeps | split | (intro _; intros; beta_reduce at *) | (dsimp +zetaDelta only))

theorem execFlrReady_keeps [May gs .regs] [May gs .keeper] [May gs .power] (hk : Keeps gs z s) : KeepsRes gs z
    (execFlrReady s) := by
  unfold execFlrReady
  refine KeepsRes.next ?_
  repeat' (first | with_reducible assumption | with_reducible apply becomeReady_keeps | extract_lets | with_reducible apply ite_keeps | split | (intro _; intros; beta_reduce at *) | (dsimp +zetaDelta only))

theorem warmTrigger_keeps [May gs .regs] [May gs .tb] [May gs .hif] [May gs .work] [May gs .caches] [May gs
    .cores] [May gs .mem] [May gs .pair] [May gs .keeper] [May gs .bridle] [May gs .power] [May gs .board] [May
    gs .out] (hk : Keeps gs z s) : Keeps gs z (State.warmTrigger s) := by
  unfold State.warmTrigger
  repeat' (first | with_reducible assumption | with_reducible apply warmReset_keeps | extract_lets | with_reducible apply ite_keeps | split | (intro _; intros; beta_reduce at *) | (dsimp +zetaDelta only))

theorem execHostLinkReset_keeps [May gs .regs] [May gs .tb] [May gs .hif] [May gs .work] [May gs .caches] [May
    gs .cores] [May gs .mem] [May gs .pair] [May gs .keeper] [May gs .bridle] [May gs .power] [May gs .board]
    [May gs .out] (hk : Keeps gs z s) : KeepsRes gs z (execHostLinkReset s) := by
  unfold execHostLinkReset
  refine KeepsRes.next ?_
  repeat' (first | with_reducible assumption | with_reducible apply warmTrigger_keeps | extract_lets | with_reducible apply ite_keeps | split | (intro _; intros; beta_reduce at *) | (dsimp +zetaDelta only))

theorem execPerstNAssert_keeps [May gs .power] (hk : Keeps gs z s) : KeepsRes gs z (execPerstNAssert s) := by
  unfold execPerstNAssert
  refine KeepsRes.next ?_
  repeat' (first | with_reducible assumption | with_reducible apply updPower_keeps | extract_lets | with_reducible apply ite_keeps | split | (intro _; intros; beta_reduce at *) | (dsimp +zetaDelta only))

theorem execSleepEntry_keeps [May gs .regs] [May gs .tb] [May gs .hif] [May gs .mem] [May gs .power] [May gs
    .out] (hk : Keeps gs z s) : KeepsRes gs z (execSleepEntry s) := by
  unfold execSleepEntry
  refine KeepsRes.next ?_
  repeat' (first | with_reducible assumption | with_reducible apply updTb_keeps | with_reducible apply updPower_keeps | with_reducible apply timebaseEvent_keeps | extract_lets | with_reducible apply ite_keeps | split | (intro _; intros; beta_reduce at *) | (dsimp +zetaDelta only))

theorem execPerstNRelease_keeps [May gs .regs] [May gs .tb] [May gs .hif] [May gs .work] [May gs .caches] [May
    gs .cores] [May gs .mem] [May gs .pair] [May gs .keeper] [May gs .bridle] [May gs .power] [May gs .board]
    [May gs .out] (hk : Keeps gs z s) : KeepsRes gs z (execPerstNRelease s) := by
  unfold execPerstNRelease
  refine KeepsRes.next ?_
  repeat' (first | with_reducible assumption | with_reducible apply updTb_keeps | with_reducible apply updPower_keeps | with_reducible apply timebaseEvent_keeps | with_reducible apply warmTrigger_keeps | extract_lets | with_reducible apply ite_keeps | split | (intro _; intros; beta_reduce at *) | (dsimp +zetaDelta only))

theorem execVtackApplied_keeps [May gs .tb] [May gs .power] (hk : Keeps gs z s) : KeepsRes gs z
    (execVtackApplied s) := by
  unfold execVtackApplied
  refine KeepsRes.next ?_
  repeat' (first | with_reducible assumption | with_reducible apply updPower_keeps | extract_lets | with_reducible apply ite_keeps | split | (intro _; intros; beta_reduce at *) | with_reducible exact hk.same rfl rfl rfl rfl | (dsimp +zetaDelta only))

theorem execVtackRemoved_keeps [May gs .regs] [May gs .tb] [May gs .hif] [May gs .work] [May gs .caches] [May gs
    .cores] [May gs .mem] [May gs .pair] [May gs .keeper] [May gs .bridle] [May gs .power] [May gs .board] (hk :
    Keeps gs z s) : KeepsRes gs z (execVtackRemoved s) := by
  unfold execVtackRemoved
  exact KeepsRes.next (hk.trans ⟨rfl, rfl, reset_num _, fun w => ⟨nil_wf, nil_wf, nil_wf, w.2.2.2⟩,
    by intro a ha; cases a <;> first | exact absurd Fact.out ha | exact rfl⟩)

theorem execTackOscStable_keeps [May gs .power] (hk : Keeps gs z s) : KeepsRes gs z (execTackOscStable s) := by
  unfold execTackOscStable
  refine KeepsRes.next ?_
  repeat' (first | with_reducible assumption | with_reducible apply updPower_keeps | extract_lets | with_reducible apply ite_keeps | split | (intro _; intros; beta_reduce at *) | (dsimp +zetaDelta only))

theorem execMainRailsLost_keeps [May gs .tb] [May gs .work] [May gs .cores] [May gs .pair] [May gs .power] (hk :
    Keeps gs z s) : KeepsRes gs z (execMainRailsLost s) := by
  unfold execMainRailsLost
  refine KeepsRes.next ?_
  repeat' (first | with_reducible assumption | with_reducible apply updTb_keeps | with_reducible apply updPower_keeps | with_reducible apply loseAll_keeps | extract_lets | with_reducible apply ite_keeps | split | (intro _; intros; beta_reduce at *) | (dsimp +zetaDelta only))

theorem powerFail_keeps [May gs .regs] [May gs .work] [May gs .cores] [May gs .pair] [May gs .keeper] [May gs
    .power] [May gs .out] (source : Nat) (hk : Keeps gs z s) : Keeps gs z (State.powerFail source s) := by
  unfold State.powerFail
  repeat' (first | with_reducible assumption | with_reducible apply updPair_keeps | with_reducible apply updKeeper_keeps | with_reducible apply updPower_keeps | with_reducible apply count_keeps | with_reducible apply addRecord_keeps | with_reducible apply sendFlit_keeps | with_reducible apply loseAll_keeps | extract_lets | with_reducible apply ite_keeps | split | (intro _; intros; beta_reduce at *) | (dsimp +zetaDelta only))

theorem execPowerFailEvent_keeps [May gs .regs] [May gs .work] [May gs .cores] [May gs .pair] [May gs .keeper]
    [May gs .power] [May gs .out] (hk : Keeps gs z s) : KeepsRes gs z (execPowerFailEvent s) := by
  unfold execPowerFailEvent
  refine KeepsRes.next ?_
  repeat' (first | with_reducible assumption | with_reducible apply powerFail_keeps | extract_lets | with_reducible apply ite_keeps | split | (intro _; intros; beta_reduce at *) | (dsimp +zetaDelta only))

theorem execBrownout_keeps [May gs .regs] [May gs .work] [May gs .cores] [May gs .pair] [May gs .keeper] [May gs
    .power] [May gs .out] (rail : Nat) (hk : Keeps gs z s) : KeepsRes gs z (execBrownout rail s) := by
  unfold execBrownout
  refine KeepsRes.next ?_
  repeat' (first | with_reducible assumption | with_reducible apply powerFail_keeps | extract_lets | with_reducible apply ite_keeps | split | (intro _; intros; beta_reduce at *) | (dsimp +zetaDelta only))

theorem execHoldupEnd_keeps [May gs .regs] [May gs .tb] [May gs .keeper] [May gs .power] (hk : Keeps gs z s) :
    KeepsRes gs z (execHoldupEnd s) := by
  unfold execHoldupEnd
  refine KeepsRes.next ?_
  repeat' (first | with_reducible assumption | with_reducible apply updTb_keeps | with_reducible apply updKeeper_keeps | with_reducible apply updPower_keeps | with_reducible apply count_keeps | extract_lets | with_reducible apply ite_keeps | split | (intro _; intros; beta_reduce at *) | (dsimp +zetaDelta only))

theorem execPowerFailRelease_keeps [May gs .power] (hk : Keeps gs z s) : KeepsRes gs z (execPowerFailRelease s) := by
  unfold execPowerFailRelease
  refine KeepsRes.next ?_
  repeat' (first | with_reducible assumption | with_reducible apply updPower_keeps | extract_lets | with_reducible apply ite_keeps | split | (intro _; intros; beta_reduce at *) | (dsimp +zetaDelta only))

theorem execHoldupCharge_keeps [May gs .keeper] (ok : Bool) (hk : Keeps gs z s) : KeepsRes gs z
    (execHoldupCharge ok s) := by
  unfold execHoldupCharge
  refine KeepsRes.next ?_
  repeat' (first | with_reducible assumption | with_reducible apply updKeeper_keeps | extract_lets | with_reducible apply ite_keeps | split | (intro _; intros; beta_reduce at *) | (dsimp +zetaDelta only))

theorem execKeeperCommitStart_keeps [May gs .keeper] (hk : Keeps gs z s) : KeepsRes gs z (execKeeperCommitStart
    s) := by
  unfold execKeeperCommitStart
  refine KeepsRes.next ?_
  repeat' (first | with_reducible assumption | with_reducible apply commitStart_keeps | extract_lets | with_reducible apply ite_keeps | split | (intro _; intros; beta_reduce at *) | (dsimp +zetaDelta only))

theorem execKeeperCommitDone_keeps [May gs .keeper] (hk : Keeps gs z s) : KeepsRes gs z (execKeeperCommitDone s) := by
  unfold execKeeperCommitDone
  refine KeepsRes.next ?_
  repeat' (first | with_reducible assumption | with_reducible apply commitDone_keeps | extract_lets | with_reducible apply ite_keeps | split | (intro _; intros; beta_reduce at *) | (dsimp +zetaDelta only))

theorem warnUpdate_keeps [May gs .regs] [May gs .power] (hk : Keeps gs z s) : Keeps gs z (State.warnUpdate s) := by
  unfold State.warnUpdate
  repeat' (first | with_reducible assumption | with_reducible apply updPower_keeps | with_reducible apply when_keeps | with_reducible apply bump_keeps | extract_lets | with_reducible apply ite_keeps | split | (intro _; intros; beta_reduce at *) | (dsimp +zetaDelta only))

theorem execPowerSample_keeps [May gs .regs] [May gs .power] (r : PowerReading) (hk : Keeps gs z s) : KeepsRes
    gs z (execPowerSample r s) := by
  unfold execPowerSample
  refine KeepsRes.next ?_
  repeat' (first | with_reducible assumption | with_reducible apply updPower_keeps | with_reducible apply when_keeps | with_reducible apply forEach_keeps | with_reducible apply setReg_keeps | with_reducible apply count_keeps | with_reducible apply bump_keeps | extract_lets | with_reducible apply ite_keeps | split | (intro _; intros; beta_reduce at *) | (dsimp +zetaDelta only))

theorem execWarningTemperature_keeps [May gs .regs] [May gs .power] (temps : List Nat) (hk : Keeps gs z s) :
    KeepsRes gs z (execWarningTemperature temps s) := by
  unfold execWarningTemperature
  refine KeepsRes.next ?_
  repeat' (first | with_reducible assumption | with_reducible apply forEach_keeps | with_reducible apply setReg_keeps | with_reducible apply warnUpdate_keeps | extract_lets | with_reducible apply ite_keeps | split | (intro _; intros; beta_reduce at *) | (dsimp +zetaDelta only))

theorem execThermTrip_keeps [May gs .power] [May gs .out] (die : Nat) (hk : Keeps gs z s) : KeepsRes gs z
    (execThermTrip die s) := by
  unfold execThermTrip
  refine KeepsRes.next ?_
  repeat' (first | with_reducible assumption | with_reducible apply updPower_keeps | with_reducible apply emit_keeps | extract_lets | with_reducible apply ite_keeps | split | (intro _; intros; beta_reduce at *) | (dsimp +zetaDelta only))

theorem execRefclkMLost_keeps [May gs .power] (hk : Keeps gs z s) : KeepsRes gs z (execRefclkMLost s) := by
  unfold execRefclkMLost
  refine KeepsRes.next ?_
  repeat' (first | with_reducible assumption | with_reducible apply updPower_keeps | extract_lets | with_reducible apply ite_keeps | split | (intro _; intros; beta_reduce at *) | (dsimp +zetaDelta only))

theorem execRefclkMReturn_keeps [May gs .power] (hk : Keeps gs z s) : KeepsRes gs z (execRefclkMReturn s) := by
  unfold execRefclkMReturn
  refine KeepsRes.next ?_
  repeat' (first | with_reducible assumption | with_reducible apply updPower_keeps | extract_lets | with_reducible apply ite_keeps | split | (intro _; intros; beta_reduce at *) | (dsimp +zetaDelta only))

theorem execTackCalibration_keeps [May gs .power] (hk : Keeps gs z s) : KeepsRes gs z (execTackCalibration s) := by
  unfold execTackCalibration
  refine KeepsRes.next ?_
  repeat' (first | with_reducible assumption | with_reducible apply updPower_keeps | extract_lets | with_reducible apply ite_keeps | split | (intro _; intros; beta_reduce at *) | (dsimp +zetaDelta only))

theorem tapLoad_keeps [May gs .board] (i : TapInstr) (gated : Bool) (hk : Keeps gs z s) : Keeps gs z
    (State.tapLoad i gated s) := by
  unfold State.tapLoad
  repeat' (first | with_reducible assumption | with_reducible apply updBoard_keeps | extract_lets | with_reducible apply ite_keeps | split | (intro _; intros; beta_reduce at *) | (dsimp +zetaDelta only))

theorem execTapReset_keeps [May gs .board] (hk : Keeps gs z s) : KeepsRes gs z (execTapReset s) := by
  unfold execTapReset
  refine KeepsRes.next ?_
  repeat' (first | with_reducible assumption | with_reducible apply updBoard_keeps | extract_lets | with_reducible apply ite_keeps | split | (intro _; intros; beta_reduce at *) | (dsimp +zetaDelta only))

theorem execBypass_keeps [May gs .board] (hk : Keeps gs z s) : KeepsRes gs z (execBypass s) := by
  unfold execBypass
  refine KeepsRes.next ?_
  repeat' (first | with_reducible assumption | with_reducible apply tapLoad_keeps | extract_lets | with_reducible apply ite_keeps | split | (intro _; intros; beta_reduce at *) | (dsimp +zetaDelta only))

theorem execSamplePreload_keeps [May gs .board] (hk : Keeps gs z s) : KeepsRes gs z (execSamplePreload s) := by
  unfold execSamplePreload
  refine KeepsRes.next ?_
  repeat' (first | with_reducible assumption | with_reducible apply tapLoad_keeps | extract_lets | with_reducible apply ite_keeps | split | (intro _; intros; beta_reduce at *) | (dsimp +zetaDelta only))

theorem execIdcode_keeps [May gs .board] [May gs .out] (hk : Keeps gs z s) : KeepsRes gs z (execIdcode s) := by
  unfold execIdcode
  refine KeepsRes.next ?_
  repeat' (first | with_reducible assumption | with_reducible apply emit_keeps | with_reducible apply tapLoad_keeps | extract_lets | with_reducible apply ite_keeps | split | (intro _; intros; beta_reduce at *) | (dsimp +zetaDelta only))

theorem execExtest_keeps [May gs .board] (hk : Keeps gs z s) : KeepsRes gs z (execExtest s) := by
  unfold execExtest
  refine KeepsRes.next ?_
  repeat' (first | with_reducible assumption | with_reducible apply tapLoad_keeps | extract_lets | with_reducible apply ite_keeps | split | (intro _; intros; beta_reduce at *) | (dsimp +zetaDelta only))

theorem execExtestPulse_keeps [May gs .board] (hk : Keeps gs z s) : KeepsRes gs z (execExtestPulse s) := by
  unfold execExtestPulse
  refine KeepsRes.next ?_
  repeat' (first | with_reducible assumption | with_reducible apply tapLoad_keeps | extract_lets | with_reducible apply ite_keeps | split | (intro _; intros; beta_reduce at *) | (dsimp +zetaDelta only))

theorem execExtestTrain_keeps [May gs .board] (hk : Keeps gs z s) : KeepsRes gs z (execExtestTrain s) := by
  unfold execExtestTrain
  refine KeepsRes.next ?_
  repeat' (first | with_reducible assumption | with_reducible apply tapLoad_keeps | extract_lets | with_reducible apply ite_keeps | split | (intro _; intros; beta_reduce at *) | (dsimp +zetaDelta only))

theorem execClamp_keeps [May gs .board] (hk : Keeps gs z s) : KeepsRes gs z (execClamp s) := by
  unfold execClamp
  refine KeepsRes.next ?_
  repeat' (first | with_reducible assumption | with_reducible apply tapLoad_keeps | extract_lets | with_reducible apply ite_keeps | split | (intro _; intros; beta_reduce at *) | (dsimp +zetaDelta only))

theorem execHighz_keeps [May gs .board] (hk : Keeps gs z s) : KeepsRes gs z (execHighz s) := by
  unfold execHighz
  refine KeepsRes.next ?_
  repeat' (first | with_reducible assumption | with_reducible apply tapLoad_keeps | extract_lets | with_reducible apply ite_keeps | split | (intro _; intros; beta_reduce at *) | (dsimp +zetaDelta only))

theorem wordRead_keeps [May gs .regs] [May gs .hif] (f : Nat) (off : Nat) (hk : Keeps gs z s) : Keeps gs z
    (State.wordRead f off s).2 := by
  unfold State.wordRead
  repeat' (first | with_reducible assumption | with_reducible apply ignore_keeps | with_reducible apply updFunc_keeps | extract_lets | with_reducible apply ite_keeps | split | (intro _; intros; beta_reduce at *) | (dsimp only) | (refine keeps_snd (by assumption) ?_) | (dsimp +zetaDelta only))

theorem narrowRead_keeps [May gs .regs] (f : Nat) (off : Nat) (size : Nat) (hk : Keeps gs z s) : Keeps gs z
    (State.narrowRead f off size s).2 := by
  unfold State.narrowRead
  repeat' (first | with_reducible assumption | with_reducible apply ignore_keeps | extract_lets | with_reducible apply ite_keeps | split | (intro _; intros; beta_reduce at *) | (dsimp only) | (refine keeps_snd (by assumption) ?_) | (dsimp +zetaDelta only))

theorem busRead_keeps [May gs .regs] [May gs .hif] (f : Nat) (off : Nat) (size : Nat) (hk : Keeps gs z s) :
    Keeps gs z (State.busRead f off size s).2 := by
  unfold State.busRead
  repeat' (first | with_reducible assumption | with_reducible apply ignore_keeps | with_reducible apply wordRead_keeps | with_reducible apply narrowRead_keeps | extract_lets | with_reducible apply ite_keeps | split | (intro _; intros; beta_reduce at *) | (dsimp only) | (refine keeps_snd (by assumption) ?_) | (dsimp +zetaDelta only))

theorem rgWrite_keeps [May gs .regs] [May gs .hif] (f : Nat) (off : Nat) (v : Nat) (hk : Keeps gs z s) : Keeps
    gs z (State.rgWrite f off v s) := by
  unfold State.rgWrite
  repeat' (first | with_reducible assumption | with_reducible apply ignore_keeps | with_reducible apply updRg_keeps | extract_lets | with_reducible apply ite_keeps | split | (intro _; intros; beta_reduce at *) | (dsimp +zetaDelta only))

theorem cinSet_keeps [May gs .regs] [May gs .tb] (v : Nat) (hk : Keeps gs z s) : Keeps gs z (State.cinSet v s) := by
  unfold State.cinSet
  repeat' (first | with_reducible assumption | with_reducible apply updTb_keeps | with_reducible apply setReg_keeps | with_reducible apply ignore_keeps | extract_lets | with_reducible apply ite_keeps | split | (intro _; intros; beta_reduce at *) | (dsimp +zetaDelta only))

theorem cinRate_keeps [May gs .regs] (v : Nat) (hk : Keeps gs z s) : Keeps gs z (State.cinRate v s) := by
  unfold State.cinRate
  repeat' (first | with_reducible assumption | with_reducible apply setReg_keeps | with_reducible apply ignore_keeps | extract_lets | with_reducible apply ite_keeps | split | (intro _; intros; beta_reduce at *) | (dsimp +zetaDelta only))

theorem cinOffset_keeps [May gs .regs] [May gs .tb] (v : Nat) (hk : Keeps gs z s) : Keeps gs z (State.cinOffset
    v s) := by
  unfold State.cinOffset
  repeat' (first | with_reducible assumption | with_reducible apply updTb_keeps | with_reducible apply ignore_keeps | extract_lets | with_reducible apply ite_keeps | split | (intro _; intros; beta_reduce at *) | (dsimp +zetaDelta only))

theorem cinCtrl_keeps [May gs .regs] [May gs .tb] (v : Nat) (hk : Keeps gs z s) : Keeps gs z (State.cinCtrl v s) := by
  unfold State.cinCtrl
  repeat' (first | with_reducible assumption | with_reducible apply updTb_keeps | with_reducible apply setReg_keeps | extract_lets | with_reducible apply ite_keeps | split | (intro _; intros; beta_reduce at *) | (dsimp +zetaDelta only))

theorem sdlCtrl_keeps [May gs .regs] [May gs .work] [May gs .bridle] (v : Nat) (hk : Keeps gs z s) : Keeps gs z
    (State.sdlCtrl v s) := by
  unfold State.sdlCtrl
  repeat' (first | with_reducible assumption | with_reducible apply updWork_keeps | with_reducible apply setReg_keeps | with_reducible apply ignore_keeps | with_reducible apply setMeas_keeps | extract_lets | with_reducible apply ite_keeps | split | (intro _; intros; beta_reduce at *) | (dsimp +zetaDelta only))

theorem prtCtrl_keeps [May gs .regs] [May gs .hif] [May gs .work] [May gs .caches] [May gs .cores] [May gs .mem]
    [May gs .pair] [May gs .keeper] [May gs .power] [May gs .out] (p : Nat) (v : Nat) (hk : Keeps gs z s) :
    Keeps gs z (State.prtCtrl p v s) := by
  unfold State.prtCtrl
  repeat' (first | with_reducible assumption | with_reducible apply updWork_keeps | with_reducible apply updPower_keeps | with_reducible apply when_keeps | with_reducible apply ignore_keeps | with_reducible apply resetRecord_keeps | with_reducible apply partResetBegin_keeps | extract_lets | with_reducible apply ite_keeps | split | (intro _; intros; beta_reduce at *) | (dsimp +zetaDelta only))

theorem rnlCtrl_keeps [May gs .regs] [May gs .tb] [May gs .hif] [May gs .work] [May gs .cores] [May gs .mem]
    [May gs .pair] [May gs .out] (v : Nat) (hk : Keeps gs z s) : Keeps gs z (State.rnlCtrl v s) := by
  unfold State.rnlCtrl
  repeat' (first | with_reducible assumption | with_reducible apply setReg_keeps | with_reducible apply pairCtrl_keeps | extract_lets | with_reducible apply ite_keeps | split | (intro _; intros; beta_reduce at *) | (dsimp +zetaDelta only))

theorem rnlTake_keeps [May gs .regs] [May gs .tb] [May gs .hif] [May gs .work] [May gs .cores] [May gs .mem]
    [May gs .pair] [May gs .out] (v : Nat) (hk : Keeps gs z s) : Keeps gs z (State.rnlTake v s) := by
  unfold State.rnlTake
  repeat' (first | with_reducible assumption | with_reducible apply ignore_keeps | with_reducible apply takeover_keeps | extract_lets | with_reducible apply ite_keeps | split | (intro _; intros; beta_reduce at *) | (dsimp +zetaDelta only))

theorem rnlHand_keeps [May gs .regs] [May gs .pair] (v : Nat) (hk : Keeps gs z s) : Keeps gs z (State.rnlHand v
    s) := by
  unfold State.rnlHand
  repeat' (first | with_reducible assumption | with_reducible apply updPair_keeps | with_reducible apply setReg_keeps | extract_lets | with_reducible apply ite_keeps | split | (intro _; intros; beta_reduce at *) | (dsimp +zetaDelta only))

theorem hwinWrite_keeps [May gs .regs] (off : Nat) (v : Nat) (hk : Keeps gs z s) : Keeps gs z (State.hwinWrite
    off v s) := by
  unfold State.hwinWrite
  repeat' (first | with_reducible assumption | with_reducible apply setReg_keeps | with_reducible apply ignore_keeps | extract_lets | with_reducible apply ite_keeps | split | (intro _; intros; beta_reduce at *) | (dsimp +zetaDelta only))

theorem accSelect_keeps [May gs .regs] [May gs .hif] (f : Nat) (v : Nat) (hk : Keeps gs z s) : Keeps gs z
    (State.accSelect f v s) := by
  unfold State.accSelect
  repeat' (first | with_reducible assumption | with_reducible apply when_keeps | with_reducible apply ignore_keeps | with_reducible apply updFunc_keeps | extract_lets | with_reducible apply ite_keeps | split | (intro _; intros; beta_reduce at *) | (dsimp +zetaDelta only))

theorem keeperSelect_keeps [May gs .hif] (f : Nat) (v : Nat) (hk : Keeps gs z s) : Keeps gs z
    (State.keeperSelect f v s) := by
  unfold State.keeperSelect
  repeat' (first | with_reducible assumption | with_reducible apply updFunc_keeps | extract_lets | with_reducible apply ite_keeps | split | (intro _; intros; beta_reduce at *) | (dsimp +zetaDelta only))

theorem snapshot_keeps [May gs .regs] [May gs .keeper] (hk : Keeps gs z s) : Keeps gs z (State.snapshot s) := by
  unfold State.snapshot
  repeat' (first | with_reducible assumption | with_reducible apply ignore_keeps | with_reducible apply addRecord_keeps | extract_lets | with_reducible apply ite_keeps | split | (intro _; intros; beta_reduce at *) | (dsimp +zetaDelta only))

theorem pwrReset_keeps [May gs .regs] [May gs .tb] [May gs .hif] [May gs .work] [May gs .caches] [May gs .cores]
    [May gs .mem] [May gs .pair] [May gs .keeper] [May gs .bridle] [May gs .power] [May gs .board] [May gs .out]
    (v : Nat) (hk : Keeps gs z s) : Keeps gs z (State.pwrReset v s) := by
  unfold State.pwrReset
  repeat' (first | with_reducible assumption | with_reducible apply ignore_keeps | with_reducible apply devReset_keeps | with_reducible apply warmTrigger_keeps | extract_lets | with_reducible apply ite_keeps | split | (intro _; intros; beta_reduce at *) | (dsimp +zetaDelta only))

theorem coreSeed_keeps [May gs .regs] [May gs .cores] [May gs .bridle] (c : Nat) (v : Nat) (hk : Keeps gs z s) :
    Keeps gs z (State.coreSeed c v s) := by
  unfold State.coreSeed
  repeat' (first | with_reducible assumption | ((with_reducible refine updCore_keeps ?_ ?_); on_goal 1 => (intros; first | rfl | (split <;> rfl))) | with_reducible apply setReg_keeps | with_reducible apply draw_keeps | extract_lets | with_reducible apply ite_keeps | split | (intro _; intros; beta_reduce at *) | (dsimp only) | (refine keeps_snd (by assumption) ?_) | (dsimp +zetaDelta only))

theorem regEffect_keeps [May gs .free] [May gs .regs] [May gs .tb] [May gs .hif] [May gs .work] [May gs .caches]
    [May gs .cores] [May gs .mem] [May gs .pair] [May gs .keeper] [May gs .bridle] [May gs .power] [May gs
    .board] [May gs .out] (f : Nat) (off : Nat) (v : Nat) (hk : Keeps gs z s) : Keeps gs z (State.regEffect f
    off v s) := by
  unfold State.regEffect
  repeat' (first | with_reducible assumption | with_reducible apply when_keeps | ((with_reducible refine updCore_keeps ?_ ?_); on_goal 1 => (intros; first | rfl | (split <;> rfl))) | with_reducible apply setReg_keeps | with_reducible apply updFunc_keeps | with_reducible apply flashAddr_keeps | with_reducible apply flashData_keeps | with_reducible apply activate_keeps | with_reducible apply rgWrite_keeps | with_reducible apply cinSet_keeps | with_reducible apply cinRate_keeps | with_reducible apply cinOffset_keeps | with_reducible apply cinCtrl_keeps | with_reducible apply sdlCtrl_keeps | with_reducible apply prtCtrl_keeps | with_reducible apply rnlCtrl_keeps | with_reducible apply rnlTake_keeps | with_reducible apply rnlHand_keeps | with_reducible apply hwinWrite_keeps | with_reducible apply accSelect_keeps | with_reducible apply keeperSelect_keeps | with_reducible apply snapshot_keeps | with_reducible apply pwrReset_keeps | with_reducible apply coreSeed_keeps | extract_lets | with_reducible apply ite_keeps | split | (intro _; intros; beta_reduce at *) | (dsimp +zetaDelta only))

theorem regWrite_keeps [May gs .free] [May gs .regs] [May gs .tb] [May gs .hif] [May gs .work] [May gs .caches]
    [May gs .cores] [May gs .mem] [May gs .pair] [May gs .keeper] [May gs .bridle] [May gs .power] [May gs
    .board] [May gs .out] (f : Nat) (b : Block) (a : RegAt) (v : Nat) (hk : Keeps gs z s) : Keeps gs z
    (State.regWrite f b a v s) := by
  unfold State.regWrite
  repeat' (first | with_reducible assumption | with_reducible apply setReg_keeps | with_reducible apply ignore_keeps | with_reducible apply regEffect_keeps | extract_lets | with_reducible apply ite_keeps | split | (intro _; intros; beta_reduce at *) | (dsimp +zetaDelta only))

theorem wordWrite_keeps [May gs .free] [May gs .regs] [May gs .tb] [May gs .hif] [May gs .work] [May gs .caches]
    [May gs .cores] [May gs .mem] [May gs .pair] [May gs .keeper] [May gs .bridle] [May gs .power] [May gs
    .board] [May gs .out] (f : Nat) (off : Nat) (v : Nat) (hk : Keeps gs z s) : Keeps gs z (State.wordWrite f
    off v s) := by
  unfold State.wordWrite
  repeat' (first | with_reducible assumption | with_reducible apply ignore_keeps | with_reducible apply updFunc_keeps | with_reducible apply regWrite_keeps | extract_lets | with_reducible apply ite_keeps | split | (intro _; intros; beta_reduce at *) | (dsimp +zetaDelta only))

theorem busWrite_keeps [May gs .free] [May gs .regs] [May gs .tb] [May gs .hif] [May gs .work] [May gs .caches]
    [May gs .cores] [May gs .mem] [May gs .pair] [May gs .keeper] [May gs .bridle] [May gs .power] [May gs
    .board] [May gs .out] (f : Nat) (off : Nat) (size : Nat) (v : Nat) (hk : Keeps gs z s) : Keeps gs z
    (State.busWrite f off size v s) := by
  unfold State.busWrite
  repeat' (first | with_reducible assumption | with_reducible apply ignore_keeps | with_reducible apply regWrite_keeps | with_reducible apply wordWrite_keeps | extract_lets | with_reducible apply ite_keeps | split | (intro _; intros; beta_reduce at *) | (dsimp +zetaDelta only))

theorem execLowWordRead_keeps [May gs .regs] [May gs .hif] [May gs .out] (f : Nat) (off : Nat) (size : Nat) (hk
    : Keeps gs z s) : KeepsRes gs z (execLowWordRead f off size s) := by
  unfold execLowWordRead
  refine KeepsRes.next ?_
  repeat' (first | with_reducible assumption | with_reducible apply emit_keeps | with_reducible apply busRead_keeps | extract_lets | with_reducible apply ite_keeps | split | (intro _; intros; beta_reduce at *) | (dsimp only) | (refine keeps_snd (by assumption) ?_) | (dsimp +zetaDelta only))

theorem execRegisterWrite_keeps [May gs .free] [May gs .regs] [May gs .tb] [May gs .hif] [May gs .work] [May gs
    .caches] [May gs .cores] [May gs .mem] [May gs .pair] [May gs .keeper] [May gs .bridle] [May gs .power] [May
    gs .board] [May gs .out] (f : Nat) (off : Nat) (size : Nat) (value : DWord) (hk : Keeps gs z s) : KeepsRes
    gs z (execRegisterWrite f off size value s) := by
  unfold execRegisterWrite
  refine KeepsRes.next ?_
  repeat' (first | with_reducible assumption | with_reducible apply busWrite_keeps | extract_lets | with_reducible apply ite_keeps | split | (intro _; intros; beta_reduce at *) | (dsimp +zetaDelta only))

theorem execCinSet_keeps [May gs .free] [May gs .regs] [May gs .tb] [May gs .hif] [May gs .work] [May gs
    .caches] [May gs .cores] [May gs .mem] [May gs .pair] [May gs .keeper] [May gs .bridle] [May gs .power] [May
    gs .board] [May gs .out] (f : Nat) (value : DWord) (hk : Keeps gs z s) : KeepsRes gs z (execCinSet f value
    s) := by
  unfold execCinSet
  refine KeepsRes.next ?_
  repeat' (first | with_reducible assumption | with_reducible apply busWrite_keeps | extract_lets | with_reducible apply ite_keeps | split | (intro _; intros; beta_reduce at *) | (dsimp +zetaDelta only))

theorem execCinOffsetAdj_keeps [May gs .free] [May gs .regs] [May gs .tb] [May gs .hif] [May gs .work] [May gs
    .caches] [May gs .cores] [May gs .mem] [May gs .pair] [May gs .keeper] [May gs .bridle] [May gs .power] [May
    gs .board] [May gs .out] (f : Nat) (value : Word) (hk : Keeps gs z s) : KeepsRes gs z (execCinOffsetAdj f
    value s) := by
  unfold execCinOffsetAdj
  refine KeepsRes.next ?_
  repeat' (first | with_reducible assumption | with_reducible apply busWrite_keeps | extract_lets | with_reducible apply ite_keeps | split | (intro _; intros; beta_reduce at *) | (dsimp +zetaDelta only))

theorem execCinRateAdj_keeps [May gs .free] [May gs .regs] [May gs .tb] [May gs .hif] [May gs .work] [May gs
    .caches] [May gs .cores] [May gs .mem] [May gs .pair] [May gs .keeper] [May gs .bridle] [May gs .power] [May
    gs .board] [May gs .out] (f : Nat) (value : Word) (hk : Keeps gs z s) : KeepsRes gs z (execCinRateAdj f
    value s) := by
  unfold execCinRateAdj
  refine KeepsRes.next ?_
  repeat' (first | with_reducible assumption | with_reducible apply busWrite_keeps | extract_lets | with_reducible apply ite_keeps | split | (intro _; intros; beta_reduce at *) | (dsimp +zetaDelta only))

theorem execCinMode_keeps [May gs .free] [May gs .regs] [May gs .tb] [May gs .hif] [May gs .work] [May gs
    .caches] [May gs .cores] [May gs .mem] [May gs .pair] [May gs .keeper] [May gs .bridle] [May gs .power] [May
    gs .board] [May gs .out] (f : Nat) (value : Word) (hk : Keeps gs z s) : KeepsRes gs z (execCinMode f value
    s) := by
  unfold execCinMode
  refine KeepsRes.next ?_
  repeat' (first | with_reducible assumption | with_reducible apply busWrite_keeps | extract_lets | with_reducible apply ite_keeps | split | (intro _; intros; beta_reduce at *) | (dsimp +zetaDelta only))

theorem execDeviceStart_keeps [May gs .free] [May gs .regs] [May gs .tb] [May gs .hif] [May gs .work] [May gs
    .caches] [May gs .cores] [May gs .mem] [May gs .pair] [May gs .keeper] [May gs .bridle] [May gs .power] [May
    gs .board] [May gs .out] (f : Nat) (value : Word) (hk : Keeps gs z s) : KeepsRes gs z (execDeviceStart f
    value s) := by
  unfold execDeviceStart
  refine KeepsRes.next ?_
  repeat' (first | with_reducible assumption | with_reducible apply busWrite_keeps | extract_lets | with_reducible apply ite_keeps | split | (intro _; intros; beta_reduce at *) | (dsimp +zetaDelta only))

theorem execPartitionStart_keeps [May gs .free] [May gs .regs] [May gs .tb] [May gs .hif] [May gs .work] [May gs
    .caches] [May gs .cores] [May gs .mem] [May gs .pair] [May gs .keeper] [May gs .bridle] [May gs .power] [May
    gs .board] [May gs .out] (f : Nat) (p : Nat) (hk : Keeps gs z s) : KeepsRes gs z (execPartitionStart f p s)
    := by
  unfold execPartitionStart
  refine KeepsRes.next ?_
  repeat' (first | with_reducible assumption | with_reducible apply busWrite_keeps | extract_lets | with_reducible apply ite_keeps | split | (intro _; intros; beta_reduce at *) | (dsimp +zetaDelta only))

theorem execPartitionReset_keeps [May gs .free] [May gs .regs] [May gs .tb] [May gs .hif] [May gs .work] [May gs
    .caches] [May gs .cores] [May gs .mem] [May gs .pair] [May gs .keeper] [May gs .bridle] [May gs .power] [May
    gs .board] [May gs .out] (f : Nat) (p : Nat) (hk : Keeps gs z s) : KeepsRes gs z (execPartitionReset f p s)
    := by
  unfold execPartitionReset
  refine KeepsRes.next ?_
  repeat' (first | with_reducible assumption | with_reducible apply busWrite_keeps | extract_lets | with_reducible apply ite_keeps | split | (intro _; intros; beta_reduce at *) | (dsimp +zetaDelta only))

theorem execRingGroupEnable_keeps [May gs .free] [May gs .regs] [May gs .tb] [May gs .hif] [May gs .work] [May
    gs .caches] [May gs .cores] [May gs .mem] [May gs .pair] [May gs .keeper] [May gs .bridle] [May gs .power]
    [May gs .board] [May gs .out] (f : Nat) (value : Word) (hk : Keeps gs z s) : KeepsRes gs z
    (execRingGroupEnable f value s) := by
  unfold execRingGroupEnable
  refine KeepsRes.next ?_
  repeat' (first | with_reducible assumption | with_reducible apply busWrite_keeps | extract_lets | with_reducible apply ite_keeps | split | (intro _; intros; beta_reduce at *) | (dsimp +zetaDelta only))

theorem execSdlAccSel_keeps [May gs .free] [May gs .regs] [May gs .tb] [May gs .hif] [May gs .work] [May gs
    .caches] [May gs .cores] [May gs .mem] [May gs .pair] [May gs .keeper] [May gs .bridle] [May gs .power] [May
    gs .board] [May gs .out] (f : Nat) (value : Word) (hk : Keeps gs z s) : KeepsRes gs z (execSdlAccSel f value
    s) := by
  unfold execSdlAccSel
  refine KeepsRes.next ?_
  repeat' (first | with_reducible assumption | with_reducible apply busWrite_keeps | extract_lets | with_reducible apply ite_keeps | split | (intro _; intros; beta_reduce at *) | (dsimp +zetaDelta only))

theorem execKprSel_keeps [May gs .free] [May gs .regs] [May gs .tb] [May gs .hif] [May gs .work] [May gs
    .caches] [May gs .cores] [May gs .mem] [May gs .pair] [May gs .keeper] [May gs .bridle] [May gs .power] [May
    gs .board] [May gs .out] (f : Nat) (seq : DWord) (hk : Keeps gs z s) : KeepsRes gs z (execKprSel f seq s) :=
    by
  unfold execKprSel
  refine KeepsRes.next ?_
  repeat' (first | with_reducible assumption | with_reducible apply busWrite_keeps | extract_lets | with_reducible apply ite_keeps | split | (intro _; intros; beta_reduce at *) | (dsimp +zetaDelta only))

theorem execSnap_keeps [May gs .free] [May gs .regs] [May gs .tb] [May gs .hif] [May gs .work] [May gs .caches]
    [May gs .cores] [May gs .mem] [May gs .pair] [May gs .keeper] [May gs .bridle] [May gs .power] [May gs
    .board] [May gs .out] (f : Nat) (hk : Keeps gs z s) : KeepsRes gs z (execSnap f s) := by
  unfold execSnap
  refine KeepsRes.next ?_
  repeat' (first | with_reducible assumption | with_reducible apply busWrite_keeps | extract_lets | with_reducible apply ite_keeps | split | (intro _; intros; beta_reduce at *) | (dsimp +zetaDelta only))

theorem execCorSrSeed_keeps [May gs .free] [May gs .regs] [May gs .tb] [May gs .hif] [May gs .work] [May gs
    .caches] [May gs .cores] [May gs .mem] [May gs .pair] [May gs .keeper] [May gs .bridle] [May gs .power] [May
    gs .board] [May gs .out] (f : Nat) (core : Nat) (value : DWord) (hk : Keeps gs z s) : KeepsRes gs z
    (execCorSrSeed f core value s) := by
  unfold execCorSrSeed
  refine KeepsRes.next ?_
  repeat' (first | with_reducible assumption | with_reducible apply busWrite_keeps | extract_lets | with_reducible apply ite_keeps | split | (intro _; intros; beta_reduce at *) | (dsimp +zetaDelta only))

theorem execPairEnable_keeps [May gs .free] [May gs .regs] [May gs .tb] [May gs .hif] [May gs .work] [May gs
    .caches] [May gs .cores] [May gs .mem] [May gs .pair] [May gs .keeper] [May gs .bridle] [May gs .power] [May
    gs .board] [May gs .out] (f : Nat) (value : Word) (hk : Keeps gs z s) : KeepsRes gs z (execPairEnable f
    value s) := by
  unfold execPairEnable
  refine KeepsRes.next ?_
  repeat' (first | with_reducible assumption | with_reducible apply busWrite_keeps | extract_lets | with_reducible apply ite_keeps | split | (intro _; intros; beta_reduce at *) | (dsimp +zetaDelta only))

theorem execPairLeave_keeps [May gs .free] [May gs .regs] [May gs .tb] [May gs .hif] [May gs .work] [May gs
    .caches] [May gs .cores] [May gs .mem] [May gs .pair] [May gs .keeper] [May gs .bridle] [May gs .power] [May
    gs .board] [May gs .out] (f : Nat) (value : Word) (hk : Keeps gs z s) : KeepsRes gs z (execPairLeave f value
    s) := by
  unfold execPairLeave
  refine KeepsRes.next ?_
  repeat' (first | with_reducible assumption | with_reducible apply busWrite_keeps | extract_lets | with_reducible apply ite_keeps | split | (intro _; intros; beta_reduce at *) | (dsimp +zetaDelta only))

theorem execRnlTakeover_keeps [May gs .free] [May gs .regs] [May gs .tb] [May gs .hif] [May gs .work] [May gs
    .caches] [May gs .cores] [May gs .mem] [May gs .pair] [May gs .keeper] [May gs .bridle] [May gs .power] [May
    gs .board] [May gs .out] (f : Nat) (value : Word) (hk : Keeps gs z s) : KeepsRes gs z (execRnlTakeover f
    value s) := by
  unfold execRnlTakeover
  refine KeepsRes.next ?_
  repeat' (first | with_reducible assumption | with_reducible apply busWrite_keeps | extract_lets | with_reducible apply ite_keeps | split | (intro _; intros; beta_reduce at *) | (dsimp +zetaDelta only))

theorem execHandback_keeps [May gs .free] [May gs .regs] [May gs .tb] [May gs .hif] [May gs .work] [May gs
    .caches] [May gs .cores] [May gs .mem] [May gs .pair] [May gs .keeper] [May gs .bridle] [May gs .power] [May
    gs .board] [May gs .out] (f : Nat) (value : Word) (hk : Keeps gs z s) : KeepsRes gs z (execHandback f value
    s) := by
  unfold execHandback
  refine KeepsRes.next ?_
  repeat' (first | with_reducible assumption | with_reducible apply busWrite_keeps | extract_lets | with_reducible apply ite_keeps | split | (intro _; intros; beta_reduce at *) | (dsimp +zetaDelta only))

theorem execBrdFlashAddr_keeps [May gs .free] [May gs .regs] [May gs .tb] [May gs .hif] [May gs .work] [May gs
    .caches] [May gs .cores] [May gs .mem] [May gs .pair] [May gs .keeper] [May gs .bridle] [May gs .power] [May
    gs .board] [May gs .out] (f : Nat) (value : Word) (hk : Keeps gs z s) : KeepsRes gs z (execBrdFlashAddr f
    value s) := by
  unfold execBrdFlashAddr
  refine KeepsRes.next ?_
  repeat' (first | with_reducible assumption | with_reducible apply busWrite_keeps | extract_lets | with_reducible apply ite_keeps | split | (intro _; intros; beta_reduce at *) | (dsimp +zetaDelta only))

theorem execBrdFlashData_keeps [May gs .free] [May gs .regs] [May gs .tb] [May gs .hif] [May gs .work] [May gs
    .caches] [May gs .cores] [May gs .mem] [May gs .pair] [May gs .keeper] [May gs .bridle] [May gs .power] [May
    gs .board] [May gs .out] (f : Nat) (i : Nat) (value : Word) (hk : Keeps gs z s) : KeepsRes gs z
    (execBrdFlashData f i value s) := by
  unfold execBrdFlashData
  refine KeepsRes.next ?_
  repeat' (first | with_reducible assumption | with_reducible apply busWrite_keeps | extract_lets | with_reducible apply ite_keeps | split | (intro _; intros; beta_reduce at *) | (dsimp +zetaDelta only))

theorem execActivate_keeps [May gs .free] [May gs .regs] [May gs .tb] [May gs .hif] [May gs .work] [May gs
    .caches] [May gs .cores] [May gs .mem] [May gs .pair] [May gs .keeper] [May gs .bridle] [May gs .power] [May
    gs .board] [May gs .out] (f : Nat) (hk : Keeps gs z s) : KeepsRes gs z (execActivate f s) := by
  unfold execActivate
  refine KeepsRes.next ?_
  repeat' (first | with_reducible assumption | with_reducible apply busWrite_keeps | extract_lets | with_reducible apply ite_keeps | split | (intro _; intros; beta_reduce at *) | (dsimp +zetaDelta only))

theorem execPwrResetCold_keeps [May gs .free] [May gs .regs] [May gs .tb] [May gs .hif] [May gs .work] [May gs
    .caches] [May gs .cores] [May gs .mem] [May gs .pair] [May gs .keeper] [May gs .bridle] [May gs .power] [May
    gs .board] [May gs .out] (f : Nat) (hk : Keeps gs z s) : KeepsRes gs z (execPwrResetCold f s) := by
  unfold execPwrResetCold
  refine KeepsRes.next ?_
  repeat' (first | with_reducible assumption | with_reducible apply busWrite_keeps | extract_lets | with_reducible apply ite_keeps | split | (intro _; intros; beta_reduce at *) | (dsimp +zetaDelta only))

theorem execPwrResetWarm_keeps [May gs .free] [May gs .regs] [May gs .tb] [May gs .hif] [May gs .work] [May gs
    .caches] [May gs .cores] [May gs .mem] [May gs .pair] [May gs .keeper] [May gs .bridle] [May gs .power] [May
    gs .board] [May gs .out] (f : Nat) (hk : Keeps gs z s) : KeepsRes gs z (execPwrResetWarm f s) := by
  unfold execPwrResetWarm
  refine KeepsRes.next ?_
  repeat' (first | with_reducible assumption | with_reducible apply busWrite_keeps | extract_lets | with_reducible apply ite_keeps | split | (intro _; intros; beta_reduce at *) | (dsimp +zetaDelta only))

theorem execHifKick_keeps [May gs .regs] [May gs .hif] (f : Nat) (g : Nat) (hk : Keeps gs z s) : KeepsRes gs z
    (execHifKick f g s) := by
  unfold execHifKick
  refine KeepsRes.next ?_
  repeat' (first | with_reducible assumption | with_reducible apply ignore_keeps | with_reducible apply updRg_keeps | extract_lets | with_reducible apply ite_keeps | split | (intro _; intros; beta_reduce at *) | (dsimp +zetaDelta only))

theorem execBar2Read_keeps [May gs .regs] [May gs .hif] [May gs .work] [May gs .cores] [May gs .mem] [May gs
    .pair] [May gs .keeper] [May gs .out] (off : Nat) (len : Nat) (u : Upset) (hk : Keeps gs z s) : KeepsRes gs
    z (execBar2Read off len u s) := by
  unfold execBar2Read
  refine KeepsRes.next ?_
  repeat' (first | with_reducible assumption | with_reducible apply emit_keeps | with_reducible apply ignore_keeps | with_reducible apply moveErrors_keeps | extract_lets | with_reducible apply ite_keeps | split | (intro _; intros; beta_reduce at *) | (dsimp +zetaDelta only))

theorem execBar2Write_keeps [May gs .free] [May gs .regs] [May gs .hif] [May gs .work] [May gs .caches] [May gs
    .cores] [May gs .mem] [May gs .pair] [May gs .keeper] [May gs .out] (off : Nat) (bytes : List Byte) (hk :
    Keeps gs z s) : KeepsRes gs z (execBar2Write off bytes s) := by
  unfold execBar2Write
  refine KeepsRes.next ?_
  repeat' (first | with_reducible assumption | with_reducible apply ignore_keeps | with_reducible apply writeLoc_keeps | with_reducible apply remoteWrite_keeps | with_reducible apply rouse_keeps | extract_lets | with_reducible apply ite_keeps | split | (intro _; intros; beta_reduce at *) | (dsimp +zetaDelta only))

theorem execPartnerAccess_keeps [May gs .free] [May gs .regs] [May gs .hif] [May gs .work] [May gs .caches] [May
    gs .cores] [May gs .mem] [May gs .pair] [May gs .keeper] [May gs .out] (r : PartnerReq) (u : Upset) (hk :
    Keeps gs z s) : KeepsRes gs z (execPartnerAccess r u s) := by
  unfold execPartnerAccess
  refine KeepsRes.next ?_
  repeat' (first | with_reducible assumption | with_reducible apply emit_keeps | with_reducible apply when_keeps | with_reducible apply hbmWrite_keeps | with_reducible apply dieWrite_keeps | with_reducible apply bump_keeps | with_reducible apply remoteWrite_keeps | with_reducible apply moveErrors_keeps | with_reducible apply rouse_keeps | extract_lets | with_reducible apply ite_keeps | split | (intro _; intros; beta_reduce at *) | (dsimp +zetaDelta only))

theorem ppsAccept_keeps [May gs .regs] [May gs .tb] [May gs .hif] [May gs .mem] [May gs .out] (stamp : Nat) (hk
    : Keeps gs z s) : Keeps gs z (State.ppsAccept stamp s) := by
  unfold State.ppsAccept
  repeat' (first | with_reducible assumption | with_reducible apply updTb_keeps | with_reducible apply when_keeps | with_reducible apply setReg_keeps | with_reducible apply timebaseEvent_keeps | extract_lets | with_reducible apply ite_keeps | split | (intro _; intros; beta_reduce at *) | (dsimp +zetaDelta only))

theorem execSyncPpsEdge_keeps [May gs .free] [May gs .regs] [May gs .tb] [May gs .hif] [May gs .mem] [May gs
    .out] (falling : Bool) (stamp : Nat) (hk : Keeps gs z s) : KeepsRes gs z (execSyncPpsEdge falling stamp s)
    := by
  unfold execSyncPpsEdge
  refine KeepsRes.next ?_
  repeat' (first | with_reducible assumption | with_reducible apply bump_keeps | with_reducible apply advanceTo_keeps | with_reducible apply ppsAccept_keeps | extract_lets | with_reducible apply ite_keeps | split | (intro _; intros; beta_reduce at *) | (dsimp +zetaDelta only))

theorem execPpsLost_keeps [May gs .free] [May gs .regs] [May gs .tb] [May gs .hif] [May gs .mem] [May gs .out]
    (hk : Keeps gs z s) : KeepsRes gs z (execPpsLost s) := by
  unfold execPpsLost
  refine KeepsRes.next ?_
  repeat' (first | with_reducible assumption | with_reducible apply updTb_keeps | with_reducible apply advanceTo_keeps | with_reducible apply timebaseEvent_keeps | extract_lets | with_reducible apply ite_keeps | split | (intro _; intros; beta_reduce at *) | (dsimp +zetaDelta only))

theorem execRefclkTLost_keeps [May gs .regs] [May gs .tb] [May gs .hif] [May gs .mem] [May gs .out] (hk : Keeps
    gs z s) : KeepsRes gs z (execRefclkTLost s) := by
  unfold execRefclkTLost
  refine KeepsRes.next ?_
  repeat' (first | with_reducible assumption | with_reducible apply updTb_keeps | with_reducible apply timebaseEvent_keeps | extract_lets | with_reducible apply ite_keeps | split | (intro _; intros; beta_reduce at *) | (dsimp +zetaDelta only))

theorem execRefclkTRelock_keeps [May gs .regs] [May gs .tb] [May gs .hif] [May gs .mem] [May gs .out] (hk :
    Keeps gs z s) : KeepsRes gs z (execRefclkTRelock s) := by
  unfold execRefclkTRelock
  refine KeepsRes.next ?_
  repeat' (first | with_reducible assumption | with_reducible apply updTb_keeps | with_reducible apply when_keeps | with_reducible apply setReg_keeps | with_reducible apply timebaseEvent_keeps | extract_lets | with_reducible apply ite_keeps | split | (intro _; intros; beta_reduce at *) | (dsimp +zetaDelta only))

theorem execHoldoverSecond_keeps [May gs .regs] (hk : Keeps gs z s) : KeepsRes gs z (execHoldoverSecond s) := by
  unfold execHoldoverSecond
  refine KeepsRes.next ?_
  repeat' (first | with_reducible assumption | with_reducible apply bump_keeps | extract_lets | with_reducible apply ite_keeps | split | (intro _; intros; beta_reduce at *) | (dsimp +zetaDelta only))

theorem execSlewComplete_keeps [May gs .free] [May gs .tb] (hk : Keeps gs z s) : KeepsRes gs z (execSlewComplete
    s) := by
  unfold execSlewComplete
  refine KeepsRes.next ?_
  repeat' (first | with_reducible assumption | with_reducible apply elapse_keeps | extract_lets | with_reducible apply ite_keeps | split | (intro _; intros; beta_reduce at *) | (dsimp +zetaDelta only))

end Sys2Proof.Machine
end

