-- ==== Sys2Proof/Laws/Frames.lean ====
section
/-! SUPPORT. The groups of the state that a shared operation leaves as they are, as rewriting rules. -/

namespace Sys2Proof.Machine

open Sys2Proof Safety

/-- What a state that keeps all groups but `gs` has in common with the one before: the queue, and each of those groups. -/
theorem keeps_rest {gs : List Area} {s t : State} (k : Keeps gs s t) :
    t.pending = s.pending ∧ ∀ a, a ∉ gs → SameArea a s t := ⟨k.queue, k.frame⟩

@[simp] theorem updCore_frame (c : Nat) (f : Core → Core) (s : State) :
    (s.updCore c f).regs = s.regs ∧ (s.updCore c f).tb = s.tb ∧ (s.updCore c f).hif = s.hif ∧ (s.updCore c f).work = s.work ∧
    (s.updCore c f).mem = s.mem ∧ (s.updCore c f).pair = s.pair ∧ (s.updCore c f).power = s.power ∧
    (s.updCore c f).keeper = s.keeper ∧ (s.updCore c f).bridle = s.bridle ∧ (s.updCore c f).caches = s.caches :=
  ⟨rfl, rfl, rfl, rfl, rfl, rfl, rfl, rfl, rfl, rfl⟩

@[simp] theorem spmWrite_frame (core : Nat) (b : Nat) (bs : List Byte) (s : State) :
    (State.spmWrite core b bs s).pending = s.pending ∧ (State.spmWrite core b bs s).free = s.free ∧
    (State.spmWrite core b bs s).regs = s.regs ∧ (State.spmWrite core b bs s).tb = s.tb ∧
    (State.spmWrite core b bs s).hif = s.hif ∧ (State.spmWrite core b bs s).work = s.work ∧
    (State.spmWrite core b bs s).caches = s.caches ∧ (State.spmWrite core b bs s).cores = s.cores ∧
    (State.spmWrite core b bs s).pair = s.pair ∧ (State.spmWrite core b bs s).keeper = s.keeper ∧
    (State.spmWrite core b bs s).bridle = s.bridle ∧ (State.spmWrite core b bs s).power = s.power ∧
    (State.spmWrite core b bs s).board = s.board ∧ (State.spmWrite core b bs s).out = s.out := by
  obtain ⟨kq, kf⟩ := by
    have : May [.mem] .mem := ⟨by decide⟩
    exact keeps_rest (gs := [.mem]) (spmWrite_keeps core b bs (Keeps.refl _ s))
  exact ⟨kq, kf .free (by decide), kf .regs (by decide), kf .tb (by decide), kf .hif (by decide), kf .work (by decide), kf .caches (by decide), kf .cores (by decide), kf .pair (by decide), kf .keeper (by decide), kf .bridle (by decide), kf .power (by decide), kf .board (by decide), kf .out (by decide)⟩

@[simp] theorem hbmWrite_frame (stack : Nat) (off : Nat) (bs : List Byte) (s : State) :
    (State.hbmWrite stack off bs s).pending = s.pending ∧ (State.hbmWrite stack off bs s).free = s.free ∧
    (State.hbmWrite stack off bs s).regs = s.regs ∧ (State.hbmWrite stack off bs s).tb = s.tb ∧
    (State.hbmWrite stack off bs s).hif = s.hif ∧ (State.hbmWrite stack off bs s).work = s.work ∧
    (State.hbmWrite stack off bs s).caches = s.caches ∧ (State.hbmWrite stack off bs s).cores = s.cores ∧
    (State.hbmWrite stack off bs s).pair = s.pair ∧ (State.hbmWrite stack off bs s).keeper = s.keeper ∧
    (State.hbmWrite stack off bs s).bridle = s.bridle ∧ (State.hbmWrite stack off bs s).power = s.power ∧
    (State.hbmWrite stack off bs s).board = s.board ∧ (State.hbmWrite stack off bs s).out = s.out := by
  obtain ⟨kq, kf⟩ := by
    have : May [.mem] .mem := ⟨by decide⟩
    exact keeps_rest (gs := [.mem]) (hbmWrite_keeps stack off bs (Keeps.refl _ s))
  exact ⟨kq, kf .free (by decide), kf .regs (by decide), kf .tb (by decide), kf .hif (by decide), kf .work (by decide), kf .caches (by decide), kf .cores (by decide), kf .pair (by decide), kf .keeper (by decide), kf .bridle (by decide), kf .power (by decide), kf .board (by decide), kf .out (by decide)⟩

@[simp] theorem cxlWrite_frame (port : Nat) (off : Nat) (bs : List Byte) (s : State) :
    (State.cxlWrite port off bs s).pending = s.pending ∧ (State.cxlWrite port off bs s).free = s.free ∧
    (State.cxlWrite port off bs s).regs = s.regs ∧ (State.cxlWrite port off bs s).tb = s.tb ∧
    (State.cxlWrite port off bs s).hif = s.hif ∧ (State.cxlWrite port off bs s).work = s.work ∧
    (State.cxlWrite port off bs s).caches = s.caches ∧ (State.cxlWrite port off bs s).cores = s.cores ∧
    (State.cxlWrite port off bs s).pair = s.pair ∧ (State.cxlWrite port off bs s).keeper = s.keeper ∧
    (State.cxlWrite port off bs s).bridle = s.bridle ∧ (State.cxlWrite port off bs s).power = s.power ∧
    (State.cxlWrite port off bs s).board = s.board ∧ (State.cxlWrite port off bs s).out = s.out := by
  obtain ⟨kq, kf⟩ := by
    have : May [.mem] .mem := ⟨by decide⟩
    exact keeps_rest (gs := [.mem]) (cxlWrite_keeps port off bs (Keeps.refl _ s))
  exact ⟨kq, kf .free (by decide), kf .regs (by decide), kf .tb (by decide), kf .hif (by decide), kf .work (by decide), kf .caches (by decide), kf .cores (by decide), kf .pair (by decide), kf .keeper (by decide), kf .bridle (by decide), kf .power (by decide), kf .board (by decide), kf .out (by decide)⟩

@[simp] theorem hostWrite_frame (a : Nat) (bs : List Byte) (s : State) :
    (State.hostWrite a bs s).pending = s.pending ∧ (State.hostWrite a bs s).free = s.free ∧
    (State.hostWrite a bs s).regs = s.regs ∧ (State.hostWrite a bs s).tb = s.tb ∧ (State.hostWrite a bs s).hif = s.hif ∧
    (State.hostWrite a bs s).work = s.work ∧ (State.hostWrite a bs s).caches = s.caches ∧
    (State.hostWrite a bs s).cores = s.cores ∧ (State.hostWrite a bs s).pair = s.pair ∧
    (State.hostWrite a bs s).keeper = s.keeper ∧ (State.hostWrite a bs s).bridle = s.bridle ∧
    (State.hostWrite a bs s).power = s.power ∧ (State.hostWrite a bs s).board = s.board ∧
    (State.hostWrite a bs s).out = s.out := by
  obtain ⟨kq, kf⟩ := by
    have : May [.mem] .mem := ⟨by decide⟩
    exact keeps_rest (gs := [.mem]) (hostWrite_keeps a bs (Keeps.refl _ s))
  exact ⟨kq, kf .free (by decide), kf .regs (by decide), kf .tb (by decide), kf .hif (by decide), kf .work (by decide), kf .caches (by decide), kf .cores (by decide), kf .pair (by decide), kf .keeper (by decide), kf .bridle (by decide), kf .power (by decide), kf .board (by decide), kf .out (by decide)⟩

@[simp] theorem dieWrite_frame (d : Nat) (o : Nat) (bs : List Byte) (s : State) :
    (State.dieWrite d o bs s).pending = s.pending ∧ (State.dieWrite d o bs s).free = s.free ∧
    (State.dieWrite d o bs s).regs = s.regs ∧ (State.dieWrite d o bs s).tb = s.tb ∧
    (State.dieWrite d o bs s).hif = s.hif ∧ (State.dieWrite d o bs s).work = s.work ∧
    (State.dieWrite d o bs s).caches = s.caches ∧ (State.dieWrite d o bs s).cores = s.cores ∧
    (State.dieWrite d o bs s).pair = s.pair ∧ (State.dieWrite d o bs s).keeper = s.keeper ∧
    (State.dieWrite d o bs s).bridle = s.bridle ∧ (State.dieWrite d o bs s).power = s.power ∧
    (State.dieWrite d o bs s).board = s.board ∧ (State.dieWrite d o bs s).out = s.out := by
  obtain ⟨kq, kf⟩ := by
    have : May [.mem] .mem := ⟨by decide⟩
    exact keeps_rest (gs := [.mem]) (dieWrite_keeps d o bs (Keeps.refl _ s))
  exact ⟨kq, kf .free (by decide), kf .regs (by decide), kf .tb (by decide), kf .hif (by decide), kf .work (by decide), kf .caches (by decide), kf .cores (by decide), kf .pair (by decide), kf .keeper (by decide), kf .bridle (by decide), kf .power (by decide), kf .board (by decide), kf .out (by decide)⟩

@[simp] theorem updStream_frame (id : Nat) (f : Stream → Stream) (s : State) :
    (State.updStream id f s).pending = s.pending ∧ (State.updStream id f s).free = s.free ∧
    (State.updStream id f s).regs = s.regs ∧ (State.updStream id f s).tb = s.tb ∧ (State.updStream id f s).hif = s.hif ∧
    (State.updStream id f s).caches = s.caches ∧ (State.updStream id f s).cores = s.cores ∧
    (State.updStream id f s).mem = s.mem ∧ (State.updStream id f s).pair = s.pair ∧
    (State.updStream id f s).keeper = s.keeper ∧ (State.updStream id f s).bridle = s.bridle ∧
    (State.updStream id f s).power = s.power ∧ (State.updStream id f s).board = s.board ∧
    (State.updStream id f s).out = s.out := by
  obtain ⟨kq, kf⟩ := by
    have : May [.work] .work := ⟨by decide⟩
    exact keeps_rest (gs := [.work]) (updStream_keeps id f (Keeps.refl _ s))
  exact ⟨kq, kf .free (by decide), kf .regs (by decide), kf .tb (by decide), kf .hif (by decide), kf .caches (by decide), kf .cores (by decide), kf .mem (by decide), kf .pair (by decide), kf .keeper (by decide), kf .bridle (by decide), kf .power (by decide), kf .board (by decide), kf .out (by decide)⟩

@[simp] theorem updSlot_frame (n : Nat) (f : ModelSlot → ModelSlot) (s : State) :
    (State.updSlot n f s).pending = s.pending ∧ (State.updSlot n f s).free = s.free ∧
    (State.updSlot n f s).regs = s.regs ∧ (State.updSlot n f s).tb = s.tb ∧ (State.updSlot n f s).hif = s.hif ∧
    (State.updSlot n f s).caches = s.caches ∧ (State.updSlot n f s).cores = s.cores ∧ (State.updSlot n f s).mem = s.mem ∧
    (State.updSlot n f s).pair = s.pair ∧ (State.updSlot n f s).keeper = s.keeper ∧
    (State.updSlot n f s).bridle = s.bridle ∧ (State.updSlot n f s).power = s.power ∧
    (State.updSlot n f s).board = s.board ∧ (State.updSlot n f s).out = s.out := by
  obtain ⟨kq, kf⟩ := by
    have : May [.work] .work := ⟨by decide⟩
    exact keeps_rest (gs := [.work]) (updSlot_keeps n f (Keeps.refl _ s))
  exact ⟨kq, kf .free (by decide), kf .regs (by decide), kf .tb (by decide), kf .hif (by decide), kf .caches (by decide), kf .cores (by decide), kf .mem (by decide), kf .pair (by decide), kf .keeper (by decide), kf .bridle (by decide), kf .power (by decide), kf .board (by decide), kf .out (by decide)⟩

@[simp] theorem updGroup_frame (n : Nat) (f : Group → Group) (s : State) :
    (State.updGroup n f s).pending = s.pending ∧ (State.updGroup n f s).free = s.free ∧
    (State.updGroup n f s).regs = s.regs ∧ (State.updGroup n f s).tb = s.tb ∧ (State.updGroup n f s).hif = s.hif ∧
    (State.updGroup n f s).caches = s.caches ∧ (State.updGroup n f s).cores = s.cores ∧
    (State.updGroup n f s).mem = s.mem ∧ (State.updGroup n f s).pair = s.pair ∧ (State.updGroup n f s).keeper = s.keeper ∧
    (State.updGroup n f s).bridle = s.bridle ∧ (State.updGroup n f s).power = s.power ∧
    (State.updGroup n f s).board = s.board ∧ (State.updGroup n f s).out = s.out := by
  obtain ⟨kq, kf⟩ := by
    have : May [.work] .work := ⟨by decide⟩
    exact keeps_rest (gs := [.work]) (updGroup_keeps n f (Keeps.refl _ s))
  exact ⟨kq, kf .free (by decide), kf .regs (by decide), kf .tb (by decide), kf .hif (by decide), kf .caches (by decide), kf .cores (by decide), kf .mem (by decide), kf .pair (by decide), kf .keeper (by decide), kf .bridle (by decide), kf .power (by decide), kf .board (by decide), kf .out (by decide)⟩

@[simp] theorem updJob_frame (n : Nat) (f : Job → Job) (s : State) :
    (State.updJob n f s).pending = s.pending ∧ (State.updJob n f s).free = s.free ∧ (State.updJob n f s).regs = s.regs ∧
    (State.updJob n f s).tb = s.tb ∧ (State.updJob n f s).hif = s.hif ∧ (State.updJob n f s).caches = s.caches ∧
    (State.updJob n f s).cores = s.cores ∧ (State.updJob n f s).mem = s.mem ∧ (State.updJob n f s).pair = s.pair ∧
    (State.updJob n f s).keeper = s.keeper ∧ (State.updJob n f s).bridle = s.bridle ∧
    (State.updJob n f s).power = s.power ∧ (State.updJob n f s).board = s.board ∧ (State.updJob n f s).out = s.out := by
  obtain ⟨kq, kf⟩ := by
    have : May [.work] .work := ⟨by decide⟩
    exact keeps_rest (gs := [.work]) (updJob_keeps n f (Keeps.refl _ s))
  exact ⟨kq, kf .free (by decide), kf .regs (by decide), kf .tb (by decide), kf .hif (by decide), kf .caches (by decide), kf .cores (by decide), kf .mem (by decide), kf .pair (by decide), kf .keeper (by decide), kf .bridle (by decide), kf .power (by decide), kf .board (by decide), kf .out (by decide)⟩

@[simp] theorem updStreams_frame (f : List Stream → List Stream) (s : State) :
    (State.updStreams f s).pending = s.pending ∧ (State.updStreams f s).free = s.free ∧
    (State.updStreams f s).regs = s.regs ∧ (State.updStreams f s).tb = s.tb ∧ (State.updStreams f s).hif = s.hif ∧
    (State.updStreams f s).caches = s.caches ∧ (State.updStreams f s).cores = s.cores ∧
    (State.updStreams f s).mem = s.mem ∧ (State.updStreams f s).pair = s.pair ∧ (State.updStreams f s).keeper = s.keeper ∧
    (State.updStreams f s).bridle = s.bridle ∧ (State.updStreams f s).power = s.power ∧
    (State.updStreams f s).board = s.board ∧ (State.updStreams f s).out = s.out := by
  obtain ⟨kq, kf⟩ := by
    have : May [.work] .work := ⟨by decide⟩
    exact keeps_rest (gs := [.work]) (updStreams_keeps f (Keeps.refl _ s))
  exact ⟨kq, kf .free (by decide), kf .regs (by decide), kf .tb (by decide), kf .hif (by decide), kf .caches (by decide), kf .cores (by decide), kf .mem (by decide), kf .pair (by decide), kf .keeper (by decide), kf .bridle (by decide), kf .power (by decide), kf .board (by decide), kf .out (by decide)⟩

@[simp] theorem updJobs_frame (f : List Job → List Job) (s : State) :
    (State.updJobs f s).pending = s.pending ∧ (State.updJobs f s).free = s.free ∧ (State.updJobs f s).regs = s.regs ∧
    (State.updJobs f s).tb = s.tb ∧ (State.updJobs f s).hif = s.hif ∧ (State.updJobs f s).caches = s.caches ∧
    (State.updJobs f s).cores = s.cores ∧ (State.updJobs f s).mem = s.mem ∧ (State.updJobs f s).pair = s.pair ∧
    (State.updJobs f s).keeper = s.keeper ∧ (State.updJobs f s).bridle = s.bridle ∧ (State.updJobs f s).power = s.power ∧
    (State.updJobs f s).board = s.board ∧ (State.updJobs f s).out = s.out := by
  obtain ⟨kq, kf⟩ := by
    have : May [.work] .work := ⟨by decide⟩
    exact keeps_rest (gs := [.work]) (updJobs_keeps f (Keeps.refl _ s))
  exact ⟨kq, kf .free (by decide), kf .regs (by decide), kf .tb (by decide), kf .hif (by decide), kf .caches (by decide), kf .cores (by decide), kf .mem (by decide), kf .pair (by decide), kf .keeper (by decide), kf .bridle (by decide), kf .power (by decide), kf .board (by decide), kf .out (by decide)⟩

@[simp] theorem updMoves_frame (f : List Move → List Move) (s : State) :
    (State.updMoves f s).pending = s.pending ∧ (State.updMoves f s).free = s.free ∧ (State.updMoves f s).regs = s.regs ∧
    (State.updMoves f s).tb = s.tb ∧ (State.updMoves f s).hif = s.hif ∧ (State.updMoves f s).caches = s.caches ∧
    (State.updMoves f s).cores = s.cores ∧ (State.updMoves f s).mem = s.mem ∧ (State.updMoves f s).pair = s.pair ∧
    (State.updMoves f s).keeper = s.keeper ∧ (State.updMoves f s).bridle = s.bridle ∧
    (State.updMoves f s).power = s.power ∧ (State.updMoves f s).board = s.board ∧ (State.updMoves f s).out = s.out := by
  obtain ⟨kq, kf⟩ := by
    have : May [.work] .work := ⟨by decide⟩
    exact keeps_rest (gs := [.work]) (updMoves_keeps f (Keeps.refl _ s))
  exact ⟨kq, kf .free (by decide), kf .regs (by decide), kf .tb (by decide), kf .hif (by decide), kf .caches (by decide), kf .cores (by decide), kf .mem (by decide), kf .pair (by decide), kf .keeper (by decide), kf .bridle (by decide), kf .power (by decide), kf .board (by decide), kf .out (by decide)⟩

@[simp] theorem updPages_frame (f : List Page → List Page) (s : State) :
    (State.updPages f s).pending = s.pending ∧ (State.updPages f s).free = s.free ∧ (State.updPages f s).regs = s.regs ∧
    (State.updPages f s).tb = s.tb ∧ (State.updPages f s).hif = s.hif ∧ (State.updPages f s).work = s.work ∧
    (State.updPages f s).cores = s.cores ∧ (State.updPages f s).mem = s.mem ∧ (State.updPages f s).pair = s.pair ∧
    (State.updPages f s).keeper = s.keeper ∧ (State.updPages f s).bridle = s.bridle ∧
    (State.updPages f s).power = s.power ∧ (State.updPages f s).board = s.board ∧ (State.updPages f s).out = s.out := by
  obtain ⟨kq, kf⟩ := by
    have : May [.caches] .caches := ⟨by decide⟩
    exact keeps_rest (gs := [.caches]) (updPages_keeps f (Keeps.refl _ s))
  exact ⟨kq, kf .free (by decide), kf .regs (by decide), kf .tb (by decide), kf .hif (by decide), kf .work (by decide), kf .cores (by decide), kf .mem (by decide), kf .pair (by decide), kf .keeper (by decide), kf .bridle (by decide), kf .power (by decide), kf .board (by decide), kf .out (by decide)⟩

@[simp] theorem setReg_frame (off : Nat) (v : Nat) (s : State) :
    (State.setReg off v s).pending = s.pending ∧ (State.setReg off v s).free = s.free ∧ (State.setReg off v s).tb = s.tb ∧
    (State.setReg off v s).hif = s.hif ∧ (State.setReg off v s).work = s.work ∧ (State.setReg off v s).caches = s.caches ∧
    (State.setReg off v s).cores = s.cores ∧ (State.setReg off v s).mem = s.mem ∧ (State.setReg off v s).pair = s.pair ∧
    (State.setReg off v s).keeper = s.keeper ∧ (State.setReg off v s).bridle = s.bridle ∧
    (State.setReg off v s).power = s.power ∧ (State.setReg off v s).board = s.board ∧
    (State.setReg off v s).out = s.out := by
  obtain ⟨kq, kf⟩ := by
    have : May [.regs] .regs := ⟨by decide⟩
    exact keeps_rest (gs := [.regs]) (setReg_keeps off v (Keeps.refl _ s))
  exact ⟨kq, kf .free (by decide), kf .tb (by decide), kf .hif (by decide), kf .work (by decide), kf .caches (by decide), kf .cores (by decide), kf .mem (by decide), kf .pair (by decide), kf .keeper (by decide), kf .bridle (by decide), kf .power (by decide), kf .board (by decide), kf .out (by decide)⟩

@[simp] theorem count_frame (c : Counter) (n : Nat) (s : State) :
    (State.count c n s).pending = s.pending ∧ (State.count c n s).free = s.free ∧ (State.count c n s).tb = s.tb ∧
    (State.count c n s).hif = s.hif ∧ (State.count c n s).work = s.work ∧ (State.count c n s).caches = s.caches ∧
    (State.count c n s).cores = s.cores ∧ (State.count c n s).mem = s.mem ∧ (State.count c n s).pair = s.pair ∧
    (State.count c n s).keeper = s.keeper ∧ (State.count c n s).bridle = s.bridle ∧ (State.count c n s).power = s.power ∧
    (State.count c n s).board = s.board ∧ (State.count c n s).out = s.out := by
  obtain ⟨kq, kf⟩ := by
    have : May [.regs] .regs := ⟨by decide⟩
    exact keeps_rest (gs := [.regs]) (count_keeps c n (Keeps.refl _ s))
  exact ⟨kq, kf .free (by decide), kf .tb (by decide), kf .hif (by decide), kf .work (by decide), kf .caches (by decide), kf .cores (by decide), kf .mem (by decide), kf .pair (by decide), kf .keeper (by decide), kf .bridle (by decide), kf .power (by decide), kf .board (by decide), kf .out (by decide)⟩

@[simp] theorem bump_frame (c : Counter) (s : State) :
    (State.bump c s).pending = s.pending ∧ (State.bump c s).free = s.free ∧ (State.bump c s).tb = s.tb ∧
    (State.bump c s).hif = s.hif ∧ (State.bump c s).work = s.work ∧ (State.bump c s).caches = s.caches ∧
    (State.bump c s).cores = s.cores ∧ (State.bump c s).mem = s.mem ∧ (State.bump c s).pair = s.pair ∧
    (State.bump c s).keeper = s.keeper ∧ (State.bump c s).bridle = s.bridle ∧ (State.bump c s).power = s.power ∧
    (State.bump c s).board = s.board ∧ (State.bump c s).out = s.out := by
  obtain ⟨kq, kf⟩ := by
    have : May [.regs] .regs := ⟨by decide⟩
    exact keeps_rest (gs := [.regs]) (bump_keeps c (Keeps.refl _ s))
  exact ⟨kq, kf .free (by decide), kf .tb (by decide), kf .hif (by decide), kf .work (by decide), kf .caches (by decide), kf .cores (by decide), kf .mem (by decide), kf .pair (by decide), kf .keeper (by decide), kf .bridle (by decide), kf .power (by decide), kf .board (by decide), kf .out (by decide)⟩

@[simp] theorem ignore_frame (b : Block) (s : State) :
    (State.ignore b s).pending = s.pending ∧ (State.ignore b s).free = s.free ∧ (State.ignore b s).tb = s.tb ∧
    (State.ignore b s).hif = s.hif ∧ (State.ignore b s).work = s.work ∧ (State.ignore b s).caches = s.caches ∧
    (State.ignore b s).cores = s.cores ∧ (State.ignore b s).mem = s.mem ∧ (State.ignore b s).pair = s.pair ∧
    (State.ignore b s).keeper = s.keeper ∧ (State.ignore b s).bridle = s.bridle ∧ (State.ignore b s).power = s.power ∧
    (State.ignore b s).board = s.board ∧ (State.ignore b s).out = s.out := by
  obtain ⟨kq, kf⟩ := by
    have : May [.regs] .regs := ⟨by decide⟩
    exact keeps_rest (gs := [.regs]) (ignore_keeps b (Keeps.refl _ s))
  exact ⟨kq, kf .free (by decide), kf .tb (by decide), kf .hif (by decide), kf .work (by decide), kf .caches (by decide), kf .cores (by decide), kf .mem (by decide), kf .pair (by decide), kf .keeper (by decide), kf .bridle (by decide), kf .power (by decide), kf .board (by decide), kf .out (by decide)⟩

@[simp] theorem updRg_frame (g : Nat) (f : RingGroup → RingGroup) (s : State) :
    (State.updRg g f s).pending = s.pending ∧ (State.updRg g f s).free = s.free ∧ (State.updRg g f s).regs = s.regs ∧
    (State.updRg g f s).tb = s.tb ∧ (State.updRg g f s).work = s.work ∧ (State.updRg g f s).caches = s.caches ∧
    (State.updRg g f s).cores = s.cores ∧ (State.updRg g f s).mem = s.mem ∧ (State.updRg g f s).pair = s.pair ∧
    (State.updRg g f s).keeper = s.keeper ∧ (State.updRg g f s).bridle = s.bridle ∧ (State.updRg g f s).power = s.power ∧
    (State.updRg g f s).board = s.board ∧ (State.updRg g f s).out = s.out := by
  obtain ⟨kq, kf⟩ := by
    have : May [.hif] .hif := ⟨by decide⟩
    exact keeps_rest (gs := [.hif]) (updRg_keeps g f (Keeps.refl _ s))
  exact ⟨kq, kf .free (by decide), kf .regs (by decide), kf .tb (by decide), kf .work (by decide), kf .caches (by decide), kf .cores (by decide), kf .mem (by decide), kf .pair (by decide), kf .keeper (by decide), kf .bridle (by decide), kf .power (by decide), kf .board (by decide), kf .out (by decide)⟩

@[simp] theorem updFunc_frame (f : Nat) (g : FuncCopy → FuncCopy) (s : State) :
    (State.updFunc f g s).pending = s.pending ∧ (State.updFunc f g s).free = s.free ∧
    (State.updFunc f g s).regs = s.regs ∧ (State.updFunc f g s).tb = s.tb ∧ (State.updFunc f g s).work = s.work ∧
    (State.updFunc f g s).caches = s.caches ∧ (State.updFunc f g s).cores = s.cores ∧ (State.updFunc f g s).mem = s.mem ∧
    (State.updFunc f g s).pair = s.pair ∧ (State.updFunc f g s).keeper = s.keeper ∧
    (State.updFunc f g s).bridle = s.bridle ∧ (State.updFunc f g s).power = s.power ∧
    (State.updFunc f g s).board = s.board ∧ (State.updFunc f g s).out = s.out := by
  obtain ⟨kq, kf⟩ := by
    have : May [.hif] .hif := ⟨by decide⟩
    exact keeps_rest (gs := [.hif]) (updFunc_keeps f g (Keeps.refl _ s))
  exact ⟨kq, kf .free (by decide), kf .regs (by decide), kf .tb (by decide), kf .work (by decide), kf .caches (by decide), kf .cores (by decide), kf .mem (by decide), kf .pair (by decide), kf .keeper (by decide), kf .bridle (by decide), kf .power (by decide), kf .board (by decide), kf .out (by decide)⟩

@[simp] theorem charge_frame (kind : Nat) (idx : Nat) (uses : List (Nat × Nat)) (s : State) :
    (State.charge kind idx uses s).pending = s.pending ∧ (State.charge kind idx uses s).free = s.free ∧
    (State.charge kind idx uses s).regs = s.regs ∧ (State.charge kind idx uses s).tb = s.tb ∧
    (State.charge kind idx uses s).hif = s.hif ∧ (State.charge kind idx uses s).caches = s.caches ∧
    (State.charge kind idx uses s).cores = s.cores ∧ (State.charge kind idx uses s).mem = s.mem ∧
    (State.charge kind idx uses s).pair = s.pair ∧ (State.charge kind idx uses s).keeper = s.keeper ∧
    (State.charge kind idx uses s).bridle = s.bridle ∧ (State.charge kind idx uses s).power = s.power ∧
    (State.charge kind idx uses s).board = s.board ∧ (State.charge kind idx uses s).out = s.out := by
  obtain ⟨kq, kf⟩ := by
    have : May [.work] .work := ⟨by decide⟩
    exact keeps_rest (gs := [.work]) (charge_keeps kind idx uses (Keeps.refl _ s))
  exact ⟨kq, kf .free (by decide), kf .regs (by decide), kf .tb (by decide), kf .hif (by decide), kf .caches (by decide), kf .cores (by decide), kf .mem (by decide), kf .pair (by decide), kf .keeper (by decide), kf .bridle (by decide), kf .power (by decide), kf .board (by decide), kf .out (by decide)⟩

@[simp] theorem chargeStream_frame (x : Stream) (uses : List (Nat × Nat)) (s : State) :
    (State.chargeStream x uses s).pending = s.pending ∧ (State.chargeStream x uses s).free = s.free ∧
    (State.chargeStream x uses s).regs = s.regs ∧ (State.chargeStream x uses s).tb = s.tb ∧
    (State.chargeStream x uses s).hif = s.hif ∧ (State.chargeStream x uses s).caches = s.caches ∧
    (State.chargeStream x uses s).cores = s.cores ∧ (State.chargeStream x uses s).mem = s.mem ∧
    (State.chargeStream x uses s).pair = s.pair ∧ (State.chargeStream x uses s).keeper = s.keeper ∧
    (State.chargeStream x uses s).bridle = s.bridle ∧ (State.chargeStream x uses s).power = s.power ∧
    (State.chargeStream x uses s).board = s.board ∧ (State.chargeStream x uses s).out = s.out := by
  obtain ⟨kq, kf⟩ := by
    have : May [.work] .work := ⟨by decide⟩
    exact keeps_rest (gs := [.work]) (chargeStream_keeps x uses (Keeps.refl _ s))
  exact ⟨kq, kf .free (by decide), kf .regs (by decide), kf .tb (by decide), kf .hif (by decide), kf .caches (by decide), kf .cores (by decide), kf .mem (by decide), kf .pair (by decide), kf .keeper (by decide), kf .bridle (by decide), kf .power (by decide), kf .board (by decide), kf .out (by decide)⟩

@[simp] theorem chargeOverhead_frame (p : Nat) (uses : List (Nat × Nat)) (s : State) :
    (State.chargeOverhead p uses s).pending = s.pending ∧ (State.chargeOverhead p uses s).free = s.free ∧
    (State.chargeOverhead p uses s).regs = s.regs ∧ (State.chargeOverhead p uses s).tb = s.tb ∧
    (State.chargeOverhead p uses s).hif = s.hif ∧ (State.chargeOverhead p uses s).caches = s.caches ∧
    (State.chargeOverhead p uses s).cores = s.cores ∧ (State.chargeOverhead p uses s).mem = s.mem ∧
    (State.chargeOverhead p uses s).pair = s.pair ∧ (State.chargeOverhead p uses s).keeper = s.keeper ∧
    (State.chargeOverhead p uses s).bridle = s.bridle ∧ (State.chargeOverhead p uses s).power = s.power ∧
    (State.chargeOverhead p uses s).board = s.board ∧ (State.chargeOverhead p uses s).out = s.out := by
  obtain ⟨kq, kf⟩ := by
    have : May [.work] .work := ⟨by decide⟩
    exact keeps_rest (gs := [.work]) (chargeOverhead_keeps p uses (Keeps.refl _ s))
  exact ⟨kq, kf .free (by decide), kf .regs (by decide), kf .tb (by decide), kf .hif (by decide), kf .caches (by decide), kf .cores (by decide), kf .mem (by decide), kf .pair (by decide), kf .keeper (by decide), kf .bridle (by decide), kf .power (by decide), kf .board (by decide), kf .out (by decide)⟩

@[simp] theorem fireGroup_frame (g : Nat) (event : Bool) (s : State) :
    (State.fireGroup g event s).pending = s.pending ∧ (State.fireGroup g event s).free = s.free ∧
    (State.fireGroup g event s).regs = s.regs ∧ (State.fireGroup g event s).tb = s.tb ∧
    (State.fireGroup g event s).work = s.work ∧ (State.fireGroup g event s).caches = s.caches ∧
    (State.fireGroup g event s).cores = s.cores ∧ (State.fireGroup g event s).mem = s.mem ∧
    (State.fireGroup g event s).pair = s.pair ∧ (State.fireGroup g event s).keeper = s.keeper ∧
    (State.fireGroup g event s).bridle = s.bridle ∧ (State.fireGroup g event s).power = s.power ∧
    (State.fireGroup g event s).board = s.board := by
  obtain ⟨kq, kf⟩ := by
    have : May [.hif, .out] .hif := ⟨by decide⟩
    have : May [.hif, .out] .out := ⟨by decide⟩
    exact keeps_rest (gs := [.hif, .out]) (fireGroup_keeps g event (Keeps.refl _ s))
  exact ⟨kq, kf .free (by decide), kf .regs (by decide), kf .tb (by decide), kf .work (by decide), kf .caches (by decide), kf .cores (by decide), kf .mem (by decide), kf .pair (by decide), kf .keeper (by decide), kf .bridle (by decide), kf .power (by decide), kf .board (by decide)⟩

@[simp] theorem pendEntry_frame (g : Nat) (event : Bool) (now : Bool) (s : State) :
    (State.pendEntry g event now s).pending = s.pending ∧ (State.pendEntry g event now s).free = s.free ∧
    (State.pendEntry g event now s).regs = s.regs ∧ (State.pendEntry g event now s).tb = s.tb ∧
    (State.pendEntry g event now s).work = s.work ∧ (State.pendEntry g event now s).caches = s.caches ∧
    (State.pendEntry g event now s).cores = s.cores ∧ (State.pendEntry g event now s).mem = s.mem ∧
    (State.pendEntry g event now s).pair = s.pair ∧ (State.pendEntry g event now s).keeper = s.keeper ∧
    (State.pendEntry g event now s).bridle = s.bridle ∧ (State.pendEntry g event now s).power = s.power ∧
    (State.pendEntry g event now s).board = s.board := by
  obtain ⟨kq, kf⟩ := by
    have : May [.hif, .out] .hif := ⟨by decide⟩
    have : May [.hif, .out] .out := ⟨by decide⟩
    exact keeps_rest (gs := [.hif, .out]) (pendEntry_keeps g event now (Keeps.refl _ s))
  exact ⟨kq, kf .free (by decide), kf .regs (by decide), kf .tb (by decide), kf .work (by decide), kf .caches (by decide), kf .cores (by decide), kf .mem (by decide), kf .pair (by decide), kf .keeper (by decide), kf .bridle (by decide), kf .power (by decide), kf .board (by decide)⟩

@[simp] theorem writeEntry_frame (a : Nat) (ws : List Word) (w7 : Nat) (s : State) :
    (State.writeEntry a ws w7 s).pending = s.pending ∧ (State.writeEntry a ws w7 s).free = s.free ∧
    (State.writeEntry a ws w7 s).regs = s.regs ∧ (State.writeEntry a ws w7 s).tb = s.tb ∧
    (State.writeEntry a ws w7 s).hif = s.hif ∧ (State.writeEntry a ws w7 s).work = s.work ∧
    (State.writeEntry a ws w7 s).caches = s.caches ∧ (State.writeEntry a ws w7 s).cores = s.cores ∧
    (State.writeEntry a ws w7 s).pair = s.pair ∧ (State.writeEntry a ws w7 s).keeper = s.keeper ∧
    (State.writeEntry a ws w7 s).bridle = s.bridle ∧ (State.writeEntry a ws w7 s).power = s.power ∧
    (State.writeEntry a ws w7 s).board = s.board ∧ (State.writeEntry a ws w7 s).out = s.out := by
  obtain ⟨kq, kf⟩ := by
    have : May [.mem] .mem := ⟨by decide⟩
    exact keeps_rest (gs := [.mem]) (writeEntry_keeps a ws w7 (Keeps.refl _ s))
  exact ⟨kq, kf .free (by decide), kf .regs (by decide), kf .tb (by decide), kf .hif (by decide), kf .work (by decide), kf .caches (by decide), kf .cores (by decide), kf .pair (by decide), kf .keeper (by decide), kf .bridle (by decide), kf .power (by decide), kf .board (by decide), kf .out (by decide)⟩

@[simp] theorem postRaw_frame (g : Nat) (k : Nat) (ws : List Word) (w7 : Nat) (irq : Bool) (s : State) :
    (State.postRaw g k ws w7 irq s).pending = s.pending ∧ (State.postRaw g k ws w7 irq s).free = s.free ∧
    (State.postRaw g k ws w7 irq s).regs = s.regs ∧ (State.postRaw g k ws w7 irq s).tb = s.tb ∧
    (State.postRaw g k ws w7 irq s).work = s.work ∧ (State.postRaw g k ws w7 irq s).caches = s.caches ∧
    (State.postRaw g k ws w7 irq s).cores = s.cores ∧ (State.postRaw g k ws w7 irq s).pair = s.pair ∧
    (State.postRaw g k ws w7 irq s).keeper = s.keeper ∧ (State.postRaw g k ws w7 irq s).bridle = s.bridle ∧
    (State.postRaw g k ws w7 irq s).power = s.power ∧ (State.postRaw g k ws w7 irq s).board = s.board := by
  obtain ⟨kq, kf⟩ := by
    have : May [.hif, .mem, .out] .hif := ⟨by decide⟩
    have : May [.hif, .mem, .out] .mem := ⟨by decide⟩
    have : May [.hif, .mem, .out] .out := ⟨by decide⟩
    exact keeps_rest (gs := [.hif, .mem, .out]) (postRaw_keeps g k ws w7 irq (Keeps.refl _ s))
  exact ⟨kq, kf .free (by decide), kf .regs (by decide), kf .tb (by decide), kf .work (by decide), kf .caches (by decide), kf .cores (by decide), kf .pair (by decide), kf .keeper (by decide), kf .bridle (by decide), kf .power (by decide), kf .board (by decide)⟩

@[simp] theorem post_frame (g : Nat) (k : Nat) (ws : List Word) (w7 : Nat) (irq : Bool) (s : State) :
    (State.post g k ws w7 irq s).pending = s.pending ∧ (State.post g k ws w7 irq s).free = s.free ∧
    (State.post g k ws w7 irq s).regs = s.regs ∧ (State.post g k ws w7 irq s).tb = s.tb ∧
    (State.post g k ws w7 irq s).work = s.work ∧ (State.post g k ws w7 irq s).caches = s.caches ∧
    (State.post g k ws w7 irq s).cores = s.cores ∧ (State.post g k ws w7 irq s).pair = s.pair ∧
    (State.post g k ws w7 irq s).keeper = s.keeper ∧ (State.post g k ws w7 irq s).bridle = s.bridle ∧
    (State.post g k ws w7 irq s).power = s.power ∧ (State.post g k ws w7 irq s).board = s.board := by
  obtain ⟨kq, kf⟩ := by
    have : May [.hif, .mem, .out] .hif := ⟨by decide⟩
    have : May [.hif, .mem, .out] .mem := ⟨by decide⟩
    have : May [.hif, .mem, .out] .out := ⟨by decide⟩
    exact keeps_rest (gs := [.hif, .mem, .out]) (post_keeps g k ws w7 irq (Keeps.refl _ s))
  exact ⟨kq, kf .free (by decide), kf .regs (by decide), kf .tb (by decide), kf .work (by decide), kf .caches (by decide), kf .cores (by decide), kf .pair (by decide), kf .keeper (by decide), kf .bridle (by decide), kf .power (by decide), kf .board (by decide)⟩

@[simp] theorem complete_frame (g : Nat) (k : Nat) (d : Desc) (status : Nat) (flags : Nat) (rest : List Word) (s
    : State) :
    (State.complete g k d status flags rest s).pending = s.pending ∧
    (State.complete g k d status flags rest s).free = s.free ∧ (State.complete g k d status flags rest s).regs = s.regs ∧
    (State.complete g k d status flags rest s).tb = s.tb ∧ (State.complete g k d status flags rest s).work = s.work ∧
    (State.complete g k d status flags rest s).caches = s.caches ∧
    (State.complete g k d status flags rest s).cores = s.cores ∧
    (State.complete g k d status flags rest s).pair = s.pair ∧
    (State.complete g k d status flags rest s).keeper = s.keeper ∧
    (State.complete g k d status flags rest s).bridle = s.bridle ∧
    (State.complete g k d status flags rest s).power = s.power ∧
    (State.complete g k d status flags rest s).board = s.board := by
  obtain ⟨kq, kf⟩ := by
    have : May [.hif, .mem, .out] .hif := ⟨by decide⟩
    have : May [.hif, .mem, .out] .mem := ⟨by decide⟩
    have : May [.hif, .mem, .out] .out := ⟨by decide⟩
    exact keeps_rest (gs := [.hif, .mem, .out]) (complete_keeps g k d status flags rest (Keeps.refl _ s))
  exact ⟨kq, kf .free (by decide), kf .regs (by decide), kf .tb (by decide), kf .work (by decide), kf .caches (by decide), kf .cores (by decide), kf .pair (by decide), kf .keeper (by decide), kf .bridle (by decide), kf .power (by decide), kf .board (by decide)⟩

@[simp] theorem finishCmd_frame (g : Nat) (d : Nat) (status : Nat) (rest : List Word) (s : State) :
    (State.finishCmd g d status rest s).pending = s.pending ∧ (State.finishCmd g d status rest s).free = s.free ∧
    (State.finishCmd g d status rest s).regs = s.regs ∧ (State.finishCmd g d status rest s).tb = s.tb ∧
    (State.finishCmd g d status rest s).work = s.work ∧ (State.finishCmd g d status rest s).caches = s.caches ∧
    (State.finishCmd g d status rest s).cores = s.cores ∧ (State.finishCmd g d status rest s).pair = s.pair ∧
    (State.finishCmd g d status rest s).keeper = s.keeper ∧ (State.finishCmd g d status rest s).bridle = s.bridle ∧
    (State.finishCmd g d status rest s).power = s.power ∧ (State.finishCmd g d status rest s).board = s.board := by
  obtain ⟨kq, kf⟩ := by
    have : May [.hif, .mem, .out] .hif := ⟨by decide⟩
    have : May [.hif, .mem, .out] .mem := ⟨by decide⟩
    have : May [.hif, .mem, .out] .out := ⟨by decide⟩
    exact keeps_rest (gs := [.hif, .mem, .out]) (finishCmd_keeps g d status rest (Keeps.refl _ s))
  exact ⟨kq, kf .free (by decide), kf .regs (by decide), kf .tb (by decide), kf .work (by decide), kf .caches (by decide), kf .cores (by decide), kf .pair (by decide), kf .keeper (by decide), kf .bridle (by decide), kf .power (by decide), kf .board (by decide)⟩

@[simp] theorem postEventRaw_frame (g : Nat) (code : Nat) (stream : Option Nat) (rest : List Word) (now : Bool)
    (s : State) :
    (State.postEventRaw g code stream rest now s).pending = s.pending ∧
    (State.postEventRaw g code stream rest now s).free = s.free ∧
    (State.postEventRaw g code stream rest now s).regs = s.regs ∧
    (State.postEventRaw g code stream rest now s).tb = s.tb ∧
    (State.postEventRaw g code stream rest now s).work = s.work ∧
    (State.postEventRaw g code stream rest now s).caches = s.caches ∧
    (State.postEventRaw g code stream rest now s).cores = s.cores ∧
    (State.postEventRaw g code stream rest now s).pair = s.pair ∧
    (State.postEventRaw g code stream rest now s).keeper = s.keeper ∧
    (State.postEventRaw g code stream rest now s).bridle = s.bridle ∧
    (State.postEventRaw g code stream rest now s).power = s.power ∧
    (State.postEventRaw g code stream rest now s).board = s.board := by
  obtain ⟨kq, kf⟩ := by
    have : May [.hif, .mem, .out] .hif := ⟨by decide⟩
    have : May [.hif, .mem, .out] .mem := ⟨by decide⟩
    have : May [.hif, .mem, .out] .out := ⟨by decide⟩
    exact keeps_rest (gs := [.hif, .mem, .out]) (postEventRaw_keeps g code stream rest now (Keeps.refl _ s))
  exact ⟨kq, kf .free (by decide), kf .regs (by decide), kf .tb (by decide), kf .work (by decide), kf .caches (by decide), kf .cores (by decide), kf .pair (by decide), kf .keeper (by decide), kf .bridle (by decide), kf .power (by decide), kf .board (by decide)⟩

@[simp] theorem postEvent_frame (g : Nat) (code : Nat) (stream : Option Nat) (rest : List Word) (now : Bool) (s
    : State) :
    (State.postEvent g code stream rest now s).pending = s.pending ∧
    (State.postEvent g code stream rest now s).free = s.free ∧ (State.postEvent g code stream rest now s).tb = s.tb ∧
    (State.postEvent g code stream rest now s).work = s.work ∧
    (State.postEvent g code stream rest now s).caches = s.caches ∧
    (State.postEvent g code stream rest now s).cores = s.cores ∧
    (State.postEvent g code stream rest now s).pair = s.pair ∧
    (State.postEvent g code stream rest now s).keeper = s.keeper ∧
    (State.postEvent g code stream rest now s).bridle = s.bridle ∧
    (State.postEvent g code stream rest now s).power = s.power ∧
    (State.postEvent g code stream rest now s).board = s.board := by
  obtain ⟨kq, kf⟩ := by
    have : May [.regs, .hif, .mem, .out] .regs := ⟨by decide⟩
    have : May [.regs, .hif, .mem, .out] .hif := ⟨by decide⟩
    have : May [.regs, .hif, .mem, .out] .mem := ⟨by decide⟩
    have : May [.regs, .hif, .mem, .out] .out := ⟨by decide⟩
    exact keeps_rest (gs := [.regs, .hif, .mem, .out]) (postEvent_keeps g code stream rest now (Keeps.refl _ s))
  exact ⟨kq, kf .free (by decide), kf .tb (by decide), kf .work (by decide), kf .caches (by decide), kf .cores (by decide), kf .pair (by decide), kf .keeper (by decide), kf .bridle (by decide), kf .power (by decide), kf .board (by decide)⟩

@[simp] theorem devEvent_frame (code : Nat) (rest : List Word) (s : State) :
    (State.devEvent code rest s).pending = s.pending ∧ (State.devEvent code rest s).free = s.free ∧
    (State.devEvent code rest s).tb = s.tb ∧ (State.devEvent code rest s).work = s.work ∧
    (State.devEvent code rest s).caches = s.caches ∧ (State.devEvent code rest s).cores = s.cores ∧
    (State.devEvent code rest s).pair = s.pair ∧ (State.devEvent code rest s).keeper = s.keeper ∧
    (State.devEvent code rest s).bridle = s.bridle ∧ (State.devEvent code rest s).power = s.power ∧
    (State.devEvent code rest s).board = s.board := by
  obtain ⟨kq, kf⟩ := by
    have : May [.regs, .hif, .mem, .out] .regs := ⟨by decide⟩
    have : May [.regs, .hif, .mem, .out] .hif := ⟨by decide⟩
    have : May [.regs, .hif, .mem, .out] .mem := ⟨by decide⟩
    have : May [.regs, .hif, .mem, .out] .out := ⟨by decide⟩
    exact keeps_rest (gs := [.regs, .hif, .mem, .out]) (devEvent_keeps code rest (Keeps.refl _ s))
  exact ⟨kq, kf .free (by decide), kf .tb (by decide), kf .work (by decide), kf .caches (by decide), kf .cores (by decide), kf .pair (by decide), kf .keeper (by decide), kf .bridle (by decide), kf .power (by decide), kf .board (by decide)⟩

@[simp] theorem elapse_frame (n : Nat) (s : State) :
    (State.elapse n s).pending = s.pending ∧ (State.elapse n s).regs = s.regs ∧ (State.elapse n s).hif = s.hif ∧
    (State.elapse n s).work = s.work ∧ (State.elapse n s).caches = s.caches ∧ (State.elapse n s).cores = s.cores ∧
    (State.elapse n s).mem = s.mem ∧ (State.elapse n s).pair = s.pair ∧ (State.elapse n s).keeper = s.keeper ∧
    (State.elapse n s).bridle = s.bridle ∧ (State.elapse n s).power = s.power ∧ (State.elapse n s).board = s.board ∧
    (State.elapse n s).out = s.out := by
  obtain ⟨kq, kf⟩ := by
    have : May [.free, .tb] .free := ⟨by decide⟩
    have : May [.free, .tb] .tb := ⟨by decide⟩
    exact keeps_rest (gs := [.free, .tb]) (elapse_keeps n (Keeps.refl _ s))
  exact ⟨kq, kf .regs (by decide), kf .hif (by decide), kf .work (by decide), kf .caches (by decide), kf .cores (by decide), kf .mem (by decide), kf .pair (by decide), kf .keeper (by decide), kf .bridle (by decide), kf .power (by decide), kf .board (by decide), kf .out (by decide)⟩

@[simp] theorem advanceTo_frame (t0 : Nat) (s : State) :
    (State.advanceTo t0 s).pending = s.pending ∧ (State.advanceTo t0 s).regs = s.regs ∧
    (State.advanceTo t0 s).hif = s.hif ∧ (State.advanceTo t0 s).work = s.work ∧ (State.advanceTo t0 s).caches = s.caches ∧
    (State.advanceTo t0 s).cores = s.cores ∧ (State.advanceTo t0 s).mem = s.mem ∧ (State.advanceTo t0 s).pair = s.pair ∧
    (State.advanceTo t0 s).keeper = s.keeper ∧ (State.advanceTo t0 s).bridle = s.bridle ∧
    (State.advanceTo t0 s).power = s.power ∧ (State.advanceTo t0 s).board = s.board ∧
    (State.advanceTo t0 s).out = s.out := by
  obtain ⟨kq, kf⟩ := by
    have : May [.free, .tb] .free := ⟨by decide⟩
    have : May [.free, .tb] .tb := ⟨by decide⟩
    exact keeps_rest (gs := [.free, .tb]) (advanceTo_keeps t0 (Keeps.refl _ s))
  exact ⟨kq, kf .regs (by decide), kf .hif (by decide), kf .work (by decide), kf .caches (by decide), kf .cores (by decide), kf .mem (by decide), kf .pair (by decide), kf .keeper (by decide), kf .bridle (by decide), kf .power (by decide), kf .board (by decide), kf .out (by decide)⟩

@[simp] theorem timebaseEvent_frame (cond : Nat) (entry : Bool) (s : State) :
    (State.timebaseEvent cond entry s).pending = s.pending ∧ (State.timebaseEvent cond entry s).free = s.free ∧
    (State.timebaseEvent cond entry s).tb = s.tb ∧ (State.timebaseEvent cond entry s).work = s.work ∧
    (State.timebaseEvent cond entry s).caches = s.caches ∧ (State.timebaseEvent cond entry s).cores = s.cores ∧
    (State.timebaseEvent cond entry s).pair = s.pair ∧ (State.timebaseEvent cond entry s).keeper = s.keeper ∧
    (State.timebaseEvent cond entry s).bridle = s.bridle ∧ (State.timebaseEvent cond entry s).power = s.power ∧
    (State.timebaseEvent cond entry s).board = s.board := by
  obtain ⟨kq, kf⟩ := by
    have : May [.regs, .hif, .mem, .out] .regs := ⟨by decide⟩
    have : May [.regs, .hif, .mem, .out] .hif := ⟨by decide⟩
    have : May [.regs, .hif, .mem, .out] .mem := ⟨by decide⟩
    have : May [.regs, .hif, .mem, .out] .out := ⟨by decide⟩
    exact keeps_rest (gs := [.regs, .hif, .mem, .out]) (timebaseEvent_keeps cond entry (Keeps.refl _ s))
  exact ⟨kq, kf .free (by decide), kf .tb (by decide), kf .work (by decide), kf .caches (by decide), kf .cores (by decide), kf .pair (by decide), kf .keeper (by decide), kf .bridle (by decide), kf .power (by decide), kf .board (by decide)⟩

@[simp] theorem addRecord_frame (kind : Nat) (body : List Byte) (s : State) :
    (State.addRecord kind body s).pending = s.pending ∧ (State.addRecord kind body s).free = s.free ∧
    (State.addRecord kind body s).regs = s.regs ∧ (State.addRecord kind body s).tb = s.tb ∧
    (State.addRecord kind body s).hif = s.hif ∧ (State.addRecord kind body s).work = s.work ∧
    (State.addRecord kind body s).caches = s.caches ∧ (State.addRecord kind body s).cores = s.cores ∧
    (State.addRecord kind body s).mem = s.mem ∧ (State.addRecord kind body s).pair = s.pair ∧
    (State.addRecord kind body s).bridle = s.bridle ∧ (State.addRecord kind body s).power = s.power ∧
    (State.addRecord kind body s).board = s.board ∧ (State.addRecord kind body s).out = s.out := by
  obtain ⟨kq, kf⟩ := by
    have : May [.keeper] .keeper := ⟨by decide⟩
    exact keeps_rest (gs := [.keeper]) (addRecord_keeps kind body (Keeps.refl _ s))
  exact ⟨kq, kf .free (by decide), kf .regs (by decide), kf .tb (by decide), kf .hif (by decide), kf .work (by decide), kf .caches (by decide), kf .cores (by decide), kf .mem (by decide), kf .pair (by decide), kf .bridle (by decide), kf .power (by decide), kf .board (by decide), kf .out (by decide)⟩

@[simp] theorem sendFlit_frame (name : String) (args : List Nat) (s : State) :
    (State.sendFlit name args s).pending = s.pending ∧ (State.sendFlit name args s).free = s.free ∧
    (State.sendFlit name args s).regs = s.regs ∧ (State.sendFlit name args s).tb = s.tb ∧
    (State.sendFlit name args s).hif = s.hif ∧ (State.sendFlit name args s).work = s.work ∧
    (State.sendFlit name args s).caches = s.caches ∧ (State.sendFlit name args s).cores = s.cores ∧
    (State.sendFlit name args s).mem = s.mem ∧ (State.sendFlit name args s).pair = s.pair ∧
    (State.sendFlit name args s).keeper = s.keeper ∧ (State.sendFlit name args s).bridle = s.bridle ∧
    (State.sendFlit name args s).power = s.power ∧ (State.sendFlit name args s).board = s.board := by
  obtain ⟨kq, kf⟩ := by
    have : May [.out] .out := ⟨by decide⟩
    exact keeps_rest (gs := [.out]) (sendFlit_keeps name args (Keeps.refl _ s))
  exact ⟨kq, kf .free (by decide), kf .regs (by decide), kf .tb (by decide), kf .hif (by decide), kf .work (by decide), kf .caches (by decide), kf .cores (by decide), kf .mem (by decide), kf .pair (by decide), kf .keeper (by decide), kf .bridle (by decide), kf .power (by decide), kf .board (by decide)⟩

@[simp] theorem loseAll_frame (s : State) :
    (State.loseAll s).pending = s.pending ∧ (State.loseAll s).free = s.free ∧ (State.loseAll s).regs = s.regs ∧
    (State.loseAll s).tb = s.tb ∧ (State.loseAll s).hif = s.hif ∧ (State.loseAll s).caches = s.caches ∧
    (State.loseAll s).mem = s.mem ∧ (State.loseAll s).keeper = s.keeper ∧ (State.loseAll s).bridle = s.bridle ∧
    (State.loseAll s).power = s.power ∧ (State.loseAll s).board = s.board ∧ (State.loseAll s).out = s.out := by
  obtain ⟨kq, kf⟩ := by
    have : May [.work, .cores, .pair] .work := ⟨by decide⟩
    have : May [.work, .cores, .pair] .cores := ⟨by decide⟩
    have : May [.work, .cores, .pair] .pair := ⟨by decide⟩
    exact keeps_rest (gs := [.work, .cores, .pair]) (loseAll_keeps (Keeps.refl _ s))
  exact ⟨kq, kf .free (by decide), kf .regs (by decide), kf .tb (by decide), kf .hif (by decide), kf .caches (by decide), kf .mem (by decide), kf .keeper (by decide), kf .bridle (by decide), kf .power (by decide), kf .board (by decide), kf .out (by decide)⟩

@[simp] theorem updSkvSlot_frame (p : Nat) (k : Nat) (f : SkvSlot → SkvSlot) (s : State) :
    (State.updSkvSlot p k f s).pending = s.pending ∧ (State.updSkvSlot p k f s).free = s.free ∧
    (State.updSkvSlot p k f s).regs = s.regs ∧ (State.updSkvSlot p k f s).tb = s.tb ∧
    (State.updSkvSlot p k f s).hif = s.hif ∧ (State.updSkvSlot p k f s).work = s.work ∧
    (State.updSkvSlot p k f s).cores = s.cores ∧ (State.updSkvSlot p k f s).mem = s.mem ∧
    (State.updSkvSlot p k f s).pair = s.pair ∧ (State.updSkvSlot p k f s).keeper = s.keeper ∧
    (State.updSkvSlot p k f s).bridle = s.bridle ∧ (State.updSkvSlot p k f s).power = s.power ∧
    (State.updSkvSlot p k f s).board = s.board ∧ (State.updSkvSlot p k f s).out = s.out := by
  obtain ⟨kq, kf⟩ := by
    have : May [.caches] .caches := ⟨by decide⟩
    exact keeps_rest (gs := [.caches]) (updSkvSlot_keeps p k f (Keeps.refl _ s))
  exact ⟨kq, kf .free (by decide), kf .regs (by decide), kf .tb (by decide), kf .hif (by decide), kf .work (by decide), kf .cores (by decide), kf .mem (by decide), kf .pair (by decide), kf .keeper (by decide), kf .bridle (by decide), kf .power (by decide), kf .board (by decide), kf .out (by decide)⟩

@[simp] theorem updSkvGen_frame (p : Nat) (k : Nat) (g : Nat) (f : SkvGen → SkvGen) (s : State) :
    (State.updSkvGen p k g f s).pending = s.pending ∧ (State.updSkvGen p k g f s).free = s.free ∧
    (State.updSkvGen p k g f s).regs = s.regs ∧ (State.updSkvGen p k g f s).tb = s.tb ∧
    (State.updSkvGen p k g f s).hif = s.hif ∧ (State.updSkvGen p k g f s).work = s.work ∧
    (State.updSkvGen p k g f s).cores = s.cores ∧ (State.updSkvGen p k g f s).mem = s.mem ∧
    (State.updSkvGen p k g f s).pair = s.pair ∧ (State.updSkvGen p k g f s).keeper = s.keeper ∧
    (State.updSkvGen p k g f s).bridle = s.bridle ∧ (State.updSkvGen p k g f s).power = s.power ∧
    (State.updSkvGen p k g f s).board = s.board ∧ (State.updSkvGen p k g f s).out = s.out := by
  obtain ⟨kq, kf⟩ := by
    have : May [.caches] .caches := ⟨by decide⟩
    exact keeps_rest (gs := [.caches]) (updSkvGen_keeps p k g f (Keeps.refl _ s))
  exact ⟨kq, kf .free (by decide), kf .regs (by decide), kf .tb (by decide), kf .hif (by decide), kf .work (by decide), kf .cores (by decide), kf .mem (by decide), kf .pair (by decide), kf .keeper (by decide), kf .bridle (by decide), kf .power (by decide), kf .board (by decide), kf .out (by decide)⟩

@[simp] theorem addNames_frame (p : Nat) (names : List (Nat × Nat)) (s : State) :
    (State.addNames p names s).pending = s.pending ∧ (State.addNames p names s).free = s.free ∧
    (State.addNames p names s).regs = s.regs ∧ (State.addNames p names s).tb = s.tb ∧
    (State.addNames p names s).hif = s.hif ∧ (State.addNames p names s).work = s.work ∧
    (State.addNames p names s).cores = s.cores ∧ (State.addNames p names s).mem = s.mem ∧
    (State.addNames p names s).pair = s.pair ∧ (State.addNames p names s).keeper = s.keeper ∧
    (State.addNames p names s).bridle = s.bridle ∧ (State.addNames p names s).power = s.power ∧
    (State.addNames p names s).board = s.board ∧ (State.addNames p names s).out = s.out := by
  obtain ⟨kq, kf⟩ := by
    have : May [.caches] .caches := ⟨by decide⟩
    exact keeps_rest (gs := [.caches]) (addNames_keeps p names (Keeps.refl _ s))
  exact ⟨kq, kf .free (by decide), kf .regs (by decide), kf .tb (by decide), kf .hif (by decide), kf .work (by decide), kf .cores (by decide), kf .mem (by decide), kf .pair (by decide), kf .keeper (by decide), kf .bridle (by decide), kf .power (by decide), kf .board (by decide), kf .out (by decide)⟩

@[simp] theorem dropNames_frame (p : Nat) (names : List (Nat × Nat)) (s : State) :
    (State.dropNames p names s).pending = s.pending ∧ (State.dropNames p names s).free = s.free ∧
    (State.dropNames p names s).regs = s.regs ∧ (State.dropNames p names s).tb = s.tb ∧
    (State.dropNames p names s).hif = s.hif ∧ (State.dropNames p names s).work = s.work ∧
    (State.dropNames p names s).cores = s.cores ∧ (State.dropNames p names s).mem = s.mem ∧
    (State.dropNames p names s).pair = s.pair ∧ (State.dropNames p names s).keeper = s.keeper ∧
    (State.dropNames p names s).bridle = s.bridle ∧ (State.dropNames p names s).power = s.power ∧
    (State.dropNames p names s).board = s.board ∧ (State.dropNames p names s).out = s.out := by
  obtain ⟨kq, kf⟩ := by
    have : May [.caches] .caches := ⟨by decide⟩
    exact keeps_rest (gs := [.caches]) (dropNames_keeps p names (Keeps.refl _ s))
  exact ⟨kq, kf .free (by decide), kf .regs (by decide), kf .tb (by decide), kf .hif (by decide), kf .work (by decide), kf .cores (by decide), kf .mem (by decide), kf .pair (by decide), kf .keeper (by decide), kf .bridle (by decide), kf .power (by decide), kf .board (by decide), kf .out (by decide)⟩

@[simp] theorem writeLoc_frame (l : Loc) (bs : List Byte) (s : State) :
    (State.writeLoc l bs s).pending = s.pending ∧ (State.writeLoc l bs s).free = s.free ∧
    (State.writeLoc l bs s).regs = s.regs ∧ (State.writeLoc l bs s).tb = s.tb ∧ (State.writeLoc l bs s).hif = s.hif ∧
    (State.writeLoc l bs s).work = s.work ∧ (State.writeLoc l bs s).caches = s.caches ∧
    (State.writeLoc l bs s).cores = s.cores ∧ (State.writeLoc l bs s).pair = s.pair ∧
    (State.writeLoc l bs s).keeper = s.keeper ∧ (State.writeLoc l bs s).bridle = s.bridle ∧
    (State.writeLoc l bs s).power = s.power ∧ (State.writeLoc l bs s).board = s.board ∧
    (State.writeLoc l bs s).out = s.out := by
  obtain ⟨kq, kf⟩ := by
    have : May [.mem] .mem := ⟨by decide⟩
    exact keeps_rest (gs := [.mem]) (writeLoc_keeps l bs (Keeps.refl _ s))
  exact ⟨kq, kf .free (by decide), kf .regs (by decide), kf .tb (by decide), kf .hif (by decide), kf .work (by decide), kf .caches (by decide), kf .cores (by decide), kf .pair (by decide), kf .keeper (by decide), kf .bridle (by decide), kf .power (by decide), kf .board (by decide), kf .out (by decide)⟩

@[simp] theorem remoteWrite_frame (owner : Nat) (b : Nat) (wr : Writer) (bs : List Byte) (s : State) :
    (State.remoteWrite owner b wr bs s).pending = s.pending ∧ (State.remoteWrite owner b wr bs s).free = s.free ∧
    (State.remoteWrite owner b wr bs s).tb = s.tb ∧ (State.remoteWrite owner b wr bs s).hif = s.hif ∧
    (State.remoteWrite owner b wr bs s).work = s.work ∧ (State.remoteWrite owner b wr bs s).caches = s.caches ∧
    (State.remoteWrite owner b wr bs s).pair = s.pair ∧ (State.remoteWrite owner b wr bs s).keeper = s.keeper ∧
    (State.remoteWrite owner b wr bs s).bridle = s.bridle ∧ (State.remoteWrite owner b wr bs s).power = s.power ∧
    (State.remoteWrite owner b wr bs s).board = s.board ∧ (State.remoteWrite owner b wr bs s).out = s.out := by
  obtain ⟨kq, kf⟩ := by
    have : May [.regs, .cores, .mem] .regs := ⟨by decide⟩
    have : May [.regs, .cores, .mem] .cores := ⟨by decide⟩
    have : May [.regs, .cores, .mem] .mem := ⟨by decide⟩
    exact keeps_rest (gs := [.regs, .cores, .mem]) (remoteWrite_keeps owner b wr bs (Keeps.refl _ s))
  exact ⟨kq, kf .free (by decide), kf .tb (by decide), kf .hif (by decide), kf .work (by decide), kf .caches (by decide), kf .pair (by decide), kf .keeper (by decide), kf .bridle (by decide), kf .power (by decide), kf .board (by decide), kf .out (by decide)⟩

@[simp] theorem dmWrite_frame (c : Nat) (a : Nat) (bs : List Byte) (s : State) :
    (State.dmWrite c a bs s).pending = s.pending ∧ (State.dmWrite c a bs s).free = s.free ∧
    (State.dmWrite c a bs s).tb = s.tb ∧ (State.dmWrite c a bs s).hif = s.hif ∧ (State.dmWrite c a bs s).work = s.work ∧
    (State.dmWrite c a bs s).caches = s.caches ∧ (State.dmWrite c a bs s).pair = s.pair ∧
    (State.dmWrite c a bs s).keeper = s.keeper ∧ (State.dmWrite c a bs s).bridle = s.bridle ∧
    (State.dmWrite c a bs s).power = s.power ∧ (State.dmWrite c a bs s).board = s.board := by
  obtain ⟨kq, kf⟩ := by
    have : May [.regs, .cores, .mem, .out] .regs := ⟨by decide⟩
    have : May [.regs, .cores, .mem, .out] .cores := ⟨by decide⟩
    have : May [.regs, .cores, .mem, .out] .mem := ⟨by decide⟩
    have : May [.regs, .cores, .mem, .out] .out := ⟨by decide⟩
    exact keeps_rest (gs := [.regs, .cores, .mem, .out]) (dmWrite_keeps c a bs (Keeps.refl _ s))
  exact ⟨kq, kf .free (by decide), kf .tb (by decide), kf .hif (by decide), kf .work (by decide), kf .caches (by decide), kf .pair (by decide), kf .keeper (by decide), kf .bridle (by decide), kf .power (by decide), kf .board (by decide)⟩

@[simp] theorem setSreg_frame (c : Nat) (i : Nat) (v : Nat) (s : State) :
    (State.setSreg c i v s).pending = s.pending ∧ (State.setSreg c i v s).free = s.free ∧
    (State.setSreg c i v s).regs = s.regs ∧ (State.setSreg c i v s).tb = s.tb ∧ (State.setSreg c i v s).hif = s.hif ∧
    (State.setSreg c i v s).work = s.work ∧ (State.setSreg c i v s).caches = s.caches ∧
    (State.setSreg c i v s).mem = s.mem ∧ (State.setSreg c i v s).pair = s.pair ∧
    (State.setSreg c i v s).keeper = s.keeper ∧ (State.setSreg c i v s).bridle = s.bridle ∧
    (State.setSreg c i v s).power = s.power ∧ (State.setSreg c i v s).board = s.board ∧
    (State.setSreg c i v s).out = s.out := by
  obtain ⟨kq, kf⟩ := by
    have : May [.cores] .cores := ⟨by decide⟩
    exact keeps_rest (gs := [.cores]) (setSreg_keeps c i v (Keeps.refl _ s))
  exact ⟨kq, kf .free (by decide), kf .regs (by decide), kf .tb (by decide), kf .hif (by decide), kf .work (by decide), kf .caches (by decide), kf .mem (by decide), kf .pair (by decide), kf .keeper (by decide), kf .bridle (by decide), kf .power (by decide), kf .board (by decide), kf .out (by decide)⟩

@[simp] theorem putTable_frame (p : Nat) (k : Nat) (ew : Nat) (entries : List Nat) (s : State) :
    (State.putTable p k ew entries s).pending = s.pending ∧ (State.putTable p k ew entries s).free = s.free ∧
    (State.putTable p k ew entries s).regs = s.regs ∧ (State.putTable p k ew entries s).tb = s.tb ∧
    (State.putTable p k ew entries s).hif = s.hif ∧ (State.putTable p k ew entries s).work = s.work ∧
    (State.putTable p k ew entries s).cores = s.cores ∧ (State.putTable p k ew entries s).mem = s.mem ∧
    (State.putTable p k ew entries s).pair = s.pair ∧ (State.putTable p k ew entries s).keeper = s.keeper ∧
    (State.putTable p k ew entries s).bridle = s.bridle ∧ (State.putTable p k ew entries s).power = s.power ∧
    (State.putTable p k ew entries s).board = s.board ∧ (State.putTable p k ew entries s).out = s.out := by
  obtain ⟨kq, kf⟩ := by
    have : May [.caches] .caches := ⟨by decide⟩
    exact keeps_rest (gs := [.caches]) (putTable_keeps p k ew entries (Keeps.refl _ s))
  exact ⟨kq, kf .free (by decide), kf .regs (by decide), kf .tb (by decide), kf .hif (by decide), kf .work (by decide), kf .cores (by decide), kf .mem (by decide), kf .pair (by decide), kf .keeper (by decide), kf .bridle (by decide), kf .power (by decide), kf .board (by decide), kf .out (by decide)⟩

@[simp] theorem buildPass_frame (p : Nat) (k : Nat) (ew : Nat) (group : List (List Byte)) (s : State) :
    (State.buildPass p k ew group s).pending = s.pending ∧ (State.buildPass p k ew group s).free = s.free ∧
    (State.buildPass p k ew group s).tb = s.tb ∧ (State.buildPass p k ew group s).hif = s.hif ∧
    (State.buildPass p k ew group s).work = s.work ∧ (State.buildPass p k ew group s).cores = s.cores ∧
    (State.buildPass p k ew group s).mem = s.mem ∧ (State.buildPass p k ew group s).pair = s.pair ∧
    (State.buildPass p k ew group s).keeper = s.keeper ∧ (State.buildPass p k ew group s).bridle = s.bridle ∧
    (State.buildPass p k ew group s).power = s.power ∧ (State.buildPass p k ew group s).board = s.board ∧
    (State.buildPass p k ew group s).out = s.out := by
  obtain ⟨kq, kf⟩ := by
    have : May [.regs, .caches] .regs := ⟨by decide⟩
    have : May [.regs, .caches] .caches := ⟨by decide⟩
    exact keeps_rest (gs := [.regs, .caches]) (buildPass_keeps p k ew group (Keeps.refl _ s))
  exact ⟨kq, kf .free (by decide), kf .tb (by decide), kf .hif (by decide), kf .work (by decide), kf .cores (by decide), kf .mem (by decide), kf .pair (by decide), kf .keeper (by decide), kf .bridle (by decide), kf .power (by decide), kf .board (by decide), kf .out (by decide)⟩

@[simp] theorem frameWrite_frame (tier : Nat) (frame : Nat) (bs : List Byte) (s : State) :
    (State.frameWrite tier frame bs s).pending = s.pending ∧ (State.frameWrite tier frame bs s).free = s.free ∧
    (State.frameWrite tier frame bs s).regs = s.regs ∧ (State.frameWrite tier frame bs s).tb = s.tb ∧
    (State.frameWrite tier frame bs s).hif = s.hif ∧ (State.frameWrite tier frame bs s).work = s.work ∧
    (State.frameWrite tier frame bs s).caches = s.caches ∧ (State.frameWrite tier frame bs s).cores = s.cores ∧
    (State.frameWrite tier frame bs s).pair = s.pair ∧ (State.frameWrite tier frame bs s).keeper = s.keeper ∧
    (State.frameWrite tier frame bs s).bridle = s.bridle ∧ (State.frameWrite tier frame bs s).power = s.power ∧
    (State.frameWrite tier frame bs s).board = s.board ∧ (State.frameWrite tier frame bs s).out = s.out := by
  obtain ⟨kq, kf⟩ := by
    have : May [.mem] .mem := ⟨by decide⟩
    exact keeps_rest (gs := [.mem]) (frameWrite_keeps tier frame bs (Keeps.refl _ s))
  exact ⟨kq, kf .free (by decide), kf .regs (by decide), kf .tb (by decide), kf .hif (by decide), kf .work (by decide), kf .caches (by decide), kf .cores (by decide), kf .pair (by decide), kf .keeper (by decide), kf .bridle (by decide), kf .power (by decide), kf .board (by decide), kf .out (by decide)⟩

@[simp] theorem pageDropNames_frame (pg : Page) (s : State) :
    (State.pageDropNames pg s).pending = s.pending ∧ (State.pageDropNames pg s).free = s.free ∧
    (State.pageDropNames pg s).regs = s.regs ∧ (State.pageDropNames pg s).tb = s.tb ∧
    (State.pageDropNames pg s).hif = s.hif ∧ (State.pageDropNames pg s).work = s.work ∧
    (State.pageDropNames pg s).cores = s.cores ∧ (State.pageDropNames pg s).mem = s.mem ∧
    (State.pageDropNames pg s).pair = s.pair ∧ (State.pageDropNames pg s).keeper = s.keeper ∧
    (State.pageDropNames pg s).bridle = s.bridle ∧ (State.pageDropNames pg s).power = s.power ∧
    (State.pageDropNames pg s).board = s.board ∧ (State.pageDropNames pg s).out = s.out := by
  obtain ⟨kq, kf⟩ := by
    have : May [.caches] .caches := ⟨by decide⟩
    exact keeps_rest (gs := [.caches]) (pageDropNames_keeps pg (Keeps.refl _ s))
  exact ⟨kq, kf .free (by decide), kf .regs (by decide), kf .tb (by decide), kf .hif (by decide), kf .work (by decide), kf .cores (by decide), kf .mem (by decide), kf .pair (by decide), kf .keeper (by decide), kf .bridle (by decide), kf .power (by decide), kf .board (by decide), kf .out (by decide)⟩

@[simp] theorem storePage_frame (pg : Page) (tier : Nat) (frame : Nat) (raw : List Byte) (s : State) :
    (State.storePage pg tier frame raw s).pending = s.pending ∧ (State.storePage pg tier frame raw s).tb = s.tb ∧
    (State.storePage pg tier frame raw s).hif = s.hif ∧ (State.storePage pg tier frame raw s).work = s.work ∧
    (State.storePage pg tier frame raw s).cores = s.cores ∧ (State.storePage pg tier frame raw s).pair = s.pair ∧
    (State.storePage pg tier frame raw s).keeper = s.keeper ∧ (State.storePage pg tier frame raw s).bridle = s.bridle ∧
    (State.storePage pg tier frame raw s).power = s.power ∧ (State.storePage pg tier frame raw s).board = s.board ∧
    (State.storePage pg tier frame raw s).out = s.out := by
  obtain ⟨kq, kf⟩ := by
    have : May [.free, .regs, .caches, .mem] .free := ⟨by decide⟩
    have : May [.free, .regs, .caches, .mem] .regs := ⟨by decide⟩
    have : May [.free, .regs, .caches, .mem] .caches := ⟨by decide⟩
    have : May [.free, .regs, .caches, .mem] .mem := ⟨by decide⟩
    exact keeps_rest (gs := [.free, .regs, .caches, .mem]) (storePage_keeps pg tier frame raw (Keeps.refl _ s))
  exact ⟨kq, kf .tb (by decide), kf .hif (by decide), kf .work (by decide), kf .cores (by decide), kf .pair (by decide), kf .keeper (by decide), kf .bridle (by decide), kf .power (by decide), kf .board (by decide), kf .out (by decide)⟩

@[simp] theorem updPage_frame (n : Nat) (f : Page → Page) (s : State) :
    (State.updPage n f s).pending = s.pending ∧ (State.updPage n f s).free = s.free ∧
    (State.updPage n f s).regs = s.regs ∧ (State.updPage n f s).tb = s.tb ∧ (State.updPage n f s).hif = s.hif ∧
    (State.updPage n f s).work = s.work ∧ (State.updPage n f s).cores = s.cores ∧ (State.updPage n f s).mem = s.mem ∧
    (State.updPage n f s).pair = s.pair ∧ (State.updPage n f s).keeper = s.keeper ∧
    (State.updPage n f s).bridle = s.bridle ∧ (State.updPage n f s).power = s.power ∧
    (State.updPage n f s).board = s.board ∧ (State.updPage n f s).out = s.out := by
  obtain ⟨kq, kf⟩ := by
    have : May [.caches] .caches := ⟨by decide⟩
    exact keeps_rest (gs := [.caches]) (updPage_keeps n f (Keeps.refl _ s))
  exact ⟨kq, kf .free (by decide), kf .regs (by decide), kf .tb (by decide), kf .hif (by decide), kf .work (by decide), kf .cores (by decide), kf .mem (by decide), kf .pair (by decide), kf .keeper (by decide), kf .bridle (by decide), kf .power (by decide), kf .board (by decide), kf .out (by decide)⟩

@[simp] theorem freePage_frame (n : Nat) (s : State) :
    (State.freePage n s).pending = s.pending ∧ (State.freePage n s).free = s.free ∧ (State.freePage n s).regs = s.regs ∧
    (State.freePage n s).tb = s.tb ∧ (State.freePage n s).hif = s.hif ∧ (State.freePage n s).work = s.work ∧
    (State.freePage n s).cores = s.cores ∧ (State.freePage n s).mem = s.mem ∧ (State.freePage n s).pair = s.pair ∧
    (State.freePage n s).keeper = s.keeper ∧ (State.freePage n s).bridle = s.bridle ∧
    (State.freePage n s).power = s.power ∧ (State.freePage n s).board = s.board ∧ (State.freePage n s).out = s.out := by
  obtain ⟨kq, kf⟩ := by
    have : May [.caches] .caches := ⟨by decide⟩
    exact keeps_rest (gs := [.caches]) (freePage_keeps n (Keeps.refl _ s))
  exact ⟨kq, kf .free (by decide), kf .regs (by decide), kf .tb (by decide), kf .hif (by decide), kf .work (by decide), kf .cores (by decide), kf .mem (by decide), kf .pair (by decide), kf .keeper (by decide), kf .bridle (by decide), kf .power (by decide), kf .board (by decide), kf .out (by decide)⟩

@[simp] theorem pageUnused_frame (n : Nat) (s : State) :
    (State.pageUnused n s).pending = s.pending ∧ (State.pageUnused n s).free = s.free ∧
    (State.pageUnused n s).regs = s.regs ∧ (State.pageUnused n s).tb = s.tb ∧ (State.pageUnused n s).hif = s.hif ∧
    (State.pageUnused n s).work = s.work ∧ (State.pageUnused n s).cores = s.cores ∧ (State.pageUnused n s).mem = s.mem ∧
    (State.pageUnused n s).pair = s.pair ∧ (State.pageUnused n s).keeper = s.keeper ∧
    (State.pageUnused n s).bridle = s.bridle ∧ (State.pageUnused n s).power = s.power ∧
    (State.pageUnused n s).board = s.board ∧ (State.pageUnused n s).out = s.out := by
  obtain ⟨kq, kf⟩ := by
    have : May [.caches] .caches := ⟨by decide⟩
    exact keeps_rest (gs := [.caches]) (pageUnused_keeps n (Keeps.refl _ s))
  exact ⟨kq, kf .free (by decide), kf .regs (by decide), kf .tb (by decide), kf .hif (by decide), kf .work (by decide), kf .cores (by decide), kf .mem (by decide), kf .pair (by decide), kf .keeper (by decide), kf .bridle (by decide), kf .power (by decide), kf .board (by decide), kf .out (by decide)⟩

@[simp] theorem dropRef_frame (holder : Nat) (n : Nat) (s : State) :
    (State.dropRef holder n s).pending = s.pending ∧ (State.dropRef holder n s).free = s.free ∧
    (State.dropRef holder n s).regs = s.regs ∧ (State.dropRef holder n s).tb = s.tb ∧
    (State.dropRef holder n s).hif = s.hif ∧ (State.dropRef holder n s).work = s.work ∧
    (State.dropRef holder n s).cores = s.cores ∧ (State.dropRef holder n s).mem = s.mem ∧
    (State.dropRef holder n s).pair = s.pair ∧ (State.dropRef holder n s).keeper = s.keeper ∧
    (State.dropRef holder n s).bridle = s.bridle ∧ (State.dropRef holder n s).power = s.power ∧
    (State.dropRef holder n s).board = s.board ∧ (State.dropRef holder n s).out = s.out := by
  obtain ⟨kq, kf⟩ := by
    have : May [.caches] .caches := ⟨by decide⟩
    exact keeps_rest (gs := [.caches]) (dropRef_keeps holder n (Keeps.refl _ s))
  exact ⟨kq, kf .free (by decide), kf .regs (by decide), kf .tb (by decide), kf .hif (by decide), kf .work (by decide), kf .cores (by decide), kf .mem (by decide), kf .pair (by decide), kf .keeper (by decide), kf .bridle (by decide), kf .power (by decide), kf .board (by decide), kf .out (by decide)⟩

@[simp] theorem releasePages_frame (id : Nat) (ns : List Nat) (s : State) :
    (State.releasePages id ns s).pending = s.pending ∧ (State.releasePages id ns s).free = s.free ∧
    (State.releasePages id ns s).regs = s.regs ∧ (State.releasePages id ns s).tb = s.tb ∧
    (State.releasePages id ns s).hif = s.hif ∧ (State.releasePages id ns s).cores = s.cores ∧
    (State.releasePages id ns s).mem = s.mem ∧ (State.releasePages id ns s).pair = s.pair ∧
    (State.releasePages id ns s).keeper = s.keeper ∧ (State.releasePages id ns s).bridle = s.bridle ∧
    (State.releasePages id ns s).power = s.power ∧ (State.releasePages id ns s).board = s.board ∧
    (State.releasePages id ns s).out = s.out := by
  obtain ⟨kq, kf⟩ := by
    have : May [.work, .caches] .work := ⟨by decide⟩
    have : May [.work, .caches] .caches := ⟨by decide⟩
    exact keeps_rest (gs := [.work, .caches]) (releasePages_keeps id ns (Keeps.refl _ s))
  exact ⟨kq, kf .free (by decide), kf .regs (by decide), kf .tb (by decide), kf .hif (by decide), kf .cores (by decide), kf .mem (by decide), kf .pair (by decide), kf .keeper (by decide), kf .bridle (by decide), kf .power (by decide), kf .board (by decide), kf .out (by decide)⟩

@[simp] theorem makePage_frame (pg : Page) (s : State) :
    (State.makePage pg s).pending = s.pending ∧ (State.makePage pg s).free = s.free ∧
    (State.makePage pg s).regs = s.regs ∧ (State.makePage pg s).tb = s.tb ∧ (State.makePage pg s).hif = s.hif ∧
    (State.makePage pg s).work = s.work ∧ (State.makePage pg s).cores = s.cores ∧ (State.makePage pg s).pair = s.pair ∧
    (State.makePage pg s).keeper = s.keeper ∧ (State.makePage pg s).bridle = s.bridle ∧
    (State.makePage pg s).power = s.power ∧ (State.makePage pg s).board = s.board ∧
    (State.makePage pg s).out = s.out := by
  obtain ⟨kq, kf⟩ := by
    have : May [.caches, .mem] .caches := ⟨by decide⟩
    have : May [.caches, .mem] .mem := ⟨by decide⟩
    exact keeps_rest (gs := [.caches, .mem]) (makePage_keeps pg (Keeps.refl _ s))
  exact ⟨kq, kf .free (by decide), kf .regs (by decide), kf .tb (by decide), kf .hif (by decide), kf .work (by decide), kf .cores (by decide), kf .pair (by decide), kf .keeper (by decide), kf .bridle (by decide), kf .power (by decide), kf .board (by decide), kf .out (by decide)⟩

@[simp] theorem givePage_frame (id : Nat) (p : Nat) (kind : Nat) (fmt : Nat) (shape : Nat) (p0 : Nat) (fr : Nat)
    (s : State) :
    (State.givePage id p kind fmt shape p0 fr s).pending = s.pending ∧
    (State.givePage id p kind fmt shape p0 fr s).free = s.free ∧
    (State.givePage id p kind fmt shape p0 fr s).regs = s.regs ∧ (State.givePage id p kind fmt shape p0 fr s).tb = s.tb ∧
    (State.givePage id p kind fmt shape p0 fr s).hif = s.hif ∧
    (State.givePage id p kind fmt shape p0 fr s).cores = s.cores ∧
    (State.givePage id p kind fmt shape p0 fr s).pair = s.pair ∧
    (State.givePage id p kind fmt shape p0 fr s).keeper = s.keeper ∧
    (State.givePage id p kind fmt shape p0 fr s).bridle = s.bridle ∧
    (State.givePage id p kind fmt shape p0 fr s).power = s.power ∧
    (State.givePage id p kind fmt shape p0 fr s).board = s.board ∧
    (State.givePage id p kind fmt shape p0 fr s).out = s.out := by
  obtain ⟨kq, kf⟩ := by
    have : May [.work, .caches, .mem] .work := ⟨by decide⟩
    have : May [.work, .caches, .mem] .caches := ⟨by decide⟩
    have : May [.work, .caches, .mem] .mem := ⟨by decide⟩
    exact keeps_rest (gs := [.work, .caches, .mem]) (givePage_keeps id p kind fmt shape p0 fr (Keeps.refl _ s))
  exact ⟨kq, kf .free (by decide), kf .regs (by decide), kf .tb (by decide), kf .hif (by decide), kf .cores (by decide), kf .pair (by decide), kf .keeper (by decide), kf .bridle (by decide), kf .power (by decide), kf .board (by decide), kf .out (by decide)⟩

@[simp] theorem dropPrefix_frame (k : Nat) (s : State) :
    (State.dropPrefix k s).pending = s.pending ∧ (State.dropPrefix k s).free = s.free ∧
    (State.dropPrefix k s).regs = s.regs ∧ (State.dropPrefix k s).tb = s.tb ∧ (State.dropPrefix k s).hif = s.hif ∧
    (State.dropPrefix k s).work = s.work ∧ (State.dropPrefix k s).cores = s.cores ∧ (State.dropPrefix k s).mem = s.mem ∧
    (State.dropPrefix k s).pair = s.pair ∧ (State.dropPrefix k s).keeper = s.keeper ∧
    (State.dropPrefix k s).bridle = s.bridle ∧ (State.dropPrefix k s).power = s.power ∧
    (State.dropPrefix k s).board = s.board ∧ (State.dropPrefix k s).out = s.out := by
  obtain ⟨kq, kf⟩ := by
    have : May [.caches] .caches := ⟨by decide⟩
    exact keeps_rest (gs := [.caches]) (dropPrefix_keeps k (Keeps.refl _ s))
  exact ⟨kq, kf .free (by decide), kf .regs (by decide), kf .tb (by decide), kf .hif (by decide), kf .work (by decide), kf .cores (by decide), kf .mem (by decide), kf .pair (by decide), kf .keeper (by decide), kf .bridle (by decide), kf .power (by decide), kf .board (by decide), kf .out (by decide)⟩

@[simp] theorem updRec_frame (id : Nat) (f : Record → Record) (s : State) :
    (State.updRec id f s).pending = s.pending ∧ (State.updRec id f s).free = s.free ∧
    (State.updRec id f s).regs = s.regs ∧ (State.updRec id f s).tb = s.tb ∧ (State.updRec id f s).hif = s.hif ∧
    (State.updRec id f s).caches = s.caches ∧ (State.updRec id f s).cores = s.cores ∧ (State.updRec id f s).mem = s.mem ∧
    (State.updRec id f s).pair = s.pair ∧ (State.updRec id f s).keeper = s.keeper ∧
    (State.updRec id f s).bridle = s.bridle ∧ (State.updRec id f s).power = s.power ∧
    (State.updRec id f s).board = s.board ∧ (State.updRec id f s).out = s.out := by
  obtain ⟨kq, kf⟩ := by
    have : May [.work] .work := ⟨by decide⟩
    exact keeps_rest (gs := [.work]) (updRec_keeps id f (Keeps.refl _ s))
  exact ⟨kq, kf .free (by decide), kf .regs (by decide), kf .tb (by decide), kf .hif (by decide), kf .caches (by decide), kf .cores (by decide), kf .mem (by decide), kf .pair (by decide), kf .keeper (by decide), kf .bridle (by decide), kf .power (by decide), kf .board (by decide), kf .out (by decide)⟩

@[simp] theorem recordPut_frame (id : Nat) (b : Nat) (bs : List Byte) (s : State) :
    (State.recordPut id b bs s).pending = s.pending ∧ (State.recordPut id b bs s).free = s.free ∧
    (State.recordPut id b bs s).regs = s.regs ∧ (State.recordPut id b bs s).tb = s.tb ∧
    (State.recordPut id b bs s).hif = s.hif ∧ (State.recordPut id b bs s).caches = s.caches ∧
    (State.recordPut id b bs s).cores = s.cores ∧ (State.recordPut id b bs s).pair = s.pair ∧
    (State.recordPut id b bs s).keeper = s.keeper ∧ (State.recordPut id b bs s).bridle = s.bridle ∧
    (State.recordPut id b bs s).power = s.power ∧ (State.recordPut id b bs s).board = s.board ∧
    (State.recordPut id b bs s).out = s.out := by
  obtain ⟨kq, kf⟩ := by
    have : May [.work, .mem] .work := ⟨by decide⟩
    have : May [.work, .mem] .mem := ⟨by decide⟩
    exact keeps_rest (gs := [.work, .mem]) (recordPut_keeps id b bs (Keeps.refl _ s))
  exact ⟨kq, kf .free (by decide), kf .regs (by decide), kf .tb (by decide), kf .hif (by decide), kf .caches (by decide), kf .cores (by decide), kf .pair (by decide), kf .keeper (by decide), kf .bridle (by decide), kf .power (by decide), kf .board (by decide), kf .out (by decide)⟩

@[simp] theorem writeHeader_frame (id : Nat) (s : State) :
    (State.writeHeader id s).pending = s.pending ∧ (State.writeHeader id s).free = s.free ∧
    (State.writeHeader id s).regs = s.regs ∧ (State.writeHeader id s).tb = s.tb ∧ (State.writeHeader id s).hif = s.hif ∧
    (State.writeHeader id s).caches = s.caches ∧ (State.writeHeader id s).cores = s.cores ∧
    (State.writeHeader id s).pair = s.pair ∧ (State.writeHeader id s).keeper = s.keeper ∧
    (State.writeHeader id s).bridle = s.bridle ∧ (State.writeHeader id s).power = s.power ∧
    (State.writeHeader id s).board = s.board ∧ (State.writeHeader id s).out = s.out := by
  obtain ⟨kq, kf⟩ := by
    have : May [.work, .mem] .work := ⟨by decide⟩
    have : May [.work, .mem] .mem := ⟨by decide⟩
    exact keeps_rest (gs := [.work, .mem]) (writeHeader_keeps id (Keeps.refl _ s))
  exact ⟨kq, kf .free (by decide), kf .regs (by decide), kf .tb (by decide), kf .hif (by decide), kf .caches (by decide), kf .cores (by decide), kf .pair (by decide), kf .keeper (by decide), kf .bridle (by decide), kf .power (by decide), kf .board (by decide), kf .out (by decide)⟩

@[simp] theorem writePageList_frame (id : Nat) (s : State) :
    (State.writePageList id s).pending = s.pending ∧ (State.writePageList id s).free = s.free ∧
    (State.writePageList id s).regs = s.regs ∧ (State.writePageList id s).tb = s.tb ∧
    (State.writePageList id s).hif = s.hif ∧ (State.writePageList id s).caches = s.caches ∧
    (State.writePageList id s).cores = s.cores ∧ (State.writePageList id s).pair = s.pair ∧
    (State.writePageList id s).keeper = s.keeper ∧ (State.writePageList id s).bridle = s.bridle ∧
    (State.writePageList id s).power = s.power ∧ (State.writePageList id s).board = s.board ∧
    (State.writePageList id s).out = s.out := by
  obtain ⟨kq, kf⟩ := by
    have : May [.work, .mem] .work := ⟨by decide⟩
    have : May [.work, .mem] .mem := ⟨by decide⟩
    exact keeps_rest (gs := [.work, .mem]) (writePageList_keeps id (Keeps.refl _ s))
  exact ⟨kq, kf .free (by decide), kf .regs (by decide), kf .tb (by decide), kf .hif (by decide), kf .caches (by decide), kf .cores (by decide), kf .pair (by decide), kf .keeper (by decide), kf .bridle (by decide), kf .power (by decide), kf .board (by decide), kf .out (by decide)⟩

@[simp] theorem applyHeld_frame (id : Nat) (s : State) :
    (State.applyHeld id s).pending = s.pending ∧ (State.applyHeld id s).free = s.free ∧
    (State.applyHeld id s).regs = s.regs ∧ (State.applyHeld id s).tb = s.tb ∧ (State.applyHeld id s).hif = s.hif ∧
    (State.applyHeld id s).caches = s.caches ∧ (State.applyHeld id s).cores = s.cores ∧
    (State.applyHeld id s).pair = s.pair ∧ (State.applyHeld id s).keeper = s.keeper ∧
    (State.applyHeld id s).bridle = s.bridle ∧ (State.applyHeld id s).power = s.power ∧
    (State.applyHeld id s).board = s.board ∧ (State.applyHeld id s).out = s.out := by
  obtain ⟨kq, kf⟩ := by
    have : May [.work, .mem] .work := ⟨by decide⟩
    have : May [.work, .mem] .mem := ⟨by decide⟩
    exact keeps_rest (gs := [.work, .mem]) (applyHeld_keeps id (Keeps.refl _ s))
  exact ⟨kq, kf .free (by decide), kf .regs (by decide), kf .tb (by decide), kf .hif (by decide), kf .caches (by decide), kf .cores (by decide), kf .pair (by decide), kf .keeper (by decide), kf .bridle (by decide), kf .power (by decide), kf .board (by decide), kf .out (by decide)⟩

@[simp] theorem handOff_frame (id : Nat) (s : State) :
    (State.handOff id s).pending = s.pending ∧ (State.handOff id s).free = s.free ∧ (State.handOff id s).regs = s.regs ∧
    (State.handOff id s).tb = s.tb ∧ (State.handOff id s).hif = s.hif ∧ (State.handOff id s).caches = s.caches ∧
    (State.handOff id s).cores = s.cores ∧ (State.handOff id s).mem = s.mem ∧ (State.handOff id s).keeper = s.keeper ∧
    (State.handOff id s).bridle = s.bridle ∧ (State.handOff id s).power = s.power ∧ (State.handOff id s).board = s.board ∧
    (State.handOff id s).out = s.out := by
  obtain ⟨kq, kf⟩ := by
    have : May [.work, .pair] .work := ⟨by decide⟩
    have : May [.work, .pair] .pair := ⟨by decide⟩
    exact keeps_rest (gs := [.work, .pair]) (handOff_keeps id (Keeps.refl _ s))
  exact ⟨kq, kf .free (by decide), kf .regs (by decide), kf .tb (by decide), kf .hif (by decide), kf .caches (by decide), kf .cores (by decide), kf .mem (by decide), kf .keeper (by decide), kf .bridle (by decide), kf .power (by decide), kf .board (by decide), kf .out (by decide)⟩

@[simp] theorem handOffFull_frame (id : Nat) (s : State) :
    (State.handOffFull id s).pending = s.pending ∧ (State.handOffFull id s).free = s.free ∧
    (State.handOffFull id s).regs = s.regs ∧ (State.handOffFull id s).tb = s.tb ∧ (State.handOffFull id s).hif = s.hif ∧
    (State.handOffFull id s).cores = s.cores ∧ (State.handOffFull id s).mem = s.mem ∧
    (State.handOffFull id s).keeper = s.keeper ∧ (State.handOffFull id s).bridle = s.bridle ∧
    (State.handOffFull id s).power = s.power ∧ (State.handOffFull id s).board = s.board ∧
    (State.handOffFull id s).out = s.out := by
  obtain ⟨kq, kf⟩ := by
    have : May [.work, .caches, .pair] .work := ⟨by decide⟩
    have : May [.work, .caches, .pair] .caches := ⟨by decide⟩
    have : May [.work, .caches, .pair] .pair := ⟨by decide⟩
    exact keeps_rest (gs := [.work, .caches, .pair]) (handOffFull_keeps id (Keeps.refl _ s))
  exact ⟨kq, kf .free (by decide), kf .regs (by decide), kf .tb (by decide), kf .hif (by decide), kf .cores (by decide), kf .mem (by decide), kf .keeper (by decide), kf .bridle (by decide), kf .power (by decide), kf .board (by decide), kf .out (by decide)⟩

@[simp] theorem dropMove_frame (id : Nat) (s : State) :
    (State.dropMove id s).pending = s.pending ∧ (State.dropMove id s).free = s.free ∧
    (State.dropMove id s).regs = s.regs ∧ (State.dropMove id s).tb = s.tb ∧ (State.dropMove id s).hif = s.hif ∧
    (State.dropMove id s).caches = s.caches ∧ (State.dropMove id s).cores = s.cores ∧ (State.dropMove id s).mem = s.mem ∧
    (State.dropMove id s).pair = s.pair ∧ (State.dropMove id s).keeper = s.keeper ∧
    (State.dropMove id s).bridle = s.bridle ∧ (State.dropMove id s).power = s.power ∧
    (State.dropMove id s).board = s.board ∧ (State.dropMove id s).out = s.out := by
  obtain ⟨kq, kf⟩ := by
    have : May [.work] .work := ⟨by decide⟩
    exact keeps_rest (gs := [.work]) (dropMove_keeps id (Keeps.refl _ s))
  exact ⟨kq, kf .free (by decide), kf .regs (by decide), kf .tb (by decide), kf .hif (by decide), kf .caches (by decide), kf .cores (by decide), kf .mem (by decide), kf .pair (by decide), kf .keeper (by decide), kf .bridle (by decide), kf .power (by decide), kf .board (by decide), kf .out (by decide)⟩

@[simp] theorem queueMove_frame (id : Nat) (kind : MoveKind) (prio : Nat) (due : Option Nat) (s : State) :
    (State.queueMove id kind prio due s).pending = s.pending ∧ (State.queueMove id kind prio due s).free = s.free ∧
    (State.queueMove id kind prio due s).regs = s.regs ∧ (State.queueMove id kind prio due s).tb = s.tb ∧
    (State.queueMove id kind prio due s).hif = s.hif ∧ (State.queueMove id kind prio due s).caches = s.caches ∧
    (State.queueMove id kind prio due s).cores = s.cores ∧ (State.queueMove id kind prio due s).mem = s.mem ∧
    (State.queueMove id kind prio due s).pair = s.pair ∧ (State.queueMove id kind prio due s).keeper = s.keeper ∧
    (State.queueMove id kind prio due s).bridle = s.bridle ∧ (State.queueMove id kind prio due s).power = s.power ∧
    (State.queueMove id kind prio due s).board = s.board ∧ (State.queueMove id kind prio due s).out = s.out := by
  obtain ⟨kq, kf⟩ := by
    have : May [.work] .work := ⟨by decide⟩
    exact keeps_rest (gs := [.work]) (queueMove_keeps id kind prio due (Keeps.refl _ s))
  exact ⟨kq, kf .free (by decide), kf .regs (by decide), kf .tb (by decide), kf .hif (by decide), kf .caches (by decide), kf .cores (by decide), kf .mem (by decide), kf .pair (by decide), kf .keeper (by decide), kf .bridle (by decide), kf .power (by decide), kf .board (by decide), kf .out (by decide)⟩

@[simp] theorem queueFill_frame (id : Nat) (prio : Nat) (tick : Nat) (s : State) :
    (State.queueFill id prio tick s).pending = s.pending ∧ (State.queueFill id prio tick s).free = s.free ∧
    (State.queueFill id prio tick s).tb = s.tb ∧ (State.queueFill id prio tick s).hif = s.hif ∧
    (State.queueFill id prio tick s).caches = s.caches ∧ (State.queueFill id prio tick s).cores = s.cores ∧
    (State.queueFill id prio tick s).mem = s.mem ∧ (State.queueFill id prio tick s).pair = s.pair ∧
    (State.queueFill id prio tick s).keeper = s.keeper ∧ (State.queueFill id prio tick s).bridle = s.bridle ∧
    (State.queueFill id prio tick s).power = s.power ∧ (State.queueFill id prio tick s).board = s.board ∧
    (State.queueFill id prio tick s).out = s.out := by
  obtain ⟨kq, kf⟩ := by
    have : May [.regs, .work] .regs := ⟨by decide⟩
    have : May [.regs, .work] .work := ⟨by decide⟩
    exact keeps_rest (gs := [.regs, .work]) (queueFill_keeps id prio tick (Keeps.refl _ s))
  exact ⟨kq, kf .free (by decide), kf .tb (by decide), kf .hif (by decide), kf .caches (by decide), kf .cores (by decide), kf .mem (by decide), kf .pair (by decide), kf .keeper (by decide), kf .bridle (by decide), kf .power (by decide), kf .board (by decide), kf .out (by decide)⟩

@[simp] theorem cancelMove_frame (id : Nat) (s : State) :
    (State.cancelMove id s).pending = s.pending ∧ (State.cancelMove id s).free = s.free ∧
    (State.cancelMove id s).regs = s.regs ∧ (State.cancelMove id s).tb = s.tb ∧ (State.cancelMove id s).hif = s.hif ∧
    (State.cancelMove id s).caches = s.caches ∧ (State.cancelMove id s).cores = s.cores ∧
    (State.cancelMove id s).mem = s.mem ∧ (State.cancelMove id s).pair = s.pair ∧
    (State.cancelMove id s).keeper = s.keeper ∧ (State.cancelMove id s).bridle = s.bridle ∧
    (State.cancelMove id s).power = s.power ∧ (State.cancelMove id s).board = s.board ∧
    (State.cancelMove id s).out = s.out := by
  obtain ⟨kq, kf⟩ := by
    have : May [.work] .work := ⟨by decide⟩
    exact keeps_rest (gs := [.work]) (cancelMove_keeps id (Keeps.refl _ s))
  exact ⟨kq, kf .free (by decide), kf .regs (by decide), kf .tb (by decide), kf .hif (by decide), kf .caches (by decide), kf .cores (by decide), kf .mem (by decide), kf .pair (by decide), kf .keeper (by decide), kf .bridle (by decide), kf .power (by decide), kf .board (by decide), kf .out (by decide)⟩

@[simp] theorem swapOutEnd_frame (id : Nat) (s : State) :
    (State.swapOutEnd id s).pending = s.pending ∧ (State.swapOutEnd id s).free = s.free ∧
    (State.swapOutEnd id s).tb = s.tb ∧ (State.swapOutEnd id s).hif = s.hif ∧ (State.swapOutEnd id s).caches = s.caches ∧
    (State.swapOutEnd id s).cores = s.cores ∧ (State.swapOutEnd id s).pair = s.pair ∧
    (State.swapOutEnd id s).keeper = s.keeper ∧ (State.swapOutEnd id s).bridle = s.bridle ∧
    (State.swapOutEnd id s).power = s.power ∧ (State.swapOutEnd id s).board = s.board ∧
    (State.swapOutEnd id s).out = s.out := by
  obtain ⟨kq, kf⟩ := by
    have : May [.regs, .work, .mem] .regs := ⟨by decide⟩
    have : May [.regs, .work, .mem] .work := ⟨by decide⟩
    have : May [.regs, .work, .mem] .mem := ⟨by decide⟩
    exact keeps_rest (gs := [.regs, .work, .mem]) (swapOutEnd_keeps id (Keeps.refl _ s))
  exact ⟨kq, kf .free (by decide), kf .tb (by decide), kf .hif (by decide), kf .caches (by decide), kf .cores (by decide), kf .pair (by decide), kf .keeper (by decide), kf .bridle (by decide), kf .power (by decide), kf .board (by decide), kf .out (by decide)⟩

@[simp] theorem freeExtent_frame (id : Nat) (s : State) :
    (State.freeExtent id s).pending = s.pending ∧ (State.freeExtent id s).free = s.free ∧
    (State.freeExtent id s).regs = s.regs ∧ (State.freeExtent id s).tb = s.tb ∧ (State.freeExtent id s).hif = s.hif ∧
    (State.freeExtent id s).cores = s.cores ∧ (State.freeExtent id s).mem = s.mem ∧
    (State.freeExtent id s).pair = s.pair ∧ (State.freeExtent id s).keeper = s.keeper ∧
    (State.freeExtent id s).bridle = s.bridle ∧ (State.freeExtent id s).power = s.power ∧
    (State.freeExtent id s).board = s.board ∧ (State.freeExtent id s).out = s.out := by
  obtain ⟨kq, kf⟩ := by
    have : May [.work, .caches] .work := ⟨by decide⟩
    have : May [.work, .caches] .caches := ⟨by decide⟩
    exact keeps_rest (gs := [.work, .caches]) (freeExtent_keeps id (Keeps.refl _ s))
  exact ⟨kq, kf .free (by decide), kf .regs (by decide), kf .tb (by decide), kf .hif (by decide), kf .cores (by decide), kf .mem (by decide), kf .pair (by decide), kf .keeper (by decide), kf .bridle (by decide), kf .power (by decide), kf .board (by decide), kf .out (by decide)⟩

@[simp] theorem releaseHeld_frame (id : Nat) (upTo : Option Nat) (s : State) :
    (State.releaseHeld id upTo s).pending = s.pending ∧ (State.releaseHeld id upTo s).free = s.free ∧
    (State.releaseHeld id upTo s).regs = s.regs ∧ (State.releaseHeld id upTo s).tb = s.tb ∧
    (State.releaseHeld id upTo s).caches = s.caches ∧ (State.releaseHeld id upTo s).cores = s.cores ∧
    (State.releaseHeld id upTo s).pair = s.pair ∧ (State.releaseHeld id upTo s).keeper = s.keeper ∧
    (State.releaseHeld id upTo s).bridle = s.bridle ∧ (State.releaseHeld id upTo s).power = s.power ∧
    (State.releaseHeld id upTo s).board = s.board := by
  obtain ⟨kq, kf⟩ := by
    have : May [.hif, .work, .mem, .out] .hif := ⟨by decide⟩
    have : May [.hif, .work, .mem, .out] .work := ⟨by decide⟩
    have : May [.hif, .work, .mem, .out] .mem := ⟨by decide⟩
    have : May [.hif, .work, .mem, .out] .out := ⟨by decide⟩
    exact keeps_rest (gs := [.hif, .work, .mem, .out]) (releaseHeld_keeps id upTo (Keeps.refl _ s))
  exact ⟨kq, kf .free (by decide), kf .regs (by decide), kf .tb (by decide), kf .caches (by decide), kf .cores (by decide), kf .pair (by decide), kf .keeper (by decide), kf .bridle (by decide), kf .power (by decide), kf .board (by decide)⟩

@[simp] theorem dropMirrors_frame (s : State) :
    (State.dropMirrors s).pending = s.pending ∧ (State.dropMirrors s).free = s.free ∧
    (State.dropMirrors s).regs = s.regs ∧ (State.dropMirrors s).tb = s.tb ∧ (State.dropMirrors s).hif = s.hif ∧
    (State.dropMirrors s).work = s.work ∧ (State.dropMirrors s).caches = s.caches ∧
    (State.dropMirrors s).cores = s.cores ∧ (State.dropMirrors s).mem = s.mem ∧ (State.dropMirrors s).keeper = s.keeper ∧
    (State.dropMirrors s).bridle = s.bridle ∧ (State.dropMirrors s).power = s.power ∧
    (State.dropMirrors s).board = s.board ∧ (State.dropMirrors s).out = s.out := by
  obtain ⟨kq, kf⟩ := by
    have : May [.pair] .pair := ⟨by decide⟩
    exact keeps_rest (gs := [.pair]) (dropMirrors_keeps (Keeps.refl _ s))
  exact ⟨kq, kf .free (by decide), kf .regs (by decide), kf .tb (by decide), kf .hif (by decide), kf .work (by decide), kf .caches (by decide), kf .cores (by decide), kf .mem (by decide), kf .keeper (by decide), kf .bridle (by decide), kf .power (by decide), kf .board (by decide), kf .out (by decide)⟩

@[simp] theorem stopRing_frame (g : Nat) (k : Nat) (status : Nat) (idx : Nat) (s : State) :
    (State.stopRing g k status idx s).pending = s.pending ∧ (State.stopRing g k status idx s).free = s.free ∧
    (State.stopRing g k status idx s).tb = s.tb ∧ (State.stopRing g k status idx s).work = s.work ∧
    (State.stopRing g k status idx s).caches = s.caches ∧ (State.stopRing g k status idx s).cores = s.cores ∧
    (State.stopRing g k status idx s).pair = s.pair ∧ (State.stopRing g k status idx s).keeper = s.keeper ∧
    (State.stopRing g k status idx s).bridle = s.bridle ∧ (State.stopRing g k status idx s).power = s.power ∧
    (State.stopRing g k status idx s).board = s.board := by
  obtain ⟨kq, kf⟩ := by
    have : May [.regs, .hif, .mem, .out] .regs := ⟨by decide⟩
    have : May [.regs, .hif, .mem, .out] .hif := ⟨by decide⟩
    have : May [.regs, .hif, .mem, .out] .mem := ⟨by decide⟩
    have : May [.regs, .hif, .mem, .out] .out := ⟨by decide⟩
    exact keeps_rest (gs := [.regs, .hif, .mem, .out]) (stopRing_keeps g k status idx (Keeps.refl _ s))
  exact ⟨kq, kf .free (by decide), kf .tb (by decide), kf .work (by decide), kf .caches (by decide), kf .cores (by decide), kf .pair (by decide), kf .keeper (by decide), kf .bridle (by decide), kf .power (by decide), kf .board (by decide)⟩

@[simp] theorem dropChunk_frame (id : Nat) (c : Chunk) (status : Nat) (s : State) :
    (State.dropChunk id c status s).pending = s.pending ∧ (State.dropChunk id c status s).free = s.free ∧
    (State.dropChunk id c status s).regs = s.regs ∧ (State.dropChunk id c status s).tb = s.tb ∧
    (State.dropChunk id c status s).caches = s.caches ∧ (State.dropChunk id c status s).cores = s.cores ∧
    (State.dropChunk id c status s).pair = s.pair ∧ (State.dropChunk id c status s).keeper = s.keeper ∧
    (State.dropChunk id c status s).bridle = s.bridle ∧ (State.dropChunk id c status s).power = s.power ∧
    (State.dropChunk id c status s).board = s.board := by
  obtain ⟨kq, kf⟩ := by
    have : May [.hif, .work, .mem, .out] .hif := ⟨by decide⟩
    have : May [.hif, .work, .mem, .out] .work := ⟨by decide⟩
    have : May [.hif, .work, .mem, .out] .mem := ⟨by decide⟩
    have : May [.hif, .work, .mem, .out] .out := ⟨by decide⟩
    exact keeps_rest (gs := [.hif, .work, .mem, .out]) (dropChunk_keeps id c status (Keeps.refl _ s))
  exact ⟨kq, kf .free (by decide), kf .regs (by decide), kf .tb (by decide), kf .caches (by decide), kf .cores (by decide), kf .pair (by decide), kf .keeper (by decide), kf .bridle (by decide), kf .power (by decide), kf .board (by decide)⟩

@[simp] theorem dropChunks_frame (id : Nat) (status : Nat) (s : State) :
    (State.dropChunks id status s).pending = s.pending ∧ (State.dropChunks id status s).free = s.free ∧
    (State.dropChunks id status s).regs = s.regs ∧ (State.dropChunks id status s).tb = s.tb ∧
    (State.dropChunks id status s).caches = s.caches ∧ (State.dropChunks id status s).cores = s.cores ∧
    (State.dropChunks id status s).pair = s.pair ∧ (State.dropChunks id status s).keeper = s.keeper ∧
    (State.dropChunks id status s).bridle = s.bridle ∧ (State.dropChunks id status s).power = s.power ∧
    (State.dropChunks id status s).board = s.board := by
  obtain ⟨kq, kf⟩ := by
    have : May [.hif, .work, .mem, .out] .hif := ⟨by decide⟩
    have : May [.hif, .work, .mem, .out] .work := ⟨by decide⟩
    have : May [.hif, .work, .mem, .out] .mem := ⟨by decide⟩
    have : May [.hif, .work, .mem, .out] .out := ⟨by decide⟩
    exact keeps_rest (gs := [.hif, .work, .mem, .out]) (dropChunks_keeps id status (Keeps.refl _ s))
  exact ⟨kq, kf .free (by decide), kf .regs (by decide), kf .tb (by decide), kf .caches (by decide), kf .cores (by decide), kf .pair (by decide), kf .keeper (by decide), kf .bridle (by decide), kf .power (by decide), kf .board (by decide)⟩

@[simp] theorem postComp_frame (id : Nat) (seq : Nat) (k : Nat) (ws : List Word) (w7 : Nat) (irq : Bool) (s : State) :
    (State.postComp id seq k ws w7 irq s).pending = s.pending ∧ (State.postComp id seq k ws w7 irq s).free = s.free ∧
    (State.postComp id seq k ws w7 irq s).regs = s.regs ∧ (State.postComp id seq k ws w7 irq s).tb = s.tb ∧
    (State.postComp id seq k ws w7 irq s).caches = s.caches ∧ (State.postComp id seq k ws w7 irq s).cores = s.cores ∧
    (State.postComp id seq k ws w7 irq s).pair = s.pair ∧ (State.postComp id seq k ws w7 irq s).keeper = s.keeper ∧
    (State.postComp id seq k ws w7 irq s).bridle = s.bridle ∧ (State.postComp id seq k ws w7 irq s).power = s.power ∧
    (State.postComp id seq k ws w7 irq s).board = s.board := by
  obtain ⟨kq, kf⟩ := by
    have : May [.hif, .work, .mem, .out] .hif := ⟨by decide⟩
    have : May [.hif, .work, .mem, .out] .work := ⟨by decide⟩
    have : May [.hif, .work, .mem, .out] .mem := ⟨by decide⟩
    have : May [.hif, .work, .mem, .out] .out := ⟨by decide⟩
    exact keeps_rest (gs := [.hif, .work, .mem, .out]) (postComp_keeps id seq k ws w7 irq (Keeps.refl _ s))
  exact ⟨kq, kf .free (by decide), kf .regs (by decide), kf .tb (by decide), kf .caches (by decide), kf .cores (by decide), kf .pair (by decide), kf .keeper (by decide), kf .bridle (by decide), kf .power (by decide), kf .board (by decide)⟩

@[simp] theorem outDrop_frame (id : Nat) (o : OutWait) (delivered : Bool) (s : State) :
    (State.outDrop id o delivered s).pending = s.pending ∧ (State.outDrop id o delivered s).free = s.free ∧
    (State.outDrop id o delivered s).tb = s.tb ∧ (State.outDrop id o delivered s).work = s.work ∧
    (State.outDrop id o delivered s).caches = s.caches ∧ (State.outDrop id o delivered s).cores = s.cores ∧
    (State.outDrop id o delivered s).pair = s.pair ∧ (State.outDrop id o delivered s).keeper = s.keeper ∧
    (State.outDrop id o delivered s).bridle = s.bridle ∧ (State.outDrop id o delivered s).power = s.power ∧
    (State.outDrop id o delivered s).board = s.board := by
  obtain ⟨kq, kf⟩ := by
    have : May [.regs, .hif, .mem, .out] .regs := ⟨by decide⟩
    have : May [.regs, .hif, .mem, .out] .hif := ⟨by decide⟩
    have : May [.regs, .hif, .mem, .out] .mem := ⟨by decide⟩
    have : May [.regs, .hif, .mem, .out] .out := ⟨by decide⟩
    exact keeps_rest (gs := [.regs, .hif, .mem, .out]) (outDrop_keeps id o delivered (Keeps.refl _ s))
  exact ⟨kq, kf .free (by decide), kf .tb (by decide), kf .work (by decide), kf .caches (by decide), kf .cores (by decide), kf .pair (by decide), kf .keeper (by decide), kf .bridle (by decide), kf .power (by decide), kf .board (by decide)⟩

@[simp] theorem gpload_frame (c : Nat) (slot : Nat) (ws : List Word) (s : State) :
    (State.gpload c slot ws s).pending = s.pending ∧ (State.gpload c slot ws s).free = s.free ∧
    (State.gpload c slot ws s).regs = s.regs ∧ (State.gpload c slot ws s).tb = s.tb ∧
    (State.gpload c slot ws s).hif = s.hif ∧ (State.gpload c slot ws s).work = s.work ∧
    (State.gpload c slot ws s).caches = s.caches ∧ (State.gpload c slot ws s).mem = s.mem ∧
    (State.gpload c slot ws s).pair = s.pair ∧ (State.gpload c slot ws s).keeper = s.keeper ∧
    (State.gpload c slot ws s).bridle = s.bridle ∧ (State.gpload c slot ws s).power = s.power ∧
    (State.gpload c slot ws s).board = s.board ∧ (State.gpload c slot ws s).out = s.out := by
  obtain ⟨kq, kf⟩ := by
    have : May [.cores] .cores := ⟨by decide⟩
    exact keeps_rest (gs := [.cores]) (gpload_keeps c slot ws (Keeps.refl _ s))
  exact ⟨kq, kf .free (by decide), kf .regs (by decide), kf .tb (by decide), kf .hif (by decide), kf .work (by decide), kf .caches (by decide), kf .mem (by decide), kf .pair (by decide), kf .keeper (by decide), kf .bridle (by decide), kf .power (by decide), kf .board (by decide), kf .out (by decide)⟩

@[simp] theorem seedHist_frame (n : Nat) (s : State) :
    (State.seedHist n s).pending = s.pending ∧ (State.seedHist n s).free = s.free ∧ (State.seedHist n s).regs = s.regs ∧
    (State.seedHist n s).tb = s.tb ∧ (State.seedHist n s).hif = s.hif ∧ (State.seedHist n s).caches = s.caches ∧
    (State.seedHist n s).cores = s.cores ∧ (State.seedHist n s).mem = s.mem ∧ (State.seedHist n s).pair = s.pair ∧
    (State.seedHist n s).keeper = s.keeper ∧ (State.seedHist n s).bridle = s.bridle ∧
    (State.seedHist n s).power = s.power ∧ (State.seedHist n s).board = s.board ∧ (State.seedHist n s).out = s.out := by
  obtain ⟨kq, kf⟩ := by
    have : May [.work] .work := ⟨by decide⟩
    exact keeps_rest (gs := [.work]) (seedHist_keeps n (Keeps.refl _ s))
  exact ⟨kq, kf .free (by decide), kf .regs (by decide), kf .tb (by decide), kf .hif (by decide), kf .caches (by decide), kf .cores (by decide), kf .mem (by decide), kf .pair (by decide), kf .keeper (by decide), kf .bridle (by decide), kf .power (by decide), kf .board (by decide), kf .out (by decide)⟩

@[simp] theorem unlaunch_frame (id : Nat) (s : State) :
    (State.unlaunch id s).pending = s.pending ∧ (State.unlaunch id s).free = s.free ∧
    (State.unlaunch id s).regs = s.regs ∧ (State.unlaunch id s).tb = s.tb ∧ (State.unlaunch id s).hif = s.hif ∧
    (State.unlaunch id s).caches = s.caches ∧ (State.unlaunch id s).cores = s.cores ∧ (State.unlaunch id s).mem = s.mem ∧
    (State.unlaunch id s).pair = s.pair ∧ (State.unlaunch id s).keeper = s.keeper ∧
    (State.unlaunch id s).bridle = s.bridle ∧ (State.unlaunch id s).power = s.power ∧
    (State.unlaunch id s).board = s.board ∧ (State.unlaunch id s).out = s.out := by
  obtain ⟨kq, kf⟩ := by
    have : May [.work] .work := ⟨by decide⟩
    exact keeps_rest (gs := [.work]) (unlaunch_keeps id (Keeps.refl _ s))
  exact ⟨kq, kf .free (by decide), kf .regs (by decide), kf .tb (by decide), kf .hif (by decide), kf .caches (by decide), kf .cores (by decide), kf .mem (by decide), kf .pair (by decide), kf .keeper (by decide), kf .bridle (by decide), kf .power (by decide), kf .board (by decide), kf .out (by decide)⟩

@[simp] theorem enterPaused_frame (id : Nat) (s : State) :
    (State.enterPaused id s).pending = s.pending ∧ (State.enterPaused id s).free = s.free ∧
    (State.enterPaused id s).regs = s.regs ∧ (State.enterPaused id s).tb = s.tb ∧
    (State.enterPaused id s).caches = s.caches ∧ (State.enterPaused id s).cores = s.cores ∧
    (State.enterPaused id s).pair = s.pair ∧ (State.enterPaused id s).keeper = s.keeper ∧
    (State.enterPaused id s).bridle = s.bridle ∧ (State.enterPaused id s).power = s.power ∧
    (State.enterPaused id s).board = s.board := by
  obtain ⟨kq, kf⟩ := by
    have : May [.hif, .work, .mem, .out] .hif := ⟨by decide⟩
    have : May [.hif, .work, .mem, .out] .work := ⟨by decide⟩
    have : May [.hif, .work, .mem, .out] .mem := ⟨by decide⟩
    have : May [.hif, .work, .mem, .out] .out := ⟨by decide⟩
    exact keeps_rest (gs := [.hif, .work, .mem, .out]) (enterPaused_keeps id (Keeps.refl _ s))
  exact ⟨kq, kf .free (by decide), kf .regs (by decide), kf .tb (by decide), kf .caches (by decide), kf .cores (by decide), kf .pair (by decide), kf .keeper (by decide), kf .bridle (by decide), kf .power (by decide), kf .board (by decide)⟩

@[simp] theorem enterClosing_frame (id : Nat) (s : State) :
    (State.enterClosing id s).pending = s.pending ∧ (State.enterClosing id s).free = s.free ∧
    (State.enterClosing id s).regs = s.regs ∧ (State.enterClosing id s).tb = s.tb ∧
    (State.enterClosing id s).caches = s.caches ∧ (State.enterClosing id s).cores = s.cores ∧
    (State.enterClosing id s).pair = s.pair ∧ (State.enterClosing id s).keeper = s.keeper ∧
    (State.enterClosing id s).bridle = s.bridle ∧ (State.enterClosing id s).power = s.power ∧
    (State.enterClosing id s).board = s.board := by
  obtain ⟨kq, kf⟩ := by
    have : May [.hif, .work, .mem, .out] .hif := ⟨by decide⟩
    have : May [.hif, .work, .mem, .out] .work := ⟨by decide⟩
    have : May [.hif, .work, .mem, .out] .mem := ⟨by decide⟩
    have : May [.hif, .work, .mem, .out] .out := ⟨by decide⟩
    exact keeps_rest (gs := [.hif, .work, .mem, .out]) (enterClosing_keeps id (Keeps.refl _ s))
  exact ⟨kq, kf .free (by decide), kf .regs (by decide), kf .tb (by decide), kf .caches (by decide), kf .cores (by decide), kf .pair (by decide), kf .keeper (by decide), kf .bridle (by decide), kf .power (by decide), kf .board (by decide)⟩

@[simp] theorem setMeas_frame (m : Nat) (v : List Byte) (s : State) :
    (State.setMeas m v s).pending = s.pending ∧ (State.setMeas m v s).free = s.free ∧
    (State.setMeas m v s).regs = s.regs ∧ (State.setMeas m v s).tb = s.tb ∧ (State.setMeas m v s).hif = s.hif ∧
    (State.setMeas m v s).work = s.work ∧ (State.setMeas m v s).caches = s.caches ∧
    (State.setMeas m v s).cores = s.cores ∧ (State.setMeas m v s).mem = s.mem ∧ (State.setMeas m v s).pair = s.pair ∧
    (State.setMeas m v s).keeper = s.keeper ∧ (State.setMeas m v s).power = s.power ∧
    (State.setMeas m v s).board = s.board ∧ (State.setMeas m v s).out = s.out := by
  obtain ⟨kq, kf⟩ := by
    have : May [.bridle] .bridle := ⟨by decide⟩
    exact keeps_rest (gs := [.bridle]) (setMeas_keeps m v (Keeps.refl _ s))
  exact ⟨kq, kf .free (by decide), kf .regs (by decide), kf .tb (by decide), kf .hif (by decide), kf .work (by decide), kf .caches (by decide), kf .cores (by decide), kf .mem (by decide), kf .pair (by decide), kf .keeper (by decide), kf .power (by decide), kf .board (by decide), kf .out (by decide)⟩

@[simp] theorem enterRecovery_frame (code : Nat) (s : State) :
    (State.enterRecovery code s).pending = s.pending ∧ (State.enterRecovery code s).free = s.free ∧
    (State.enterRecovery code s).regs = s.regs ∧ (State.enterRecovery code s).tb = s.tb ∧
    (State.enterRecovery code s).hif = s.hif ∧ (State.enterRecovery code s).work = s.work ∧
    (State.enterRecovery code s).caches = s.caches ∧ (State.enterRecovery code s).cores = s.cores ∧
    (State.enterRecovery code s).mem = s.mem ∧ (State.enterRecovery code s).pair = s.pair ∧
    (State.enterRecovery code s).keeper = s.keeper ∧ (State.enterRecovery code s).board = s.board ∧
    (State.enterRecovery code s).out = s.out := by
  obtain ⟨kq, kf⟩ := by
    have : May [.bridle, .power] .bridle := ⟨by decide⟩
    have : May [.bridle, .power] .power := ⟨by decide⟩
    exact keeps_rest (gs := [.bridle, .power]) (enterRecovery_keeps code (Keeps.refl _ s))
  exact ⟨kq, kf .free (by decide), kf .regs (by decide), kf .tb (by decide), kf .hif (by decide), kf .work (by decide), kf .caches (by decide), kf .cores (by decide), kf .mem (by decide), kf .pair (by decide), kf .keeper (by decide), kf .board (by decide), kf .out (by decide)⟩

@[simp] theorem bootChain_frame (cold : Bool) (s : State) :
    (State.bootChain cold s).pending = s.pending ∧ (State.bootChain cold s).free = s.free ∧
    (State.bootChain cold s).tb = s.tb ∧ (State.bootChain cold s).hif = s.hif ∧ (State.bootChain cold s).work = s.work ∧
    (State.bootChain cold s).caches = s.caches ∧ (State.bootChain cold s).mem = s.mem ∧
    (State.bootChain cold s).pair = s.pair ∧ (State.bootChain cold s).keeper = s.keeper ∧
    (State.bootChain cold s).board = s.board ∧ (State.bootChain cold s).out = s.out := by
  obtain ⟨kq, kf⟩ := by
    have : May [.regs, .cores, .bridle, .power] .regs := ⟨by decide⟩
    have : May [.regs, .cores, .bridle, .power] .cores := ⟨by decide⟩
    have : May [.regs, .cores, .bridle, .power] .bridle := ⟨by decide⟩
    have : May [.regs, .cores, .bridle, .power] .power := ⟨by decide⟩
    exact keeps_rest (gs := [.regs, .cores, .bridle, .power]) (bootChain_keeps cold (Keeps.refl _ s))
  exact ⟨kq, kf .free (by decide), kf .tb (by decide), kf .hif (by decide), kf .work (by decide), kf .caches (by decide), kf .mem (by decide), kf .pair (by decide), kf .keeper (by decide), kf .board (by decide), kf .out (by decide)⟩

@[simp] theorem updFlash_frame (b : Bool) (f : Mem → Mem) (s : State) :
    (State.updFlash b f s).pending = s.pending ∧ (State.updFlash b f s).free = s.free ∧
    (State.updFlash b f s).regs = s.regs ∧ (State.updFlash b f s).tb = s.tb ∧ (State.updFlash b f s).hif = s.hif ∧
    (State.updFlash b f s).work = s.work ∧ (State.updFlash b f s).caches = s.caches ∧
    (State.updFlash b f s).cores = s.cores ∧ (State.updFlash b f s).mem = s.mem ∧ (State.updFlash b f s).pair = s.pair ∧
    (State.updFlash b f s).keeper = s.keeper ∧ (State.updFlash b f s).power = s.power ∧
    (State.updFlash b f s).board = s.board ∧ (State.updFlash b f s).out = s.out := by
  obtain ⟨kq, kf⟩ := by
    have : May [.bridle] .bridle := ⟨by decide⟩
    exact keeps_rest (gs := [.bridle]) (updFlash_keeps b f (Keeps.refl _ s))
  exact ⟨kq, kf .free (by decide), kf .regs (by decide), kf .tb (by decide), kf .hif (by decide), kf .work (by decide), kf .caches (by decide), kf .cores (by decide), kf .mem (by decide), kf .pair (by decide), kf .keeper (by decide), kf .power (by decide), kf .board (by decide), kf .out (by decide)⟩

@[simp] theorem activate_frame (s : State) :
    (State.activate s).pending = s.pending ∧ (State.activate s).free = s.free ∧ (State.activate s).tb = s.tb ∧
    (State.activate s).hif = s.hif ∧ (State.activate s).work = s.work ∧ (State.activate s).caches = s.caches ∧
    (State.activate s).cores = s.cores ∧ (State.activate s).mem = s.mem ∧ (State.activate s).pair = s.pair ∧
    (State.activate s).power = s.power ∧ (State.activate s).board = s.board ∧ (State.activate s).out = s.out := by
  obtain ⟨kq, kf⟩ := by
    have : May [.regs, .keeper, .bridle] .regs := ⟨by decide⟩
    have : May [.regs, .keeper, .bridle] .keeper := ⟨by decide⟩
    have : May [.regs, .keeper, .bridle] .bridle := ⟨by decide⟩
    exact keeps_rest (gs := [.regs, .keeper, .bridle]) (activate_keeps (Keeps.refl _ s))
  exact ⟨kq, kf .free (by decide), kf .tb (by decide), kf .hif (by decide), kf .work (by decide), kf .caches (by decide), kf .cores (by decide), kf .mem (by decide), kf .pair (by decide), kf .power (by decide), kf .board (by decide), kf .out (by decide)⟩

@[simp] theorem keyExhausted_frame (via : Transport) (s : State) :
    (State.keyExhausted via s).pending = s.pending ∧ (State.keyExhausted via s).free = s.free ∧
    (State.keyExhausted via s).regs = s.regs ∧ (State.keyExhausted via s).tb = s.tb ∧
    (State.keyExhausted via s).hif = s.hif ∧ (State.keyExhausted via s).work = s.work ∧
    (State.keyExhausted via s).caches = s.caches ∧ (State.keyExhausted via s).cores = s.cores ∧
    (State.keyExhausted via s).mem = s.mem ∧ (State.keyExhausted via s).pair = s.pair ∧
    (State.keyExhausted via s).keeper = s.keeper ∧ (State.keyExhausted via s).bridle = s.bridle ∧
    (State.keyExhausted via s).power = s.power ∧ (State.keyExhausted via s).board = s.board := by
  obtain ⟨kq, kf⟩ := by
    have : May [.out] .out := ⟨by decide⟩
    exact keeps_rest (gs := [.out]) (keyExhausted_keeps via (Keeps.refl _ s))
  exact ⟨kq, kf .free (by decide), kf .regs (by decide), kf .tb (by decide), kf .hif (by decide), kf .work (by decide), kf .caches (by decide), kf .cores (by decide), kf .mem (by decide), kf .pair (by decide), kf .keeper (by decide), kf .bridle (by decide), kf .power (by decide), kf .board (by decide)⟩

@[simp] theorem signAndSend_frame (via : Transport) (name : String) (msg : List Byte) (s : State) :
    (State.signAndSend via name msg s).pending = s.pending ∧ (State.signAndSend via name msg s).free = s.free ∧
    (State.signAndSend via name msg s).tb = s.tb ∧ (State.signAndSend via name msg s).hif = s.hif ∧
    (State.signAndSend via name msg s).work = s.work ∧ (State.signAndSend via name msg s).caches = s.caches ∧
    (State.signAndSend via name msg s).cores = s.cores ∧ (State.signAndSend via name msg s).mem = s.mem ∧
    (State.signAndSend via name msg s).pair = s.pair ∧ (State.signAndSend via name msg s).keeper = s.keeper ∧
    (State.signAndSend via name msg s).power = s.power ∧ (State.signAndSend via name msg s).board = s.board := by
  obtain ⟨kq, kf⟩ := by
    have : May [.regs, .bridle, .out] .regs := ⟨by decide⟩
    have : May [.regs, .bridle, .out] .bridle := ⟨by decide⟩
    have : May [.regs, .bridle, .out] .out := ⟨by decide⟩
    exact keeps_rest (gs := [.regs, .bridle, .out]) (signAndSend_keeps via name msg (Keeps.refl _ s))
  exact ⟨kq, kf .free (by decide), kf .tb (by decide), kf .hif (by decide), kf .work (by decide), kf .caches (by decide), kf .cores (by decide), kf .mem (by decide), kf .pair (by decide), kf .keeper (by decide), kf .power (by decide), kf .board (by decide)⟩

@[simp] theorem veWrite_frame (c : Nat) (l : VeLoc) (off : Nat) (bs : List Byte) (s : State) :
    (State.veWrite c l off bs s).pending = s.pending ∧ (State.veWrite c l off bs s).free = s.free ∧
    (State.veWrite c l off bs s).regs = s.regs ∧ (State.veWrite c l off bs s).tb = s.tb ∧
    (State.veWrite c l off bs s).hif = s.hif ∧ (State.veWrite c l off bs s).work = s.work ∧
    (State.veWrite c l off bs s).caches = s.caches ∧ (State.veWrite c l off bs s).pair = s.pair ∧
    (State.veWrite c l off bs s).keeper = s.keeper ∧ (State.veWrite c l off bs s).bridle = s.bridle ∧
    (State.veWrite c l off bs s).power = s.power ∧ (State.veWrite c l off bs s).board = s.board ∧
    (State.veWrite c l off bs s).out = s.out := by
  obtain ⟨kq, kf⟩ := by
    have : May [.cores, .mem] .cores := ⟨by decide⟩
    have : May [.cores, .mem] .mem := ⟨by decide⟩
    exact keeps_rest (gs := [.cores, .mem]) (veWrite_keeps c l off bs (Keeps.refl _ s))
  exact ⟨kq, kf .free (by decide), kf .regs (by decide), kf .tb (by decide), kf .hif (by decide), kf .work (by decide), kf .caches (by decide), kf .pair (by decide), kf .keeper (by decide), kf .bridle (by decide), kf .power (by decide), kf .board (by decide), kf .out (by decide)⟩

@[simp] theorem vePut_frame (c : Nat) (v : VeOp) (l : VeLoc) (k : Nat) (e : Word) (s : State) :
    (State.vePut c v l k e s).pending = s.pending ∧ (State.vePut c v l k e s).free = s.free ∧
    (State.vePut c v l k e s).tb = s.tb ∧ (State.vePut c v l k e s).hif = s.hif ∧
    (State.vePut c v l k e s).work = s.work ∧ (State.vePut c v l k e s).caches = s.caches ∧
    (State.vePut c v l k e s).pair = s.pair ∧ (State.vePut c v l k e s).keeper = s.keeper ∧
    (State.vePut c v l k e s).bridle = s.bridle ∧ (State.vePut c v l k e s).power = s.power ∧
    (State.vePut c v l k e s).board = s.board ∧ (State.vePut c v l k e s).out = s.out := by
  obtain ⟨kq, kf⟩ := by
    have : May [.regs, .cores, .mem] .regs := ⟨by decide⟩
    have : May [.regs, .cores, .mem] .cores := ⟨by decide⟩
    have : May [.regs, .cores, .mem] .mem := ⟨by decide⟩
    exact keeps_rest (gs := [.regs, .cores, .mem]) (vePut_keeps c v l k e (Keeps.refl _ s))
  exact ⟨kq, kf .free (by decide), kf .tb (by decide), kf .hif (by decide), kf .work (by decide), kf .caches (by decide), kf .pair (by decide), kf .keeper (by decide), kf .bridle (by decide), kf .power (by decide), kf .board (by decide), kf .out (by decide)⟩

@[simp] theorem veZero_frame (c : Nat) (v : VeOp) (l : VeLoc) (k : Nat) (s : State) :
    (State.veZero c v l k s).pending = s.pending ∧ (State.veZero c v l k s).free = s.free ∧
    (State.veZero c v l k s).regs = s.regs ∧ (State.veZero c v l k s).tb = s.tb ∧ (State.veZero c v l k s).hif = s.hif ∧
    (State.veZero c v l k s).work = s.work ∧ (State.veZero c v l k s).caches = s.caches ∧
    (State.veZero c v l k s).pair = s.pair ∧ (State.veZero c v l k s).keeper = s.keeper ∧
    (State.veZero c v l k s).bridle = s.bridle ∧ (State.veZero c v l k s).power = s.power ∧
    (State.veZero c v l k s).board = s.board ∧ (State.veZero c v l k s).out = s.out := by
  obtain ⟨kq, kf⟩ := by
    have : May [.cores, .mem] .cores := ⟨by decide⟩
    have : May [.cores, .mem] .mem := ⟨by decide⟩
    exact keeps_rest (gs := [.cores, .mem]) (veZero_keeps c v l k (Keeps.refl _ s))
  exact ⟨kq, kf .free (by decide), kf .regs (by decide), kf .tb (by decide), kf .hif (by decide), kf .work (by decide), kf .caches (by decide), kf .pair (by decide), kf .keeper (by decide), kf .bridle (by decide), kf .power (by decide), kf .board (by decide), kf .out (by decide)⟩

@[simp] theorem veZdiv_frame (c : Nat) (es : List (Nat × Bool × Word × Nat)) (s : State) :
    (State.veZdiv c es s).pending = s.pending ∧ (State.veZdiv c es s).free = s.free ∧ (State.veZdiv c es s).tb = s.tb ∧
    (State.veZdiv c es s).hif = s.hif ∧ (State.veZdiv c es s).work = s.work ∧ (State.veZdiv c es s).caches = s.caches ∧
    (State.veZdiv c es s).cores = s.cores ∧ (State.veZdiv c es s).mem = s.mem ∧ (State.veZdiv c es s).pair = s.pair ∧
    (State.veZdiv c es s).keeper = s.keeper ∧ (State.veZdiv c es s).bridle = s.bridle ∧
    (State.veZdiv c es s).power = s.power ∧ (State.veZdiv c es s).board = s.board ∧
    (State.veZdiv c es s).out = s.out := by
  obtain ⟨kq, kf⟩ := by
    have : May [.regs] .regs := ⟨by decide⟩
    exact keeps_rest (gs := [.regs]) (veZdiv_keeps c es (Keeps.refl _ s))
  exact ⟨kq, kf .free (by decide), kf .tb (by decide), kf .hif (by decide), kf .work (by decide), kf .caches (by decide), kf .cores (by decide), kf .mem (by decide), kf .pair (by decide), kf .keeper (by decide), kf .bridle (by decide), kf .power (by decide), kf .board (by decide), kf .out (by decide)⟩

@[simp] theorem veCount_frame (c : Nat) (p : VePlan) (r : Nat) (k : Nat) (s : State) :
    (State.veCount c p r k s).pending = s.pending ∧ (State.veCount c p r k s).free = s.free ∧
    (State.veCount c p r k s).regs = s.regs ∧ (State.veCount c p r k s).tb = s.tb ∧
    (State.veCount c p r k s).hif = s.hif ∧ (State.veCount c p r k s).work = s.work ∧
    (State.veCount c p r k s).caches = s.caches ∧ (State.veCount c p r k s).pair = s.pair ∧
    (State.veCount c p r k s).keeper = s.keeper ∧ (State.veCount c p r k s).bridle = s.bridle ∧
    (State.veCount c p r k s).power = s.power ∧ (State.veCount c p r k s).board = s.board ∧
    (State.veCount c p r k s).out = s.out := by
  obtain ⟨kq, kf⟩ := by
    have : May [.cores, .mem] .cores := ⟨by decide⟩
    have : May [.cores, .mem] .mem := ⟨by decide⟩
    exact keeps_rest (gs := [.cores, .mem]) (veCount_keeps c p r k (Keeps.refl _ s))
  exact ⟨kq, kf .free (by decide), kf .regs (by decide), kf .tb (by decide), kf .hif (by decide), kf .work (by decide), kf .caches (by decide), kf .pair (by decide), kf .keeper (by decide), kf .bridle (by decide), kf .power (by decide), kf .board (by decide), kf .out (by decide)⟩

@[simp] theorem vsload_frame (c : Nat) (slot : Nat) (ws : List Word) (s : State) :
    (State.vsload c slot ws s).pending = s.pending ∧ (State.vsload c slot ws s).free = s.free ∧
    (State.vsload c slot ws s).regs = s.regs ∧ (State.vsload c slot ws s).tb = s.tb ∧
    (State.vsload c slot ws s).hif = s.hif ∧ (State.vsload c slot ws s).work = s.work ∧
    (State.vsload c slot ws s).caches = s.caches ∧ (State.vsload c slot ws s).mem = s.mem ∧
    (State.vsload c slot ws s).pair = s.pair ∧ (State.vsload c slot ws s).keeper = s.keeper ∧
    (State.vsload c slot ws s).bridle = s.bridle ∧ (State.vsload c slot ws s).power = s.power ∧
    (State.vsload c slot ws s).board = s.board ∧ (State.vsload c slot ws s).out = s.out := by
  obtain ⟨kq, kf⟩ := by
    have : May [.cores] .cores := ⟨by decide⟩
    exact keeps_rest (gs := [.cores]) (vsload_keeps c slot ws (Keeps.refl _ s))
  exact ⟨kq, kf .free (by decide), kf .regs (by decide), kf .tb (by decide), kf .hif (by decide), kf .work (by decide), kf .caches (by decide), kf .mem (by decide), kf .pair (by decide), kf .keeper (by decide), kf .bridle (by decide), kf .power (by decide), kf .board (by decide), kf .out (by decide)⟩

@[simp] theorem vtload_frame (c : Nat) (n : Nat) (ws : List Word) (s : State) :
    (State.vtload c n ws s).pending = s.pending ∧ (State.vtload c n ws s).free = s.free ∧
    (State.vtload c n ws s).regs = s.regs ∧ (State.vtload c n ws s).tb = s.tb ∧ (State.vtload c n ws s).hif = s.hif ∧
    (State.vtload c n ws s).work = s.work ∧ (State.vtload c n ws s).caches = s.caches ∧
    (State.vtload c n ws s).mem = s.mem ∧ (State.vtload c n ws s).pair = s.pair ∧
    (State.vtload c n ws s).keeper = s.keeper ∧ (State.vtload c n ws s).bridle = s.bridle ∧
    (State.vtload c n ws s).power = s.power ∧ (State.vtload c n ws s).board = s.board ∧
    (State.vtload c n ws s).out = s.out := by
  obtain ⟨kq, kf⟩ := by
    have : May [.cores] .cores := ⟨by decide⟩
    exact keeps_rest (gs := [.cores]) (vtload_keeps c n ws (Keeps.refl _ s))
  exact ⟨kq, kf .free (by decide), kf .regs (by decide), kf .tb (by decide), kf .hif (by decide), kf .work (by decide), kf .caches (by decide), kf .mem (by decide), kf .pair (by decide), kf .keeper (by decide), kf .bridle (by decide), kf .power (by decide), kf .board (by decide), kf .out (by decide)⟩

@[simp] theorem vbrel_frame (c : Nat) (set : Nat) (s : State) :
    (State.vbrel c set s).pending = s.pending ∧ (State.vbrel c set s).free = s.free ∧
    (State.vbrel c set s).regs = s.regs ∧ (State.vbrel c set s).tb = s.tb ∧ (State.vbrel c set s).hif = s.hif ∧
    (State.vbrel c set s).work = s.work ∧ (State.vbrel c set s).caches = s.caches ∧ (State.vbrel c set s).mem = s.mem ∧
    (State.vbrel c set s).pair = s.pair ∧ (State.vbrel c set s).keeper = s.keeper ∧
    (State.vbrel c set s).bridle = s.bridle ∧ (State.vbrel c set s).power = s.power ∧
    (State.vbrel c set s).board = s.board ∧ (State.vbrel c set s).out = s.out := by
  obtain ⟨kq, kf⟩ := by
    have : May [.cores] .cores := ⟨by decide⟩
    exact keeps_rest (gs := [.cores]) (vbrel_keeps c set (Keeps.refl _ s))
  exact ⟨kq, kf .free (by decide), kf .regs (by decide), kf .tb (by decide), kf .hif (by decide), kf .work (by decide), kf .caches (by decide), kf .mem (by decide), kf .pair (by decide), kf .keeper (by decide), kf .bridle (by decide), kf .power (by decide), kf .board (by decide), kf .out (by decide)⟩

@[simp] theorem dmWriteAt_frame (c : Nat) (base : Nat) (d : Int) (bs : List Byte) (s : State) :
    (State.dmWriteAt c base d bs s).pending = s.pending ∧ (State.dmWriteAt c base d bs s).free = s.free ∧
    (State.dmWriteAt c base d bs s).tb = s.tb ∧ (State.dmWriteAt c base d bs s).hif = s.hif ∧
    (State.dmWriteAt c base d bs s).work = s.work ∧ (State.dmWriteAt c base d bs s).caches = s.caches ∧
    (State.dmWriteAt c base d bs s).pair = s.pair ∧ (State.dmWriteAt c base d bs s).keeper = s.keeper ∧
    (State.dmWriteAt c base d bs s).bridle = s.bridle ∧ (State.dmWriteAt c base d bs s).power = s.power ∧
    (State.dmWriteAt c base d bs s).board = s.board := by
  obtain ⟨kq, kf⟩ := by
    have : May [.regs, .cores, .mem, .out] .regs := ⟨by decide⟩
    have : May [.regs, .cores, .mem, .out] .cores := ⟨by decide⟩
    have : May [.regs, .cores, .mem, .out] .mem := ⟨by decide⟩
    have : May [.regs, .cores, .mem, .out] .out := ⟨by decide⟩
    exact keeps_rest (gs := [.regs, .cores, .mem, .out]) (dmWriteAt_keeps c base d bs (Keeps.refl _ s))
  exact ⟨kq, kf .free (by decide), kf .tb (by decide), kf .hif (by decide), kf .work (by decide), kf .caches (by decide), kf .pair (by decide), kf .keeper (by decide), kf .bridle (by decide), kf .power (by decide), kf .board (by decide)⟩

@[simp] theorem wopen_frame (c : Nat) (n : Nat) (ws : List Word) (s : State) :
    (State.wopen c n ws s).pending = s.pending ∧ (State.wopen c n ws s).free = s.free ∧
    (State.wopen c n ws s).regs = s.regs ∧ (State.wopen c n ws s).tb = s.tb ∧ (State.wopen c n ws s).hif = s.hif ∧
    (State.wopen c n ws s).work = s.work ∧ (State.wopen c n ws s).caches = s.caches ∧ (State.wopen c n ws s).mem = s.mem ∧
    (State.wopen c n ws s).pair = s.pair ∧ (State.wopen c n ws s).keeper = s.keeper ∧
    (State.wopen c n ws s).bridle = s.bridle ∧ (State.wopen c n ws s).power = s.power ∧
    (State.wopen c n ws s).board = s.board ∧ (State.wopen c n ws s).out = s.out := by
  obtain ⟨kq, kf⟩ := by
    have : May [.cores] .cores := ⟨by decide⟩
    exact keeps_rest (gs := [.cores]) (wopen_keeps c n ws (Keeps.refl _ s))
  exact ⟨kq, kf .free (by decide), kf .regs (by decide), kf .tb (by decide), kf .hif (by decide), kf .work (by decide), kf .caches (by decide), kf .mem (by decide), kf .pair (by decide), kf .keeper (by decide), kf .bridle (by decide), kf .power (by decide), kf .board (by decide), kf .out (by decide)⟩

@[simp] theorem wclose_frame (c : Nat) (n : Nat) (s : State) :
    (State.wclose c n s).pending = s.pending ∧ (State.wclose c n s).free = s.free ∧ (State.wclose c n s).regs = s.regs ∧
    (State.wclose c n s).tb = s.tb ∧ (State.wclose c n s).hif = s.hif ∧ (State.wclose c n s).work = s.work ∧
    (State.wclose c n s).caches = s.caches ∧ (State.wclose c n s).mem = s.mem ∧ (State.wclose c n s).pair = s.pair ∧
    (State.wclose c n s).keeper = s.keeper ∧ (State.wclose c n s).bridle = s.bridle ∧
    (State.wclose c n s).power = s.power ∧ (State.wclose c n s).board = s.board ∧ (State.wclose c n s).out = s.out := by
  obtain ⟨kq, kf⟩ := by
    have : May [.cores] .cores := ⟨by decide⟩
    exact keeps_rest (gs := [.cores]) (wclose_keeps c n (Keeps.refl _ s))
  exact ⟨kq, kf .free (by decide), kf .regs (by decide), kf .tb (by decide), kf .hif (by decide), kf .work (by decide), kf .caches (by decide), kf .mem (by decide), kf .pair (by decide), kf .keeper (by decide), kf .bridle (by decide), kf .power (by decide), kf .board (by decide), kf .out (by decide)⟩

@[simp] theorem queueJob_frame (kind : JobKind) (part : Nat) (base : Nat) (s : State) :
    (State.queueJob kind part base s).pending = s.pending ∧ (State.queueJob kind part base s).free = s.free ∧
    (State.queueJob kind part base s).regs = s.regs ∧ (State.queueJob kind part base s).tb = s.tb ∧
    (State.queueJob kind part base s).hif = s.hif ∧ (State.queueJob kind part base s).caches = s.caches ∧
    (State.queueJob kind part base s).cores = s.cores ∧ (State.queueJob kind part base s).mem = s.mem ∧
    (State.queueJob kind part base s).pair = s.pair ∧ (State.queueJob kind part base s).keeper = s.keeper ∧
    (State.queueJob kind part base s).bridle = s.bridle ∧ (State.queueJob kind part base s).power = s.power ∧
    (State.queueJob kind part base s).board = s.board ∧ (State.queueJob kind part base s).out = s.out := by
  obtain ⟨kq, kf⟩ := by
    have : May [.work] .work := ⟨by decide⟩
    exact keeps_rest (gs := [.work]) (queueJob_keeps kind part base (Keeps.refl _ s))
  exact ⟨kq, kf .free (by decide), kf .regs (by decide), kf .tb (by decide), kf .hif (by decide), kf .caches (by decide), kf .cores (by decide), kf .mem (by decide), kf .pair (by decide), kf .keeper (by decide), kf .bridle (by decide), kf .power (by decide), kf .board (by decide), kf .out (by decide)⟩

@[simp] theorem endJob_frame (kind : JobKind) (s : State) :
    (State.endJob kind s).pending = s.pending ∧ (State.endJob kind s).free = s.free ∧
    (State.endJob kind s).regs = s.regs ∧ (State.endJob kind s).tb = s.tb ∧ (State.endJob kind s).hif = s.hif ∧
    (State.endJob kind s).caches = s.caches ∧ (State.endJob kind s).cores = s.cores ∧ (State.endJob kind s).mem = s.mem ∧
    (State.endJob kind s).pair = s.pair ∧ (State.endJob kind s).keeper = s.keeper ∧
    (State.endJob kind s).bridle = s.bridle ∧ (State.endJob kind s).power = s.power ∧
    (State.endJob kind s).board = s.board ∧ (State.endJob kind s).out = s.out := by
  obtain ⟨kq, kf⟩ := by
    have : May [.work] .work := ⟨by decide⟩
    exact keeps_rest (gs := [.work]) (endJob_keeps kind (Keeps.refl _ s))
  exact ⟨kq, kf .free (by decide), kf .regs (by decide), kf .tb (by decide), kf .hif (by decide), kf .caches (by decide), kf .cores (by decide), kf .mem (by decide), kf .pair (by decide), kf .keeper (by decide), kf .bridle (by decide), kf .power (by decide), kf .board (by decide), kf .out (by decide)⟩

@[simp] theorem moveInput_frame (cores : CoreSet) (id : Nat) (s : State) :
    (State.moveInput cores id s).pending = s.pending ∧ (State.moveInput cores id s).free = s.free ∧
    (State.moveInput cores id s).regs = s.regs ∧ (State.moveInput cores id s).tb = s.tb ∧
    (State.moveInput cores id s).hif = s.hif ∧ (State.moveInput cores id s).caches = s.caches ∧
    (State.moveInput cores id s).cores = s.cores ∧ (State.moveInput cores id s).pair = s.pair ∧
    (State.moveInput cores id s).keeper = s.keeper ∧ (State.moveInput cores id s).bridle = s.bridle ∧
    (State.moveInput cores id s).power = s.power ∧ (State.moveInput cores id s).board = s.board ∧
    (State.moveInput cores id s).out = s.out := by
  obtain ⟨kq, kf⟩ := by
    have : May [.work, .mem] .work := ⟨by decide⟩
    have : May [.work, .mem] .mem := ⟨by decide⟩
    exact keeps_rest (gs := [.work, .mem]) (moveInput_keeps cores id (Keeps.refl _ s))
  exact ⟨kq, kf .free (by decide), kf .regs (by decide), kf .tb (by decide), kf .hif (by decide), kf .caches (by decide), kf .cores (by decide), kf .pair (by decide), kf .keeper (by decide), kf .bridle (by decide), kf .power (by decide), kf .board (by decide), kf .out (by decide)⟩

@[simp] theorem resetRecord_frame (k : ResetKind) (x : Nat) (s : State) :
    (State.resetRecord k x s).pending = s.pending ∧ (State.resetRecord k x s).free = s.free ∧
    (State.resetRecord k x s).regs = s.regs ∧ (State.resetRecord k x s).tb = s.tb ∧
    (State.resetRecord k x s).hif = s.hif ∧ (State.resetRecord k x s).work = s.work ∧
    (State.resetRecord k x s).caches = s.caches ∧ (State.resetRecord k x s).cores = s.cores ∧
    (State.resetRecord k x s).mem = s.mem ∧ (State.resetRecord k x s).pair = s.pair ∧
    (State.resetRecord k x s).bridle = s.bridle ∧ (State.resetRecord k x s).power = s.power ∧
    (State.resetRecord k x s).board = s.board ∧ (State.resetRecord k x s).out = s.out := by
  obtain ⟨kq, kf⟩ := by
    have : May [.keeper] .keeper := ⟨by decide⟩
    exact keeps_rest (gs := [.keeper]) (resetRecord_keeps k x (Keeps.refl _ s))
  exact ⟨kq, kf .free (by decide), kf .regs (by decide), kf .tb (by decide), kf .hif (by decide), kf .work (by decide), kf .caches (by decide), kf .cores (by decide), kf .mem (by decide), kf .pair (by decide), kf .bridle (by decide), kf .power (by decide), kf .board (by decide), kf .out (by decide)⟩

@[simp] theorem becomeReady_frame (s : State) :
    (State.becomeReady s).pending = s.pending ∧ (State.becomeReady s).free = s.free ∧ (State.becomeReady s).tb = s.tb ∧
    (State.becomeReady s).hif = s.hif ∧ (State.becomeReady s).work = s.work ∧ (State.becomeReady s).caches = s.caches ∧
    (State.becomeReady s).cores = s.cores ∧ (State.becomeReady s).mem = s.mem ∧ (State.becomeReady s).pair = s.pair ∧
    (State.becomeReady s).bridle = s.bridle ∧ (State.becomeReady s).board = s.board ∧
    (State.becomeReady s).out = s.out := by
  obtain ⟨kq, kf⟩ := by
    have : May [.regs, .keeper, .power] .regs := ⟨by decide⟩
    have : May [.regs, .keeper, .power] .keeper := ⟨by decide⟩
    have : May [.regs, .keeper, .power] .power := ⟨by decide⟩
    exact keeps_rest (gs := [.regs, .keeper, .power]) (becomeReady_keeps (Keeps.refl _ s))
  exact ⟨kq, kf .free (by decide), kf .tb (by decide), kf .hif (by decide), kf .work (by decide), kf .caches (by decide), kf .cores (by decide), kf .mem (by decide), kf .pair (by decide), kf .bridle (by decide), kf .board (by decide), kf .out (by decide)⟩

@[simp] theorem tapLoad_frame (i : TapInstr) (gated : Bool) (s : State) :
    (State.tapLoad i gated s).pending = s.pending ∧ (State.tapLoad i gated s).free = s.free ∧
    (State.tapLoad i gated s).regs = s.regs ∧ (State.tapLoad i gated s).tb = s.tb ∧
    (State.tapLoad i gated s).hif = s.hif ∧ (State.tapLoad i gated s).work = s.work ∧
    (State.tapLoad i gated s).caches = s.caches ∧ (State.tapLoad i gated s).cores = s.cores ∧
    (State.tapLoad i gated s).mem = s.mem ∧ (State.tapLoad i gated s).pair = s.pair ∧
    (State.tapLoad i gated s).keeper = s.keeper ∧ (State.tapLoad i gated s).bridle = s.bridle ∧
    (State.tapLoad i gated s).power = s.power ∧ (State.tapLoad i gated s).out = s.out := by
  obtain ⟨kq, kf⟩ := by
    have : May [.board] .board := ⟨by decide⟩
    exact keeps_rest (gs := [.board]) (tapLoad_keeps i gated (Keeps.refl _ s))
  exact ⟨kq, kf .free (by decide), kf .regs (by decide), kf .tb (by decide), kf .hif (by decide), kf .work (by decide), kf .caches (by decide), kf .cores (by decide), kf .mem (by decide), kf .pair (by decide), kf .keeper (by decide), kf .bridle (by decide), kf .power (by decide), kf .out (by decide)⟩

@[simp] theorem cinSet_frame (v : Nat) (s : State) :
    (State.cinSet v s).pending = s.pending ∧ (State.cinSet v s).free = s.free ∧ (State.cinSet v s).hif = s.hif ∧
    (State.cinSet v s).work = s.work ∧ (State.cinSet v s).caches = s.caches ∧ (State.cinSet v s).cores = s.cores ∧
    (State.cinSet v s).mem = s.mem ∧ (State.cinSet v s).pair = s.pair ∧ (State.cinSet v s).keeper = s.keeper ∧
    (State.cinSet v s).bridle = s.bridle ∧ (State.cinSet v s).power = s.power ∧ (State.cinSet v s).board = s.board ∧
    (State.cinSet v s).out = s.out := by
  obtain ⟨kq, kf⟩ := by
    have : May [.regs, .tb] .regs := ⟨by decide⟩
    have : May [.regs, .tb] .tb := ⟨by decide⟩
    exact keeps_rest (gs := [.regs, .tb]) (cinSet_keeps v (Keeps.refl _ s))
  exact ⟨kq, kf .free (by decide), kf .hif (by decide), kf .work (by decide), kf .caches (by decide), kf .cores (by decide), kf .mem (by decide), kf .pair (by decide), kf .keeper (by decide), kf .bridle (by decide), kf .power (by decide), kf .board (by decide), kf .out (by decide)⟩

end Sys2Proof.Machine
end

