-- ==== Sys2Proof/Laws/State.lean ====
section
/-! SUPPORT. What each update of one group of the state does to every group: the groups it leaves and the one it changes. -/

namespace Sys2Proof.Machine

open Sys2Proof

/-! ### State.updRegs -/

@[simp] theorem updRegs_pending (f : RegFile → RegFile) (s : State) : (s.updRegs f).pending = s.pending := rfl
@[simp] theorem updRegs_free (f : RegFile → RegFile) (s : State) : (s.updRegs f).free = s.free := rfl
@[simp] theorem updRegs_regs (f : RegFile → RegFile) (s : State) : (s.updRegs f).regs = f s.regs := rfl
@[simp] theorem updRegs_tb (f : RegFile → RegFile) (s : State) : (s.updRegs f).tb = s.tb := rfl
@[simp] theorem updRegs_hif (f : RegFile → RegFile) (s : State) : (s.updRegs f).hif = s.hif := rfl
@[simp] theorem updRegs_work (f : RegFile → RegFile) (s : State) : (s.updRegs f).work = s.work := rfl
@[simp] theorem updRegs_caches (f : RegFile → RegFile) (s : State) : (s.updRegs f).caches = s.caches := rfl
@[simp] theorem updRegs_cores (f : RegFile → RegFile) (s : State) : (s.updRegs f).cores = s.cores := rfl
@[simp] theorem updRegs_mem (f : RegFile → RegFile) (s : State) : (s.updRegs f).mem = s.mem := rfl
@[simp] theorem updRegs_pair (f : RegFile → RegFile) (s : State) : (s.updRegs f).pair = s.pair := rfl
@[simp] theorem updRegs_keeper (f : RegFile → RegFile) (s : State) : (s.updRegs f).keeper = s.keeper := rfl
@[simp] theorem updRegs_bridle (f : RegFile → RegFile) (s : State) : (s.updRegs f).bridle = s.bridle := rfl
@[simp] theorem updRegs_power (f : RegFile → RegFile) (s : State) : (s.updRegs f).power = s.power := rfl
@[simp] theorem updRegs_board (f : RegFile → RegFile) (s : State) : (s.updRegs f).board = s.board := rfl
@[simp] theorem updRegs_out (f : RegFile → RegFile) (s : State) : (s.updRegs f).out = s.out := rfl

/-! ### State.updTb -/

@[simp] theorem updTb_pending (f : Timebase → Timebase) (s : State) : (s.updTb f).pending = s.pending := rfl
@[simp] theorem updTb_free (f : Timebase → Timebase) (s : State) : (s.updTb f).free = s.free := rfl
@[simp] theorem updTb_regs (f : Timebase → Timebase) (s : State) : (s.updTb f).regs = s.regs := rfl
@[simp] theorem updTb_tb (f : Timebase → Timebase) (s : State) : (s.updTb f).tb = f s.tb := rfl
@[simp] theorem updTb_hif (f : Timebase → Timebase) (s : State) : (s.updTb f).hif = s.hif := rfl
@[simp] theorem updTb_work (f : Timebase → Timebase) (s : State) : (s.updTb f).work = s.work := rfl
@[simp] theorem updTb_caches (f : Timebase → Timebase) (s : State) : (s.updTb f).caches = s.caches := rfl
@[simp] theorem updTb_cores (f : Timebase → Timebase) (s : State) : (s.updTb f).cores = s.cores := rfl
@[simp] theorem updTb_mem (f : Timebase → Timebase) (s : State) : (s.updTb f).mem = s.mem := rfl
@[simp] theorem updTb_pair (f : Timebase → Timebase) (s : State) : (s.updTb f).pair = s.pair := rfl
@[simp] theorem updTb_keeper (f : Timebase → Timebase) (s : State) : (s.updTb f).keeper = s.keeper := rfl
@[simp] theorem updTb_bridle (f : Timebase → Timebase) (s : State) : (s.updTb f).bridle = s.bridle := rfl
@[simp] theorem updTb_power (f : Timebase → Timebase) (s : State) : (s.updTb f).power = s.power := rfl
@[simp] theorem updTb_board (f : Timebase → Timebase) (s : State) : (s.updTb f).board = s.board := rfl
@[simp] theorem updTb_out (f : Timebase → Timebase) (s : State) : (s.updTb f).out = s.out := rfl

/-! ### State.updHif -/

@[simp] theorem updHif_pending (f : HostIf → HostIf) (s : State) : (s.updHif f).pending = s.pending := rfl
@[simp] theorem updHif_free (f : HostIf → HostIf) (s : State) : (s.updHif f).free = s.free := rfl
@[simp] theorem updHif_regs (f : HostIf → HostIf) (s : State) : (s.updHif f).regs = s.regs := rfl
@[simp] theorem updHif_tb (f : HostIf → HostIf) (s : State) : (s.updHif f).tb = s.tb := rfl
@[simp] theorem updHif_hif (f : HostIf → HostIf) (s : State) : (s.updHif f).hif = f s.hif := rfl
@[simp] theorem updHif_work (f : HostIf → HostIf) (s : State) : (s.updHif f).work = s.work := rfl
@[simp] theorem updHif_caches (f : HostIf → HostIf) (s : State) : (s.updHif f).caches = s.caches := rfl
@[simp] theorem updHif_cores (f : HostIf → HostIf) (s : State) : (s.updHif f).cores = s.cores := rfl
@[simp] theorem updHif_mem (f : HostIf → HostIf) (s : State) : (s.updHif f).mem = s.mem := rfl
@[simp] theorem updHif_pair (f : HostIf → HostIf) (s : State) : (s.updHif f).pair = s.pair := rfl
@[simp] theorem updHif_keeper (f : HostIf → HostIf) (s : State) : (s.updHif f).keeper = s.keeper := rfl
@[simp] theorem updHif_bridle (f : HostIf → HostIf) (s : State) : (s.updHif f).bridle = s.bridle := rfl
@[simp] theorem updHif_power (f : HostIf → HostIf) (s : State) : (s.updHif f).power = s.power := rfl
@[simp] theorem updHif_board (f : HostIf → HostIf) (s : State) : (s.updHif f).board = s.board := rfl
@[simp] theorem updHif_out (f : HostIf → HostIf) (s : State) : (s.updHif f).out = s.out := rfl

/-! ### State.updWork -/

@[simp] theorem updWork_pending (f : Work → Work) (s : State) : (s.updWork f).pending = s.pending := rfl
@[simp] theorem updWork_free (f : Work → Work) (s : State) : (s.updWork f).free = s.free := rfl
@[simp] theorem updWork_regs (f : Work → Work) (s : State) : (s.updWork f).regs = s.regs := rfl
@[simp] theorem updWork_tb (f : Work → Work) (s : State) : (s.updWork f).tb = s.tb := rfl
@[simp] theorem updWork_hif (f : Work → Work) (s : State) : (s.updWork f).hif = s.hif := rfl
@[simp] theorem updWork_work (f : Work → Work) (s : State) : (s.updWork f).work = f s.work := rfl
@[simp] theorem updWork_caches (f : Work → Work) (s : State) : (s.updWork f).caches = s.caches := rfl
@[simp] theorem updWork_cores (f : Work → Work) (s : State) : (s.updWork f).cores = s.cores := rfl
@[simp] theorem updWork_mem (f : Work → Work) (s : State) : (s.updWork f).mem = s.mem := rfl
@[simp] theorem updWork_pair (f : Work → Work) (s : State) : (s.updWork f).pair = s.pair := rfl
@[simp] theorem updWork_keeper (f : Work → Work) (s : State) : (s.updWork f).keeper = s.keeper := rfl
@[simp] theorem updWork_bridle (f : Work → Work) (s : State) : (s.updWork f).bridle = s.bridle := rfl
@[simp] theorem updWork_power (f : Work → Work) (s : State) : (s.updWork f).power = s.power := rfl
@[simp] theorem updWork_board (f : Work → Work) (s : State) : (s.updWork f).board = s.board := rfl
@[simp] theorem updWork_out (f : Work → Work) (s : State) : (s.updWork f).out = s.out := rfl

/-! ### State.updCaches -/

@[simp] theorem updCaches_pending (f : Caches → Caches) (s : State) : (s.updCaches f).pending = s.pending := rfl
@[simp] theorem updCaches_free (f : Caches → Caches) (s : State) : (s.updCaches f).free = s.free := rfl
@[simp] theorem updCaches_regs (f : Caches → Caches) (s : State) : (s.updCaches f).regs = s.regs := rfl
@[simp] theorem updCaches_tb (f : Caches → Caches) (s : State) : (s.updCaches f).tb = s.tb := rfl
@[simp] theorem updCaches_hif (f : Caches → Caches) (s : State) : (s.updCaches f).hif = s.hif := rfl
@[simp] theorem updCaches_work (f : Caches → Caches) (s : State) : (s.updCaches f).work = s.work := rfl
@[simp] theorem updCaches_caches (f : Caches → Caches) (s : State) : (s.updCaches f).caches = f s.caches := rfl
@[simp] theorem updCaches_cores (f : Caches → Caches) (s : State) : (s.updCaches f).cores = s.cores := rfl
@[simp] theorem updCaches_mem (f : Caches → Caches) (s : State) : (s.updCaches f).mem = s.mem := rfl
@[simp] theorem updCaches_pair (f : Caches → Caches) (s : State) : (s.updCaches f).pair = s.pair := rfl
@[simp] theorem updCaches_keeper (f : Caches → Caches) (s : State) : (s.updCaches f).keeper = s.keeper := rfl
@[simp] theorem updCaches_bridle (f : Caches → Caches) (s : State) : (s.updCaches f).bridle = s.bridle := rfl
@[simp] theorem updCaches_power (f : Caches → Caches) (s : State) : (s.updCaches f).power = s.power := rfl
@[simp] theorem updCaches_board (f : Caches → Caches) (s : State) : (s.updCaches f).board = s.board := rfl
@[simp] theorem updCaches_out (f : Caches → Caches) (s : State) : (s.updCaches f).out = s.out := rfl

/-! ### State.updCores -/

@[simp] theorem updCores_pending (f : List Core → List Core) (s : State) : (s.updCores f).pending = s.pending := rfl
@[simp] theorem updCores_free (f : List Core → List Core) (s : State) : (s.updCores f).free = s.free := rfl
@[simp] theorem updCores_regs (f : List Core → List Core) (s : State) : (s.updCores f).regs = s.regs := rfl
@[simp] theorem updCores_tb (f : List Core → List Core) (s : State) : (s.updCores f).tb = s.tb := rfl
@[simp] theorem updCores_hif (f : List Core → List Core) (s : State) : (s.updCores f).hif = s.hif := rfl
@[simp] theorem updCores_work (f : List Core → List Core) (s : State) : (s.updCores f).work = s.work := rfl
@[simp] theorem updCores_caches (f : List Core → List Core) (s : State) : (s.updCores f).caches = s.caches := rfl
@[simp] theorem updCores_cores (f : List Core → List Core) (s : State) : (s.updCores f).cores = f s.cores := rfl
@[simp] theorem updCores_mem (f : List Core → List Core) (s : State) : (s.updCores f).mem = s.mem := rfl
@[simp] theorem updCores_pair (f : List Core → List Core) (s : State) : (s.updCores f).pair = s.pair := rfl
@[simp] theorem updCores_keeper (f : List Core → List Core) (s : State) : (s.updCores f).keeper = s.keeper := rfl
@[simp] theorem updCores_bridle (f : List Core → List Core) (s : State) : (s.updCores f).bridle = s.bridle := rfl
@[simp] theorem updCores_power (f : List Core → List Core) (s : State) : (s.updCores f).power = s.power := rfl
@[simp] theorem updCores_board (f : List Core → List Core) (s : State) : (s.updCores f).board = s.board := rfl
@[simp] theorem updCores_out (f : List Core → List Core) (s : State) : (s.updCores f).out = s.out := rfl

/-! ### State.updMem -/

@[simp] theorem updMem_pending (f : Memories → Memories) (s : State) : (s.updMem f).pending = s.pending := rfl
@[simp] theorem updMem_free (f : Memories → Memories) (s : State) : (s.updMem f).free = s.free := rfl
@[simp] theorem updMem_regs (f : Memories → Memories) (s : State) : (s.updMem f).regs = s.regs := rfl
@[simp] theorem updMem_tb (f : Memories → Memories) (s : State) : (s.updMem f).tb = s.tb := rfl
@[simp] theorem updMem_hif (f : Memories → Memories) (s : State) : (s.updMem f).hif = s.hif := rfl
@[simp] theorem updMem_work (f : Memories → Memories) (s : State) : (s.updMem f).work = s.work := rfl
@[simp] theorem updMem_caches (f : Memories → Memories) (s : State) : (s.updMem f).caches = s.caches := rfl
@[simp] theorem updMem_cores (f : Memories → Memories) (s : State) : (s.updMem f).cores = s.cores := rfl
@[simp] theorem updMem_mem (f : Memories → Memories) (s : State) : (s.updMem f).mem = f s.mem := rfl
@[simp] theorem updMem_pair (f : Memories → Memories) (s : State) : (s.updMem f).pair = s.pair := rfl
@[simp] theorem updMem_keeper (f : Memories → Memories) (s : State) : (s.updMem f).keeper = s.keeper := rfl
@[simp] theorem updMem_bridle (f : Memories → Memories) (s : State) : (s.updMem f).bridle = s.bridle := rfl
@[simp] theorem updMem_power (f : Memories → Memories) (s : State) : (s.updMem f).power = s.power := rfl
@[simp] theorem updMem_board (f : Memories → Memories) (s : State) : (s.updMem f).board = s.board := rfl
@[simp] theorem updMem_out (f : Memories → Memories) (s : State) : (s.updMem f).out = s.out := rfl

/-! ### State.updPair -/

@[simp] theorem updPair_pending (f : Pair → Pair) (s : State) : (s.updPair f).pending = s.pending := rfl
@[simp] theorem updPair_free (f : Pair → Pair) (s : State) : (s.updPair f).free = s.free := rfl
@[simp] theorem updPair_regs (f : Pair → Pair) (s : State) : (s.updPair f).regs = s.regs := rfl
@[simp] theorem updPair_tb (f : Pair → Pair) (s : State) : (s.updPair f).tb = s.tb := rfl
@[simp] theorem updPair_hif (f : Pair → Pair) (s : State) : (s.updPair f).hif = s.hif := rfl
@[simp] theorem updPair_work (f : Pair → Pair) (s : State) : (s.updPair f).work = s.work := rfl
@[simp] theorem updPair_caches (f : Pair → Pair) (s : State) : (s.updPair f).caches = s.caches := rfl
@[simp] theorem updPair_cores (f : Pair → Pair) (s : State) : (s.updPair f).cores = s.cores := rfl
@[simp] theorem updPair_mem (f : Pair → Pair) (s : State) : (s.updPair f).mem = s.mem := rfl
@[simp] theorem updPair_pair (f : Pair → Pair) (s : State) : (s.updPair f).pair = f s.pair := rfl
@[simp] theorem updPair_keeper (f : Pair → Pair) (s : State) : (s.updPair f).keeper = s.keeper := rfl
@[simp] theorem updPair_bridle (f : Pair → Pair) (s : State) : (s.updPair f).bridle = s.bridle := rfl
@[simp] theorem updPair_power (f : Pair → Pair) (s : State) : (s.updPair f).power = s.power := rfl
@[simp] theorem updPair_board (f : Pair → Pair) (s : State) : (s.updPair f).board = s.board := rfl
@[simp] theorem updPair_out (f : Pair → Pair) (s : State) : (s.updPair f).out = s.out := rfl

/-! ### State.updKeeper -/

@[simp] theorem updKeeper_pending (f : Keeper → Keeper) (s : State) : (s.updKeeper f).pending = s.pending := rfl
@[simp] theorem updKeeper_free (f : Keeper → Keeper) (s : State) : (s.updKeeper f).free = s.free := rfl
@[simp] theorem updKeeper_regs (f : Keeper → Keeper) (s : State) : (s.updKeeper f).regs = s.regs := rfl
@[simp] theorem updKeeper_tb (f : Keeper → Keeper) (s : State) : (s.updKeeper f).tb = s.tb := rfl
@[simp] theorem updKeeper_hif (f : Keeper → Keeper) (s : State) : (s.updKeeper f).hif = s.hif := rfl
@[simp] theorem updKeeper_work (f : Keeper → Keeper) (s : State) : (s.updKeeper f).work = s.work := rfl
@[simp] theorem updKeeper_caches (f : Keeper → Keeper) (s : State) : (s.updKeeper f).caches = s.caches := rfl
@[simp] theorem updKeeper_cores (f : Keeper → Keeper) (s : State) : (s.updKeeper f).cores = s.cores := rfl
@[simp] theorem updKeeper_mem (f : Keeper → Keeper) (s : State) : (s.updKeeper f).mem = s.mem := rfl
@[simp] theorem updKeeper_pair (f : Keeper → Keeper) (s : State) : (s.updKeeper f).pair = s.pair := rfl
@[simp] theorem updKeeper_keeper (f : Keeper → Keeper) (s : State) : (s.updKeeper f).keeper = f s.keeper := rfl
@[simp] theorem updKeeper_bridle (f : Keeper → Keeper) (s : State) : (s.updKeeper f).bridle = s.bridle := rfl
@[simp] theorem updKeeper_power (f : Keeper → Keeper) (s : State) : (s.updKeeper f).power = s.power := rfl
@[simp] theorem updKeeper_board (f : Keeper → Keeper) (s : State) : (s.updKeeper f).board = s.board := rfl
@[simp] theorem updKeeper_out (f : Keeper → Keeper) (s : State) : (s.updKeeper f).out = s.out := rfl

/-! ### State.updBridle -/

@[simp] theorem updBridle_pending (f : Bridle → Bridle) (s : State) : (s.updBridle f).pending = s.pending := rfl
@[simp] theorem updBridle_free (f : Bridle → Bridle) (s : State) : (s.updBridle f).free = s.free := rfl
@[simp] theorem updBridle_regs (f : Bridle → Bridle) (s : State) : (s.updBridle f).regs = s.regs := rfl
@[simp] theorem updBridle_tb (f : Bridle → Bridle) (s : State) : (s.updBridle f).tb = s.tb := rfl
@[simp] theorem updBridle_hif (f : Bridle → Bridle) (s : State) : (s.updBridle f).hif = s.hif := rfl
@[simp] theorem updBridle_work (f : Bridle → Bridle) (s : State) : (s.updBridle f).work = s.work := rfl
@[simp] theorem updBridle_caches (f : Bridle → Bridle) (s : State) : (s.updBridle f).caches = s.caches := rfl
@[simp] theorem updBridle_cores (f : Bridle → Bridle) (s : State) : (s.updBridle f).cores = s.cores := rfl
@[simp] theorem updBridle_mem (f : Bridle → Bridle) (s : State) : (s.updBridle f).mem = s.mem := rfl
@[simp] theorem updBridle_pair (f : Bridle → Bridle) (s : State) : (s.updBridle f).pair = s.pair := rfl
@[simp] theorem updBridle_keeper (f : Bridle → Bridle) (s : State) : (s.updBridle f).keeper = s.keeper := rfl
@[simp] theorem updBridle_bridle (f : Bridle → Bridle) (s : State) : (s.updBridle f).bridle = f s.bridle := rfl
@[simp] theorem updBridle_power (f : Bridle → Bridle) (s : State) : (s.updBridle f).power = s.power := rfl
@[simp] theorem updBridle_board (f : Bridle → Bridle) (s : State) : (s.updBridle f).board = s.board := rfl
@[simp] theorem updBridle_out (f : Bridle → Bridle) (s : State) : (s.updBridle f).out = s.out := rfl

/-! ### State.updPower -/

@[simp] theorem updPower_pending (f : Power → Power) (s : State) : (s.updPower f).pending = s.pending := rfl
@[simp] theorem updPower_free (f : Power → Power) (s : State) : (s.updPower f).free = s.free := rfl
@[simp] theorem updPower_regs (f : Power → Power) (s : State) : (s.updPower f).regs = s.regs := rfl
@[simp] theorem updPower_tb (f : Power → Power) (s : State) : (s.updPower f).tb = s.tb := rfl
@[simp] theorem updPower_hif (f : Power → Power) (s : State) : (s.updPower f).hif = s.hif := rfl
@[simp] theorem updPower_work (f : Power → Power) (s : State) : (s.updPower f).work = s.work := rfl
@[simp] theorem updPower_caches (f : Power → Power) (s : State) : (s.updPower f).caches = s.caches := rfl
@[simp] theorem updPower_cores (f : Power → Power) (s : State) : (s.updPower f).cores = s.cores := rfl
@[simp] theorem updPower_mem (f : Power → Power) (s : State) : (s.updPower f).mem = s.mem := rfl
@[simp] theorem updPower_pair (f : Power → Power) (s : State) : (s.updPower f).pair = s.pair := rfl
@[simp] theorem updPower_keeper (f : Power → Power) (s : State) : (s.updPower f).keeper = s.keeper := rfl
@[simp] theorem updPower_bridle (f : Power → Power) (s : State) : (s.updPower f).bridle = s.bridle := rfl
@[simp] theorem updPower_power (f : Power → Power) (s : State) : (s.updPower f).power = f s.power := rfl
@[simp] theorem updPower_board (f : Power → Power) (s : State) : (s.updPower f).board = s.board := rfl
@[simp] theorem updPower_out (f : Power → Power) (s : State) : (s.updPower f).out = s.out := rfl

/-! ### State.updBoard -/

@[simp] theorem updBoard_pending (f : Board → Board) (s : State) : (s.updBoard f).pending = s.pending := rfl
@[simp] theorem updBoard_free (f : Board → Board) (s : State) : (s.updBoard f).free = s.free := rfl
@[simp] theorem updBoard_regs (f : Board → Board) (s : State) : (s.updBoard f).regs = s.regs := rfl
@[simp] theorem updBoard_tb (f : Board → Board) (s : State) : (s.updBoard f).tb = s.tb := rfl
@[simp] theorem updBoard_hif (f : Board → Board) (s : State) : (s.updBoard f).hif = s.hif := rfl
@[simp] theorem updBoard_work (f : Board → Board) (s : State) : (s.updBoard f).work = s.work := rfl
@[simp] theorem updBoard_caches (f : Board → Board) (s : State) : (s.updBoard f).caches = s.caches := rfl
@[simp] theorem updBoard_cores (f : Board → Board) (s : State) : (s.updBoard f).cores = s.cores := rfl
@[simp] theorem updBoard_mem (f : Board → Board) (s : State) : (s.updBoard f).mem = s.mem := rfl
@[simp] theorem updBoard_pair (f : Board → Board) (s : State) : (s.updBoard f).pair = s.pair := rfl
@[simp] theorem updBoard_keeper (f : Board → Board) (s : State) : (s.updBoard f).keeper = s.keeper := rfl
@[simp] theorem updBoard_bridle (f : Board → Board) (s : State) : (s.updBoard f).bridle = s.bridle := rfl
@[simp] theorem updBoard_power (f : Board → Board) (s : State) : (s.updBoard f).power = s.power := rfl
@[simp] theorem updBoard_board (f : Board → Board) (s : State) : (s.updBoard f).board = f s.board := rfl
@[simp] theorem updBoard_out (f : Board → Board) (s : State) : (s.updBoard f).out = s.out := rfl

/-! ### State.emit and State.nextFree -/

@[simp] theorem emit_pending (o : Output) (s : State) : (s.emit o).pending = s.pending := rfl
@[simp] theorem emit_free (o : Output) (s : State) : (s.emit o).free = s.free := rfl
@[simp] theorem emit_regs (o : Output) (s : State) : (s.emit o).regs = s.regs := rfl
@[simp] theorem emit_tb (o : Output) (s : State) : (s.emit o).tb = s.tb := rfl
@[simp] theorem emit_hif (o : Output) (s : State) : (s.emit o).hif = s.hif := rfl
@[simp] theorem emit_work (o : Output) (s : State) : (s.emit o).work = s.work := rfl
@[simp] theorem emit_caches (o : Output) (s : State) : (s.emit o).caches = s.caches := rfl
@[simp] theorem emit_cores (o : Output) (s : State) : (s.emit o).cores = s.cores := rfl
@[simp] theorem emit_mem (o : Output) (s : State) : (s.emit o).mem = s.mem := rfl
@[simp] theorem emit_pair (o : Output) (s : State) : (s.emit o).pair = s.pair := rfl
@[simp] theorem emit_keeper (o : Output) (s : State) : (s.emit o).keeper = s.keeper := rfl
@[simp] theorem emit_bridle (o : Output) (s : State) : (s.emit o).bridle = s.bridle := rfl
@[simp] theorem emit_power (o : Output) (s : State) : (s.emit o).power = s.power := rfl
@[simp] theorem emit_board (o : Output) (s : State) : (s.emit o).board = s.board := rfl
@[simp] theorem emit_out (o : Output) (s : State) : (s.emit o).out = o :: s.out := rfl

@[simp] theorem nextFree_pending (s : State) : s.nextFree.pending = s.pending := rfl
@[simp] theorem nextFree_free (s : State) : s.nextFree.free = s.free + 1 := rfl
@[simp] theorem nextFree_regs (s : State) : s.nextFree.regs = s.regs := rfl
@[simp] theorem nextFree_tb (s : State) : s.nextFree.tb = s.tb := rfl
@[simp] theorem nextFree_hif (s : State) : s.nextFree.hif = s.hif := rfl
@[simp] theorem nextFree_work (s : State) : s.nextFree.work = s.work := rfl
@[simp] theorem nextFree_caches (s : State) : s.nextFree.caches = s.caches := rfl
@[simp] theorem nextFree_cores (s : State) : s.nextFree.cores = s.cores := rfl
@[simp] theorem nextFree_mem (s : State) : s.nextFree.mem = s.mem := rfl
@[simp] theorem nextFree_pair (s : State) : s.nextFree.pair = s.pair := rfl
@[simp] theorem nextFree_keeper (s : State) : s.nextFree.keeper = s.keeper := rfl
@[simp] theorem nextFree_bridle (s : State) : s.nextFree.bridle = s.bridle := rfl
@[simp] theorem nextFree_power (s : State) : s.nextFree.power = s.power := rfl
@[simp] theorem nextFree_board (s : State) : s.nextFree.board = s.board := rfl
@[simp] theorem nextFree_out (s : State) : s.nextFree.out = s.out := rfl

/-! ### Two updates of one group are one -/

@[simp] theorem updRegs_updRegs (f h : RegFile → RegFile) (s : State) :
    (s.updRegs h).updRegs f = s.updRegs fun x => f (h x) := rfl
@[simp] theorem updTb_updTb (f h : Timebase → Timebase) (s : State) :
    (s.updTb h).updTb f = s.updTb fun x => f (h x) := rfl
@[simp] theorem updHif_updHif (f h : HostIf → HostIf) (s : State) :
    (s.updHif h).updHif f = s.updHif fun x => f (h x) := rfl
@[simp] theorem updWork_updWork (f h : Work → Work) (s : State) :
    (s.updWork h).updWork f = s.updWork fun x => f (h x) := rfl
@[simp] theorem updCaches_updCaches (f h : Caches → Caches) (s : State) :
    (s.updCaches h).updCaches f = s.updCaches fun x => f (h x) := rfl
@[simp] theorem updCores_updCores (f h : List Core → List Core) (s : State) :
    (s.updCores h).updCores f = s.updCores fun x => f (h x) := rfl
@[simp] theorem updMem_updMem (f h : Memories → Memories) (s : State) :
    (s.updMem h).updMem f = s.updMem fun x => f (h x) := rfl
@[simp] theorem updPair_updPair (f h : Pair → Pair) (s : State) :
    (s.updPair h).updPair f = s.updPair fun x => f (h x) := rfl
@[simp] theorem updKeeper_updKeeper (f h : Keeper → Keeper) (s : State) :
    (s.updKeeper h).updKeeper f = s.updKeeper fun x => f (h x) := rfl
@[simp] theorem updBridle_updBridle (f h : Bridle → Bridle) (s : State) :
    (s.updBridle h).updBridle f = s.updBridle fun x => f (h x) := rfl
@[simp] theorem updPower_updPower (f h : Power → Power) (s : State) :
    (s.updPower h).updPower f = s.updPower fun x => f (h x) := rfl
@[simp] theorem updBoard_updBoard (f h : Board → Board) (s : State) :
    (s.updBoard h).updBoard f = s.updBoard fun x => f (h x) := rfl

/-! ### State.when and State.forEach keep a group that their operation keeps -/

@[simp] theorem when_true (f : State → State) (s : State) : s.when true f = f s := rfl
@[simp] theorem when_false (f : State → State) (s : State) : s.when false f = s := rfl

@[simp] theorem forEach_nil {α : Type} (f : α → State → State) (s : State) : s.forEach [] f = s := rfl
@[simp] theorem forEach_cons {α : Type} (x : α) (xs : List α) (f : α → State → State) (s : State) :
    s.forEach (x :: xs) f = (f x s).forEach xs f := rfl

/-- What one run of the operation keeps, every run of it over a list keeps. -/
theorem forEach_proj {α β : Type} (p : State → β) (xs : List α) (f : α → State → State) (s : State)
    (h : ∀ x t, p (f x t) = p t) : p (s.forEach xs f) = p s := by
  induction xs generalizing s with
  | nil => rfl
  | cons x xs ih => exact (ih (f x s)).trans (h x s)

/-- What the operation keeps, it keeps under a condition. -/
theorem when_proj {β : Type} (p : State → β) (c : Bool) (f : State → State) (s : State)
    (h : ∀ t, p (f t) = p t) : p (s.when c f) = p s := by
  cases c
  · rfl
  · exact h s

@[simp] theorem forEach_pending {α : Type} (xs : List α) (f : α → State → State) (s : State)
    (h : ∀ x t, (f x t).pending = t.pending) : (s.forEach xs f).pending = s.pending := forEach_proj (·.pending) xs f s h
@[simp] theorem forEach_free {α : Type} (xs : List α) (f : α → State → State) (s : State)
    (h : ∀ x t, (f x t).free = t.free) : (s.forEach xs f).free = s.free := forEach_proj (·.free) xs f s h
@[simp] theorem forEach_regs {α : Type} (xs : List α) (f : α → State → State) (s : State)
    (h : ∀ x t, (f x t).regs = t.regs) : (s.forEach xs f).regs = s.regs := forEach_proj (·.regs) xs f s h
@[simp] theorem forEach_tb {α : Type} (xs : List α) (f : α → State → State) (s : State)
    (h : ∀ x t, (f x t).tb = t.tb) : (s.forEach xs f).tb = s.tb := forEach_proj (·.tb) xs f s h
@[simp] theorem forEach_hif {α : Type} (xs : List α) (f : α → State → State) (s : State)
    (h : ∀ x t, (f x t).hif = t.hif) : (s.forEach xs f).hif = s.hif := forEach_proj (·.hif) xs f s h
@[simp] theorem forEach_work {α : Type} (xs : List α) (f : α → State → State) (s : State)
    (h : ∀ x t, (f x t).work = t.work) : (s.forEach xs f).work = s.work := forEach_proj (·.work) xs f s h
@[simp] theorem forEach_caches {α : Type} (xs : List α) (f : α → State → State) (s : State)
    (h : ∀ x t, (f x t).caches = t.caches) : (s.forEach xs f).caches = s.caches := forEach_proj (·.caches) xs f s h
@[simp] theorem forEach_cores {α : Type} (xs : List α) (f : α → State → State) (s : State)
    (h : ∀ x t, (f x t).cores = t.cores) : (s.forEach xs f).cores = s.cores := forEach_proj (·.cores) xs f s h
@[simp] theorem forEach_mem {α : Type} (xs : List α) (f : α → State → State) (s : State)
    (h : ∀ x t, (f x t).mem = t.mem) : (s.forEach xs f).mem = s.mem := forEach_proj (·.mem) xs f s h
@[simp] theorem forEach_pair {α : Type} (xs : List α) (f : α → State → State) (s : State)
    (h : ∀ x t, (f x t).pair = t.pair) : (s.forEach xs f).pair = s.pair := forEach_proj (·.pair) xs f s h
@[simp] theorem forEach_keeper {α : Type} (xs : List α) (f : α → State → State) (s : State)
    (h : ∀ x t, (f x t).keeper = t.keeper) : (s.forEach xs f).keeper = s.keeper := forEach_proj (·.keeper) xs f s h
@[simp] theorem forEach_bridle {α : Type} (xs : List α) (f : α → State → State) (s : State)
    (h : ∀ x t, (f x t).bridle = t.bridle) : (s.forEach xs f).bridle = s.bridle := forEach_proj (·.bridle) xs f s h
@[simp] theorem forEach_power {α : Type} (xs : List α) (f : α → State → State) (s : State)
    (h : ∀ x t, (f x t).power = t.power) : (s.forEach xs f).power = s.power := forEach_proj (·.power) xs f s h
@[simp] theorem forEach_board {α : Type} (xs : List α) (f : α → State → State) (s : State)
    (h : ∀ x t, (f x t).board = t.board) : (s.forEach xs f).board = s.board := forEach_proj (·.board) xs f s h
@[simp] theorem forEach_out {α : Type} (xs : List α) (f : α → State → State) (s : State)
    (h : ∀ x t, (f x t).out = t.out) : (s.forEach xs f).out = s.out := forEach_proj (·.out) xs f s h

@[simp] theorem when_pending (c : Bool) (f : State → State) (s : State)
    (h : ∀ t, (f t).pending = t.pending) : (s.when c f).pending = s.pending := when_proj (·.pending) c f s h
@[simp] theorem when_free (c : Bool) (f : State → State) (s : State)
    (h : ∀ t, (f t).free = t.free) : (s.when c f).free = s.free := when_proj (·.free) c f s h
@[simp] theorem when_regs (c : Bool) (f : State → State) (s : State)
    (h : ∀ t, (f t).regs = t.regs) : (s.when c f).regs = s.regs := when_proj (·.regs) c f s h
@[simp] theorem when_tb (c : Bool) (f : State → State) (s : State)
    (h : ∀ t, (f t).tb = t.tb) : (s.when c f).tb = s.tb := when_proj (·.tb) c f s h
@[simp] theorem when_hif (c : Bool) (f : State → State) (s : State)
    (h : ∀ t, (f t).hif = t.hif) : (s.when c f).hif = s.hif := when_proj (·.hif) c f s h
@[simp] theorem when_work (c : Bool) (f : State → State) (s : State)
    (h : ∀ t, (f t).work = t.work) : (s.when c f).work = s.work := when_proj (·.work) c f s h
@[simp] theorem when_caches (c : Bool) (f : State → State) (s : State)
    (h : ∀ t, (f t).caches = t.caches) : (s.when c f).caches = s.caches := when_proj (·.caches) c f s h
@[simp] theorem when_cores (c : Bool) (f : State → State) (s : State)
    (h : ∀ t, (f t).cores = t.cores) : (s.when c f).cores = s.cores := when_proj (·.cores) c f s h
@[simp] theorem when_mem (c : Bool) (f : State → State) (s : State)
    (h : ∀ t, (f t).mem = t.mem) : (s.when c f).mem = s.mem := when_proj (·.mem) c f s h
@[simp] theorem when_pair (c : Bool) (f : State → State) (s : State)
    (h : ∀ t, (f t).pair = t.pair) : (s.when c f).pair = s.pair := when_proj (·.pair) c f s h
@[simp] theorem when_keeper (c : Bool) (f : State → State) (s : State)
    (h : ∀ t, (f t).keeper = t.keeper) : (s.when c f).keeper = s.keeper := when_proj (·.keeper) c f s h
@[simp] theorem when_bridle (c : Bool) (f : State → State) (s : State)
    (h : ∀ t, (f t).bridle = t.bridle) : (s.when c f).bridle = s.bridle := when_proj (·.bridle) c f s h
@[simp] theorem when_power (c : Bool) (f : State → State) (s : State)
    (h : ∀ t, (f t).power = t.power) : (s.when c f).power = s.power := when_proj (·.power) c f s h
@[simp] theorem when_board (c : Bool) (f : State → State) (s : State)
    (h : ∀ t, (f t).board = t.board) : (s.when c f).board = s.board := when_proj (·.board) c f s h
@[simp] theorem when_out (c : Bool) (f : State → State) (s : State)
    (h : ∀ t, (f t).out = t.out) : (s.when c f).out = s.out := when_proj (·.out) c f s h

end Sys2Proof.Machine
end

