-- ==== Sys2Proof/Laws/Registers.lean ====
section
/-! SUPPORT. The path of a register write: from an access of BAR0 to the effect of the one register it names. -/

namespace Sys2Proof.Machine

open Sys2Proof Safety

variable {s : State}

/-! ### The register file -/

theorem getKey_putKey {β : Type} (k : Nat) (v : β) (m : List (Nat × β)) : getKey k (putKey k v m) = some v := by
  induction m with
  | nil => simp [putKey, getKey]
  | cons p m ih =>
    obtain ⟨j, w⟩ := p
    simp only [putKey]
    split
    · simp [getKey]
    · split
      · simp [getKey]
      · have e : (j == k) = false := by simp; omega
        simpa [getKey, List.find?_cons, e] using ih

theorem getKey_putKey_ne {β : Type} {k j : Nat} (v : β) (m : List (Nat × β)) (h : j ≠ k) :
    getKey j (putKey k v m) = getKey j m := by
  induction m with
  | nil => simp [putKey, getKey, Ne.symm h]
  | cons p m ih =>
    obtain ⟨i, w⟩ := p
    simp only [putKey]
    split
    · simp [getKey, Ne.symm h]
    · split
      · subst_vars
        simp [getKey, Ne.symm h]
      · simp only [getKey, List.find?_cons] at ih ⊢
        split <;> simp_all

/-- A register that took a value reads it. -/
theorem reg_setReg (off v : Nat) (s : State) : (s.setReg off v).reg off = v % 2 ^ 64 := by
  simp [State.reg, State.setReg, State.updRegs, getKey_putKey]

/-- Every other register keeps its value. -/
theorem reg_setReg_ne {off o : Nat} (v : Nat) (s : State) (h : o ≠ off) : (s.setReg off v).reg o = s.reg o := by
  simp [State.reg, State.setReg, State.updRegs, getKey_putKey_ne _ _ h, State.iy920]

/-! ### Which register an offset names -/

/-- No offset below the AFE counters and the per-die and per-core instances is reserved on an IY920 (R2). -/
theorem reservedInst_low {off : Nat} (h : off < 0x50128) : s.reservedInst off = false := by
  simp only [State.reservedInst, Bool.and_eq_false_imp]
  intro _
  simp only [Bool.or_eq_false_iff, Bool.and_eq_false_iff, decide_eq_false_iff_not]
  omega

/-- What `regAt` finds, from the rows of a block that is no core's. -/
theorem regAt_of {off : Nat} {b : Block} {a : RegAt} (hb : blockOf off = some b) (hc : ∀ c, b ≠ .cor c)
    (hr : s.reservedInst off = false) (hf : (b.rows.findSome? fun r => r.at? 0 off) = some a) :
    s.regAt off = some (b, a) := by
  simp only [State.regAt, hb, hr, Bool.false_eq_true, if_false, hf, Option.map_some]

/-- A served write of a 4-byte register that the PF may write goes to that register. -/
theorem busWrite_word {off v : Nat} {b : Block} {a : RegAt} (h : PfServed s) (ho : off % 4 = 0)
    (hat : s.regAt off = some (b, a)) (hp : s.mayPoke 0 b a v = true) (hw : a.row.width ≠ 8) :
    s.busWrite 0 off 4 v = s.regWrite 0 b a (v % 2 ^ 32) := by
  obtain ⟨hb, hr, hrec, hf⟩ := h
  have hs : s.serves (s.countBlock off) = true := by
    unfold State.serves
    split <;> simp [hr, hrec]
  simp [State.busWrite, hb, hs, hf, ho, State.wordWrite, hat, hp, hw]

/-- A served write of an 8-byte register that the PF may write goes to that register. -/
theorem busWrite_wide {off v : Nat} {b : Block} {a : RegAt} (h : PfServed s) (ho : off % 8 = 0)
    (hat : s.regAt off = some (b, a)) (hp : s.mayPoke 0 b a v = true) (hw : a.row.width = 8) (hbase : a.base = off) :
    s.busWrite 0 off 8 v = s.regWrite 0 b a v := by
  obtain ⟨hb, hr, hrec, hf⟩ := h
  have hs : s.serves (s.countBlock off) = true := by
    unfold State.serves
    split <;> simp [hr, hrec]
  simp [State.busWrite, hb, hs, hf, ho, hat, hp, hw, hbase]

/-- The PF may write every register that is neither a ring group's nor a core's. -/
theorem mayPoke_pf {b : Block} {a : RegAt} {v : Nat} (hg : isRgReg a.base = false) (hc : ∀ c, b ≠ .cor c) :
    s.mayPoke 0 b a v = true := by
  cases b <;> simp_all [State.mayPoke, State.maySee]

/-- No single register of a block is an instance that the IY920 lacks (R2). -/
theorem reservedInst_gap {off : Nat} (h : 0x60000 ≤ off) (k : off < 0x90054 ∨ (0x90068 ≤ off ∧ off < 0xC0094)) :
    s.reservedInst off = false := by
  simp only [State.reservedInst, Bool.and_eq_false_imp]
  intro _
  simp only [Bool.or_eq_false_iff, Bool.and_eq_false_iff, decide_eq_false_iff_not]
  omega

/-- A write of a register without RWS or W1C bits, in range, has the register's effect. -/
theorem regWrite_rw {f v : Nat} {b : Block} {a : RegAt} (hc : a.row.w1c = 0) (hs : a.row.rws = 0) (hw : a.row.rw ≠ 0)
    (hr : s.inRange f a.base (v &&& a.row.rw) = true) : s.regWrite f b a v = s.regEffect f a.base (v &&& a.row.rw) := by
  simp [State.regWrite, hc, hs, hw, hr]

theorem and_all32 {v : Nat} (h : v < 2 ^ 32) : v &&& all32 = v := by
  have e : all32 = 2 ^ 32 - 1 := rfl
  rw [e, Nat.and_two_pow_sub_one_eq_mod, Nat.mod_eq_of_lt h]

theorem and_all64 {v : Nat} (h : v < 2 ^ 64) : v &&& all64 = v := by
  have e : all64 = 2 ^ 64 - 1 := rfl
  rw [e, Nat.and_two_pow_sub_one_eq_mod, Nat.mod_eq_of_lt h]

/-! ### Single registers of the PF: where they lie -/

theorem regAt_cinCtrl : s.regAt 0x20000 = some (.cin, ⟨0x20000, 0, { off := 0x20000, rw := 1, rws := 0xE }⟩) :=
  regAt_of rfl (by simp) (reservedInst_low (by decide)) rfl
theorem regAt_cinRate : s.regAt 0x20018 = some (.cin, ⟨0x20018, 0, { off := 0x20018, rw := all32 }⟩) :=
  regAt_of rfl (by simp) (reservedInst_low (by decide)) rfl
theorem regAt_cinOffset : s.regAt 0x2001C = some (.cin, ⟨0x2001C, 0, { off := 0x2001C, rw := all32, wo := true }⟩) :=
  regAt_of rfl (by simp) (reservedInst_low (by decide)) rfl
theorem regAt_sdlCtrl : s.regAt 0x30000 = some (.sdl, ⟨0x30000, 0, { off := 0x30000, rw := 3 }⟩) :=
  regAt_of rfl (by simp) (reservedInst_low (by decide)) rfl
theorem regAt_accSel : s.regAt 0x30100 = some (.sdl, ⟨0x30100, 0, { off := 0x30100, rw := 0x303FF }⟩) :=
  regAt_of rfl (by simp) (reservedInst_low (by decide)) rfl
theorem regAt_rnlCtrl : s.regAt 0x70000 = some (.rnl, ⟨0x70000, 0, { off := 0x70000, rw := 0x15, rws := 0xFF0A }⟩) :=
  regAt_of rfl (by simp) (reservedInst_gap (by decide) (by decide)) rfl
theorem regAt_rnlTake : s.regAt 0x70014 = some (.rnl, ⟨0x70014, 0, { off := 0x70014, rw := all32, wo := true }⟩) :=
  regAt_of rfl (by simp) (reservedInst_gap (by decide) (by decide)) rfl
theorem regAt_rnlHand : s.regAt 0x70018 = some (.rnl, ⟨0x70018, 0, { off := 0x70018, rw := 0x800003FF }⟩) :=
  regAt_of rfl (by simp) (reservedInst_gap (by decide) (by decide)) rfl
theorem regAt_kprCtrl : s.regAt 0xA0004 = some (.kpr, ⟨0xA0004, 0, { off := 0xA0004, rw := 1 }⟩) :=
  regAt_of rfl (by simp) (reservedInst_gap (by decide) (by decide)) rfl
theorem regAt_fwCtrl : s.regAt 0xB000C = some (.brd, ⟨0xB000C, 0, { off := 0xB000C, rw := 1 }⟩) :=
  regAt_of rfl (by simp) (reservedInst_gap (by decide) (by decide)) rfl
theorem regAt_flashAddr : s.regAt 0xB0044 = some (.brd, ⟨0xB0044, 0, { off := 0xB0044, rw := all32 }⟩) :=
  regAt_of rfl (by simp) (reservedInst_gap (by decide) (by decide)) rfl
theorem regAt_pwrReset : s.regAt 0xC0004 = some (.pwr, ⟨0xC0004, 0, { off := 0xC0004, rw := all32, wo := true }⟩) :=
  regAt_of rfl (by simp) (reservedInst_gap (by decide) (by decide)) rfl
theorem regAt_cinSet : s.regAt 0x20010 = some (.cin, ⟨0x20010, 0, { off := 0x20010, width := 8, rws := all64 }⟩) :=
  regAt_of rfl (by simp) (reservedInst_low (by decide)) rfl
theorem regAt_kprSel : s.regAt 0xA0020 = some (.kpr, ⟨0xA0020, 0, { off := 0xA0020, width := 8, rw := all64 }⟩) :=
  regAt_of rfl (by simp) (reservedInst_gap (by decide) (by decide)) rfl

/-! ### Single registers of the PF: what a write does -/

theorem write_cinRate (h : PfServed s) (v : Word) : s.busWrite 0 0x20018 4 v.toNat = s.cinRate v.toNat := by
  rw [busWrite_word h (by decide) regAt_cinRate (mayPoke_pf rfl (by simp)) (by decide), Nat.mod_eq_of_lt v.isLt, regWrite_rw rfl rfl (by decide) (by simp [State.inRange])]
  simp [State.regEffect, isRgReg, and_all32 v.isLt]
theorem write_cinOffset (h : PfServed s) (v : Word) : s.busWrite 0 0x2001C 4 v.toNat = s.cinOffset v.toNat := by
  rw [busWrite_word h (by decide) regAt_cinOffset (mayPoke_pf rfl (by simp)) (by decide), Nat.mod_eq_of_lt v.isLt, regWrite_rw rfl rfl (by decide) (by simp [State.inRange])]
  simp [State.regEffect, isRgReg, and_all32 v.isLt]
theorem write_sdlCtrl (h : PfServed s) (v : Word) : s.busWrite 0 0x30000 4 v.toNat = s.sdlCtrl (v.toNat &&& 3) := by
  rw [busWrite_word h (by decide) regAt_sdlCtrl (mayPoke_pf rfl (by simp)) (by decide), Nat.mod_eq_of_lt v.isLt, regWrite_rw rfl rfl (by decide) (by simp [State.inRange])]
  simp [State.regEffect, isRgReg]
theorem write_accSel (h : PfServed s) (v : Word) : s.busWrite 0 0x30100 4 v.toNat = s.accSelect 0 (v.toNat &&& 0x303FF) := by
  rw [busWrite_word h (by decide) regAt_accSel (mayPoke_pf rfl (by simp)) (by decide), Nat.mod_eq_of_lt v.isLt, regWrite_rw rfl rfl (by decide) (by simp [State.inRange])]
  simp [State.regEffect, isRgReg]
theorem write_rnlTake (h : PfServed s) (v : Word) : s.busWrite 0 0x70014 4 v.toNat = s.rnlTake v.toNat := by
  rw [busWrite_word h (by decide) regAt_rnlTake (mayPoke_pf rfl (by simp)) (by decide), Nat.mod_eq_of_lt v.isLt, regWrite_rw rfl rfl (by decide) (by simp [State.inRange])]
  simp [State.regEffect, isRgReg, and_all32 v.isLt]
theorem write_rnlHand (h : PfServed s) (v : Word) : s.busWrite 0 0x70018 4 v.toNat = s.rnlHand (v.toNat &&& 0x800003FF) := by
  rw [busWrite_word h (by decide) regAt_rnlHand (mayPoke_pf rfl (by simp)) (by decide), Nat.mod_eq_of_lt v.isLt, regWrite_rw rfl rfl (by decide) (by simp [State.inRange])]
  simp [State.regEffect, isRgReg]
theorem write_kprCtrl (h : PfServed s) (v : Word) : s.busWrite 0 0xA0004 4 v.toNat = s.when (nbits (v.toNat &&& 1) 0 1 == 1) State.snapshot := by
  rw [busWrite_word h (by decide) regAt_kprCtrl (mayPoke_pf rfl (by simp)) (by decide), Nat.mod_eq_of_lt v.isLt, regWrite_rw rfl rfl (by decide) (by simp [State.inRange])]
  simp [State.regEffect, isRgReg]
theorem write_fwCtrl (h : PfServed s) (v : Word) : s.busWrite 0 0xB000C 4 v.toNat = s.when (nbits (v.toNat &&& 1) 0 1 == 1) State.activate := by
  rw [busWrite_word h (by decide) regAt_fwCtrl (mayPoke_pf rfl (by simp)) (by decide), Nat.mod_eq_of_lt v.isLt, regWrite_rw rfl rfl (by decide) (by simp [State.inRange])]
  simp [State.regEffect, isRgReg]
theorem write_flashAddr (h : PfServed s) (v : Word) : s.busWrite 0 0xB0044 4 v.toNat = s.flashAddr v.toNat := by
  rw [busWrite_word h (by decide) regAt_flashAddr (mayPoke_pf rfl (by simp)) (by decide), Nat.mod_eq_of_lt v.isLt, regWrite_rw rfl rfl (by decide) (by simp [State.inRange])]
  simp [State.regEffect, isRgReg, and_all32 v.isLt]
theorem write_pwrReset (h : PfServed s) (v : Word) : s.busWrite 0 0xC0004 4 v.toNat = s.pwrReset v.toNat := by
  rw [busWrite_word h (by decide) regAt_pwrReset (mayPoke_pf rfl (by simp)) (by decide), Nat.mod_eq_of_lt v.isLt, regWrite_rw rfl rfl (by decide) (by simp [State.inRange])]
  simp [State.regEffect, isRgReg, and_all32 v.isLt]
theorem write_kprSel (h : PfServed s) (v : DWord) : s.busWrite 0 0xA0020 8 v.toNat = s.keeperSelect 0 v.toNat := by
  rw [busWrite_wide h (by decide) regAt_kprSel (mayPoke_pf rfl (by simp)) (by decide) rfl, regWrite_rw rfl rfl (by decide) (by simp [State.inRange])]
  simp [State.regEffect, isRgReg, and_all64 v.isLt]

/-! ### Registers with instances -/

theorem regAt_prtCtrl {p : Nat} (h : p < 16) :
    s.regAt (prtBase p) = some (.prt, ⟨prtBase p, p, { off := 0x40000, count := 16, stride := 0x40, rw := 3 }⟩) := by
  refine regAt_of ?_ (by simp) (reservedInst_low (by unfold prtBase; omega)) ?_
  · unfold blockOf prtBase
    repeat rw [if_neg (by omega)]
    rw [if_pos (by omega)]
  · interval_cases p <;> rfl

theorem at?_none {r : RegRow} {start off : Nat} (h : start + r.off ≤ off → (off - (start + r.off)) / max r.stride r.width < r.count →
    r.width ≤ (off - (start + r.off)) % max r.stride r.width) : r.at? start off = none := by
  unfold RegRow.at?
  simp only
  split
  · rename_i k
    have := h k.1 k.2.1
    omega
  · rfl

theorem regAt_flashData {i : Nat} (h : i < 1024) :
    s.regAt (0xB1000 + 4 * i) = some (.brd, ⟨0xB1000 + 4 * i, i, { off := 0xB1000, count := 1024, rw := all32, wo := true }⟩) := by
  refine regAt_of ?_ (by simp) (reservedInst_gap (by omega) (by omega)) ?_
  · unfold blockOf
    repeat rw [if_neg (by omega)]
    rw [if_pos (by omega)]
  · simp only [Block.rows, rowsBrd, List.findSome?_cons]
    repeat rw [at?_none (by simp; omega)]
    have e : (0xB1000 + 4 * i - 0xB1000) / 4 = i ∧ (0xB1000 + 4 * i - 0xB1000) % 4 = 0 := by omega
    simp [RegRow.at?, h]
    omega

theorem regAt_corSeed {c : Nat} (h : c < 160) (hv : s.iy920 = true → c < 80) :
    s.regAt (corBase c + 0x228) = some (.cor c, ⟨corBase c + 0x228, 0, { off := 0x228, width := 8, rw := all64 }⟩) := by
  have hb : blockOf (corBase c + 0x228) = some (.cor c) := by
    unfold blockOf corBase
    repeat rw [if_neg (by omega)]
    rw [if_pos (by omega)]
    congr
    omega
  have hr : s.reservedInst (corBase c + 0x228) = false := by
    simp only [State.reservedInst, Bool.and_eq_false_imp]
    intro k
    have := hv k
    simp only [Bool.or_eq_false_iff, Bool.and_eq_false_iff, decide_eq_false_iff_not]
    unfold corBase
    omega
  simp only [State.regAt, hb, hr, Bool.false_eq_true, if_false, Block.rows, rowsCor, List.findSome?_cons]
  simp [RegRow.at?]

theorem write_prtCtrl (h : PfServed s) {p v : Nat} (hp : p < 16) (hv : v < 4) :
    s.busWrite 0 (prtBase p) 4 v = s.prtCtrl p v := by
  have hb : 0x40000 ≤ prtBase p ∧ prtBase p < 0x40400 ∧ prtBase p % 0x40 = 0 ∧ (prtBase p - 0x40000) / 0x40 = p := by
    unfold prtBase
    omega
  have hg : isRgReg (prtBase p) = false := by simp [isRgReg]; omega
  have ha : v &&& 3 = v := by
    rw [show (3 : Nat) = 2 ^ 2 - 1 by rfl, Nat.and_two_pow_sub_one_eq_mod, Nat.mod_eq_of_lt hv]
  rw [busWrite_word h (by omega) (regAt_prtCtrl hp) (mayPoke_pf hg (by simp)) (by simp), Nat.mod_eq_of_lt (by omega),
    regWrite_rw rfl rfl (by simp) (by unfold State.inRange; repeat rw [if_neg (by simp only; omega)])]
  simp only [ha, State.regEffect, hg, hb.2.2.2]
  repeat first | rw [if_neg Bool.false_ne_true] | rw [if_neg (by omega)]
  rw [if_pos (by omega)]

theorem write_flashData (h : PfServed s) {i : Nat} (v : Word) (hi : i < 1024) :
    s.busWrite 0 (0xB1000 + 4 * i) 4 v.toNat = s.flashData i v.toNat := by
  have hg : isRgReg (0xB1000 + 4 * i) = false := by simp [isRgReg]; omega
  rw [busWrite_word h (by omega) (regAt_flashData hi) (mayPoke_pf hg (by simp)) (by simp), Nat.mod_eq_of_lt v.isLt,
    regWrite_rw rfl rfl (by simp [all32]) (by unfold State.inRange; repeat rw [if_neg (by simp only; omega)])]
  simp only [State.regEffect, hg, and_all32 v.isLt]
  repeat first | rw [if_neg Bool.false_ne_true] | rw [if_neg (by omega)]
  rw [if_pos (by omega)]
  congr
  omega

theorem write_corSeed (h : PfServed s) {c : Nat} (v : DWord) (hc : c < 160) (hv : s.iy920 = true → c < 80) (ho : s.coreOn c = true) :
    s.busWrite 0 (corBase c + 0x228) 8 v.toNat = s.coreSeed c v.toNat := by
  have hb : 0x100000 ≤ corBase c + 0x228 ∧ (corBase c + 0x228) % 0x1000 = 0x228 ∧ (corBase c + 0x228) % 8 = 0 ∧
      (corBase c + 0x228 - 0x100000) / 0x1000 = c := by
    unfold corBase
    omega
  have hg : isRgReg (corBase c + 0x228) = false := by simp [isRgReg]; omega
  have hp : s.mayPoke 0 (.cor c) ⟨corBase c + 0x228, 0, { off := 0x228, width := 8, rw := all64 }⟩ v.toNat = true := by
    simp [State.mayPoke, State.maySee, hg, ho]
  rw [busWrite_wide h hb.2.2.1 (regAt_corSeed hc hv) hp (by simp) rfl,
    regWrite_rw rfl rfl (by simp [all64]) (by unfold State.inRange; repeat rw [if_neg (by simp only; omega)])]
  simp only [State.regEffect, hg, and_all64 v.isLt, hb.2.2.2, hb.2.1]
  repeat first | rw [if_neg Bool.false_ne_true] | rw [if_neg (by omega)]
  rw [if_pos (by simpa using hb.1)]

/-- While the device is not started, a write of CIN_SET reaches the counter. -/
theorem write_cinSet (h : PfServed s) (v : DWord) (hw : s.work.started = false) :
    s.busWrite 0 0x20010 8 v.toNat = s.cinSet v.toNat := by
  rw [busWrite_wide h (by decide) regAt_cinSet (mayPoke_pf rfl (by simp)) (by decide) rfl]
  have hl : s.lockedFor 0 .cin ⟨0x20010, 0, { off := 0x20010, width := 8, rws := all64 }⟩ = false := by
    simpa [State.lockedFor] using hw
  simp [State.regWrite, hl, State.inRange, State.regEffect, isRgReg, and_all64 v.isLt, show all64 ≠ 0 by decide]

/-- Once the device is started, it is ignored (R62). -/
theorem write_cinSet_locked (h : PfServed s) (v : DWord) (hw : s.work.started = true) :
    s.busWrite 0 0x20010 8 v.toNat = s.ignore .cin := by
  rw [busWrite_wide h (by decide) regAt_cinSet (mayPoke_pf rfl (by simp)) (by decide) rfl]
  have hl : s.lockedFor 0 .cin ⟨0x20010, 0, { off := 0x20010, width := 8, rws := all64 }⟩ = true := by
    simpa [State.lockedFor] using hw
  simp [State.regWrite, hl, show all64 ≠ 0 by decide]

end Sys2Proof.Machine
end

