-- ==== Sys2Proof/Tests/Slice0.lean ====
section
/-! SUPPORT. Tests. `test_<what>` theorems: ill-formed commands that `Instr.wf` refuses, witnesses for the hypotheses of the
statements of Obligations.lean, and small tests of one command each, whose expected values come from the spec's tables. -/

namespace Sys2Proof.Tests

open Sys2Proof Sys2Proof.Machine Sys2Proof.Safety

/-! ### States -/

/-- A device that has booted: READY, the VFs enabled, no partition, nothing started, the counter at 1 s. -/
def live : State :=
  { State.reset with
    power := { State.reset.power with resetting := none, ready := true }
    hif := { State.reset.hif with vfs := 63 }
    tb := { State.reset.tb with now := 1000000000 } }

/-- The same with some register values. -/
def withRegs (rs : List (Nat × Nat)) (s : State) : State := s.forEach rs fun r t => t.setReg r.1 r.2

/-- The device started. -/
def started : State := { live with work := { live.work with started := true } }

/-- Fault stop. -/
def stopped : State := { live with keeper := { live.keeper with fstop := true } }

def noUpset : Upset := Upset.clean

/-! ### Ill-formed commands -/

theorem test_wf_desc : (Instr.cmdNop 1024 0).wf = false ∧ (Instr.cmdNop 0 65536).wf = false := by decide
theorem test_wf_core : (Instr.coreArmed 160 Upset.clean).wf = false := by decide
theorem test_wf_func : (Instr.snap 64).wf = false := by decide
theorem test_wf_part : (Instr.partitionResetDone 16).wf = false := by decide
theorem test_wf_stream : (Instr.fillDone 16384 Upset.clean).wf = false := by decide
theorem test_wf_group : (Instr.tick 4096).wf = false := by decide
theorem test_wf_slot : (Instr.modelLoadDone 256).wf = false := by decide
theorem test_wf_die : (Instr.placementMove 0 .rehome 10).wf = false := by decide
theorem test_wf_upset : (Instr.vqpop 0 0 { Upset.clean with hbmCe := [20] }).wf = false ∧
    (Instr.vqpop 0 0 { Upset.clean with uncorr := some (4, 0) }).wf = false := by decide
theorem test_wf_access : (Instr.lowWordRead 0 2 4).wf = false ∧ (Instr.registerWrite 0 0x20000 3 0).wf = false ∧
    (Instr.registerWrite 0 (2 ^ 24) 4 0).wf = false := by decide
theorem test_wf_gpload : (Instr.gpload 0 32 0 Upset.clean).wf = false ∧ (Instr.gpload 0 1 12288 Upset.clean).wf = false := by decide
theorem test_wf_timeRead : (Instr.timeRead 0 63).wf = false := by decide
theorem test_wf_flash : (Instr.brdFlashData 0 1024 0).wf = false := by decide
theorem test_wf_bundle : (Instr.bundleTrained 4).wf = false := by decide
theorem test_wf_port : (Instr.cxlDown 2).wf = false ∧ (Instr.cxlPortTrained 0 4 0 0 false []).wf = false := by decide
theorem test_wf_rail : (Instr.brownout 0).wf = false ∧ (Instr.brownout 8).wf = false := by decide
theorem test_wf_flr : (Instr.flrVf 0).wf = false := by decide
theorem test_wf_temps : (Instr.thermTrip 21).wf = false ∧ (Instr.warningTemperature (List.replicate 22 0)).wf = false := by decide
theorem test_wf_bar2 : (Instr.bar2Read 0 0 Upset.clean).wf = false ∧ (Instr.bar2Write 0 []).wf = false := by decide
theorem test_wf_spdm : (Instr.challenge .doe 8 (List.replicate 32 0)).wf = false ∧ (Instr.challenge .doe 0 []).wf = false ∧
    (Instr.keyExchange .doe 0 []).wf = false ∧ (Instr.getCertificate .doe 8 0 0).wf = false ∧
    (Instr.getMeasurements .doe 0 true []).wf = false ∧ (Instr.ideKmKeyProg 0 5 []).wf = false := by decide
theorem test_wf_i3c : (Instr.dynamicAddressAssignment 128).wf = false := by decide
theorem test_wf_row : (Instr.cmdTensorMove 0 0 12288 Upset.clean).wf = false := by decide
theorem test_wf_nop : (Instr.cmdNop 1023 65535).wf = true := by decide

/-! ### Witnesses: the machine and the timebase -/

theorem test_hyp_StepKeepsInvariant : step State.reset = .next (State.reset.elapse 1) := rfl

theorem test_hyp_IdleClock :
    (live.pending = [] ∧ live.power.vtack = true ∧ live.tb.tackHold = false ∧ live.tb.holdover = false ∧
      live.reg 0x20024 ≤ 500 ∧ 1 ≤ live.tb.now) ∧
    (let s := { live with tb := { live.tb with tackHold := true } }
     s.pending = [] ∧ s.power.vtack = true ∧ s.tb.tackHold = true) := by decide

theorem test_hyp_CinSetLoads :
    (PfServed live ∧ live.tb.pairFollow = false ∧ live.work.started = false ∧ nbits (live.reg 0x20000) 3 1 = 0) ∧
    (let s := withRegs [(0x20000, 8)] live
     PfServed s ∧ s.tb.pairFollow = false ∧ s.work.started = false ∧ nbits (s.reg 0x20000) 3 1 = 1) ∧
    (PfServed started ∧ started.tb.pairFollow = false ∧ started.work.started = true) ∧
    (let s := { live with tb := { live.tb with load := some 5 } }
     PfServed s ∧ s.tb.pairFollow = false ∧ s.tb.load = some (5 : DWord).toNat ∧ s.tb.tackHold = false ∧
       s.ppsAccepts s.tb.now = true) ∧
    (live.power.vtack = true ∧ live.tb.tackHold = false ∧ live.tb.holdover = false ∧ live.tb.slew = 0 ∧ live.rateAdj = 0 ∧
      live.tb.now = (1000000000 : DWord).toNat ∧ live.tb.frac = 0) := by decide

theorem test_hyp_CinRateClamped : PfServed live ∧ live.tb.pairFollow = false ∧ live.ppsMode = false ∧ live.pending = [] ∧
    live.power.vtack = true ∧ live.tb.tackHold = false ∧ live.tb.holdover = false ∧ live.tb.slew = 0 := by decide

theorem test_hyp_CinOffsetSlews :
    (PfServed live ∧ live.tb.pairFollow = false ∧ live.ppsMode = false) ∧
    (live.power.vtack = true ∧ live.tb.tackHold = false ∧ 0 < live.slewStep) ∧
    { live with tb := { live.tb with tackHold := true } }.tb.tackHold = true := by decide

theorem test_hyp_CinModeAndSteering :
    (PfServed live ∧ live.work.started = false) ∧
    (PfServed started ∧ started.work.started = true ∧ (1 : Word).toNat / 2 % 8 = started.reg 0x20000 / 2 % 8) ∧
    (let s := { live with tb := { live.tb with pairFollow := true } }
     PfServed s ∧ (s.tb.pairFollow || s.ppsMode) = true ∧ s.tb.pairFollow = true) := by decide

/-- A first edge, an edge too soon, an edge outside the window, and an edge of the other polarity. -/
theorem test_hyp_PpsEdge :
    let s := { live with tb := { live.tb with ppsSeen := true, edgeRef := 500000000 } }
    (live.power.dev = .run ∧ live.tb.tackHold = false ∧ false = decide (nbits (live.reg 0x20000) 2 1 = 1) ∧
      ¬ (live.tb.ppsSeen = true ∧ ((1000000000 : Nat) : Int) - live.tb.edgeRef < 500000000) ∧ live.tb.ppsSeen = false ∧
      live.tb.load = none ∧ live.ppsMode = false) ∧
    (let m := { (withRegs [(0x20000, 1)] live) with tb := { live.tb with load := some 7 } }
     (withRegs [(0x20000, 1)] live).ppsMode = true ∧ live.tb.follows = false ∧ m.power.dev = .run ∧ m.tb.load = some 7) ∧
    (s.tb.ppsSeen = true ∧ ((1000000000 : Nat) : Int) - s.tb.edgeRef < 500000001) ∧
    true ≠ decide (nbits (live.reg 0x20000) 2 1 = 1) := by decide

theorem test_hyp_TimeSourcesLost :
    let s := { live with tb := { live.tb with ppsSeen := true, ppsLost := false } }
    let h := { live with tb := { live.tb with refOk := false, holdover := true } }
    live.power.dev = .run ∧ (s.power.dev = .run ∧ s.tb.ppsSeen = true ∧ s.tb.ppsLost = false) ∧ live.tb.ppsSeen = false ∧
      live.tb.refOk = true ∧ (h.power.dev = .run ∧ h.tb.refOk = false ∧ h.tb.holdover = true) ∧ live.tb.holdover = false := by decide

/-! ### Witnesses: registers -/

theorem test_hyp_AccessesThatAreRefused :
    (VfServed 1 live ∧ VfServed 63 live) ∧ stopped.busUp 0 = true ∧ stopped.serves (stopped.countBlock 0x20010) = true ∧ stopped.keeper.fstop = true ∧
      stopped.power.ready = true ∧ stopped.bridle.recovery = false ∧ stopped.power.resetting = none ∧ stopped.power.held = false ∧
      stopped.busUp 1 = true := by decide

/-- CIN_NOW at 0x20008 is a 64-bit register the PF may read in two halves; CIN_SET at 0x20010 one it may write in two. -/
theorem test_hyp_LowWordReadLatches :
    (match live.regAt 0x20008, live.regAt 0x2000C with
      | some (b, a), some (c, x) => decide (live.busUp 0 = true ∧ live.serves (live.countBlock 0x20008) = true ∧ a.base = 0x20008 ∧
          0x20008 % 8 = 0 ∧ a.row.width = 8 ∧ a.row.wo = false ∧ live.maySee 0 b a = true ∧ live.serves (live.countBlock 0x2000C) = true ∧
          x.base = 0x20008 ∧ x.row.width = 8 ∧ x.row.wo = false ∧ live.maySee 0 c x = true)
      | _, _ => false) = true := by decide

theorem test_hyp_HighWordWriteAppliesBoth :
    (match live.regAt 0x20010, live.regAt 0x20014 with
      | some (b, a), some (c, x) => decide (live.busUp 0 = true ∧ live.serves (live.countBlock 0x20010) = true ∧
          live.serves (live.countBlock 0x20014) = true ∧ live.keeper.fstop = false ∧ b = c ∧ a = x ∧ a.base = 0x20010 ∧
          a.row.width = 8 ∧ ¬ (a.row.rw = 0 ∧ a.row.rws = 0) ∧ live.mayPoke 0 b a 5 = true ∧ live.mayPoke 0 b a 0 = true)
      | _, _ => false) = true := by decide

theorem test_hyp_DeviceStarts :
    PfServed live ∧ live.work.started = false ∧ (3 : Word).getLsbD 0 = true ∧ live.tb.load = none ∧
      { live with tb := { live.tb with load := some 0 } }.tb.load ≠ none ∧ 0 < live.period ∧ live.epoch ≤ live.tb.now ∧
      (let s := withRegs [(0x30008, 2000000000)] live; s.tb.now < s.epoch) := by decide

/-- Partition 0 has cores 0 and 1 and is started. -/
def hall : State :=
  let s := withRegs [(0x40008, 3)] started
  { s with work := { s.work with partStarted := [0] } }

theorem test_hyp_PartitionStarts :
    let s := withRegs [(0x40008, 3)] started
    (PfServed s ∧ s.partStarted 0 = false ∧ s.work.partReset.contains 0 = false ∧ s.work.started = true ∧ s.partCores 0 ≠ 0 ∧
      ((coreList (s.partCores 0)).all fun c => s.coreOn c) = true ∧ s.work.partStarted = [] ∧
      (∀ d < 10, sumBy (fun q => s.dieNeed q d) [0] ≤ poolMib) ∧ sumBy s.partCxlGib [0] * 2 ^ 30 ≤ s.cxlCapacity) ∧
    (started.partStarted 0 = false ∧ started.work.partReset.contains 0 = false ∧ started.partCores 0 = 0) ∧
    (let r := { hall with work := { hall.work with partReset := [0] } }
     PfServed r ∧ r.work.partReset.contains 0 = true) := by decide

theorem test_hyp_PartitionResets :
    PfServed hall ∧ hall.work.partReset.contains 0 = false ∧
      { hall with work := { hall.work with partReset := [0] } }.work.partReset.contains 0 = true := by decide

theorem test_hyp_RingGroupsAndSelectors_enable :
    (live.rgOf 0).map (·.num) = some 0 ∧ live.partStarted (RingGroup.init 0).part = false ∧ bits (1 : Word) 1 4 = 0 ∧
      (1 : Word).getLsbD 0 = true ∧ (RingGroup.init 0).en = false ∧
      (hall.rgOf 0).map (·.part) = some 0 ∧ hall.partStarted 0 = true := by decide

theorem test_hyp_RingGroupsAndSelectors_latch :
    let w := { live with keeper := { live.keeper with waiting := [⟨2, 7, false, true, false, 0, 0, 0, 0, 0, []⟩] } }
    PfServed live ∧ live.coreOn 0 = true ∧ live.iy920 = false ∧ (live.core? 0).isSome = true ∧
      (live.keeper.waiting.any fun r => r.kind == 7) = false ∧ (PfServed w ∧ (w.keeper.waiting.any fun r => r.kind == 7) = true) ∧
      (1 : DWord) ≠ 0 ∧ bits (0x30000 : Word) 16 2 = 3 := by decide

theorem test_hyp_FirmwareReplaced :
    let erased := { live with bridle := { live.bridle with flashB := live.bridle.flashB.write 0 (List.replicate 16 0xFF) } }
    live.busUp 0 = true ∧ live.keeper.fstop = false ∧ live.bridle.recovery = false ∧ live.flashPlace 0x1000 = some (true, 0x1000) ∧
      live.flashPlace 0x800000 = none ∧ (2 : Nat) % 4096 ≠ 0 ∧ erased.reg 0xB0044 = 0 ∧ erased.flashPlace 0 = some (true, 0) ∧
      erased.flashRead true 0 4 = List.replicate 4 0xFF ∧
      (let z := { live with bridle := { live.bridle with flashB := live.bridle.flashB.write 0 [1, 2, 3, 4] } }
       z.flashRead true 0 4 ≠ List.replicate 4 0xFF) ∧
      (withRegs [(0xB0044, 0x800000)] live).flashPlace 0x800000 = none ∧
      { live with bridle := { live.bridle with recovery := true } }.busUp 0 = true := by decide

/-! ### Witnesses: resets, supplies and power -/

theorem test_hyp_DeviceResets :
    let c := { live with power := { live.power with resetting := some .cold } }
    let p := { live with power := { live.power with perst := true } }
    live.power.held = false ∧ live.power.dev = .run ∧ PfServed live ∧ live.power.resetting = none ∧ live.bridle.recovery = false ∧
      live.power.booting = false ∧ (p.power.resetting = none ∧ p.power.perst = true ∧ p.power.held = false ∧ p.power.dev = .run) ∧
      (c.power.resetting = some .cold ∧ c.power.held = false) := by decide

theorem test_hyp_BootAndReady :
    let s := State.reset
    (s.power.vtack = true ∧ s.power.oscStable = true ∧ s.power.sysRst = false ∧ s.power.powerFail = false ∧
      s.power.outOfOrder = false ∧ s.power.booting = false ∧ s.power.ready = false ∧ s.power.dev = .run ∧ s.power.held = false ∧
      s.power.resetting = some .cold ∧ s.bridle.idnLocked = true ∧ s.bridle.idnCrcOk = true ∧ s.bridle.manifest.valid = true) ∧
    { s.bridle with idnCrcOk := false }.idnCrcOk = false ∧ { s.bridle with idnLocked := false }.idnLocked = false ∧
    { s.bridle.manifest with valid := false }.valid = false ∧
    (let z := { s with power := { s.power with dev := .tack }, tb := { s.tb with tackHold := true } }
     z.power.dev = .tack ∧ z.tb.tackHold = true ∧ z.power.ready = false ∧ z.power.oscStable = true) ∧
    { s.power with booting := true }.booting = true ∧ s.bridle.recovery = false ∧
    { s.power with resetting := some .pf }.resetting = some .pf := by decide

theorem test_hyp_SleepAndPerst :
    let p := { live with power := { live.power with perst := true } }
    let z := { p with power := { p.power with dev := .sleep }, tb := { p.tb with tackHold := true } }
    (p.power.perst = true ∧ p.power.dev = .run) ∧ live.power.perst = false ∧
      (z.tb.tackHold = true ∧ z.power.perst = true ∧ z.power.dev = .sleep ∧ z.power.held = false ∧ z.power.resetting = none) := by decide

theorem test_hyp_Supplies :
    let z := { live with power := { live.power with vtack := false, dev := .off } }
    z.power.vtack = false ∧ live.power.vtack = true ∧ live.power.dev = .run ∧ (z.power.dev ≠ .run ∧ z.power.dev ≠ .sleep) := by decide

theorem test_hyp_PowerFailureAndCommits_failure :
    let f := { live with power := { live.power with powerFail := true, held := true } }
    live.power.dev ≠ .off ∧ live.power.powerFail = false ∧ (f.power.dev ≠ .off ∧ f.power.powerFail = true) ∧
      (f.power.held = true ∧ f.power.holdupOver = false) ∧ live.power.held = false ∧ live.keeper.fstop = false := by decide

theorem test_hyp_PowerFailureAndCommits_commit :
    let b := { live with keeper := { live.keeper with busy := true } }
    { live.keeper with staged := [] }.staged = [] ∧ live.keeper.staged.length = 1 ∧ live.keeper.busy = false ∧ b.keeper.busy = true ∧
      b.keeper.staged.length = 1 := by decide

theorem test_hyp_PowerAndTemperature :
    live.power.ready = true ∧ State.reset.power.ready = false ∧ live.power.dev = .run ∧ live.tb.refOk = true ∧
      { live.power with dev := .sleep }.dev ≠ .run ∧ { live.tb with refOk := false }.refOk = false := by decide

theorem test_hyp_VfFunctionLevelReset :
    1 ≤ live.hif.vfs ∧ live.power.ready = true ∧ live.absorbs .vf = false ∧ (1 ≤ stopped.hif.vfs ∧ stopped.power.ready = true ∧ stopped.absorbs .vf = false) ∧
      stopped.keeper.fstop = true ∧ (withRegs [(0x40004, 1)] hall).partFunc 0 = 1 ∧ hall.partStarted 0 = true := by decide

/-! ### Witnesses: the Bridle -/

/-- A device with its secret and one open session. -/
def keyed : State := { live with bridle := { live.bridle with secret := true, sessions := [1] } }

theorem test_hyp_SignaturesUseOneIndex :
    keyed.spdmServed .doe = true ∧ keyed.spdmServed .sideband = true ∧ keyed.bridle.sessions.length < 8 ∧
      keyed.bridle.attExhausted = false ∧ keyed.bridle.secret = true ∧ keyed.reg 0xB0020 < 2 ^ 40 ∧
      (live.spdmServed .doe = true ∧ live.bridle.secret = false) := by decide

theorem test_hyp_RequestsAndTestPort_spdm :
    let z := { live with power := { live.power with dev := .sleep } }
    live.spdmServed .doe = true ∧
      (let m := { live with bridle := { live.bridle with sessions := [1, 2, 3, 4, 5, 6, 7, 8] } }
       m.spdmServed .doe = true ∧ 8 ≤ m.bridle.sessions.length) ∧
      (z.power.dev = .sleep ∧ z.power.sbClocks = false ∧ z.power.vtack = true ∧ z.bridle.recovery = false) ∧
      keyed.sessionServed 1 = true ∧ keyed.sessionServed 2 = false := by decide

/-- Whether a certificate verifies is opaque: which of the two answers a message gets is no closed fact; the session is. -/
theorem test_hyp_OwnerAndManifest : keyed.sessionServed 1 = true ∧ (1 : Nat) < 2 ^ 32 := by decide

theorem test_hyp_RequestsAndTestPort_sideband :
    live.power.vtack = true ∧
      (let k := { live with keeper := { live.keeper with slots := [⟨1, 3, false, true, false, 0, 0, 0, 0, 0, [0, 0]⟩] } }
       (k.keeper.find 1).isSome = true ∧ ∀ r ∈ k.keeper.slots, r.seq ≠ 2) := by decide

/-! ### A device at work -/

def afe0 : AfeParams := ⟨0, 0, 0, 0, 0, 0, 0, 0, 0, 0, 0, 0⟩

/-- A model of one tile per stream, feature input, one layer. -/
def hdr0 : ImageHdr where
  layout := 1
  ntiles := 1
  inkinds := 15
  step := 1000
  a0 := 0
  a1 := 256
  defcad := 1
  deflen := 1
  sect := []
  afe := afe0
  init := []
  program := []
  weights := []
  layers := []
  tokens := []
  bytes := 0
  digest := []

def slot1 : ModelSlot where
  num := 1
  state := .ready
  part := 0
  hdr := hdr0
  copies := [⟨none, [(0, 0, 0)]⟩]
  cmd := none
  pin := none
  image := []
  names := []

def record0 : Record where
  state := .H
  tiles := 1
  layout := 1
  sect := []
  home := some 0
  die := 0
  spm := none
  ext := none
  newHome := none
  dirty := 0
  chg := 0
  mirRead := false
  hdrHeld := false
  lent := false

def stream5 : Stream where
  id := 5
  state := .parked
  group := 2
  part := 0
  rg := 0
  main := 1
  fb := none
  inkind := 1
  prio := 2
  adapt := false
  freeze := true
  source := none
  cadence := 1
  offset := 0
  slot := 0
  maxLen := 4
  budget := 100
  margin := none
  fbDisabled := false
  fbForced := false
  fbMode := false
  fbCount := 0
  pins := Pins.empty
  afe := none
  input := 0
  halves := [false, false]
  chunkNo := 0
  noInput := 0
  noInputOvf := false
  waiting := []
  resetMark := false
  seq := 0
  lastTick := 0
  nonfinite := false
  pages := []
  ctx := []
  carriedSteps := 0
  covered := 0
  sealed := 0
  sealTime := 0
  record := record0
  outQ := []
  cmd := none
  decided := false
  lastBeat := none
  keep := false
  mirrored := false
  outHand := 0
  waitId := false
  heldComp := []
  handback := false
  leaving := []
  leaveAll := false

def group2 : Group where
  num := 2
  model := 1
  part := 0
  prio := 2
  cadence := 1
  offset := 0
  slot := 0
  cores := 3
  corePin := false
  nextCores := none
  companionOf := none
  costs := none
  hist := 0

def row5 : LaunchRow where
  stream := 5
  len := 1
  chunk := none
  marks := []
  flags := 0
  deadline := 3000000000
  held := 0
  source := 0
  freeze := true
  time := 0
  cmdMark := false
  views := []
  spans := 1
  staged := []
  nonfinite := false

def job7 (p : JobPhase) : Job where
  id := 7
  kind := .launch 2
  part := 0
  base := 2
  age := 0
  due := 2000000000
  phase := p
  cores := 3
  rows := [row5]
  len := 1
  beat := 4
  tick := 2000000000
  fb := false
  predicted := 0
  start := 0
  waitFrom := 0
  woken := p != .decided
  lateArm := false
  deferred := false

/-- A descriptor of stream 5. -/
def desc (d opc : Nat) (ws : List Word) : Desc :=
  ⟨d, BitVec.ofNat 32 (opc + 5 * 2 ^ 16) :: 0 :: ws ++ List.replicate (14 - ws.length) 0, false⟩

/-- Ring group 0 enabled for partition 0, with some commands. -/
def ring0 (ds : List Desc) : RingGroup := { RingGroup.init 0 with ctrl := 1, cmds := ds }

/-- `hall` with ring group 0 enabled, model slot 1 READY, stream 5 and its group 2. -/
def shop : State :=
  { hall with
    hif := { hall.hif with rgs := [ring0 []] }
    work := { hall.work with slots := [slot1], streams := [stream5], groups := [group2] } }

def withCmd (d : Desc) (s : State) : State := { s with hif := { s.hif with rgs := [ring0 [d]] } }
def withStream (x : Stream) (s : State) : State := { s with work := { s.work with streams := [x] } }
def withJob (j : Job) (s : State) : State := { s with work := { s.work with jobs := [j] } }
def withCore (k : Core) (s : State) : State := s.updCore k.num fun _ => k

/-- Cores 0 and 1 run job 7. -/
def busy : State :=
  let s := withJob (job7 .running) (withStream { stream5 with state := .running, record := { record0 with state := .S, spm := some 0 } } shop)
  s.forEach [0, 1] fun c t => t.updCore c fun k => { k with pstate := .active, job := some 7 }

/-- Paired with a link of one bundle. -/
def paired : State := { shop with pair := { shop.pair with state := .paired, bundles := 1 } }

def partner0 : PartnerInfo where
  deviceId := 0
  variant := shop.bridle.inForce.variant
  period := shop.reg 0x30010 % 2 ^ 32
  epoch := shop.epoch
  started := false
  master := false
  pools := [(0, 2 ^ 30)]
  openIds := []
  proto := shop.bridle.pairProto

/-! ### Witnesses: the pair -/

theorem test_hyp_BundlesAndHeartbeats_bundles :
    paired.alive = true ∧ paired.pairEn = false ∧ (withRegs [(0x70000, 1)] paired).pairEn = true ∧ paired.pair.state ≠ .off ∧
      paired.pair.bundles.getLsbD 0 = true := by decide

theorem test_hyp_BundlesAndHeartbeats_heartbeats :
    let f := { paired with tb := { paired.tb with pairFollow := true } }
    let n := { live with tb := { live.tb with pairFollow := true }, pair := { paired.pair with timeLoaded := false } }
    let b := { paired with work := { paired.work with served := 9 } }
    (live.power.dev = .run ∧ live.power.ready = true ∧ live.keeper.fstop = false ∧ live.power.powerFail = false) ∧
      ({ live with power := { live.power with dev := .sleep } }.keeper.fstop = false) ∧ stopped.keeper.fstop = true ∧
      (paired.alive = true ∧ paired.linkUp = true ∧ paired.pair.state = .paired ∧ paired.tb.linkLost = false ∧
        ¬ (false = true) ∧ paired.tb.pairFollow = false) ∧
      (f.alive = true ∧ f.linkUp = true ∧ f.tb.pairFollow = true ∧ f.work.started = true) ∧
      (n.alive = true ∧ n.linkUp = true ∧ n.pair.state = .paired ∧ n.tb.pairFollow = true ∧ n.work.started = false ∧
        n.pair.timeLoaded = false) ∧
      (b.alive = true ∧ b.linkUp = true ∧ b.pair.state = .paired ∧ b.work.started = true ∧ 7 + 2 ≤ b.work.served) ∧
      paired.pair.bundles.getLsbD 0 = true ∧ (withRegs [(0x70000, 8)] paired).sbEn = true := by decide

theorem test_hyp_SilenceAndTakeover :
    let sb := withRegs [(0x70000, 8)] { paired with pair := { paired.pair with sbAlive := true } }
    let q := { sb with pair := { sb.pair with linkSilent := true } }
    (paired.alive = true ∧ paired.pair.state ≠ .off ∧ paired.pair.linkSilent = false ∧ ¬ (paired.sbEn = true ∧ paired.pair.sbAlive = true)) ∧
      (sb.alive = true ∧ sb.sbEn = true ∧ sb.pair.sbAlive = true ∧ sb.pair.linkSilent = false ∧ sb.pair.state = .paired) ∧
      (q.alive = true ∧ q.sbEn = true ∧ q.pair.linkSilent = true ∧ q.pair.state = .paired) ∧
      (live.alive = true ∧ live.pair.state = .off) ∧ paired.linkUp = true := by decide

theorem test_hyp_PairRegisters :
    let iso := { shop with pair := { shop.pair with state := .isolated } }
    let h := { paired with pair := { paired.pair with handback := some ⟨0, true, false⟩ } }
    let h' := withStream { stream5 with decided := true } h
    (PfServed shop ∧ shop.pair.state = .off ∧ shop.work.started = true) ∧ live.work.started = false ∧
      (PfServed paired ∧ paired.pair.state ≠ .off ∧ paired.pair.state ≠ .refused) ∧ (PfServed iso ∧ iso.pair.state = .isolated) ∧
      (0x80000000 : Word).getLsbD 31 = true ∧ paired.pair.handback = none ∧
      (let m := withStream { stream5 with mirrored := true } paired
       PfServed m ∧ m.pair.state = .paired ∧ m.pair.handback = none ∧
         ∀ x ∈ m.work.streams.filter (fun x => x.rg == 0), x.mirrored = true ∧ x.inkind ≠ 3) ∧
      (∃ x ∈ paired.work.streams, x.rg = 0 ∧ x.mirrored = false) ∧
      (h.alive = true ∧ h.pair.state = .paired ∧ h.pair.handback = some ⟨0, true, false⟩ ∧
        ∀ x ∈ h.work.streams, x.rg = 0 → x.decided = false ∧ x.outHand = 0) ∧
      ∃ x ∈ h'.work.streams, x.rg = 0 ∧ x.decided = true := by decide

theorem test_hyp_PairForms :
    let t := { paired with pair := { paired.pair with state := .training } }
    t.alive = true ∧ t.linkUp = true ∧ t.pair.state = .training ∧ t.refusal partner0 = 0 ∧
      t.refusal { partner0 with variant := partner0.variant + 1 } ≠ 0 ∧
      t.refusal { partner0 with period := partner0.period + 1 } = 2 ∧
      (∃ x, t.stream? 5 = some x ∧ x.state ≠ .opening ∧ x.state ≠ .closing ∧ ∃ y ∈ partner0.pools, y.1 = x.part) :=
  ⟨by decide, by decide, by decide, by decide, by decide, by decide, stream5, by decide⟩

def handoff5 : HandoffMsg := ⟨5, 3, ⟨0, 0, 1, none, 1, none, 1, 0, 100, 2, false, 0, 1, 1, 0, true, 0, 0, afe0, 4⟩, [(0, [])], []⟩

theorem test_hyp_PairCarriesStreams :
    let pool := withRegs [(0x70100, 1)] paired
    let w := withStream { stream5 with waitId := true } { paired with pair := { paired.pair with partner := some partner0 } }
    let o := { paired with pair := { paired.pair with outbound := [(5, 0)] } }
    (paired.alive = true ∧ paired.pair.state = .paired) ∧
      (paired.stream? 6 = none ∧ 6 < paired.liveLimit ∧ pool.partStarted 0 = true ∧ pool.mirUsed 0 + 1 * 16384 ≤ pool.mirMib 0 * 2 ^ 20 ∧
        ¬ (paired.mirUsed 0 + 1 * 16384 ≤ paired.mirMib 0 * 2 ^ 20) ∧ paired.stream? 5 ≠ none) ∧
      ((w.stream? 5).map (·.waitId) = some true ∧ w.partnerPool 0 = true) ∧
      (pool.pair.inbound = [] ∧ pool.handoffFits handoff5 = true ∧ paired.handoffFits handoff5 = false) ∧
      (o.pair.outbound = (5, 0) :: [] ∧ (o.stream? 5).map (·.heldComp) = some []) := by decide

theorem test_hyp_PartnerAccess :
    let w := paired.updCore 0 fun k => { k with windows := updAt 3 (fun _ => ⟨0x20004000, 0, 0, true⟩) k.windows }
    let h := withRegs [(0x70204, 0x10000000), (0x70208, 0xB0000001)] paired
    let r : PartnerReq := ⟨false, 0, 2 ^ 60, 64, []⟩
    (paired.cores.all (·.flights.isEmpty) && w.cores.all (·.flights.isEmpty)) = true ∧ 0 % 512 + 64 ≤ 512 ∧
    noUpset.uncorr = none ∧ noUpset.badTile = none ∧
    shop.pair.state ≠ .syncing ∧ shop.pair.state ≠ .paired ∧ paired.alive = true ∧ paired.pair.state = .paired ∧
      (w.alive = true ∧ w.locate 0 64 = some (.spm 0 0) ∧ ∃ x ∈ (w.core 0).windows, x.holds 0 = true ∧ x.src = 2) ∧
      (∀ x ∈ (paired.core 0).windows, x.isOpen = true → x.src ≠ 2) ∧
      (h.locate r.addr 64 = some (.die 0 0) ∧ h.hwinAdmits r 64 = true ∧ h.hwinAdmits { r with write := true } 64 = true) ∧
      paired.hwinAdmits r 64 = false := by decide

theorem test_hyp_HostApertures :
    let b := shop.updCore 0 fun k => { k with windows := updAt 3 (fun _ => ⟨0x30004000, 0, 0, true⟩) k.windows }
    let h := withRegs [(0x50600, 0x1000000000000001)] shop
    (PfServed shop ∧ (0 : Nat) < 0x50000000 ∧ shop.coreOn 0 = true ∧ shop.coreOn 159 = true ∧ 0 + 12288 * 512 ≤ 12288 * 512 ∧
        (shop.cores.all (·.flights.isEmpty)) = true ∧ noUpset.uncorr = none ∧ { noUpset with uncorr := some (1, 5) }.uncorr = some (1, 5)) ∧
      (PfServed b ∧ (b.cores.all (·.flights.isEmpty)) = true ∧ ∃ y ∈ (b.core 0).windows, y.holds 0 = true ∧ y.src = 3) ∧
      (∀ y ∈ (shop.core 0).windows, y.holds 0 = true → y.src ≠ 3) ∧
      (let w := h.reg 0x50600
       PfServed h ∧ w % 2 = 1 ∧ w / 2 ^ 60 = 1 ∧ h.locate (w / 2 ^ 32 * 2 ^ 32 + 2 ^ 32 % 2 ^ 32) 64 = some (.die 0 0)) ∧
      ((withRegs [(0xB0040, 0)] shop).coreOn 160 = false ∧ (0x50000000 : Nat) < 2 ^ 32) := by decide

/-! ### Witnesses: the host interface -/

theorem test_hyp_RingsAreFetched :
    let g (r : RingGroup) : State := { shop with hif := { shop.hif with rgs := [r] } }
    let k := g { ring0 [] with
      kickDue := true, fetched := [0, 0, 0], producer := [0, 0, 0], firstC := some 5, modr := 0x100, vec := 0 }
    let h : HostDelta := ⟨[(0, [1, 0]), (64, [0, 0]), (128, [0, 0])], [], none⟩
    let m : State := { k with mem := { k.mem with host := h.writes.foldl (fun a w => a.write w.1 w.2) k.mem.host, hostFail := [] } }
    (shop.alive = true ∧ (shop.rg 0).en = true ∧ shop.busUp 0 = true ∧ shop.partFunc 0 = 0 ∧ shop.partFunc 0 ≠ 1 ∧ shop.busUp 1 = true) ∧
      ((shop.rg 0).kickDue = false ∧ (shop.rg 0).beatDue = false ∧
        ∀ k < 3, (shop.rg 0).producer.getD k 0 = (shop.rg 0).fetched.getD k 0) ∧
      (k.alive = true ∧ (k.rg 0).en = true ∧ (k.rg 0).kickDue = true ∧ (k.rg 0).stopped = 0 ∧ k.ideHeld = false ∧ (k.rg 0).cmds.length < 256 ∧
        (k.rg 0).fetched = [0, 0, 0] ∧ (k.rg 0).producer = [0, 0, 0] ∧ leNat (m.hostRead 0 2) = 1 ∧ leNat (m.hostRead 64 2) = 0 ∧
        leNat (m.hostRead 128 2) = 0) ∧
      ((k.rg 0).firstC = some 5 ∧ 0 < bits (k.rg 0).modr 8 16 ∧ (shop.rg 0).firstC = none) ∧
      ringAccepts 0 0x1F = true ∧ (desc 0 0x1F []).opc = 0x1F := by decide

/-- A chunk of stream 5, of 65,536 bytes at host address 0. -/
def chunkDesc : Desc := desc 9 0x40 [0, 0, 65536]

theorem test_hyp_ChunksAndBuffers :
    let g (r : RingGroup) (x : Stream) : State := withStream x { shop with hif := { shop.hif with rgs := [r] } }
    let c : RingGroup := { ring0 [] with chunks := [chunkDesc] }
    let ok (s : State) : Prop := s.alive = true ∧ (s.rg 0).en = true ∧ (s.rg 0).chunks.find? (fun y => y.didx == 9) = some chunkDesc ∧
      (s.rg 0).chunks.takeWhile (fun y => y.didx != 9) = [] ∧ 5 < s.liveLimit ∧ chunkDesc.stream = 5
    let bad (s : State) (x : Stream) : Bool := s.chunkBad x (chunkDesc.chunk x)
    let full : Stream := { stream5 with waiting := List.replicate 16 (chunkDesc.chunk stream5) }
    let lnk : Stream := { stream5 with inkind := 3 }
    let pcm : Stream := { stream5 with inkind := 0 }
    ok (g c stream5) ∧ (g c { stream5 with id := 6 }).stream? 5 = none ∧ (g c stream5).stream? 5 = some stream5 ∧
      bad (g c stream5) stream5 = false ∧ bad (g c pcm) pcm = false ∧ bad (g c full) full = false ∧ 16 ≤ (g c full).heldChunks full ∧ (g c stream5).heldChunks stream5 < 16 ∧
      bad (g c lnk) lnk = true ∧ stream5.halves.getD (stream5.chunkNo % 2) false = false ∧
      (g c stream5).hostFails (chunkDesc.chunk stream5).buf (chunkDesc.chunk stream5).bytes = false := by decide

theorem test_hyp_ChunksAndBuffers_buffers :
    let b : Desc := desc 4 0x50 [0, 0, 64]
    let z : Desc := desc 4 0x50 [0, 0, 65]
    let g (r : RingGroup) (x : Stream) : State := withStream x { shop with hif := { shop.hif with rgs := [r] } }
    let s := g { ring0 [] with outs := [b] } stream5
    let y : Stream := { stream5 with outQ := [⟨[1, 2], 0, 0, 0, 0, 0, 0⟩] }
    let t := g { ring0 [] with outs := [b] } y
    (s.alive = true ∧ (s.rg 0).en = true ∧ (s.rg 0).outs = b :: [] ∧ b.didx = 4 ∧ bits (b.w 4) 0 24 = 64 ∧
        ∀ y ∈ s.work.streams, y.rg = 0 → y.outQ = []) ∧ bits (z.w 4) 0 24 % 64 ≠ 0 ∧
      (t.work.streams.filter (fun y => y.rg == 0 && !y.outQ.isEmpty) = [y] ∧ t.stream? 5 = some y ∧ (t.rg 0).pool = [] ∧
        t.hostFails (b.d64 2) 2 = false ∧ t.holdsComp y 0 = false) := by decide

/-! ### Witnesses: commands of the command ring -/

def ready? (opc d : Nat) (x : Desc) (s : State) : Bool :=
  s.alive && (s.rg 0).en && decide ((s.rg 0).cmds.find? (fun y => y.didx == d) = some x) && x.opc == opc && !x.started && (s.rg 0).ready x

theorem cmdReady_of {opc d : Nat} {x : Desc} {s : State} (h : ready? opc d x s = true) : CmdReady opc 0 d x s := by
  simp only [ready?, Bool.and_eq_true, decide_eq_true_eq, beq_iff_eq, Bool.not_eq_true'] at h
  obtain ⟨⟨⟨⟨⟨h1, h2⟩, h3⟩, h4⟩, h5⟩, h6⟩ := h
  exact ⟨h1, h2, h3, h4, h5, h6⟩

theorem test_hyp_CommandsComplete :
    let x := desc 3 0x1F []
    let s := withCmd x shop
    (CmdReady 0x1F 0 3 x s ∧ s.hostFails 4096 32 = false) ∧
      (∀ o ∈ [0x01, 0x02, 0x03, 0x04, 0x05, 0x06, 0x07, 0x08, 0x09, 0x10, 0x11, 0x12, 0x13, 0x18, 0x19, 0x1B],
        let y := desc 3 o []
        let t := withCmd y { shop with work := { shop.work with partStarted := [] } }
        CmdReady o 0 3 y t ∧ ¬ (o = 0x1C) ∧ t.partStarted (t.rg 0).part = false) ∧
      (let y := desc 3 0x1C []
       CmdReady 0x1C 0 3 y (withCmd y shop) ∧ (withCmd y shop).partStarted 0 = true) ∧
      (let y : Desc := { desc 3 1 [] with started := true }
       (((withCmd y shop).rg 0).cmds.find? fun z => z.didx == 3) = some y) := by
  refine ⟨⟨cmdReady_of (by decide), by decide⟩, ?_, ⟨cmdReady_of (by decide), by decide⟩, by decide⟩
  intro o ho
  simp only [List.mem_cons, List.not_mem_nil, or_false] at ho
  rcases ho with rfl | rfl | rfl | rfl | rfl | rfl | rfl | rfl | rfl | rfl | rfl | rfl | rfl | rfl | rfl | rfl <;>
    exact ⟨cmdReady_of (by decide), by decide, by decide⟩

/-- Stream commands on a CLOSED, a CLOSING, another ring group's, an idle, a busy and a PAUSED stream. -/
theorem test_hyp_StreamCommands :
    (∀ o ∈ [2, 3, 4, 5, 6, 7, 8, 9], CmdReady o 0 3 (desc 3 o []) (withCmd (desc 3 o []) shop)) ∧
      shop.partStarted (shop.rg 0).part = true ∧ (desc 3 2 []).stream = 5 ∧ shop.stream? 5 = some stream5 ∧
      (withStream { stream5 with id := 6 } shop).stream? 5 = none ∧ stream5.rg = 0 ∧ 5 < shop.liveLimit ∧
      (∀ x ∈ [{ stream5 with state := .closing }, { stream5 with rg := 1 }, { stream5 with state := .paused },
        { stream5 with state := .running }], (withStream x shop).stream? 5 = some x) ∧
      stream5.busy = false ∧ stream5.waiting = [] ∧ shop.work.jobs = [] ∧ shop.nextLaunch 5 = none ∧
      (withJob (job7 .decided) shop).nextLaunch 5 = some (job7 .decided) ∧
      (∀ y ∈ shop.work.streams, y.source = none) ∧
      (let s := { shop with work := { shop.work with streams := [stream5, { stream5 with id := 6, source := some 5 }] } }
       ∃ y ∈ s.work.streams, y.source = some 5 ∧ y.state ≠ .closing) := by
  refine ⟨?_, by decide⟩
  intro o ho
  simp only [List.mem_cons, List.not_mem_nil, or_false] at ho
  rcases ho with rfl | rfl | rfl | rfl | rfl | rfl | rfl | rfl <;> exact cmdReady_of (by decide)

set_option maxRecDepth 100000 in
/-- Items of STREAM_CTL: an early-warning margin within and beyond the budget, pins that hold and pins that do not. Stream 5 is
alone in its group. -/
theorem test_hyp_StreamCommands_pins :
    let c (i v : Nat) : Desc := desc 3 6 [BitVec.ofNat 32 i, BitVec.ofNat 32 v]
    let p (w : Word) : Desc := desc 3 6 [8, 0, 0, 0, 0, 0, w]
    bits ((c 1 100).w 2) 0 4 = 1 ∧ ((c 1 100).w 3).toNat ≤ stream5.budget ∧ stream5.budget < ((c 1 101).w 3).toNat ∧
      (∀ y ∈ shop.work.streams, y.group = stream5.group → y.id = 5) ∧
      shop.pinStatus 0 1 1 ((p 0x10).pins.1.over stream5.pins) (p 0x10).pins.2 [2] = 0 ∧
      shop.pinLacks stream5 (p 0x10).pins.1 = false ∧ (p 0x10).pins.2 = false ∧
      shop.pinStatus 0 1 1 ((p 0x11).pins.1.over stream5.pins) (p 0x11).pins.2 [2] ≠ 0 ∧
      (p 0x2000000).pins.2 = true ∧ (shop.newGroupNum 4096).isSome = true := by decide

/-- A PAUSED stream whose record lies in H, in C, and under a hand-off. -/
def halted : Stream := { stream5 with state := .paused }
def haltedC : Stream := { halted with record := { record0 with state := .C, home := none, ext := some (0, 1) } }
def haltedM : Stream := { halted with record := { record0 with mirRead := true } }

/-- A STATE_READ of tile 0, and one beyond the record; a host buffer that fails. -/
theorem test_hyp_StateReads :
    let rd := desc 3 8 [0]
    let s := withStream halted (withCmd rd shop)
    (CmdReady 8 0 3 rd s ∧ s.partStarted (s.rg 0).part = true ∧ s.stream? rd.stream = some halted ∧ rd.stream < s.liveLimit ∧
        halted.state ≠ .closing ∧ halted.rg = 0) ∧
      (stream5.state ≠ .paused ∧ halted.record.tiles = bits (rd.w 2) 0 8 + (bits (rd.w 2) 8 8 + 1) ∧ rd.d64 4 % 4096 = 0 ∧
        halted.record.tiles < bits ((desc 3 8 [1]).w 2) 0 8 + (bits ((desc 3 8 [1]).w 2) 8 8 + 1) ∧
        s.hostFails (rd.d64 4) 16384 = false ∧
        { s with mem := { s.mem with hostFail := [(0, 1)] } }.hostFails (rd.d64 4) 16384 = true) ∧
      (halted.record.mirRead = false ∧ haltedM.record.mirRead = true ∧ s.move? 5 = none ∧ s.extPoisoned halted = false ∧
        halted.record.state = .H) :=
  ⟨⟨cmdReady_of (by decide), by decide⟩, by decide, by decide⟩

/-- A record in H always reads. -/
theorem test_hyp_StateReads_bytes : ∃ raw, (withStream halted (withCmd (desc 3 8 [0]) shop)).recordBytes halted = .ok raw :=
  ⟨_, rfl⟩

/-- STATE_WRITEs of tile 0 whose header is in order, and one whose is not. -/
theorem test_hyp_StateWrites :
    let wr := desc 3 9 [0]
    let s := withStream halted (withCmd wr shop)
    let hdr : State := { s with mem := { s.mem with host := s.mem.host.write 0 [0, 0, 0, 0, 1, 0, 0, 0, 0, 0, 0, 0] } }
    (CmdReady 9 0 3 wr hdr ∧ hdr.partStarted (hdr.rg 0).part = true ∧ hdr.stream? wr.stream = some halted ∧
        bits (wr.w 2) 0 8 = 0 ∧ hdr.hostFails (wr.d64 4) 16384 = false) ∧
      (leNat ((hdr.mem.host.read (fun _ => 0) 4 4)) = halted.record.layout ∧ halted.record.state = .H ∧ haltedC.record.state = .C ∧
        haltedM.record.mirRead = true ∧ hdr.move? 5 = none ∧ hdr.mirrors 0 = false) :=
  ⟨⟨cmdReady_of (by decide), by decide⟩, by decide⟩

/-- Stream 6 opens on slot 1 with features, in a new group 3. -/
def openDesc : Desc := ⟨3, BitVec.ofNat 32 (1 + 6 * 2 ^ 16) :: 0 :: 0x20001 :: 0 :: 200 :: List.replicate 11 0, false⟩
def placed6 : Placement := ⟨3, 0, 0, 0, 0⟩
def roomy : State := withCmd openDesc (withRegs [(0x4001C, 64)] shop)

set_option maxRecDepth 20000 in
theorem test_hyp_OpenAdmits :
    (CmdReady 1 0 3 openDesc roomy ∧ roomy.partStarted (roomy.rg 0).part = true) ∧
      (roomy.openStatus (roomy.openReq 0 openDesc) placed6 = 0) ∧
      (6 < roomy.liveLimit ∧ roomy.stream? 6 = none ∧ roomy.partnerHolds 6 = false ∧ shop.stream? 5 ≠ none ∧
        (roomy.openReq 0 openDesc).fb = none) :=
  ⟨⟨cmdReady_of (by decide), by decide⟩, by decide, by decide⟩

theorem test_hyp_OpenInitEnds :
    let o : Stream := { stream5 with state := .opening, cmd := some (1, 0, 3) }
    (withStream o shop).alive = true ∧ (withStream o shop).stream? 5 = some o ∧ o.waitId = false ∧ shop.mirrors 0 = false ∧
      { o with waitId := true }.waitId = true := by decide

theorem test_hyp_CloseReleaseEnds :
    let c : Stream := { stream5 with state := .closing, cmd := some (2, 0, 3) }
    (withStream c shop).alive = true ∧ (withStream c shop).stream? 5 = some c ∧ c.heldComp = [] ∧ c.record.mirRead = false ∧
      { c.record with mirRead := true }.mirRead = true := by decide

/-! ### Witnesses: models, groups, caches -/

/-- A well-formed image of 256 bytes without weights: layout 1, one tile, features, 1000 µs a step, cadence 1. -/
def image0 : List Byte :=
  [1, 0, 0, 0, 1, 0, 0, 0, 0, 2, 0, 0, 0xE8, 3, 0, 0] ++ List.replicate 8 0 ++ [1] ++ List.replicate 231 0

set_option maxRecDepth 100000 in
theorem test_image : image0.length = 256 ∧ imageBad image0 256 true = false ∧ imageBad (List.replicate 256 0) 256 false = true := by
  decide

def withImage (s : State) : State := { s with mem := { s.mem with host := s.mem.host.write 4096 image0 } }

theorem test_hyp_ModelSlotsAndGroups :
    let ld := desc 3 0x10 [2, 0, 4096, 0, 256]
    let s := withImage (withCmd ld shop)
    (CmdReady 0x10 0 3 ld s ∧ s.partStarted (s.rg 0).part = true) ∧
      (s.slot? (bits (ld.w 2) 0 8) = none ∧ s.hostFails (ld.d64 4) 256 = false ∧ (ld.w 6).toNat = 256 ∧ s.expertPart 0 = true ∧
        s.modelRoom 0 0 = true ∧ s.modelRoom 0 (2 ^ 40) = false ∧ s.slot? 1 = some slot1) ∧
      (CmdReady 0x11 0 3 (desc 3 0x11 [1]) (withStream { stream5 with main := 2 } (withCmd (desc 3 0x11 [1]) shop)) ∧
        slot1.state = .ready ∧ ∃ y ∈ shop.work.streams, y.main = 1) ∧
      (CmdReady 0x12 0 3 (desc 3 0x12 [2, 3]) (withCmd (desc 3 0x12 [2, 3]) shop) ∧ shop.group? 2 = some group2 ∧
        (desc 3 0x12 [2, 3]).cores 3 ≠ 0 ∧ (desc 3 0x12 [2, 3]).cores 3 &&& ~~~shop.partCores 0 = 0 ∧
        (desc 3 0x12 [2, 3]).cores 3 &&& shop.tickCores [2] 1 0 0 = 0 ∧ shop.groupUnitsFit 2 ((desc 3 0x12 [2, 3]).cores 3) = true ∧
        shop.copiesFit 1 ((desc 3 0x12 [2, 3]).cores 3) = true ∧ group2.nextCores = none ∧ (desc 3 0x12 [2]).cores 3 = 0) ∧
      (CmdReady 0x13 0 3 (desc 3 0x13 [1, 3]) (withCmd (desc 3 0x13 [1, 3]) shop) ∧
        slot1.hdr.bytes ≤ sumBy (fun c => (shop.core c).residentBytes) (coreList ((desc 3 0x13 [1, 3]).cores 3)) ∧
        shop.copiesFit 1 ((desc 3 0x13 [1, 3]).cores 3) = true ∧ (BitVec.ofNat 32 256).getLsbD 8 = true) :=
  ⟨⟨cmdReady_of (by decide), by decide⟩, by decide, ⟨cmdReady_of (by decide), by decide, stream5, by decide⟩,
    ⟨cmdReady_of (by decide), by decide⟩, cmdReady_of (by decide), by decide⟩

/-- Slots in each state; the weights of the loaded image, none, find a die of the partition. -/
theorem test_hyp_ModelSlotsAndGroups_ends :
    let m : ModelSlot := { slot1 with state := .loading, cmd := some (0, 3), copies := [] }
    let l : State := { shop with work := { shop.work with slots := [m] } }
    let u : State := { shop with work := { shop.work with slots := [{ slot1 with state := .unloading, cmd := some (0, 3) }] } }
    l.alive = true ∧ (l.slot? 1).map (·.state) = some .loading ∧ (u.slot? 1).map (·.state) = some .unloading ∧
      (shop.slot? 1).map (·.state) = some .ready ∧ 0 ∈ l.partDies 0 ∧ (l.addCopy m (coreSetOf [0, 1])).isSome = true := by decide

def prefix9 (done : Bool) : KvPrefix := ⟨9, 0, 1, [7], [], false, done, false, if done then none else some (0, 3)⟩

theorem test_hyp_CachesAndExpertCommands :
    let p0 := desc 3 0x18 [256, 0, 0, 0, 1]
    let p1 := desc 3 0x18 [1, 9]
    let d (b : Bool) : State := { shop with caches := { shop.caches with prefixes := [prefix9 b] } }
    let sk (w : Word) := desc 3 0x19 [w]
    (CmdReady 0x18 0 3 p0 (withCmd p0 shop) ∧ bits (p0.w 2) 0 2 = 0 ∧ shop.slot? (bits (p0.w 2) 8 8) = some slot1 ∧
        (p0.w 6).toNat = 1 ∧ shop.hostFails (p0.d64 4) 4 = false ∧ shop.prefix? 0 = none) ∧
      (CmdReady 0x18 0 3 p1 (withCmd p1 (d true)) ∧ bits (p1.w 3) 0 16 = 9 ∧ (d true).prefix? 9 = some (prefix9 true)) ∧
      ((d false).alive = true ∧ (d false).prefix? 9 = some (prefix9 false) ∧ (d false).slot? 1 = some slot1) ∧
      (∀ w ∈ [4, 0x2001, 2, 3, 0xF001], CmdReady 0x19 0 3 (sk w) (withCmd (sk w) shop)) ∧
      (bits (4 : Word) 2 8 = 1 ∧ shop.skvValid 0 0 (shop.skvSlot 0 0).target = false ∧ shop.buildSet 0 [7] = none) ∧
      (let ld := desc 3 0x19 [1, 0, 0x4000]
       let tb (v : Byte) : State := withCmd ld (shop.hostWrite 0x4000 ([0, 2, 0, 0, 1, v] ++ List.replicate 58 0))
       let es (v : Byte) : List Nat := (elemsOf 0 (((tb v).hostRead (ld.d64 4) 64).drop 4)).take 2
       CmdReady 0x19 0 3 ld (tb 2) ∧ bits (ld.w 2) 0 2 = 1 ∧ (tb 2).hostFails (ld.d64 4) 64 = false ∧
         field ((tb 2).hostRead (ld.d64 4) 64) 0 1 = 0 ∧ field ((tb 2).hostRead (ld.d64 4) 64) 1 1 = 2 ∧
         es 2 = [1, 2] ∧ es 1 = [1, 1] ∧ es 0 = [1, 0]) ∧
      (let rp := desc 3 0x1A [0, 0x10004000]
       CmdReady 0x1A 0 3 rp (withCmd rp shop) ∧ bits (rp.w 2) 0 8 < 160 ∧ (shop.partCores 0).getLsbD 0 = true ∧
         (shop.core? 0).isSome = true ∧ (shop.core 0).rgnWait = none ∧ shop.work.jobs = [] ∧
         (∃ j ∈ busy.work.jobs, j.cores.getLsbD 0 = true) ∧ (shop.core 0).regions.length = 16 ∧ (shop.core 0).rgnPins.length = 16) ∧
      (let wd := desc 3 0x1B [0, 0x30004000, 0]
       CmdReady 0x1B 0 3 wd (withCmd wd shop) ∧ 2 ≤ bits (wd.w 3) 28 2 ∧ windowLegal (wd.w 3) (wd.w 4) = true ∧
         shop.cores.all (·.flights.isEmpty) = true) ∧
      (let tm := desc 3 0x1C [0]
       let s := withCmd tm { shop with work := { shop.work with partStarted := [] } }
       CmdReady 0x1C 0 3 tm s ∧ s.partStarted (s.rg 0).part = false ∧ s.coreOn 0 = true ∧ (s.partCores 0).getLsbD 0 = true ∧
         s.hostFails (tm.d64 4) 192 = false ∧ s.keeper.fstop = false) := by
  refine ⟨⟨cmdReady_of (by decide), by decide⟩, ⟨cmdReady_of (by decide), by decide⟩, by decide, ?_, by decide,
    ⟨cmdReady_of (by decide), by decide⟩, ⟨cmdReady_of (by decide), by decide⟩, ⟨cmdReady_of (by decide), by decide⟩, ⟨cmdReady_of (by decide), by decide⟩⟩
  intro w hw
  simp only [List.mem_cons, List.not_mem_nil, or_false] at hw
  rcases hw with rfl | rfl | rfl | rfl | rfl <;> exact cmdReady_of (by decide)

/-! ### Witnesses: instructions. `busy` issues on core 0; its scalar registers, windows and SPM are zero. -/

def withRow (r : Nat) (bs : List Byte) : State := busy.spmWrite 0 (r * 512) bs
def withK (f : Core → Core) : State := busy.updCore 0 f

/-- Core 0 issues `op` at once. -/
def issues? (op : CoreOp) (s : State) : Bool :=
  s.canIssue 0 && s.cores.all (fun k => k.flights.isEmpty && (k.num != 0 || k.lu.all (·.all (·.rev.isNone)))) &&
    !(s.core 0).holds (s.opPlan 0 op)

theorem quiet_of {s : State} (h : s.cores.all (fun k => k.flights.isEmpty && (k.num != 0 || k.lu.all (·.all (·.rev.isNone)))) = true) :
    Quiet 0 s := by
  simp only [List.all_eq_true, Bool.and_eq_true, List.isEmpty_iff, Bool.or_eq_true, bne_iff_ne, ne_eq] at h
  refine ⟨fun k hk => (h k hk).1, fun k hk hn x hx y hy => ?_⟩
  subst hy
  simpa using ((h k hk).2.resolve_left (fun c => c hn)) _ hx

theorem issues_of {op : CoreOp} {s : State} (h : issues? op s = true) : Issues 0 op s := by
  simp only [issues?, Bool.and_eq_true, Bool.not_eq_true'] at h
  exact ⟨h.1.1, quiet_of h.1.2, h.2⟩

theorem smooth_clean : Smooth noUpset := ⟨rfl, rfl, rfl⟩

/-- One element, all in FP32: X at row 0 (or in B0), Y at row 32 as integers, Z at row 64. -/
def veWord : BitVec 128 :=
  BitVec.ofNat 128 (32 * 2 ^ 40 + 64 * 2 ^ 55 + 0xD * 2 ^ 84 + 0xD * 2 ^ 88 + 0xD * 2 ^ 92)
def vpermWord : BitVec 128 :=
  BitVec.ofNat 128 (2 ^ 39 + 32 * 2 ^ 40 + 64 * 2 ^ 55 + 0xD * 2 ^ 84 + 0xE * 2 ^ 88 + 0xD * 2 ^ 92)

/-- An MMA that waits for the expansion queue, with row `r` declared; a window over row 0 that waits. -/
def mmaWaits (r : Nat) : State :=
  let w : BitVec 128 := BitVec.ofNat 128 (0x20 + 2 ^ 41)
  withK fun k => { k with flights := [{ newFlight (.mma w) noUpset with unit := .me, issued := true, entries := [⟨r, 1, false, .me⟩] }] }
def windowWaits : State := withK fun k => { k with windows := updAt 0 (fun _ => ⟨0x4000, 0x100, 0, true⟩) k.windows }

theorem test_hyp_InstructionsIssue :
    let p : OpPlan := busy.opPlan 0 (.stream .map veWord)
    shop.canIssue 0 = false ∧ busy.canIssue 0 = true ∧ Issues 0 (.stream .map veWord) busy ∧
      (windowWaits.canIssue 0 = true ∧ Quiet 0 windowWaits ∧ (windowWaits.core 0).rangesHold p = true) ∧
      ((mmaWaits 700).canIssue 0 = true ∧ ((mmaWaits 700).core 0).holds p = true ∧
        ((mmaWaits 700).core 0).rangesHold p = false ∧ ((mmaWaits 700).core 0).banksHold p = true) ∧
      (p.trap = none ∧ (busy.opPlan 0 (.stream .map (BitVec.ofNat 128 (5 * 2 ^ 84)))).trap = some 4 ∧ busy.opReads 0 (.stream .map veWord) p 0 = true) ∧
      busy.regs.all (fun r => r.2.toNat ≤ 0xFFFFFFFF) = true ∧ (∀ n ∈ [19], n < 20) := by
  refine ⟨by decide, by decide, issues_of (by decide), ⟨by decide, quiet_of (by decide), by decide⟩, by decide⟩

/-- What is in flight there waits. -/
theorem test_hyp_InstructionsIssue_waiting : Waiting 0 (mmaWaits 700) := by
  have h : (mmaWaits 700).cores.all (fun k => (k.num == 0 || k.flights.isEmpty) && (k.num != 0 ||
      (k.xq.isEmpty && k.flights.all (fun f => f.issued && !f.paused && f.op == .mma (BitVec.ofNat 128 (0x20 + 2 ^ 41)) &&
        f.prog.done == 0) && k.lu.all (·.all (·.rev.isNone))))) = true := by decide
  have m : (mmaOp (BitVec.ofNat 128 (0x20 + 2 ^ 41))).queue = true ∧ 0 < (mmaOp (BitVec.ofNat 128 (0x20 + 2 ^ 41))).runRows := by decide
  simp only [List.all_eq_true, Bool.and_eq_true, List.isEmpty_iff, Bool.or_eq_true, bne_iff_ne, ne_eq, beq_iff_eq, Bool.not_eq_true'] at h
  refine ⟨fun k hk hn f hf => ?_, fun k hk hn => (h k hk).1.resolve_left hn, fun k hk hn x hx y hy => ?_⟩
  · obtain ⟨⟨hx, hfs⟩, -⟩ := (h k hk).2.resolve_left (fun c => c hn)
    obtain ⟨⟨⟨a, b⟩, c⟩, d⟩ := hfs f hf
    exact ⟨hx, a, b, _, c, m.1, by omega⟩
  · subst hy
    simpa using ((h k hk).2.resolve_left (fun c => c hn)).2 _ hx

/-- A damaged tile that a pass reads whole: the tile of an MMA's activations. -/
theorem test_hyp_InstructionsIssue_badTile :
    let w : BitVec 128 := 0x20
    Issues 0 (.mma w) busy ∧ (0 : Nat) % 16384 = 0 ∧ (busy.opPlan 0 (.mma w)).trap = none ∧
      ((busy.opPlan 0 (.mma w)).reads.any fun r => r.1 ≤ 0 && 32 ≤ r.1 + r.2) = true :=
  ⟨issues_of (by decide), by decide⟩

/-- MMA words: row mode 3, ACC without an accumulator, one that waits for the expansion queue, and one for each destination. -/
theorem test_hyp_MatrixMultiply :
    (mmaOp 0x320).badForm = true ∧
      ((mmaOp (BitVec.ofNat 128 (0x20 + 2 ^ 27))).accum = true ∧ (busy.core 0).accShape = none) ∧
      (let m := mmaOp (BitVec.ofNat 128 (0x20 + 2 ^ 41))
       m.badForm = false ∧ m.accum = false ∧ m.dest = 0 ∧ m.queue = true ∧ (busy.core 0).xq.length < m.runRows) ∧
      (∀ d ∈ [0, 1, 2, 3, 4],
        let w := BitVec.ofNat 128 (0x20 + d * 2 ^ 42 + (if d = 3 then 2 ^ 28 + 2 ^ 29 else 0))
        let m := mmaOp w
        bits w 0 8 = 0x20 ∧ issues? (.mma w) busy = true ∧ m.dest = d ∧ m.badForm = false ∧ m.accum = false ∧
          gateRows (gateStages ((busy.core 0).gate m.prog)) [] = [] ∧ m.queue = false ∧
          (m.toFtq = true → (busy.core 0).ftq.length < 16)) ∧
      busy.cores.all (·.luq.isEmpty) = true := by decide

theorem test_hyp_Gpload :
    Issues 0 (.gpload 1 0) busy ∧ Issues 0 (.gpload 31 12287) busy ∧ Issues 0 (.gpload 0 0) busy ∧
      gateBad (busy.rowWords 0 0 9) = false ∧ Issues 0 (.gpload 1 1) (withRow 1 [15]) ∧
      gateBad ((withRow 1 [15]).rowWords 0 1 9) = true :=
  ⟨issues_of (by decide), issues_of (by decide), issues_of (by decide), by decide, issues_of (by decide), by decide⟩

/-- LSCAN words of both directions on a row of zeros, and on a row with a mode that is none; another open context that the new one
would meet. -/
theorem test_hyp_ScansAndAttention_scans :
    let d := luDesc (busy.rowWords 0 0 16)
    let c := withK fun k => { k with lu := updAt 1 (fun _ => some ⟨List.replicate 16 0, [], none, []⟩) k.lu }
    (bits (0x28 : BitVec 64) 0 8 = 0x28 ∧ bits (0x428 : BitVec 64) 0 8 = 0x28 ∧ (0x428 : BitVec 64).getLsbD 10 = true) ∧
      (Issues 0 (.lscan 0x28) busy ∧ Issues 0 (.lscan 0x428) busy ∧ d.bad false = false ∧ d.bad true = false ∧ (busy.core 0).luForward = []) ∧
      (Issues 0 (.lscan 0x28) (withRow 0 [2]) ∧ (luDesc ((withRow 0 [2]).rowWords 0 0 16)).bad false = true) ∧
      (Issues 0 (.lscan 0x28) c ∧ ∃ p ∈ (c.core 0).luForward, p.2.d.blocksMeet d = true) :=
  ⟨by decide, ⟨issues_of (by decide), issues_of (by decide), by decide⟩, ⟨issues_of (by decide), by decide⟩,
    issues_of (by decide), by decide⟩

set_option maxRecDepth 20000 in
/-- Attention words of the three passes and of none, on a row of zeros: one query and one page without tokens. -/
theorem test_hyp_ScansAndAttention_attention :
    let ds := busy.rowWords 0 0 16
    let x := attDesc ds
    let ps (n : Nat) := x.listed n (ds ++ wordsOf (busy.spmRead 0 (x.plist * 512) (8 * x.npg)))
    (issues? (.att 0x24) busy = true ∧ issues? (.att 0x124) busy = true ∧ issues? (.att 0x224) busy = true ∧
        issues? (.att 0x324) busy = true ∧ bits (0x224 : BitVec 64) 0 8 = 0x24) ∧
      bits (0x124 : BitVec 64) 8 2 = 1 ∧ bits (0x324 : BitVec 64) 8 2 = 3 ∧
      x.badScore (ps 0) = false ∧ x.badValue (ps 1) = false ∧ x.badExpand (ps 2) = false ∧ x.accum = false ∧ attCols (ps 0) = 0 ∧
      x.liveq = 1 ∧ (∀ p ∈ ps 2, p.cnt = 0) ∧ busy.attWord 0 x.stats 16 = 0 ∧ { x with fin := true }.fin = true ∧
      { x with dsel := 3 }.badScore (ps 0) = true ∧ { x with dsel := 3 }.badValue (ps 1) = true ∧
      { x with dsel := 3 }.badExpand (ps 2) = true := by decide

set_option maxRecDepth 20000 in
theorem test_hyp_VectorInstructions :
    (∀ q ∈ [(VeKind.map, veWord), (.red, veWord + 1), (.cpr, veWord + 2), (.xpn, veWord + 3), (.perm, vpermWord + 4)],
      let v := q.2 + 0x30
      let p := vePlan q.1 (veOp v) ((busy.core 0).stamp (veOp v).stamp) (busy.core 0).sregs
      bits v 0 8 = 0x30 + bits q.2 0 8 ∧ issues? (.stream q.1 v) busy = true ∧
      p.bad = false ∧ p.op.reps = 1 ∧ p.op.n ≤ 128 ∧ p.op.zfmt = 0xD ∧ (p.z 0).buf = none ∧
        (p.y 0).buf = none ∧ (p.y 0).meets 4 (p.z 0) (4 * p.op.n) = false) ∧
      (vePlan .map (veOp (BitVec.ofNat 128 (5 * 2 ^ 84))) [] []).bad = true ∧
      (bits (0x38 : BitVec 64) 0 8 = 0x38 ∧ issues? (.vqpop 0) busy = true ∧ (busy.core 0).ftq = [] ∧
        ((withK fun k => { k with ftq := [[(0, 1)]] }).core 0).ftq = [(0, 1)] :: []) ∧
      (issues? (.vbrel 15) busy = true ∧ (busy.core 0).bufs.length = 4) ∧
      (issues? (.vsload 1 0) busy = true ∧ issues? (.vsload 0 0) busy = true ∧ stampBad (busy.rowWords 0 0 33) = false ∧
        stampBad ((withRow 1 [33]).rowWords 0 1 33) = true) ∧
      (let s := withRow 0 [0, 0, 0, 0, 0, 0, 0x80, 0x3F]
       let t := userTable (s.rowWords 0 0 5) []
       issues? (.vtload 0 0) s = true ∧ issues? (.vtload 0 0) busy = true ∧
       finite32 t.lo = true ∧ finite32 t.invstep = true ∧ (f32 0).lt (f32 t.invstep) = true ∧ (0 : Nat) ≤ 12283 ∧
         (f32 0).lt (f32 (userTable (busy.rowWords 0 0 5) []).invstep) = false) := by decide

def rowOf (ws : List Nat) : State := withRow 0 (ws.flatMap (leBytes 4))

set_option maxRecDepth 20000 in
theorem test_hyp_DataMovement :
    let d (s : State) : SkDesc := skDesc (s.rowWords 0 0 8)
    let low : State := withK fun k => { k with sregs := updAt 0 (fun _ => 12288) k.sregs }
    busy.corePart? 0 ≠ none ∧ low.sreg 0 0 = 12288 ∧ issues? (.skx 0x2C) low = true ∧ issues? (.skc 0x2D false) low = true ∧
      issues? (.dmov 0) low = true ∧ issues? (.dtens 0) low = true ∧
      (let s := rowOf [0x10000, 0, 0, 0, 0x2000]
       (d s).queue = true ∧ (d s).n = 1 ∧ (d s).src = spmAddr 0 0x10000 ∧ 0x10000 + max 8 (tileLen (s.spmRead 0 0x10000 8)) ≤ 12288 * 512 ∧
         (s.core 0).xq.length ≤ 32 ∧ issues? (.skx 0x2C) s = true ∧ (s.expandTile 0 (s.spmRead 0 0x10000 8)).toOption = none) ∧
      (let s := rowOf [0x10000, 0, 0, 0, 0]
       (d s).queue = false ∧ (d s).dst = spmAddr 0 (16384 * 0) ∧ issues? (.skx 0x2C) s = true) ∧
      (let s := rowOf [0, 0, 512, 0, 0]
       issues? (.skx 0x2C) s = true ∧ (d s).queue = false ∧ rawSpmBad (d s).dst (d s).n = true ∧ (d (rowOf [0, 0, 0, 0, 0xC0])).ew = 3) ∧
      (let s := rowOf [16384, 0, 65536, 0, 0]
       issues? (.skc 0x2D false) s = true ∧ (d s).tmode = 0 ∧ (d s).ew ≤ 2 ∧ (d s).n = 1 ∧ (d s).src = spmAddr 0 (16384 * 1) ∧
         (d s).dst = spmAddr 0 65536 ∧ 65536 + 16392 ≤ 12288 * 512) ∧
      (let s := rowOf [512, 0, 1024, 0, 0, 0, 0, 0]
       let m := moveDesc (s.rowWords 0 0 8)
       issues? (.dmov 0) s = true ∧ m.nr = 1 ∧ m.nrep = 1 ∧ m.src = spmAddr 0 (512 * 1) ∧ m.dst = spmAddr 0 (512 * 2) ∧ 0 < m.total) := by
  decide

set_option maxRecDepth 20000 in
/-- A DTENS descriptor that moves the word at byte 512 of the slice to byte 1,024; windows, the time read, an opcode of none. -/
theorem test_hyp_DataMovement_rest :
    let tensor (base : Nat) : List Byte := leBytes 4 base ++ leBytes 4 0 ++ leBytes 4 0xD ++ leBytes 4 0 ++ leBytes 4 1 ++ List.replicate 44 0
    let s := withRow 0 (tensor 512 ++ tensor 1024 ++ List.replicate 64 0)
    let m := tensMove (s.rowWords 0 0 48)
    (issues? (.dtens 0) s = true ∧ m.gmode = 0 ∧ m.src.fmt = 0xD ∧ m.dst.fmt = 0xD ∧ m.src.blocked = false ∧ m.dst.blocked = false ∧
        m.dst.sizes.foldl (· * ·) 1 = 1 ∧ m.src.base = spmAddr 0 (512 * 1) ∧ m.dst.base = spmAddr 0 (512 * 2)) ∧
      (issues? (.wopen 7 0) (rowOf [0x4000, 0]) = true ∧ issues? (.wopen 8 0) busy = true ∧
        windowLegal ((rowOf [0x4000, 0]).rowWords 0 0 2)[0]! ((rowOf [0x4000, 0]).rowWords 0 0 2)[1]! = true ∧ windowLegal 0 0 = false) ∧
      (issues? (.wclose 7) busy = true ∧ issues? (.wclose 8) busy = true) ∧ (issues? (.timeRead 62) busy = true ∧ 1 ≤ busy.tb.now) ∧
      issues? (.illegal (opTrap (bits (0x99 : BitVec 64) 0 8))) busy = true := by decide

/-- The fixed tables 0 to 3 are what a block of raw rows may be expanded with (R238). -/
theorem test_hyp_CodingIsLossless :
    (0 : Nat) ≤ 2 ∧ (none : Option TableUse) = none ∧ (List.replicate 512 (0 : Byte)).length = 512 := by
  refine ⟨by decide, rfl, List.length_replicate⟩

/-! ### Witnesses: the Saddler -/

/-- Stream 5 with a chunk in its half. -/
def fed5 : Stream := { stream5 with waiting := [{ chunkDesc.chunk stream5 with ready := true, half := some 0 }], halves := [true, false] }
def armed (p : JobPhase) (j : Job → Job) : State :=
  let s := withJob (j (job7 p)) (withStream { stream5 with state := .armed, decided := true, record := { record0 with state := .S, spm := some 0 } } shop)
  s.forEach [0, 1] fun c t => t.updCore c fun k => { k with pstate := .armed }

theorem test_hyp_DecisionsAndWakes :
    let s := withStream fed5 shop
    let u := s.advanceTo (s.tickTime 198 0 - min (s.reg 0x30014 * 1000) s.period)
    (s.alive = true ∧ s.group? 2 = some group2 ∧ s.work.started = true ∧ group2.companionOf = none ∧ group2.nextCores = none ∧ 198 % group2.cadence = group2.offset ∧
        s.partStarted 0 = true ∧ s.work.partReset.contains 0 = false ∧ s.tb.now ≤ s.tickTime 198 0) ∧
      (∀ x ∈ s.members 2, group2.meets x.pins = true ∧ x.source = none ∧ x.mayLaunch 198 = true) ∧ u.mergeInto group2 198 = none ∧
      (s.members 2).length = 1 ∧
      ((u.placeCopies 1 3).rowOf fed5 (s.tickTime 198 0)).isSome = true ∧ ((shop.placeCopies 1 3).rowOf stream5 0) = none := by decide

theorem test_hyp_DecisionsAndWakes_states :
    let s := withJob (job7 .decided) (withStream { stream5 with state := .resident, record := { record0 with state := .S, spm := some 0 } } shop)
    let e (p : PState) := shop.updCore 0 fun k => { k with pstate := .armed, entering := some p }
    let w := shop.updCore 0 fun k => { k with waking := true }
    s.alive = true ∧ s.jobIn 2 (fun j => !j.woken && (j.phase == .decided || j.phase == .waiting)) = some (job7 .decided) ∧
      ((s.core? 0).map fun k => k.pstate) = some .deep ∧
      (∀ p ∈ [PState.doze, .nap, .deep], ((e p).core? 0).map (fun k => k.entering) = some (some p)) ∧
      ((w.core? 0).map fun k => (k.waking, k.entering)) = some (true, none) ∧ (shop.core 0).pstate = .deep ∧
      dieAddr (0 / 16) (0 % 16 * spillBytes + 6384 * 1024) ≤ 2 ^ 60 + 6384 * 1024 := by decide

set_option maxRecDepth 20000 in
theorem test_hyp_DispatchAndPreemption :
    let s := armed .decided id
    let j : Job := job7 .decided
    let w := armed .waiting id
    let m := armed .switching id
    (s.alive = true ∧ s.jobIn 2 (fun j => j.phase == .decided) = some j ∧
        (let u := s.advanceTo j.tick
         let j1 : Job := { j with phase := .waiting, lateArm := false, waitFrom := u.tb.now }
         (u.updJob 7 fun _ => j1).mayStart j1 = true)) ∧
      (w.jobIn 2 (fun j => j.phase == .waiting) = some (job7 .waiting) ∧ (job7 .waiting).tick ≤ 2000000000 ∧
        w.mayStart (job7 .waiting) = true ∧
        (((w.advanceTo 2000000000).layRecords [5] 3).stageRows (job7 .waiting)).keeper.fstop = false) ∧
      (m.jobIn 2 (fun j => j.phase == .switching) = some (job7 .switching) ∧ m.gatesOpen (job7 .switching) = true ∧
        ((coreList 3).all fun c => (m.core c).switchReady) = true) := by decide

set_option maxRecDepth 20000 in
/-- A launch that waits for its record, and one that pre-empts a background job of its core. -/
theorem test_hyp_DispatchAndPreemption_waits :
    let s := withJob (job7 .decided) (withStream { stream5 with decided := true } shop)
    let low : Job := { job7 .running with id := 8, kind := .launch 3, base := 0, rows := [] }
    let t : State := (armed .decided id).forEach [0, 1] fun c t => t.updCore c fun k => { k with pstate := .active, job := some 8 }
    let p : State := { t with work := { t.work with jobs := [job7 .decided, low] } }
    let j1 (u : State) : Job := { job7 .decided with phase := .waiting, lateArm := true, waitFrom := u.tb.now }
    let v (s : State) : State := (s.advanceTo 2000000000).updJob 7 fun _ => j1 (s.advanceTo 2000000000)
    ((v s).mayStart (j1 (s.advanceTo 2000000000)) = false ∧ (v s).capsJob (j1 (s.advanceTo 2000000000)) = false ∧
        (v s).victims (j1 (s.advanceTo 2000000000)) = [] ∧ (v s).resident (j1 (s.advanceTo 2000000000)) = false) ∧
      ((v p).mayStart (j1 (p.advanceTo 2000000000)) = false ∧ (v p).capsJob (j1 (p.advanceTo 2000000000)) = false ∧
        (v p).victims (j1 (p.advanceTo 2000000000)) = [low]) := by decide

set_option maxRecDepth 20000 in
theorem test_hyp_DispatchAndPreemption_resumes :
    let s := armed .suspended id
    (s.jobIn 2 (fun j => j.phase == .suspended) = some (job7 .suspended) ∧
        (∀ c ∈ [0, 1], s.coreFree (job7 .suspended) c = true ∧ (s.core c).saved = none) ∧ s.firstOf (job7 .suspended) = true ∧
        s.capsJob (job7 .suspended) = false ∧ ((coreList 3).all fun c => (s.core c).switchReady) = true ∧
        (s.cores.all fun k => k.flights.isEmpty && k.saved.isNone) = true) ∧
      (let v : CoreSave := ⟨[], [], none, [], [], [], [], [], [], [], [(0, List.replicate 512 1)]⟩
       let one := (armed .suspended fun j => { j with cores := 1 }).updCore 0 fun k => { k with susp := some 7, saved := some v }
       one.jobIn 2 (fun j => j.phase == .suspended) = some { job7 .suspended with cores := 1 } ∧ coreList 1 = [0] ∧
         (one.core? 0).map (·.saved) = some (some v) ∧ (one.core 0).susp = some 7 ∧ (one.core 0).switchReady = true ∧
         one.firstOf { job7 .suspended with cores := 1 } = true) ∧
      (let w := armed .waiting id
       w.job? 7 = some (job7 .waiting) ∧ (job7 .waiting).waits = true) ∧
      (let m : Move := ⟨5, .fill, 0, 1, 0, none, 0, false, 0, false, false, false, false⟩
       let q : State := { shop with work := { shop.work with moves := [m] } }
       q.move? 5 = some m ∧ m.started = false) := by decide

set_option maxRecDepth 20000 in
theorem test_hyp_ChunkEndsAndPages :
    let q : TokenRow := ⟨0, false, [(0, 0, 0, 0)], [], [], []⟩
    let r := withRegs [(0x4001C, 64), (0x40020, 4), (0x40024, 64)] busy
    let pg : Page := ⟨3, 0, 0, false, false, false, 0, 0, 0, 1, 0, 0, 5, 0, 0, false, true, false, 0, 1, none, 0⟩
    (busy.alive = true ∧ busy.jobIn 2 (fun j => j.phase == .running) = some (job7 .running) ∧ (job7 .running).start ≤ 5 ∧
        (job7 .running).rows = [row5] ∧ (busy.stream? 5).map (·.cmd) = some none ∧
        (∀ y ∈ busy.work.groups, y.num = 2 → y = group2) ∧ busy.job? 7 = some (job7 .running)) ∧
      (pageOk 0 0 0 = true ∧ pageOk 3 0 0 = false ∧ (busy.stream? 5).map (fun x => busy.prefixRefs x []) = some [] ∧
        ((r.stream? 5).map fun x => (State.reserveAll x [] [(0, 0, 0, 0)] r).isSome) = some true ∧
        ((busy.stream? 5).map fun x => (State.reserveAll x [] [(0, 0, 0, 0)] busy).isSome) = some false) ∧
      ((r.takeFrame 0 []).isSome = true ∧ q.leaves = false ∧ (busy.takeFrame 0 []).isNone = true ∧ busy.partCxlGib 0 = 0) ∧
      (let c : State := { withRegs [(0x40028, 1)] busy with
        caches := { busy.caches with pages := [{ pg with evicting := false }] }
        board := { busy.board with ports := [⟨true, 0, 0, false, 2 ^ 30⟩, ⟨false, 0, 0, false, 0⟩] } }
       (c.takeFrame 0 []).isNone = true ∧ c.partCxlGib 0 ≠ 0 ∧
         (({ c with
            caches := { c.caches with pages := [{ pg with evicting := false, tier := 1 }] }
            work := { c.work with streams := c.work.streams ++ [{ stream5 with id := 6, pages := [3] }] } } : State).evictable 0).isSome = true ∧
         (let e : State := { c with caches := { c.caches with pages := [pg] } }
          e.page? 3 = some pg ∧ pg.evicting = true ∧ e.cxlSpotFree (frameAddr 2 0) 16384 = true ∧
            e.cxlUsed 0 + 16384 ≤ e.partCxlGib 0 * 2 ^ 30 ∧
            ((e.locate (frameAddr 2 0) 16384).any fun l => !e.poisoned l 16384) = true)) := by decide

theorem test_hyp_ChunkEndsAndPages_quiet : ∀ c, Quiet c busy := by
  intro c
  have h : busy.cores.all (fun k => k.flights.isEmpty && k.lu.all (·.all (·.rev.isNone))) = true := by decide
  simp only [List.all_eq_true, Bool.and_eq_true, List.isEmpty_iff] at h
  refine ⟨fun k hk => (h k hk).1, fun k hk _ x hx y hy => ?_⟩
  subst hy
  simpa using (h k hk).2 _ hx

theorem test_hyp_BeatsPortsAndConversions :
    let b : State := { shop with work := { shop.work with beat := some 3, served := 2 } }
    let t : State := { shop with power := { shop.power with booting := true, resetting := some .cold } }
    let up : State := { shop with board := { shop.board with ports := [⟨true, 0, 0, false, 5⟩, ⟨false, 0, 0, false, 0⟩] } }
    (b.alive = true ∧ b.work.started = true ∧ b.work.beat = some 3 ∧ b.work.served < 3 ∧
        nbits ((withRegs [(0xA0008, 0x10000)] b).reg 0xA0008) 16 1 = 1) ∧
      (let w := withRegs [(0xA0008, 5)] busy
       w.alive = true ∧ nbits (w.reg 0xA0008) 0 16 ≠ 0 ∧
         (((w.core 0).job.bind w.job?).any fun j => j.phase == .running && j.grp?.isSome) = true) ∧
      (t.power.booting = true ∧ t.power.resetting = some .cold ∧ (t.port 0).up = false ∧ nbits ((withRegs [(0x60000, 1)] t).reg 0x60000) 0 1 = 1) ∧
      (up.port 0).up = true := by decide

/-- A stream of samples at 16 kHz whose next chunk is due for conversion. -/
theorem test_hyp_BeatsPortsAndConversions_conversion :
    let p : AfeParams := ⟨2, 0, 1, 0, 50, 20, 0, 0, 0, 0, 0, 0⟩
    let a : AfeStream := ⟨p, 1, 0, 1, 0, none, 0, [], 0, 0⟩
    let x : Stream := { stream5 with inkind := 0, afe := some a, waiting := [chunkDesc.chunk { stream5 with inkind := 0 }] }
    let s := withStream x { shop with work := { shop.work with slots := [{ slot1 with hdr := { hdr0 with afe := p } }] } }
    s.alive = true ∧ s.stream? 5 = some x ∧ x.toConvert.isSome = true ∧ (s.slot? x.main).isSome = true ∧ s.convertsNext x = true ∧
      x.state ≠ .opening ∧ (x.toConvert.map fun c => s.hostFails c.buf c.bytes) = some false := by
  decide

set_option maxRecDepth 20000 in
theorem test_hyp_RecordMovesStart :
    let s := (withRegs [(0x4001C, 64)] shop).updCore 0 fun k => { k with regions := updAt 0 (fun _ => 0x21000000) k.regions }
    let m (k : MoveKind) : Move := ⟨5, k, 0, 1, 0, none, 0, false, 0, false, false, false, false⟩
    let with' (k : MoveKind) (r : Record) : State :=
      let t := withStream { stream5 with record := r } s
      { t with work := { t.work with moves := [m k] } }
    let inS : Record := { record0 with state := .S, spm := some 16384 }
    let f := with' .fill record0
    let o := with' .swapOut inS
    let h := with' .rehome record0
    (shop.alive = true ∧ shop.stream? 5 = some stream5 ∧ shop.move? 5 = none ∧ stream5.decided = false ∧
        stream5.lastTick + 1000000000 ≤ shop.tb.now ∧ shop.dieOn 1 = true) ∧
      (f.move? 5 = some (m .fill) ∧ f.moveReady (m .fill) = true ∧ f.dstOk stream5 .fill 65536 = true ∧
        ∀ y ∈ f.work.moves, y.stream = 5) ∧
      (o.moveReady (m .swapOut) = true ∧ o.dstOk { stream5 with record := inS } .swapOut 0 = true) ∧
      h.moveReady (m .rehome) = true := by decide

set_option maxRecDepth 20000 in
theorem test_hyp_RecordMovesEnd :
    let x (r : Record) : Stream := { stream5 with record := r }
    let s (r : Record) : State := withStream (x r) shop
    let fill : Record := { record0 with state := .fillH, spm := some 0 }
    let spill : Record := { record0 with state := .spill, spm := some 0, dirty := 1 }
    let m : Move := ⟨5, .demote, 0, 1, 0, none, 0, true, 3 * 2 ^ 60, false, false, false, false⟩
    ((s fill).alive = true ∧ (s fill).extPoisoned (x fill) = false ∧ (s fill).awayPages (x fill) = [] ∧
        (s fill).keeper.fstop = false ∧ fill.hdrHeld = false) ∧
      (spill.mirRead = false ∧ (s spill).locate (spill.spm.getD 0) (spill.tiles * 16384) = some (.spm 0 0) ∧
        spill.die < 10 ∧ spill.home.getD 0 + spill.tiles * 16384 ≤ dieBytes) ∧
      ({ shop with work := { shop.work with moves := [m] } }.move? 5 = some m) ∧ { record0 with mirRead := true }.mirRead = true ∧
      (∀ k ∈ shop.cores, k.rgnWait = none) ∧ noUpset.uncorr = none ∧ noUpset.badTile = none := by decide

/-- A copy that is not coded always reads. -/
theorem test_hyp_RecordMovesEnd_bytes (s : State) :
    (∃ raw, s.recordBytes { stream5 with record := { record0 with state := .fillH } } = .ok raw) ∧
    ∃ raw, s.recordBytes { stream5 with record := { record0 with state := .move, newHome := some (0, 1) } } = .ok raw := by
  constructor <;> exact ⟨s.dieRead 0 0 16384, by simp [State.recordBytes, record0, RecState.coded, RecState.inSpm]⟩

/-! ### Small tests of one command each -/

def nextIs (r : Res) (p : State → Bool) : Bool :=
  match r with
  | .next t => p t
  | _ => false

/-- NOP leaves the ring and posts one completion (R412). -/
theorem test_nop_completes :
    nextIs (exec (.cmdNop 0 3) (withCmd (desc 3 0x1F []) shop)) (fun t => (t.rg 0).cmds == [] && (t.rg 0).posted.getD 0 0 == 1) = true := by
  decide

/-- RESET marks the next launch (R51). -/
theorem test_reset_marks :
    nextIs (exec (.cmdReset 0 3) (withCmd (desc 3 5 []) shop)) (fun t => (t.stream? 5).any (·.resetMark)) = true := by decide

/-- An opcode without meaning traps and stops the device with cause 3 (R458). -/
theorem test_illegal_traps : nextIs (exec (.illegalOp 0 0) busy) (fun t => t.keeper.fstop && t.keeper.cause == 3) = true := by decide

/-- At its tick the launch runs: its cores are ACTIVE with s1 their index and s2 their number (R76, R385). -/
theorem test_tick_starts :
    nextIs (exec (.tick 2) (armed .decided id)) (fun t => (t.stream? 5).any (fun x => x.state == .running) &&
      (t.core 1).pstate == .active && (t.core 1).sregs.getD 1 0 == 1 && (t.core 1).sregs.getD 2 0 == 2) = true := by decide

set_option maxRecDepth 100000 in
/-- A chunk end counts SEQ and frees the cores (R338). -/
theorem test_chunk_end :
    nextIs (exec (.chunkEnd 2 ⟨2500000000, 1000, [], [], ⟨[]⟩, noUpset⟩) busy)
      (fun t => (t.stream? 5).any (fun x => x.seq == 1) && (t.core 0).job == none && t.work.jobs == []) = true := by decide

set_option maxRecDepth 100000 in
/-- WOPEN opens a window of one row (R282). -/
theorem test_wopen :
    nextIs (exec (.wopen 0 0x44 Upset.clean) (withRow 0 [0, 0x40, 0, 0])) (fun t => ((t.core 0).windows.getD 0 ⟨0, 0, 0, false⟩).isOpen) =
      true := by decide

set_option maxRecDepth 100000 in
/-- A forward scan opens its context. -/
theorem test_scan_opens : nextIs (exec (.lscanForward 0 0x28 Upset.clean) busy) (fun t => ((t.core 0).lu.getD 0 none).isSome) = true := by
  decide

/-- RNL_TAKEOVER outside ISOLATED is ignored and counted (Table 15-5). -/
theorem test_takeover_ignored : nextIs (exec (.rnlTakeover 0 1) shop) (fun t => t.pair.state == .off && t.reg 0x7004C == 0) = true := by
  decide

/-- An empty queue is one clock: 1 ns (R60). -/
theorem test_idle : nextIs (step live) (fun t => t.tb.now == 1000000001) = true := by decide

/-- The front of the queue runs; the rest waits. -/
theorem test_queue :
    nextIs (step { withCmd (desc 3 0x1F []) shop with pending := [.cmdNop 0 3, .fence] })
      (fun t => t.pending == [.fence] && (t.rg 0).cmds == []) = true := by decide

end Sys2Proof.Tests
end

section
/-! SUPPORT. The two-word write of a 64-bit register (R11). `State.updFunc` reaches the copy of one function only, so the access
of the high word passes the tests that the low word passed, and it finds the held word. -/

namespace Sys2Proof.Machine

open Sys2Proof

variable {s : State} {f : Nat} {g : FuncCopy → FuncCopy}

/-! ### Lookup in a list of copies -/

theorem find?_updWhere {α : Type} {p : α → Bool} {u : α → α} (hu : ∀ x, p (u x) = p x) (xs : List α) :
    (updWhere p u xs).find? p = (xs.find? p).map u := by
  induction xs with
  | nil => rfl
  | cons x xs ih =>
    cases hx : p x
    · simpa [updWhere, hx] using ih
    · simp [updWhere, hx, hu]

theorem find?_insertBy {α : Type} {p : α → Bool} (key : α → Nat) {x : α} {ys : List α} (hx : p x = true)
    (hys : ys.any p = false) : (insertBy key x ys).find? p = some x := by
  induction ys with
  | nil => simp [insertBy, hx]
  | cons y ys ih =>
    obtain ⟨hy, hrest⟩ : p y = false ∧ ys.any p = false := by simpa using hys
    simp only [insertBy]
    split
    · simp [hx]
    · simpa [hy] using ih hrest

/-! ### The copies of a function (R532) -/

theorem updFunc_of_listed (h : s.hif.funcs.any (fun c => c.f == f) = true) :
    s.updFunc f g = s.updHif fun i => { i with funcs := updWhere (fun c => c.f == f) g i.funcs } := by
  simp only [State.updFunc, State.updHif, h, if_true]

theorem updFunc_of_unlisted (h : s.hif.funcs.any (fun c => c.f == f) = false) :
    s.updFunc f g = s.updHif fun i => { i with funcs := insertBy (·.f) (g (FuncCopy.init f)) i.funcs } := by
  simp only [State.updFunc, State.updHif, h, Bool.false_eq_true, if_false]

theorem func_updFunc (hg : ∀ c, (g c).f = c.f) : (s.updFunc f g).func f = g (s.func f) := by
  cases hany : s.hif.funcs.any fun c => c.f == f with
  | true =>
    obtain ⟨c, hfind⟩ := Option.isSome_iff_exists.mp (List.find?_isSome.trans List.any_eq_true.symm |>.mpr hany)
    have hfound : (updWhere (fun c => c.f == f) g s.hif.funcs).find? (fun c => c.f == f) = some (g c) := by
      rw [find?_updWhere fun c => by rw [hg], hfind, Option.map_some]
    simp [updFunc_of_listed hany, State.func, hfind, hfound]
  | false =>
    have hnone : s.hif.funcs.find? (fun c => c.f == f) = none := by simpa using hany
    have hfound : (insertBy (·.f) (g (FuncCopy.init f)) s.hif.funcs).find? (fun c => c.f == f) = some (g (FuncCopy.init f)) :=
      find?_insertBy _ (by simp [hg, FuncCopy.init]) hany
    simp [updFunc_of_unlisted hany, State.func, hnone, hfound]

/-- A change of a function's copy leaves every group of the state but the host interface. -/
theorem updFunc_eq : s.updFunc f g = { s with hif := (s.updFunc f g).hif } := rfl

theorem updFunc_keeper : (s.updFunc f g).keeper = s.keeper := rfl

theorem updFunc_rgs : (s.updFunc f g).hif.rgs = s.hif.rgs := by
  simp only [State.updFunc, updHif_hif]
  split <;> rfl

theorem updFunc_vfs : (s.updFunc f g).hif.vfs = s.hif.vfs := by
  simp only [State.updFunc, updHif_hif]
  split <;> rfl

/-! ### Which accesses are served and admitted after a change of a function's copy -/

theorem busUp_updFunc (n : Nat) : (s.updFunc f g).busUp n = s.busUp n := by
  unfold State.busUp
  rw [updFunc_vfs]
  rfl

theorem serves_updFunc (b : Block) : (s.updFunc f g).serves b = s.serves b := rfl

theorem countBlock_updFunc (off : Nat) : (s.updFunc f g).countBlock off = s.countBlock off := rfl

theorem regAt_updFunc (off : Nat) : (s.updFunc f g).regAt off = s.regAt off := rfl

/-- The ring group that a function sees rests on its selector and on the groups alone (R396). -/
theorem rgOf_updFunc (hg : ∀ c, (g c).f = c.f) (hsel : ∀ c, (g c).rgSel = c.rgSel) :
    (s.updFunc f g).rgOf f = s.rgOf f := by
  unfold State.rgOf State.rg
  rw [func_updFunc hg, hsel, updFunc_rgs]
  rfl

theorem mayPoke_updFunc (hg : ∀ c, (g c).f = c.f) (hsel : ∀ c, (g c).rgSel = c.rgSel) (b : Block) (a : RegAt) (v : Nat) :
    (s.updFunc f g).mayPoke f b a v = s.mayPoke f b a v := by
  unfold State.mayPoke State.maySee
  rw [rgOf_updFunc hg hsel]
  rfl

/-! ### 4-byte writes of a 64-bit register -/

/-- A REGISTER_WRITE of four bytes that is served, outside fault stop, is a word write of any function. -/
theorem exec_registerWrite_word {off : Nat} {v : Word} (hup : s.busUp f = true)
    (hserves : s.serves (s.countBlock off) = true) (hstop : s.keeper.fstop = false) (ho : off % 4 = 0) :
    exec (.registerWrite f off 4 (v.setWidth 64)) s = .next (s.wordWrite f off v.toNat) := by
  have hv : (v.setWidth 64).toNat = v.toNat := BitVec.toNat_setWidth_of_le (by decide)
  simp [execRegisterWrite, hv, State.busWrite, hup, hserves, hstop, ho]

/-- A low word held for the register at `off` (R11). -/
def FuncCopy.hold (off : Nat) (w : Word) (c : FuncCopy) : FuncCopy := { c with held := putKey off w c.held }

theorem FuncCopy.hold_f (off : Nat) (w : Word) (c : FuncCopy) : (c.hold off w).f = c.f := rfl

theorem FuncCopy.hold_rgSel (off : Nat) (w : Word) (c : FuncCopy) : (c.hold off w).rgSel = c.rgSel := rfl

theorem FuncCopy.hold_held (off : Nat) (w : Word) (c : FuncCopy) : (c.hold off w).held = putKey off w c.held := rfl

/-- The low word is held and does nothing else (R11). -/
theorem wordWrite_low {lo : Word} {b : Block} {a : RegAt} (hat : s.regAt a.base = some (b, a))
    (hp : s.mayPoke f b a lo.toNat = true) (hw : a.row.width = 8) (hrw : ¬ (a.row.rw = 0 ∧ a.row.rws = 0)) :
    s.wordWrite f a.base lo.toNat = s.updFunc f (FuncCopy.hold a.base lo) := by
  have hv : BitVec.ofNat 32 lo.toNat = lo := by simp
  simp only [State.wordWrite, hat, hp, hw, hrw, hv]
  rfl

/-- The high word takes the held low word along and lets it go (R11). -/
theorem wordWrite_high {off : Nat} {b : Block} {a : RegAt} {lo hi : Word} (hat : s.regAt off = some (b, a))
    (hne : off ≠ a.base) (hp : s.mayPoke f b a hi.toNat = true) (hw : a.row.width = 8)
    (hrw : ¬ (a.row.rw = 0 ∧ a.row.rws = 0)) (hheld : getKey a.base (s.func f).held = some lo) :
    s.wordWrite f off hi.toNat =
      (s.updFunc f fun c => { c with held := c.held.filter fun x => x.1 != a.base }).regWrite f b a
        (lo.toNat + hi.toNat * 2 ^ 32) := by
  simp [State.wordWrite, hat, hne, hp, hw, hrw, hheld, Nat.mod_eq_of_lt hi.isLt]

/-- Settles O14: the low word changes the function's copy alone, so the high word's write passes the same tests and finds it. -/
theorem highWordWriteAppliesBoth : Obligations.HighWordWriteAppliesBoth := by
  unfold Obligations.HighWordWriteAppliesBoth
  rintro s f _ b a lo hi hup hserves hservesHi hstop hat hatHi rfl ho hw hrw hp hpHi
  let t := s.updFunc f (FuncCopy.hold a.base lo)
  have hheld : (t.func f).held = putKey a.base lo (s.func f).held := by
    rw [func_updFunc (FuncCopy.hold_f a.base lo), FuncCopy.hold_held]
  have hfound : getKey a.base (t.func f).held = some lo := by rw [hheld, getKey_putKey]
  have hup' : t.busUp f = true := by rw [busUp_updFunc, hup]
  have hserves' : t.serves (t.countBlock (a.base + 4)) = true := by rw [serves_updFunc, countBlock_updFunc, hservesHi]
  have hstop' : t.keeper.fstop = false := by rw [updFunc_keeper, hstop]
  have hat' : t.regAt (a.base + 4) = some (b, a) := by rw [regAt_updFunc, hatHi]
  have hp' : t.mayPoke f b a hi.toNat = true := by
    rw [mayPoke_updFunc (FuncCopy.hold_f a.base lo) (FuncCopy.hold_rgSel a.base lo), hpHi]
  refine ⟨t, ?_, updFunc_eq, hheld, ?_⟩
  · rw [exec_registerWrite_word hup hserves hstop (by omega), wordWrite_low hat hp hw hrw]
  · rw [exec_registerWrite_word hup' hserves' hstop' (by omega),
      wordWrite_high hat' (by omega) hp' hw hrw hfound]

end Sys2Proof.Machine
end

section
/-! SUPPORT. The timebase as host software sets it (R62, R63): signed fields, what `State.elapse` is while the PLL drives the
counter, and what an accepted edge does to a load that waits. -/

namespace Sys2Proof.Machine

open Sys2Proof Safety

variable {s : State}

/-! ### Signed fields and limits -/

theorem signed_toNat (v : Word) : signed 32 (v.toNat % 2 ^ 32) = v.toInt := by
  have hv := v.isLt
  simp only [signed, BitVec.toInt_eq_toNat_cond]
  split <;> split <;> omega

theorem unsigned_lt (x : Int) : unsigned 32 x < 2 ^ 32 := by
  unfold unsigned
  omega

/-- A value that fits a signed 32-bit field is read back from its pattern. -/
theorem signed_unsigned {x : Int} (hlow : -2 ^ 31 ≤ x) (hhigh : x < 2 ^ 31) : signed 32 (unsigned 32 x) = x := by
  unfold signed unsigned
  split_ifs <;> omega

theorem neg_le_clampInt (b x : Int) : -b ≤ clampInt b x := le_max_left _ _

theorem clampInt_le {b : Int} (hb : 0 ≤ b) (x : Int) : clampInt b x ≤ b :=
  max_le (by omega) (min_le_left b x)

theorem clampInt_zero {b : Int} (hb : 0 ≤ b) : clampInt b 0 = 0 := by
  unfold clampInt
  omega

/-! ### The counter while the PLL drives it (R60, R64) -/

/-- The counter and its accumulator together move by the units added. -/
theorem addUnits_total {u : Int} {b : Timebase} (h : 0 ≤ (b.now : Int) * nsUnit + b.frac + u) :
    ((b.addUnits u).now : Int) * nsUnit + (b.addUnits u).frac = b.now * nsUnit + b.frac + u := by
  simp only [Timebase.addUnits, nsUnit] at h ⊢
  omega

/-- Whole ns go to the counter. -/
theorem addUnits_whole_now {b : Timebase} (n : Nat) (h : b.frac = 0) : (b.addUnits (n * nsUnit)).now = b.now + n := by
  simp only [Timebase.addUnits, nsUnit, h]
  omega

/-- The timebase after the tack oscillator alone has seen n ns pass (R501). -/
def State.tackTb (n : Nat) (s : State) : Timebase := if s.power.oscStable then (s.tb.tackPass n).1 else s.tb

@[simp] theorem tackTb_now (n : Nat) : (s.tackTb n).now = s.tb.now := by
  unfold State.tackTb
  cases s.power.oscStable <;> simp [Timebase.tackPass]

@[simp] theorem tackTb_frac (n : Nat) : (s.tackTb n).frac = s.tb.frac := by
  unfold State.tackTb
  cases s.power.oscStable <;> simp [Timebase.tackPass]

/-- With the PLL locked to its reference, n clocks move the counter at its adjusted rate and by the slew of n clocks. -/
theorem elapse_pll (n : Nat) (hv : s.power.vtack = true) (ht : s.tb.tackHold = false) (hh : s.tb.holdover = false) :
    s.elapse n = { s with
      tb := ({ s.tackTb n with slew := s.tb.slew - slewPart s.tb.slew s.slewStep n }).addUnits
        (n * (nsUnit + s.rateAdj) + slewPart s.tb.slew s.slewStep n) } := by
  simp only [State.elapse, State.tackTb, hv, ht, hh]
  cases s.power.oscStable <;> rfl

theorem slewStep_nonneg : 0 ≤ s.slewStep := Int.natCast_nonneg _

theorem slewPart_zero (n : Nat) : slewPart 0 s.slewStep n = 0 :=
  clampInt_zero (mul_nonneg slewStep_nonneg (Int.natCast_nonneg n))

/-- With no slew pending, n clocks at the nominal rate are n ns. -/
theorem elapse_now_nominal (n : Nat) (hv : s.power.vtack = true) (ht : s.tb.tackHold = false) (hh : s.tb.holdover = false)
    (hslew : s.tb.slew = 0) (hrate : s.rateAdj = 0) (hfrac : s.tb.frac = 0) : (s.elapse n).tb.now = s.tb.now + n := by
  rw [elapse_pll n hv ht hh, hslew, slewPart_zero, hrate, add_zero, add_zero, addUnits_whole_now n (by simp [hfrac])]
  simp

/-- With no slew pending, one clock moves the counter by 1 ns and the rate adjustment (R63). -/
theorem elapse_one_total (hv : s.power.vtack = true) (ht : s.tb.tackHold = false) (hh : s.tb.holdover = false)
    (hslew : s.tb.slew = 0) (hrate : 0 ≤ nsUnit + s.rateAdj) :
    ((s.elapse 1).tb.now : Int) * nsUnit + (s.elapse 1).tb.frac = s.tb.now * nsUnit + s.tb.frac + nsUnit + s.rateAdj := by
  have hnow : (0 : Int) ≤ s.tb.now * nsUnit := mul_nonneg (Int.natCast_nonneg _) (by decide)
  rw [elapse_pll 1 hv ht hh, hslew, slewPart_zero, add_zero, Nat.cast_one, one_mul, addUnits_total] <;>
    simp only [tackTb_now, tackTb_frac] <;> omega

/-! ### Writes of CIN_SET and CIN_RATE_ADJ (R62, R63) -/

/-- A device that answers on the bus runs (R397). -/
theorem dev_run_of_busUp {f : Nat} (h : s.busUp f = true) : s.power.dev = .run := by
  cases hdev : s.power.dev <;> simp [State.busUp, hdev] at h ⊢

theorem setReg_eq (off v : Nat) : s.setReg off v = { s with regs := putKey off (BitVec.ofNat 64 v) s.regs } := rfl

theorem cinSet_now (v : Nat) (hp : s.tb.pairFollow = false) (hat : nbits (s.reg 0x20000) 3 1 = 0) :
    s.cinSet v = (s.setReg 0x20010 v).updTb (Timebase.loadTo v) := by
  simp [State.cinSet, hp, hat]

theorem cinSet_atPps (v : Nat) (hp : s.tb.pairFollow = false) (hat : nbits (s.reg 0x20000) 3 1 = 1) :
    s.cinSet v = (s.setReg 0x20010 v).updTb fun b => { b with load := some v } := by
  simp [State.cinSet, hp, hat]

/-- A write of the rate that is not ignored puts the clamped value into the register. -/
theorem cinRate_steered (v : Word) (hp : s.tb.pairFollow = false) (hm : s.ppsMode = false) :
    s.cinRate v.toNat = s.setReg 0x20018 (unsigned 32 (clampInt 2147484 v.toInt)) := by
  simp only [State.cinRate, hp, hm, signed_toNat]
  rfl

/-- The rate in force is the signed value that the register took. -/
theorem rateAdj_setReg {x : Int} (hlow : -2 ^ 31 ≤ x) (hhigh : x < 2 ^ 31) :
    (s.setReg 0x20018 (unsigned 32 x)).rateAdj = x := by
  have hlt := unsigned_lt x
  rw [State.rateAdj, reg_setReg, Nat.mod_eq_of_lt (hlt.trans (by decide)), Nat.mod_eq_of_lt hlt, signed_unsigned hlow hhigh]

/-! ### An accepted edge with a load that waits (R62) -/

theorem advanceTo_now : s.advanceTo s.tb.now = s := by simp [State.advanceTo]

/-- An edge of the right polarity that the device accepts, stamped with the counter as it stands. -/
theorem exec_syncPpsEdge_accepted (hdev : s.power.dev = .run) (ht : s.tb.tackHold = false)
    (ha : s.ppsAccepts s.tb.now = true) :
    exec (.syncPpsEdge (decide (nbits (s.reg 0x20000) 2 1 = 1)) s.tb.now) s = .next (s.ppsAccept s.tb.now) := by
  simp [execSyncPpsEdge, hdev, ht, advanceTo_now, ha]

/-- The record of the edge and the run of good edges keep the load, which then takes place. -/
theorem ppsAccept_tb_of_load {v : Nat} (stamp : Nat) (h : s.tb.load = some v) :
    ∃ b : Timebase, (s.ppsAccept stamp).tb = b.loadTo v := by
  let recorded := s.updTb fun t =>
    { t with ppsStamp := stamp, ppsErr := phaseError stamp s.ppsOffset, ppsSeen := true, edgeRef := stamp, ppsLost := false }
  let counted := recorded.when recorded.ppsSteers fun u => u.updTb (Timebase.ppsRun (phaseError stamp s.ppsOffset))
  have hload : counted.tb.load = some v :=
    (when_proj (·.tb.load) _ (State.updTb (Timebase.ppsRun _)) recorded fun _ => rfl).trans h
  refine ⟨counted.tb, ?_⟩
  calc (s.ppsAccept stamp).tb
      = (counted.updTb (Timebase.loadTo v)).tb := by
        unfold State.ppsAccept
        rw [when_tb _ _ _ fun _ => by simp, hload]
    _ = counted.tb.loadTo v := rfl

/-! ### The obligations -/

/-- Settles O6: a write reaches the counter or the waiting load unless the lock of a started device drops it; an accepted edge
loads what waits; at the nominal rate each clock adds 1 ns. -/
theorem cinSetLoads : Obligations.CinSetLoads := by
  unfold Obligations.CinSetLoads
  intro s v hserved hpair
  have hv : BitVec.ofNat 64 v.toNat = v := by simp
  refine ⟨fun hstart hat => ?_, fun hstart hat => ?_, fun hstart => ?_, fun hload htack haccept => ?_,
    fun n hvtack htack hhold hslew hrate hnow hfrac => ?_⟩
  · rw [exec_cinSet, execCinSet, write_cinSet hserved v hstart, cinSet_now _ hpair hat, setReg_eq, hv]
    rfl
  · rw [exec_cinSet, execCinSet, write_cinSet hserved v hstart, cinSet_atPps _ hpair hat, setReg_eq, hv]
    rfl
  · rw [exec_cinSet, execCinSet, write_cinSet_locked hserved v hstart]
  · obtain ⟨b, hb⟩ := ppsAccept_tb_of_load s.tb.now hload
    refine ⟨_, exec_syncPpsEdge_accepted (dev_run_of_busUp hserved.1) htack haccept, ?_⟩
    rw [hb]
    exact ⟨rfl, rfl, rfl⟩
  · rw [elapse_now_nominal n hvtack htack hhold hslew hrate hfrac, hnow]

/-- Settles O7: the clamped value fits the signed field, so it is the rate in force, and the next clock adds it. -/
theorem cinRateClamped : Obligations.CinRateClamped := by
  unfold Obligations.CinRateClamped
  intro s v hserved hpair hmode
  have hlow : -2147484 ≤ clampInt 2147484 v.toInt := neg_le_clampInt _ _
  have hhigh : clampInt 2147484 v.toInt ≤ 2147484 := clampInt_le (by decide) _
  let t := s.setReg 0x20018 (unsigned 32 (clampInt 2147484 v.toInt))
  have hrate : t.rateAdj = clampInt 2147484 v.toInt := rateAdj_setReg (by omega) (by omega)
  refine ⟨t, ?_, rfl, hrate, fun hpending hvtack htack hhold hslew => ⟨t.elapse 1, ?_, ?_⟩⟩
  · rw [exec_cinRateAdj, execCinRateAdj, write_cinRate hserved v, cinRate_steered v hpair hmode]
  · have hidle : t.pending = [] := hpending
    simp only [step, hidle]
  · have hclock := elapse_one_total (s := t) hvtack htack hhold hslew (by rw [hrate, nsUnit]; omega)
    rw [hrate] at hclock
    exact hclock

end Sys2Proof.Machine
end

section
/-! SUPPORT. START and RESET of a partition by the PF (R361, R516): the conditions of R361 as facts about cores and sums, and what
a write of PRT_CTRL does in each of its cases. -/

namespace Sys2Proof.Machine

open Sys2Proof Safety

variable {s : State} {p : Nat}

/-! ### Core sets and sums -/

@[simp] theorem mem_coreList {cs : CoreSet} {c : Nat} : c ∈ coreList cs ↔ cs.getLsbD c = true := by
  simp only [coreList, List.mem_filter, List.mem_range, and_iff_right_iff_imp]
  exact BitVec.lt_of_getLsbD

theorem and_eq_zero_iff_disjoint {w : Nat} {x y : BitVec w} :
    x &&& y = 0 ↔ ∀ i, ¬ (y.getLsbD i = true ∧ x.getLsbD i = true) := by
  constructor
  · intro h i hi
    have hbit : (x &&& y).getLsbD i = false := by simp [h]
    simp [hi] at hbit
  · intro h
    refine BitVec.eq_of_getLsbD_eq fun i _ => ?_
    simpa [and_comm] using h i

theorem sumBy_append_singleton {α : Type} (f : α → Nat) (xs : List α) (x : α) :
    sumBy f (xs ++ [x]) = sumBy f xs + f x := by
  simp [sumBy, List.foldl_append]

/-! ### The conditions of R361 -/

/-- The test of the model says of cores and pools what R361 says. -/
theorem canStart_iff :
    s.canStart p = true ↔ s.work.started = true ∧ s.partCores p ≠ 0 ∧
      (∀ c, (s.partCores p).getLsbD c = true → s.coreOn c = true) ∧
      (∀ q ∈ s.work.partStarted, ∀ c, ¬ ((s.partCores p).getLsbD c = true ∧ (s.partCores q).getLsbD c = true)) ∧
      (∀ d < 10, sumBy (fun q => s.dieNeed q d) (s.work.partStarted ++ [p]) ≤ poolMib) ∧
      sumBy s.partCxlGib (s.work.partStarted ++ [p]) * 2 ^ 30 ≤ s.cxlCapacity := by
  simp only [State.canStart, Bool.and_eq_true, bne_iff_ne, List.all_eq_true, mem_coreList, beq_iff_eq,
    and_eq_zero_iff_disjoint, List.mem_range, decide_eq_true_eq, and_assoc]

/-! ### A write of PRT_CTRL (R361, R516) -/

/-- START alone: a reset in progress and STARTED come before the conditions. -/
theorem prtCtrl_start :
    s.prtCtrl p 1 =
      if s.work.partReset.contains p then s.ignore .prt
      else if s.partStarted p then s
      else if s.canStart p then
        s.updWork fun w => { w with partStarted := w.partStarted ++ [p], partErr := w.partErr.filter (· != p) }
      else s.updWork fun w => { w with partErr := if w.partErr.contains p then w.partErr else w.partErr ++ [p] } := rfl

/-- RESET, alone or with START, which then counts once as ignored. -/
theorem prtCtrl_of_reset {v : Nat} (hv : nbits v 1 1 = 1) :
    s.prtCtrl p v =
      (((s.when (nbits v 0 1 == 1) (State.ignore .prt)).updPower fun w =>
        { w with lastReset := ResetKind.part.code }).resetRecord .part p).partResetBegin p := by
  simp only [State.prtCtrl, hv, if_true]

theorem prtCtrl_start_and_reset : s.prtCtrl p 3 = (s.ignore .prt).prtCtrl p 2 := by
  have hstart : (nbits 3 0 1 == 1) = true := rfl
  have hplain : (nbits 2 0 1 == 1) = false := rfl
  rw [prtCtrl_of_reset rfl, prtCtrl_of_reset rfl, hstart, hplain]
  rfl

/-! ### A count leaves the PF served -/

/-- A count reaches its counter and the register of its overflow bit only. -/
theorem reg_count_ne {off o b : Nat} {c : Counter} (n : Nat) (hovf : c.ovf = some (o, b)) (hc : off ≠ c.off) (ho : off ≠ o) :
    (s.count c n).reg off = s.reg off := by
  simp only [State.count, hovf]
  split
  · rw [State.setBit, reg_setReg_ne _ _ ho, reg_setReg_ne _ _ hc]
  · rw [reg_setReg_ne _ _ hc]

/-- The PF's accesses rest on HIF_CTRL alone among the registers, which a count in PRT leaves. -/
theorem pfServed_ignore_prt (h : PfServed s) : PfServed (s.ignore .prt) := by
  have hctrl : (s.ignore .prt).reg 0x10000 = s.reg 0x10000 := reg_count_ne 1 rfl (by decide) (by decide)
  simpa [PfServed, State.busUp, hctrl] using h

/-! ### The commands of the PF -/

theorem exec_partitionStart_pf (h : PfServed s) (hp : p < 16) :
    exec (.partitionStart 0 p) s = .next (s.prtCtrl p 1) := by
  rw [exec_partitionStart, execPartitionStart, Nat.mod_eq_of_lt hp, write_prtCtrl h hp (by decide)]

theorem exec_partitionReset_pf (h : PfServed s) (hp : p < 16) :
    exec (.partitionReset 0 p) s = .next (s.prtCtrl p 2) := by
  rw [exec_partitionReset, execPartitionReset, Nat.mod_eq_of_lt hp, write_prtCtrl h hp (by decide)]

theorem exec_registerWrite_prtCtrl (h : PfServed s) (hp : p < 16) :
    exec (.registerWrite 0 (prtBase p) 4 3) s = .next (s.prtCtrl p 3) := by
  rw [exec_registerWrite, execRegisterWrite, show (3 : DWord).toNat = 3 from rfl, write_prtCtrl h hp (by decide)]

theorem exec_partitionResetDone_in_reset (hr : s.work.partReset.contains p = true) :
    exec (.partitionResetDone p) s = .next (s.partResetEnd p) := by
  simp only [exec_partitionResetDone, execPartitionResetDone, hr, if_true]

theorem partResetEnd_kvTotal : (s.partResetEnd p).kvTotal = sumBy s.partKvPages (s.work.partStarted.filter (· != p)) := rfl

/-- Settles O16: `canStart` is the five conditions, and each clause is one case of a write of PRT_CTRL or the end of the reset. -/
theorem partitionStarts : Obligations.PartitionStarts := by
  unfold Obligations.PartitionStarts
  intro s p hserved hp
  refine ⟨fun hnew hidle hfits => ⟨?_, sumBy_append_singleton _ _ _⟩, fun hnew hidle hmisfits => ?_, fun hreset => ?_,
    ⟨s.prtCtrl p 3, exec_registerWrite_prtCtrl hserved hp, ?_⟩,
    fun hreset => ⟨_, exec_partitionResetDone_in_reset hreset, partResetEnd_kvTotal⟩⟩
  · rw [exec_partitionStart_pf hserved hp, prtCtrl_start, hidle, hnew, canStart_iff.mpr hfits]
    rfl
  · have hcannot : s.canStart p = false := Bool.eq_false_iff.mpr fun hcan => hmisfits (canStart_iff.mp hcan)
    rw [exec_partitionStart_pf hserved hp, prtCtrl_start, hidle, hnew, hcannot]
    rfl
  · rw [exec_partitionStart_pf hserved hp, prtCtrl_start, if_pos hreset]
  · rw [exec_partitionReset_pf (pfServed_ignore_prt hserved) hp, prtCtrl_start_and_reset]

end Sys2Proof.Machine
end
